-- ==== Sys2Proof/Word.lean ====
section
/-! DEFINITION. The word types of HIMG-CORE (00_scope.md R12). -/

namespace Sys2Proof

/-- A 32-bit register or command word (10_state.md R31, 30_encoding.md R100). -/
abbrev Word := BitVec 32

/-- A 16-bit sample, table entry or step (20_memory.md R77). -/
abbrev Half := BitVec 16

/-- One byte of local memory (20_memory.md R70). -/
abbrev Byte := BitVec 8

/-- A 9-bit symbol 0..511 of the Huffman alphabet (00_scope.md R7). -/
abbrev Sym := BitVec 9

/-- A bit string in stream order, the first bit read or written first (00_scope.md R16). -/
abbrev Bits := List Bool

/-- The index of an argument register R0 to R7 (10_state.md R31). -/
abbrev RegIx := Fin 8

/-- The index of a mapping table MT[0], MT[1] (00_scope.md R10). -/
abbrev TableIx := Fin 2

/-- The index of a quantization step QSTEP[0..3] (10_state.md R45). -/
abbrev StepIx := Fin 4

/-- The index of a node of the decoder tree arena, 0..520 (00_scope.md R8, 10_state.md R46). -/
abbrev NodeIx := Fin 521

end Sys2Proof
end

