-- ==== Sys2Proof/Syntax.lean ====
section
/-! DEFINITION. The commands of HIMG-CORE, one constructor per row of spec/opcode_table.json, operands in the order of
the assembler syntax (30_encoding.md R105, R107). -/

namespace Sys2Proof

/-- A command (30_encoding.md R105). The bit count `n` of BRBITS and BWBITS is the source's own, 1 to 32, which the
encoding carries as n − 1 (R104); `walk` is the walk flag w. -/
inductive Instr where
  | halt
  | nop
  | li (rd : RegIx) (imm16 : BitVec 16)
  | lih (rd : RegIx) (imm16 : BitVec 16)
  | add (rd ra rb : RegIx)
  | addi (rd ra : RegIx) (imm14 : BitVec 14)
  | brinit (ra rb : RegIx)
  | brbit (rd : RegIx)
  | brbits (rd : RegIx) (n : Nat)
  | brpeek (rd : RegIx)
  | bradv (ra : RegIx)
  | brend (rd : RegIx)
  | brpos (rd : RegIx)
  | bwinit (ra rb : RegIx)
  | bwbits (ra : RegIx) (n : Nat)
  | bwsize (rd : RegIx)
  | henc (ra rb : RegIx)
  | hdec (ra rb : RegIx) (walk : Bool)
  | htree
  | hsym (rd : RegIx) (walk : Bool)
  | hlutrd (rd ra : RegIx)
  | mload (t : TableIx) (ra : RegIx)
  | mstore (t : TableIx) (ra : RegIx)
  | msize (rd : RegIx)
  | mqinit (t : TableIx) (ra : RegIx)
  | mmap (rd ra : RegIx) (t : TableIx)
  | munmap (rd ra : RegIx) (t : TableIx)
  | mmapv (t : TableIx) (ra rb rc : RegIx)
  | munmapv (t : TableIx) (ra rb rc : RegIx)
  | setq (q : StepIx) (ra : RegIx)
  | quant (rd ra : RegIx) (q : StepIx)
  | dequant (rd ra : RegIx) (q : StepIx)
  | quantv (q : StepIx) (ra rb rc : RegIx)
  | dequantv (q : StepIx) (ra rb rc : RegIx)
  | setdim (ra rb : RegIx)
  | dsamp (ra rb : RegIx)
  | usamp (ra rb : RegIx)
  | resid (ra rb rc : RegIx)
  | recon (ra rb rc : RegIx)
deriving DecidableEq, Repr

/-- The mnemonic of a command (30_encoding.md R105). -/
def Instr.mnemonic : Instr → String
  | .halt => "HALT"
  | .nop => "NOP"
  | .li _ _ => "LI"
  | .lih _ _ => "LIH"
  | .add _ _ _ => "ADD"
  | .addi _ _ _ => "ADDI"
  | .brinit _ _ => "BRINIT"
  | .brbit _ => "BRBIT"
  | .brbits _ _ => "BRBITS"
  | .brpeek _ => "BRPEEK"
  | .bradv _ => "BRADV"
  | .brend _ => "BREND"
  | .brpos _ => "BRPOS"
  | .bwinit _ _ => "BWINIT"
  | .bwbits _ _ => "BWBITS"
  | .bwsize _ => "BWSIZE"
  | .henc _ _ => "HENC"
  | .hdec _ _ _ => "HDEC"
  | .htree => "HTREE"
  | .hsym _ _ => "HSYM"
  | .hlutrd _ _ => "HLUTRD"
  | .mload _ _ => "MLOAD"
  | .mstore _ _ => "MSTORE"
  | .msize _ => "MSIZE"
  | .mqinit _ _ => "MQINIT"
  | .mmap _ _ _ => "MMAP"
  | .munmap _ _ _ => "MUNMAP"
  | .mmapv _ _ _ _ => "MMAPV"
  | .munmapv _ _ _ _ => "MUNMAPV"
  | .setq _ _ => "SETQ"
  | .quant _ _ _ => "QUANT"
  | .dequant _ _ _ => "DEQUANT"
  | .quantv _ _ _ _ => "QUANTV"
  | .dequantv _ _ _ _ => "DEQUANTV"
  | .setdim _ _ => "SETDIM"
  | .dsamp _ _ => "DSAMP"
  | .usamp _ _ => "USAMP"
  | .resid _ _ _ => "RESID"
  | .recon _ _ _ => "RECON"

end Sys2Proof
end

