-- ==== Sys2Proof/WellFormed.lean ====
section
/-! DEFINITION. Which commands an encoding can carry: the types hold every operand in its range but the bit count of
BRBITS and BWBITS, which is 1 to 32 (30_encoding.md R104). -/

namespace Sys2Proof

/-- The bit count of `read_bits` and `write_bits`: n in 1..32 (30_encoding.md R104). -/
def bitCountOk (n : Nat) : Bool := decide (1 ≤ n) && decide (n ≤ 32)

/-- A command that some word encodes. -/
def Instr.wellFormed : Instr → Bool
  | .brbits _ n => bitCountOk n
  | .bwbits _ n => bitCountOk n
  | .halt | .nop | .li _ _ | .lih _ _ | .add _ _ _ | .addi _ _ _ | .brinit _ _ | .brbit _ | .brpeek _ | .bradv _
  | .brend _ | .brpos _ | .bwinit _ _ | .bwsize _ | .henc _ _ | .hdec _ _ _ | .htree | .hsym _ _ | .hlutrd _ _
  | .mload _ _ | .mstore _ _ | .msize _ | .mqinit _ _ | .mmap _ _ _ | .munmap _ _ _ | .mmapv _ _ _ _
  | .munmapv _ _ _ _ | .setq _ _ | .quant _ _ _ | .dequant _ _ _ | .quantv _ _ _ _ | .dequantv _ _ _ _
  | .setdim _ _ | .dsamp _ _ | .usamp _ _ | .resid _ _ _ | .recon _ _ _ => true

end Sys2Proof
end

