-- ==== Sys2Proof/Decode.lean ====
section
/-! DEFINITION. The command encoding (30_encoding.md): the fields of a word, the decoder, the opcode map as mask and
match, and the encoder. -/

namespace Sys2Proof

/-- Why bits are no command. -/
inductive DecodeError where
  /-- The opcode is not in the opcode map (30_encoding.md R103). -/
  | reservedOpcode
  /-- A bit the command does not use is not 0 (30_encoding.md R102, R103). -/
  | mustBeZero
  /-- Fewer than the four bytes of a command word (30_encoding.md R100). -/
  | shortWord
deriving DecidableEq, Repr

/-! ## Fields (30_encoding.md R101) -/

def opField (w : Word) : BitVec 6 := w.extractLsb' 26 6
def rdField (w : Word) : BitVec 3 := w.extractLsb' 23 3
def raField (w : Word) : BitVec 3 := w.extractLsb' 20 3
def rbField (w : Word) : BitVec 3 := w.extractLsb' 17 3
def rcField (w : Word) : BitVec 3 := w.extractLsb' 14 3
def imm14Field (w : Word) : BitVec 14 := w.extractLsb' 0 14
def imm16Field (w : Word) : BitVec 16 := w.extractLsb' 0 16
/-- Bits 25:0, which format N needs to be 0 (30_encoding.md R102). -/
def bodyField (w : Word) : BitVec 26 := w.extractLsb' 0 26
/-- Bits 22:16, which format I16 needs to be 0 (30_encoding.md R102). -/
def gapField (w : Word) : BitVec 7 := w.extractLsb' 16 7

/-- A 3-bit register field selects R0 to R7 directly (30_encoding.md R104). -/
def regOf (f : BitVec 3) : RegIx := ⟨f.toNat, f.isLt⟩
/-- t = imm14[0] (30_encoding.md R104). -/
def tableOf (imm : BitVec 14) : TableIx := if imm.getLsbD 0 then 1 else 0
/-- q = imm14[1:0] (30_encoding.md R104). -/
def stepOf (imm : BitVec 14) : StepIx := ⟨(imm.extractLsb' 0 2).toNat, (imm.extractLsb' 0 2).isLt⟩
/-- w = imm14[0], the walk flag (30_encoding.md R104). -/
def walkOf (imm : BitVec 14) : Bool := imm.getLsbD 0
/-- n = imm14[4:0] + 1 (30_encoding.md R104). -/
def countOf (imm : BitVec 14) : Nat := (imm.extractLsb' 0 5).toNat + 1

/-- imm14[13:1] = 0 (30_encoding.md R104). -/
def above0 (imm : BitVec 14) : Bool := imm.extractLsb' 1 13 == 0#13
/-- imm14[13:2] = 0 (30_encoding.md R104). -/
def above1 (imm : BitVec 14) : Bool := imm.extractLsb' 2 12 == 0#12
/-- imm14[13:5] = 0 (30_encoding.md R104). -/
def above4 (imm : BitVec 14) : Bool := imm.extractLsb' 5 9 == 0#9

/-- The command, if every bit it does not use is 0 (30_encoding.md R102, R103). -/
def ifUnusedZero (unusedZero : Bool) (i : Instr) : Except DecodeError Instr :=
  if unusedZero then .ok i else .error .mustBeZero

/-- The command a word stands for (30_encoding.md R102 to R105). -/
def decodeWord (w : Word) : Except DecodeError Instr :=
  let fd := rdField w
  let fa := raField w
  let fb := rbField w
  let fc := rcField w
  let imm := imm14Field w
  let rd := regOf fd
  let ra := regOf fa
  let rb := regOf fb
  let rc := regOf fc
  match (opField w).toNat with
  | 0x00 => ifUnusedZero (bodyField w == 0) .halt
  | 0x01 => ifUnusedZero (bodyField w == 0) .nop
  | 0x02 => ifUnusedZero (gapField w == 0) (.li rd (imm16Field w))
  | 0x03 => ifUnusedZero (gapField w == 0) (.lih rd (imm16Field w))
  | 0x04 => ifUnusedZero (fc == 0 && imm == 0) (.add rd ra rb)
  | 0x05 => ifUnusedZero (fb == 0 && fc == 0) (.addi rd ra imm)
  | 0x08 => ifUnusedZero (fd == 0 && fc == 0 && imm == 0) (.brinit ra rb)
  | 0x09 => ifUnusedZero (fa == 0 && fb == 0 && fc == 0 && imm == 0) (.brbit rd)
  | 0x0A => ifUnusedZero (fa == 0 && fb == 0 && fc == 0 && above4 imm) (.brbits rd (countOf imm))
  | 0x0B => ifUnusedZero (fa == 0 && fb == 0 && fc == 0 && imm == 0) (.brpeek rd)
  | 0x0C => ifUnusedZero (fd == 0 && fb == 0 && fc == 0 && imm == 0) (.bradv ra)
  | 0x0D => ifUnusedZero (fa == 0 && fb == 0 && fc == 0 && imm == 0) (.brend rd)
  | 0x0E => ifUnusedZero (fa == 0 && fb == 0 && fc == 0 && imm == 0) (.brpos rd)
  | 0x10 => ifUnusedZero (fd == 0 && fc == 0 && imm == 0) (.bwinit ra rb)
  | 0x11 => ifUnusedZero (fd == 0 && fb == 0 && fc == 0 && above4 imm) (.bwbits ra (countOf imm))
  | 0x12 => ifUnusedZero (fa == 0 && fb == 0 && fc == 0 && imm == 0) (.bwsize rd)
  | 0x18 => ifUnusedZero (fd == 0 && fc == 0 && imm == 0) (.henc ra rb)
  | 0x19 => ifUnusedZero (fd == 0 && fc == 0 && above0 imm) (.hdec ra rb (walkOf imm))
  | 0x1A => ifUnusedZero (bodyField w == 0) .htree
  | 0x1B => ifUnusedZero (fa == 0 && fb == 0 && fc == 0 && above0 imm) (.hsym rd (walkOf imm))
  | 0x1C => ifUnusedZero (fb == 0 && fc == 0 && imm == 0) (.hlutrd rd ra)
  | 0x20 => ifUnusedZero (fd == 0 && fb == 0 && fc == 0 && above0 imm) (.mload (tableOf imm) ra)
  | 0x21 => ifUnusedZero (fd == 0 && fb == 0 && fc == 0 && above0 imm) (.mstore (tableOf imm) ra)
  | 0x22 => ifUnusedZero (fa == 0 && fb == 0 && fc == 0 && imm == 0) (.msize rd)
  | 0x23 => ifUnusedZero (fd == 0 && fb == 0 && fc == 0 && above0 imm) (.mqinit (tableOf imm) ra)
  | 0x24 => ifUnusedZero (fb == 0 && fc == 0 && above0 imm) (.mmap rd ra (tableOf imm))
  | 0x25 => ifUnusedZero (fb == 0 && fc == 0 && above0 imm) (.munmap rd ra (tableOf imm))
  | 0x26 => ifUnusedZero (fd == 0 && above0 imm) (.mmapv (tableOf imm) ra rb rc)
  | 0x27 => ifUnusedZero (fd == 0 && above0 imm) (.munmapv (tableOf imm) ra rb rc)
  | 0x28 => ifUnusedZero (fd == 0 && fb == 0 && fc == 0 && above1 imm) (.setq (stepOf imm) ra)
  | 0x29 => ifUnusedZero (fb == 0 && fc == 0 && above1 imm) (.quant rd ra (stepOf imm))
  | 0x2A => ifUnusedZero (fb == 0 && fc == 0 && above1 imm) (.dequant rd ra (stepOf imm))
  | 0x2B => ifUnusedZero (fd == 0 && above1 imm) (.quantv (stepOf imm) ra rb rc)
  | 0x2C => ifUnusedZero (fd == 0 && above1 imm) (.dequantv (stepOf imm) ra rb rc)
  | 0x30 => ifUnusedZero (fd == 0 && fc == 0 && imm == 0) (.setdim ra rb)
  | 0x31 => ifUnusedZero (fd == 0 && fc == 0 && imm == 0) (.dsamp ra rb)
  | 0x32 => ifUnusedZero (fd == 0 && fc == 0 && imm == 0) (.usamp ra rb)
  | 0x33 => ifUnusedZero (fd == 0 && imm == 0) (.resid ra rb rc)
  | 0x34 => ifUnusedZero (fd == 0 && imm == 0) (.recon ra rb rc)
  | _ => .error .reservedOpcode

/-- The word at four bytes, the first at the lowest address and the least significant (20_memory.md R72, R74). -/
def wordOfBytes (b0 b1 b2 b3 : Byte) : Word := b3 ++ b2 ++ b1 ++ b0

/-- The four bytes of a word, the least significant first (20_memory.md R72). -/
def bytesOfWord (w : Word) : List Byte :=
  [w.extractLsb' 0 8, w.extractLsb' 8 8, w.extractLsb' 16 8, w.extractLsb' 24 8]

/-- The command at the start of a byte list and the bytes after it; total, rejecting by name (30_encoding.md R100,
R106). -/
def decodeBytes : List Byte → Except DecodeError (Instr × List Byte)
  | b0 :: b1 :: b2 :: b3 :: rest =>
    match decodeWord (wordOfBytes b0 b1 b2 b3) with
    | .ok i => .ok (i, rest)
    | .error e => .error e
  | _ => .error .shortWord

/-! ## The opcode map as mask and match (30_encoding.md R105) -/

/-- A row of spec/opcode_table.json: the word `w` is this command when `w &&& mask = matchBits`. -/
structure OpcodeRow where
  mnemonic : String
  mask : Word
  matchBits : Word
deriving DecidableEq, Repr

/-- Rows of the opcode map, in the order of spec/opcode_table.json (30_encoding.md R105). -/
def opcodeRowsLow : List OpcodeRow := [
  ⟨"HALT", 0xFFFFFFFF#32, 0x00000000#32⟩,
  ⟨"NOP", 0xFFFFFFFF#32, 0x04000000#32⟩,
  ⟨"LI", 0xFC7F0000#32, 0x08000000#32⟩,
  ⟨"LIH", 0xFC7F0000#32, 0x0C000000#32⟩,
  ⟨"ADD", 0xFC01FFFF#32, 0x10000000#32⟩,
  ⟨"ADDI", 0xFC0FC000#32, 0x14000000#32⟩,
  ⟨"BRINIT", 0xFF81FFFF#32, 0x20000000#32⟩,
  ⟨"BRBIT", 0xFC7FFFFF#32, 0x24000000#32⟩,
  ⟨"BRBITS", 0xFC7FFFE0#32, 0x28000000#32⟩,
  ⟨"BRPEEK", 0xFC7FFFFF#32, 0x2C000000#32⟩,
  ⟨"BRADV", 0xFF8FFFFF#32, 0x30000000#32⟩,
  ⟨"BREND", 0xFC7FFFFF#32, 0x34000000#32⟩,
  ⟨"BRPOS", 0xFC7FFFFF#32, 0x38000000#32⟩]

/-- Rows of the opcode map, in the order of spec/opcode_table.json (30_encoding.md R105). -/
def opcodeRowsMiddle : List OpcodeRow := [
  ⟨"BWINIT", 0xFF81FFFF#32, 0x40000000#32⟩,
  ⟨"BWBITS", 0xFF8FFFE0#32, 0x44000000#32⟩,
  ⟨"BWSIZE", 0xFC7FFFFF#32, 0x48000000#32⟩,
  ⟨"HENC", 0xFF81FFFF#32, 0x60000000#32⟩,
  ⟨"HDEC", 0xFF81FFFE#32, 0x64000000#32⟩,
  ⟨"HTREE", 0xFFFFFFFF#32, 0x68000000#32⟩,
  ⟨"HSYM", 0xFC7FFFFE#32, 0x6C000000#32⟩,
  ⟨"HLUTRD", 0xFC0FFFFF#32, 0x70000000#32⟩,
  ⟨"MLOAD", 0xFF8FFFFE#32, 0x80000000#32⟩,
  ⟨"MSTORE", 0xFF8FFFFE#32, 0x84000000#32⟩,
  ⟨"MSIZE", 0xFC7FFFFF#32, 0x88000000#32⟩,
  ⟨"MQINIT", 0xFF8FFFFE#32, 0x8C000000#32⟩,
  ⟨"MMAP", 0xFC0FFFFE#32, 0x90000000#32⟩]

/-- Rows of the opcode map, in the order of spec/opcode_table.json (30_encoding.md R105). -/
def opcodeRowsHigh : List OpcodeRow := [
  ⟨"MUNMAP", 0xFC0FFFFE#32, 0x94000000#32⟩,
  ⟨"MMAPV", 0xFF803FFE#32, 0x98000000#32⟩,
  ⟨"MUNMAPV", 0xFF803FFE#32, 0x9C000000#32⟩,
  ⟨"SETQ", 0xFF8FFFFC#32, 0xA0000000#32⟩,
  ⟨"QUANT", 0xFC0FFFFC#32, 0xA4000000#32⟩,
  ⟨"DEQUANT", 0xFC0FFFFC#32, 0xA8000000#32⟩,
  ⟨"QUANTV", 0xFF803FFC#32, 0xAC000000#32⟩,
  ⟨"DEQUANTV", 0xFF803FFC#32, 0xB0000000#32⟩,
  ⟨"SETDIM", 0xFF81FFFF#32, 0xC0000000#32⟩,
  ⟨"DSAMP", 0xFF81FFFF#32, 0xC4000000#32⟩,
  ⟨"USAMP", 0xFF81FFFF#32, 0xC8000000#32⟩,
  ⟨"RESID", 0xFF803FFF#32, 0xCC000000#32⟩,
  ⟨"RECON", 0xFF803FFF#32, 0xD0000000#32⟩]

/-- The 39 rows of the opcode map (30_encoding.md R105). -/
def opcodeTable : List OpcodeRow := opcodeRowsLow ++ opcodeRowsMiddle ++ opcodeRowsHigh

/-! ## The encoder (30_encoding.md R109) -/

/-- A register field (30_encoding.md R101). -/
def regBits (r : RegIx) : BitVec 3 := BitVec.ofNat 3 r.val
/-- imm14 = t (30_encoding.md R104). -/
def tableBits (t : TableIx) : BitVec 14 := BitVec.ofNat 14 t.val
/-- imm14 = q (30_encoding.md R104). -/
def stepBits (q : StepIx) : BitVec 14 := BitVec.ofNat 14 q.val
/-- imm14 = w (30_encoding.md R104). -/
def walkBits (w : Bool) : BitVec 14 := if w then 1#14 else 0#14
/-- imm14 = n − 1 (30_encoding.md R104). -/
def countBits (n : Nat) : BitVec 14 := BitVec.ofNat 14 (n - 1)

/-- A format R word from its fields (30_encoding.md R109). -/
def wordR (op : BitVec 6) (rd ra rb rc : BitVec 3) (imm : BitVec 14) : Word := op ++ rd ++ ra ++ rb ++ rc ++ imm
/-- A format I16 word from its fields (30_encoding.md R109). -/
def wordI16 (op : BitVec 6) (rd : BitVec 3) (imm : BitVec 16) : Word := op ++ rd ++ 0#7 ++ imm
/-- A format N word (30_encoding.md R109). -/
def wordN (op : BitVec 6) : Word := op ++ 0#26

/-- The word of a command (30_encoding.md R109). -/
def encode : Instr → Word
  | .halt => wordN 0x00#6
  | .nop => wordN 0x01#6
  | .li rd imm => wordI16 0x02#6 (regBits rd) imm
  | .lih rd imm => wordI16 0x03#6 (regBits rd) imm
  | .add rd ra rb => wordR 0x04#6 (regBits rd) (regBits ra) (regBits rb) 0 0
  | .addi rd ra imm => wordR 0x05#6 (regBits rd) (regBits ra) 0 0 imm
  | .brinit ra rb => wordR 0x08#6 0 (regBits ra) (regBits rb) 0 0
  | .brbit rd => wordR 0x09#6 (regBits rd) 0 0 0 0
  | .brbits rd n => wordR 0x0A#6 (regBits rd) 0 0 0 (countBits n)
  | .brpeek rd => wordR 0x0B#6 (regBits rd) 0 0 0 0
  | .bradv ra => wordR 0x0C#6 0 (regBits ra) 0 0 0
  | .brend rd => wordR 0x0D#6 (regBits rd) 0 0 0 0
  | .brpos rd => wordR 0x0E#6 (regBits rd) 0 0 0 0
  | .bwinit ra rb => wordR 0x10#6 0 (regBits ra) (regBits rb) 0 0
  | .bwbits ra n => wordR 0x11#6 0 (regBits ra) 0 0 (countBits n)
  | .bwsize rd => wordR 0x12#6 (regBits rd) 0 0 0 0
  | .henc ra rb => wordR 0x18#6 0 (regBits ra) (regBits rb) 0 0
  | .hdec ra rb w => wordR 0x19#6 0 (regBits ra) (regBits rb) 0 (walkBits w)
  | .htree => wordN 0x1A#6
  | .hsym rd w => wordR 0x1B#6 (regBits rd) 0 0 0 (walkBits w)
  | .hlutrd rd ra => wordR 0x1C#6 (regBits rd) (regBits ra) 0 0 0
  | .mload t ra => wordR 0x20#6 0 (regBits ra) 0 0 (tableBits t)
  | .mstore t ra => wordR 0x21#6 0 (regBits ra) 0 0 (tableBits t)
  | .msize rd => wordR 0x22#6 (regBits rd) 0 0 0 0
  | .mqinit t ra => wordR 0x23#6 0 (regBits ra) 0 0 (tableBits t)
  | .mmap rd ra t => wordR 0x24#6 (regBits rd) (regBits ra) 0 0 (tableBits t)
  | .munmap rd ra t => wordR 0x25#6 (regBits rd) (regBits ra) 0 0 (tableBits t)
  | .mmapv t ra rb rc => wordR 0x26#6 0 (regBits ra) (regBits rb) (regBits rc) (tableBits t)
  | .munmapv t ra rb rc => wordR 0x27#6 0 (regBits ra) (regBits rb) (regBits rc) (tableBits t)
  | .setq q ra => wordR 0x28#6 0 (regBits ra) 0 0 (stepBits q)
  | .quant rd ra q => wordR 0x29#6 (regBits rd) (regBits ra) 0 0 (stepBits q)
  | .dequant rd ra q => wordR 0x2A#6 (regBits rd) (regBits ra) 0 0 (stepBits q)
  | .quantv q ra rb rc => wordR 0x2B#6 0 (regBits ra) (regBits rb) (regBits rc) (stepBits q)
  | .dequantv q ra rb rc => wordR 0x2C#6 0 (regBits ra) (regBits rb) (regBits rc) (stepBits q)
  | .setdim ra rb => wordR 0x30#6 0 (regBits ra) (regBits rb) 0 0
  | .dsamp ra rb => wordR 0x31#6 0 (regBits ra) (regBits rb) 0 0
  | .usamp ra rb => wordR 0x32#6 0 (regBits ra) (regBits rb) 0 0
  | .resid ra rb rc => wordR 0x33#6 0 (regBits ra) (regBits rb) (regBits rc) 0
  | .recon ra rb rc => wordR 0x34#6 0 (regBits ra) (regBits rb) (regBits rc) 0

/-- The four bytes of a command as local memory holds them (20_memory.md R72, 30_encoding.md R100). -/
def encodeBytes (i : Instr) : List Byte := bytesOfWord (encode i)

/-- The command the decoder reads from an instruction whose bits are `w`, of which the table gives `nbits`; the bits
above them are 0. -/
def decodeTableWord (nbits w : Nat) : Option Instr :=
  match decodeBytes (bytesOfWord (BitVec.ofNat 32 (w % 2 ^ nbits))) with
  | .ok (i, _) => some i
  | .error _ => none

end Sys2Proof
end

