-- ==== Sys2Proof/Config.lean ====
section
/-! DEFINITION. What an implementation of HIMG-CORE fixes (00_scope.md R11), and the free values: constants
with no body, which stand for every "any value" of 93_implementation_defined.md. -/

namespace Sys2Proof

/-- ENC_TREE_POLICY (00_scope.md R11): the exact tie-break of 42_huffman.md R167, or any tree the merge process
of R165 can build. -/
inductive TreePolicy where
  | reference
  | any
deriving DecidableEq, Repr

/-- QUALITY_CURVE (00_scope.md R11): the reference curve of 43_mapping.md R213, or a curve of the implementation's
own, which must give a valid table for every quality (R213). -/
inductive QualityCurve where
  | reference
  | own
deriving DecidableEq, Repr

/-- The configuration parameters of 00_scope.md R11 that a model may take as arguments. -/
structure Params where
  /-- MEM_BYTES, the size of local memory in bytes. -/
  memBytes : Nat
  /-- ENC_TREE_POLICY. -/
  treePolicy : TreePolicy
  /-- QUALITY_CURVE. -/
  curve : QualityCurve
deriving DecidableEq, Repr

/-- The default value of each parameter (00_scope.md R11). -/
def Params.default : Params := ⟨1048576, .reference, .reference⟩

/-- The stated range of the parameters: 4096 ≤ MEM_BYTES ≤ 2^29, a multiple of 4 (00_scope.md R11). -/
abbrev Params.Valid (p : Params) : Prop := 4096 ≤ p.memBytes ∧ p.memBytes ≤ 536870912 ∧ p.memBytes % 4 = 0

/-- One entry of the decoder tree arena (10_state.md R46): child `a` is taken on code bit 0, child `b` on 1. -/
inductive TreeNode where
  | leaf (sym : Sym)
  | branch (a b : NodeIx)
deriving DecidableEq, Repr, Inhabited

/-- One entry of the fast-decode table (10_state.md R47). -/
inductive LutEntry where
  | terminal (sym : Sym) (len : Fin 9)
  | nonTerminal (node : NodeIx)
deriving DecidableEq, Repr, Inhabited

/-- FREE VALUE: the byte at an address, for one draw (93_implementation_defined.md U2, U5, U6, U7, U8). -/
opaque Config.freeByte : (draw address : Nat) → Byte

/-- FREE VALUE: a 32-bit word for one draw, such as a host read while BUSY (93_implementation_defined.md U4, U7). -/
opaque Config.freeWord : (draw : Nat) → Word

/-- FREE VALUE: one of the core's other registers, by a number of the model's, for one draw (93_implementation_defined.md
U7). -/
opaque Config.freeField : (draw field : Nat) → Word

/-- FREE VALUE: an argument register, after a hardware reset (93_implementation_defined.md U1) or as a result (U7). -/
opaque Config.freeReg : (draw : Nat) → RegIx → Word

/-- FREE VALUE: a mapping table entry, after a hardware reset (93_implementation_defined.md U3) or as a result (U7). -/
opaque Config.freeEntry : (draw : Nat) → TableIx → Fin 128 → Half

/-- FREE VALUE: a node of the arena, after a reset or a failed tree read (93_implementation_defined.md U3, U6) or as a
result (U7). -/
opaque Config.freeNode : (draw : Nat) → NodeIx → TreeNode

/-- FREE VALUE: a LUT entry, after a reset or a failed tree read (93_implementation_defined.md U3, U6) or as a result
(U7). -/
opaque Config.freeLut : (draw : Nat) → Fin 256 → LutEntry

/-- FREE VALUE: a count, bounded where it is used: NNODES and BW_POS after a fault (93_implementation_defined.md U6), or the
values of what is loose that a command is compared on (assumption log 12). -/
opaque Config.freeCount : (draw : Nat) → Nat

/-- FREE VALUE: which of the equally frequent nodes a merge takes under ENC_TREE_POLICY = any (42_huffman.md R165),
for one draw and one extraction. -/
opaque Config.tieBreak : (draw extraction : Nat) → Nat

/-- FREE VALUE: whether a merge under ENC_TREE_POLICY = any swaps the two removed nodes (42_huffman.md R165: "any
choice of which removed node is x"). -/
opaque Config.swapPair : (draw extraction : Nat) → Bool

/-- FREE VALUE: entry `i` of the implementation's own quality curve (93_implementation_defined.md U12). -/
opaque Config.ownCurve : (quality : Nat) → Fin 128 → Half

end Sys2Proof
end

