-- ==== Sys2Proof/Machine/State.lean ====
section
/-! DEFINITION. The state of one HIMG-CORE instance (10_state.md R30), the host's transactions (10_state.md R56), the
reasons a step can stop, and the state after reset (70_reset_and_hazards.md R340). -/

namespace Sys2Proof.Machine

/-- STATE, the engine state (10_state.md R33). -/
inductive EngineState where
  | idle
  | busy
  | done
  | failed
deriving DecidableEq, Repr

/-- The thirteen faults of 60_exceptions.md R300. Each one is taken: the machine goes on in the FAILED state. -/
inductive Cause where
  | truncated
  | corruptTree
  | corruptSymbol
  | corruptRun
  | corruptTrailing
  | corruptMap
  | badStep
  | writeOverflow
  | noTable
  | noTree
  | badArg
  | memRange
  | illegalCmd
deriving DecidableEq, Repr

/-- One transaction of the host with the core (10_state.md R56). A register-port transaction names one of the 64 word
registers, so its byte offset is 4 times the index (10_state.md R40, 20_memory.md R71). -/
inductive HostAction where
  /-- A 32-bit read of the register at offset 4 · `reg`. -/
  | regRead (reg : Fin 64)
  /-- A 32-bit write of the register at offset 4 · `reg`. -/
  | regWrite (reg : Fin 64) (value : Word)
  /-- A byte read through the memory port (20_memory.md R78). -/
  | memRead (address : Word)
  /-- A byte write through the memory port (20_memory.md R78). -/
  | memWrite (address : Word) (value : Byte)
  /-- The reset input is asserted (70_reset_and_hazards.md R340). -/
  | resetInput
deriving DecidableEq, Repr

/-- Who acts next: the engine, for one command, or the host, for one transaction. -/
inductive Turn where
  | engine
  | host (a : HostAction)
deriving DecidableEq, Repr

/-- Local memory as (address, byte) pairs, addresses strictly rising. An unlisted address is one that nothing has
written since the hardware reset: it holds no known byte (`State.readByte` gives it the free value of its address). -/
abbrev Memory := List Host.Cell

/-- The canonical form of a memory: addresses strictly rise. No entry can equal what an unlisted address reads as,
since that is no known byte. -/
abbrev Memory.wf (m : Memory) : Prop := m.Pairwise (fun x y => x.1 < y.1)

/-- The smallest pieces of the state that a command's results are made of: a register, an entry, a flag, a byte. -/
inductive Piece where
  /-- R[r]. -/
  | reg (r : RegIx)
  | errinfo
  | bcBase
  | bcLen
  | bcPos
  | bwBase
  | bwCap
  | bwPos
  /-- MT[t][i]. -/
  | entry (t : TableIx) (i : Fin 128)
  /-- TVALID[t]. -/
  | tvalid (t : TableIx)
  /-- QSTEP[q]. -/
  | qstep (q : StepIx)
  /-- NODE[n]. -/
  | node (n : NodeIx)
  | nnodes
  /-- LUT[key]. -/
  | lut (key : Fin 256)
  | treeValid
  | dim
  | pcfg
  /-- MEM[address]. -/
  | byte (address : Nat)
deriving DecidableEq, Repr

/-- Everything the spec gives one instance (10_state.md R30), then the model's own fields. -/
structure State where
  /-- The parameters of 00_scope.md R11. Not state of the machine: no step changes them. -/
  cfg : Params
  /-- STATE (10_state.md R33). -/
  engine : EngineState
  /-- CTRL.IE (10_state.md R34). -/
  ie : Bool
  /-- CP, the command pointer (10_state.md R32). -/
  cp : Word
  /-- CMDCNT (10_state.md R39). -/
  cmdcnt : Word
  /-- ERR (10_state.md R36). -/
  err : Word
  /-- ERRCP (10_state.md R37). -/
  errcp : Word
  /-- ERRINFO (10_state.md R38). -/
  errinfo : Word
  /-- R0 to R7 (10_state.md R31). -/
  regs : Vector Word 8
  /-- BC_BASE, the byte address of the cursor window (10_state.md R42). -/
  bcBase : Word
  /-- BC_LEN, the window length in bytes (10_state.md R42). -/
  bcLen : Word
  /-- BC_POS, the bits consumed since the window start (10_state.md R42). -/
  bcPos : Word
  /-- BW_BASE, the byte address of the output region (10_state.md R43). -/
  bwBase : Word
  /-- BW_CAP, the capacity of the region in bytes (10_state.md R43). -/
  bwCap : Word
  /-- BW_POS, the bits written (10_state.md R43). -/
  bwPos : Word
  /-- MT[0], MT[1] (10_state.md R44). -/
  mt : Vector (Vector Half 128) 2
  /-- TVALID[0], TVALID[1] (10_state.md R44). -/
  tvalid : Vector Bool 2
  /-- QSTEP[0..3] (10_state.md R45). -/
  qstep : Vector Half 4
  /-- NODE[0..520] (10_state.md R46). -/
  node : Vector TreeNode 521
  /-- NNODES (10_state.md R46). -/
  nnodes : Nat
  /-- TREE_VALID (10_state.md R48). -/
  treeValid : Bool
  /-- LUT[0..255] (10_state.md R47). -/
  lut : Vector LutEntry 256
  /-- DIM: W in bits 15:0, H in bits 31:16 (10_state.md R50). -/
  dim : Word
  /-- PCFG: SCALE_LOG2 in bits 2:0, UPK in bit 8 (10_state.md R51, R52). -/
  pcfg : Word
  /-- MEM[0..MEM_BYTES−1] (20_memory.md R70). -/
  mem : Memory
  /-- The model's own: the draw that gives the power-on content of the bytes nothing has written. -/
  memEpoch : Nat
  /-- The model's own: the number of free values drawn so far. -/
  draws : Nat
  /-- The model's own: the pieces that hold any value because the host wrote local memory while BUSY in this run: the
  bytes it wrote, and every result of the run that depends on one (20_memory.md R78, 93_implementation_defined.md U7). -/
  loose : List Piece
  /-- The model's own: what the last host read returned. -/
  hostData : Word
  /-- The model's own: the turns to come. Where none is listed, every turn is the engine's. -/
  inputs : List Turn
deriving DecidableEq, Repr

/-- Why a step stops without a next state. No command ends so: every fault of 60_exceptions.md R300 is taken. -/
inductive Fault where
  /-- Raised by a host memory-port transaction at an address ≥ MEM_BYTES, which the spec says does not exist
  (20_memory.md R70, R78). Safe: the model stops where the spec gives no effect. -/
  | hostAddress (address : Word)
deriving DecidableEq, Repr

/-- Why a step has no meaning. -/
inductive Refusal where
  /-- Answered by an arm of `exec` for a command that has no meaning yet. Safe: nothing can be proved of a run that
  ends so. No arm answers it in this model. -/
  | notModelled (mnemonic : String)
deriving DecidableEq, Repr

/-- Every state element at its value of 70_reset_and_hazards.md R340, with the elements the rule leaves unspecified
given as arguments. -/
def State.afterReset (cfg : Params) (regs : Vector Word 8) (mt : Vector (Vector Half 128) 2)
    (node : Vector TreeNode 521) (lut : Vector LutEntry 256) (memEpoch draws : Nat) (hostData : Word)
    (inputs : List Turn) : State where
  cfg := cfg
  engine := .idle
  ie := false
  cp := 0#32
  cmdcnt := 0#32
  err := 0#32
  errcp := 0#32
  errinfo := 0#32
  regs := regs
  bcBase := 0#32
  bcLen := 0#32
  bcPos := 0#32
  bwBase := 0#32
  bwCap := 0#32
  bwPos := 0#32
  mt := mt
  tvalid := Vector.replicate 2 false
  qstep := Vector.replicate 4 1#16
  node := node
  nnodes := 0
  treeValid := false
  lut := lut
  dim := 0#32
  pcfg := 0#32
  mem := []
  memEpoch := memEpoch
  draws := draws
  loose := []
  hostData := hostData
  inputs := inputs

/-- DESIGN CHOICE (unsafe; assumption log 2): R[i] = i + 1 after reset. The spec gives no value and says never to take
it for zero (10_state.md R31). -/
def resetRegs : Vector Word 8 := #v[1#32, 2#32, 3#32, 4#32, 5#32, 6#32, 7#32, 8#32]

/-- The machine right after reset (70_reset_and_hazards.md R340), with the default parameters. MT, NODE and LUT are
unspecified and unobservable there: DESIGN CHOICE (assumption log 3). -/
def State.reset : State :=
  State.afterReset Params.default resetRegs (Vector.replicate 2 (Vector.replicate 128 0#16))
    (Vector.replicate 521 (.leaf 0#9)) (Vector.replicate 256 (.terminal 0#9 0)) 0 1 0#32 []

end Sys2Proof.Machine
end

