-- ==== Sys2Proof/Machine/Flags.lean ====
section
/-! DEFINITION. The core has no condition codes, flags or predicates (10_state.md R55). What a host observes instead
are the status words here: ERR, CTRL, STATUS, VALID and the IRQ level. -/

namespace Sys2Proof.Machine

/-- The CODE of a fault (60_exceptions.md R300). -/
def Cause.code : Cause → Nat
  | .truncated => 0x01
  | .corruptTree => 0x02
  | .corruptSymbol => 0x03
  | .corruptRun => 0x04
  | .corruptTrailing => 0x05
  | .corruptMap => 0x06
  | .badStep => 0x07
  | .writeOverflow => 0x08
  | .noTable => 0x09
  | .noTree => 0x0A
  | .badArg => 0x0B
  | .memRange => 0x0C
  | .illegalCmd => 0x0D

/-- The CLASS of a fault: 1 truncated input, 2 corrupt structure, 3 usage (60_exceptions.md R300, R301). -/
def Cause.cls : Cause → Nat
  | .truncated => 1
  | .corruptTree | .corruptSymbol | .corruptRun | .corruptTrailing | .corruptMap => 2
  | .badStep | .writeOverflow | .noTable | .noTree | .badArg | .memRange | .illegalCmd => 3

/-- The ERR register of a fault: CODE in bits 7:0, CLASS in bits 9:8 (10_state.md R36). -/
def Cause.errWord (c : Cause) : Word := BitVec.ofNat 22 0 ++ BitVec.ofNat 2 c.cls ++ BitVec.ofNat 8 c.code

/-- The number of an engine state (10_state.md R33). -/
def EngineState.number : EngineState → Nat
  | .idle => 0
  | .busy => 1
  | .done => 2
  | .failed => 3

/-- The IRQ output, the level IE ∧ (STATE = DONE ∨ STATE = FAILED) (60_exceptions.md R320). -/
def State.irq (s : State) : Bool := s.ie && (s.engine == .done || s.engine == .failed)

/-- A bit as the low bit of a word. -/
def bitWord (b : Bool) : Word := if b then 1#32 else 0#32

/-- STATUS: STATE in bits 1:0, IRQ in bit 2 (10_state.md R35). -/
def State.statusWord (s : State) : Word := BitVec.ofNat 32 s.engine.number ||| (bitWord s.irq <<< 2)

/-- CTRL as it reads: IE in bit 8, the write-1 actions as 0 (10_state.md R34). -/
def State.ctrlWord (s : State) : Word := bitWord s.ie <<< 8

/-- VALID: TVALID[0], TVALID[1] and TREE_VALID in bits 0, 1 and 2 (10_state.md R53). -/
def State.validWord (s : State) : Word :=
  bitWord s.tvalid[0] ||| (bitWord s.tvalid[1] <<< 1) ||| (bitWord s.treeValid <<< 2)

end Sys2Proof.Machine
end

