-- ==== Sys2Proof/Machine/Operands.lean ====
section
/-! DEFINITION. The operand forms: argument registers, their 16-bit and 8-bit views, immediates, and the conversions
between integers and bit patterns (00_scope.md R12, 30_encoding.md R104). -/

namespace Sys2Proof.Machine

/-- R[i] (10_state.md R31). No register is hardwired. -/
def State.reg (s : State) (r : RegIx) : Word := s.regs[r]

/-- R[i] <- v (00_scope.md R13). -/
def State.setReg (s : State) (r : RegIx) (v : Word) : State := { s with regs := s.regs.set r v }

/-- R[i] as an unsigned integer: an address, a length, a count (20_memory.md R70). -/
def State.regNat (s : State) (r : RegIx) : Nat := (s.reg r).toNat

/-- int16(R[i][15:0]); bits 31:16 are ignored (43_mapping.md R217, 44_quant.md R235). -/
def State.regInt16 (s : State) (r : RegIx) : Int := ((s.reg r).extractLsb' 0 16).toInt

/-- R[i][7:0]; bits 31:8 are ignored (43_mapping.md R218, 42_huffman.md R178). -/
def State.regByte (s : State) (r : RegIx) : Byte := (s.reg r).extractLsb' 0 8

/-- zext_32(imm16), the immediate of LI (30_encoding.md R104). -/
def zextImm16 (imm : BitVec 16) : Word := imm.setWidth 32

/-- sext_32(imm14), the immediate of ADDI (30_encoding.md R104). -/
def sextImm14 (imm : BitVec 14) : Word := imm.signExtend 32

/-- {imm16, R[rd][15:0]}, the value LIH writes (30_encoding.md R104). -/
def highHalf (imm : BitVec 16) (old : Word) : Word := imm ++ old.extractLsb' 0 16

/-- u16(v), the 16-bit pattern of an integer (00_scope.md R12). -/
def u16 (v : Int) : Half := BitVec.ofInt 16 v

/-- sext_32(u16(v)), a 16-bit result in a register (43_mapping.md R218, 44_quant.md R235). -/
def sextInt16 (v : Int) : Word := (u16 v).signExtend 32

/-- clamp(v, lo, hi) = min(max(v, lo), hi) (00_scope.md R12). -/
def clampInt (v lo hi : Int) : Int := min (max v lo) hi

/-- The unsigned integer of a bit string, its first bit at bit 0 (41_bitstream.md R132). -/
def natOfBits : Bits → Nat
  | [] => 0
  | b :: bs => (if b then 1 else 0) + 2 * natOfBits bs

/-- The low n bits of a number, bit 0 first (41_bitstream.md R136). -/
def bitsOfNat : (n v : Nat) → Bits
  | 0, _ => []
  | n + 1, v => (v % 2 == 1) :: bitsOfNat n (v / 2)

end Sys2Proof.Machine
end

