-- ==== Sys2Proof/Machine/Ops.lean ====
section
/-! DEFINITION. The named operations every command is built from: local memory, ranges and overlap, free values,
completing a command, taking a fault and returning from one, and the bit reader and writer primitives. -/

namespace Sys2Proof.Machine

/-- The three outcomes of a step of this machine. -/
abbrev Result := Host.Outcome State Fault Refusal

/-! ## Local memory (20_memory.md R70 to R77) -/

/-- The byte last written at an address, if one was. -/
def Memory.get? : Memory → Nat → Option Byte
  | [], _ => none
  | (k, b) :: m, a => if k = a then some b else Memory.get? m a

/-- The memory after a byte is written at an address; the addresses keep rising. -/
def Memory.put : Memory → Nat → Byte → Memory
  | [], a, b => [(a, b)]
  | (k, c) :: m, a, b =>
    if a < k then (a, b) :: (k, c) :: m
    else if a = k then (a, b) :: m
    else (k, c) :: Memory.put m a b

/-- The memory after bytes are written at rising addresses from `a`. -/
def Memory.putAll : Memory → Nat → List Byte → Memory
  | m, _, [] => m
  | m, a, b :: bs => Memory.putAll (Memory.put m a b) (a + 1) bs

/-- What an address reads as when nothing has written it since the hardware reset: any value (20_memory.md R70,
93_implementation_defined.md U2; assumption log 4). -/
def State.unwritten (s : State) (a : Nat) : Byte := Config.freeByte s.memEpoch a

/-- MemRead(a, 1) (00_scope.md R14). -/
def State.readByte (s : State) (a : Nat) : Byte := (s.mem.get? a).getD (s.unwritten a)

/-- The n bytes from address a. -/
def State.readBytes (s : State) (a n : Nat) : List Byte := (List.range n).map (fun k => s.readByte (a + k))

/-- MemRead(a, 2), little-endian (20_memory.md R72, R74). -/
def State.readHalf (s : State) (a : Nat) : Half := s.readByte (a + 1) ++ s.readByte a

/-- int16(MemRead(a, 2)) (45_plane.md R251). -/
def State.readInt16 (s : State) (a : Nat) : Int := (s.readHalf a).toInt

/-- Bytes stored at rising addresses from a (00_scope.md R14). -/
def State.storeBytes (s : State) (a : Nat) (bs : List Byte) : State := { s with mem := s.mem.putAll a bs }

/-- The two bytes of a 16-bit value, the low one first (20_memory.md R72). -/
def halfBytes (h : Half) : List Byte := [h.extractLsb' 0 8, h.extractLsb' 8 8]

/-- The bytes of an array of 16-bit values (45_plane.md R251). -/
def halvesBytes (hs : List Half) : List Byte := hs.flatMap halfBytes

/-! ## Ranges and overlap (20_memory.md R75, R80) -/

/-- A range [a, a + n) lies in local memory; a range of length 0 always does (20_memory.md R75). -/
def State.inRange (s : State) (a n : Nat) : Bool := n == 0 || decide (a + n ≤ s.cfg.memBytes)

/-- The start of the first range, in operand order, that leaves local memory (20_memory.md R75). -/
def State.badRange (s : State) : List (Word × Nat) → Option Word
  | [] => none
  | (a, n) :: rs => if s.inRange a.toNat n then s.badRange rs else some a

/-- Two byte ranges share an address (20_memory.md R80). -/
def overlaps (a la b lb : Nat) : Bool :=
  decide (0 < la) && decide (0 < lb) && decide (a < b + lb) && decide (b < a + la)

/-! ## Free values (93_implementation_defined.md, "any value") -/

/-- Every byte of [a, a + n) holds any value; every other byte keeps its own. -/
def State.scramble (s : State) (a n : Nat) : State :=
  { s with
    mem := s.mem.putAll a ((List.range n).map (fun k => Config.freeByte s.draws (a + k)))
    draws := s.draws + 1 }

/-- The bytes of a destination range: as computed, or any value where the destination overlaps a source
(20_memory.md R80, 93_implementation_defined.md U5; assumption log 9). -/
def State.storeOrScramble (s : State) (clash : Bool) (a : Nat) (bs : List Byte) : State :=
  if clash then s.scramble a bs.length else s.storeBytes a bs

/-- NODE, NNODES and LUT hold any value and TREE_VALID is 0 (60_exceptions.md R310, after a fault of HTREE or HDEC). -/
def State.scrambleTree (s : State) : State :=
  { s with
    node := Vector.ofFn (Config.freeNode s.draws)
    lut := Vector.ofFn (Config.freeLut s.draws)
    nnodes := Config.freeCount s.draws % 522
    treeValid := false
    draws := s.draws + 1 }

/-! ## Completing a command, taking a fault, and returning from one -/

/-- A command completes: CP ← CP + 4, CMDCNT ← CMDCNT + 1 (46_control.md R280, R281). -/
def State.complete (s : State) : State := { s with cp := s.cp + 4#32, cmdcnt := s.cmdcnt + 1#32 }

/-- TAKING A FAULT (60_exceptions.md R310): ERR, ERRCP, ERRINFO and STATE are written, and nothing else. -/
def State.raise (s : State) (c : Cause) (info : Word) : State :=
  { s with err := c.errWord, errcp := s.cp, errinfo := info, engine := .failed }

/-- RETURNING FROM A FAULT (60_exceptions.md R314): the host's CTRL.CLR moves DONE or FAILED to IDLE and clears ERR,
ERRCP and ERRINFO; it is ignored in any other state (10_state.md R34). -/
def State.clear (s : State) : State :=
  match s.engine with
  | .done | .failed => { s with engine := .idle, err := 0#32, errcp := 0#32, errinfo := 0#32 }
  | .idle | .busy => s

/-- A command's operand ranges are checked before its first access; the first that fails raises MEM_RANGE with its
start address (20_memory.md R75, 60_exceptions.md R312). -/
def State.withRanges (s : State) (ranges : List (Word × Nat)) (body : Result) : Result :=
  match s.badRange ranges with
  | some a => .next (s.raise .memRange a)
  | none => body

/-! ## The bit reader (41_bitstream.md R130 to R137) -/

/-- A data fault met in a stream: its name, its info, and BC_POS when it was met (60_exceptions.md R310). -/
structure StreamFault where
  cause : Cause
  info : Word
  pos : Nat
deriving DecidableEq, Repr

/-- 8·BC_LEN, the bits of the cursor window. -/
def State.windowBits (s : State) : Nat := 8 * s.bcLen.toNat

/-- SBit(p): bit p mod 8 of MEM[BC_BASE + p / 8] (41_bitstream.md R130). -/
def State.sbit (s : State) (p : Nat) : Bool := (s.readByte (s.bcBase.toNat + p / 8)).getLsbD (p % 8)

/-- TRUNCATED(BC_POS), raised where the stream stands at `pos`. -/
def truncatedAt (pos : Nat) : StreamFault := ⟨.truncated, BitVec.ofNat 32 pos, pos⟩

/-- RdBit() at position `pos` (41_bitstream.md R131). -/
def State.rdBit (s : State) (pos : Nat) : Except StreamFault (Bool × Nat) :=
  if pos + 1 > s.windowBits then .error (truncatedAt pos) else .ok (s.sbit pos, pos + 1)

/-- The n stream bits from `pos`. -/
def State.sbits (s : State) (pos n : Nat) : Bits := (List.range n).map (fun k => s.sbit (pos + k))

/-- RdBits(n) at position `pos`: the first bit read is bit 0 of the result (41_bitstream.md R132). -/
def State.rdBits (s : State) (n pos : Nat) : Except StreamFault (Nat × Nat) :=
  if pos + n > s.windowBits then .error (truncatedAt pos) else .ok (natOfBits (s.sbits pos n), pos + n)

/-- PeekByte() at position `pos`: bits beyond the window read 0 (41_bitstream.md R133). -/
def State.peekByte (s : State) (pos : Nat) : Byte :=
  BitVec.ofNat 8 (natOfBits
    ((List.range 8).map (fun k => decide (pos + k < s.windowBits) && s.sbit (pos + k))))

/-- Advance(n) at position `pos` (41_bitstream.md R134). -/
def State.advance (s : State) (n pos : Nat) : Except StreamFault Nat :=
  if pos + n > s.windowBits then .error (truncatedAt pos) else .ok (pos + n)

/-- AtEnd() at position `pos` (41_bitstream.md R137). -/
def State.atEnd (s : State) (pos : Nat) : Bool := decide (s.windowBits - pos ≤ 7)

/-- BC_POS ← pos (10_state.md R42; assumption log 15). -/
def State.setBcPos (s : State) (pos : Nat) : State := { s with bcPos := BitVec.ofNat 32 pos }

/-- A data fault of a reading command: BC_POS is where the faulting primitive started (60_exceptions.md R310). -/
def State.raiseStream (s : State) (f : StreamFault) : State := (s.setBcPos f.pos).raise f.cause f.info

/-! ## The bit writer (41_bitstream.md R135, R136, R138) -/

/-- A byte with bit j set to b. -/
def withBit (x : Byte) (j : Nat) (b : Bool) : Byte :=
  if b then x ||| (1#8 <<< j) else x &&& ~~~(1#8 <<< j)

/-- WrBit(b), its capacity check already made: a new byte starts as all zeros (41_bitstream.md R135). -/
def State.wrBit (s : State) (b : Bool) : State :=
  let a := s.bwBase.toNat + s.bwPos.toNat / 8
  let j := s.bwPos.toNat % 8
  let old := if j = 0 then 0#8 else s.readByte a
  { s with mem := s.mem.put a (withBit old j b), bwPos := s.bwPos + 1#32 }

/-- The bits of a string written in order. -/
def State.wrAll (s : State) : Bits → State
  | [] => s
  | b :: bs => (s.wrBit b).wrAll bs

/-- 8·BW_CAP, the bits of the writer region. -/
def State.regionBits (s : State) : Nat := 8 * s.bwCap.toNat

/-- WrBits: the capacity is checked before any bit is written; the error is the info of WRITE_OVERFLOW
(41_bitstream.md R136, 60_exceptions.md R300). -/
def State.wrBits (s : State) (bs : Bits) : Except Word State :=
  if s.bwPos.toNat + bs.length > s.regionBits then .error s.bwPos else .ok (s.wrAll bs)

/-- SizeBytes() (41_bitstream.md R138). -/
def State.sizeBytes (s : State) : Nat := (s.bwPos.toNat + 7) / 8

end Sys2Proof.Machine
end

