-- ==== Sys2Proof/Machine/Bitstream.lean ====
section
/-! DEFINITION. The bit reader and writer commands (41_bitstream.md R140 to R149). -/

namespace Sys2Proof.Machine

/-- A reading command that writes what it read to R[rd] and moves BC_POS, or takes the data fault it met. -/
def State.readInto (s : State) (rd : RegIx) (r : Except StreamFault (Word × Nat)) : Result :=
  match r with
  | .error f => .next (s.raiseStream f)
  | .ok (v, pos) => .next ((s.setReg rd v).setBcPos pos).complete

/-- BRINIT ra, rb (41_bitstream.md R140). -/
def execBrinit (ra rb : RegIx) (s : State) : Result :=
  s.withRanges [(s.reg ra, s.regNat rb)]
    (.next { s with bcBase := s.reg ra, bcLen := s.reg rb, bcPos := 0#32 }.complete)

/-- BRBIT rd (41_bitstream.md R141). -/
def execBrbit (rd : RegIx) (s : State) : Result :=
  s.readInto rd ((s.rdBit s.bcPos.toNat).map (fun r => (bitWord r.1, r.2)))

/-- BRBITS rd, n (41_bitstream.md R142). -/
def execBrbits (rd : RegIx) (n : Nat) (s : State) : Result :=
  s.readInto rd ((s.rdBits n s.bcPos.toNat).map (fun r => (BitVec.ofNat 32 r.1, r.2)))

/-- BRPEEK rd (41_bitstream.md R143). -/
def execBrpeek (rd : RegIx) (s : State) : Result :=
  .next (s.setReg rd ((s.peekByte s.bcPos.toNat).setWidth 32)).complete

/-- BRADV ra (41_bitstream.md R144). -/
def execBradv (ra : RegIx) (s : State) : Result :=
  match s.advance (s.regNat ra) s.bcPos.toNat with
  | .error f => .next (s.raiseStream f)
  | .ok pos => .next (s.setBcPos pos).complete

/-- BREND rd (41_bitstream.md R145). -/
def execBrend (rd : RegIx) (s : State) : Result := .next (s.setReg rd (bitWord (s.atEnd s.bcPos.toNat))).complete

/-- BRPOS rd (41_bitstream.md R146). -/
def execBrpos (rd : RegIx) (s : State) : Result := .next (s.setReg rd s.bcPos).complete

/-- BWINIT ra, rb (41_bitstream.md R147). -/
def execBwinit (ra rb : RegIx) (s : State) : Result :=
  s.withRanges [(s.reg ra, s.regNat rb)]
    (.next { s with bwBase := s.reg ra, bwCap := s.reg rb, bwPos := 0#32 }.complete)

/-- BWBITS ra, n (41_bitstream.md R148). -/
def execBwbits (ra : RegIx) (n : Nat) (s : State) : Result :=
  match s.wrBits (bitsOfNat n (s.regNat ra)) with
  | .error pos => .next (s.raise .writeOverflow pos)
  | .ok s' => .next s'.complete

/-- BWSIZE rd (41_bitstream.md R149). -/
def execBwsize (rd : RegIx) (s : State) : Result := .next (s.setReg rd (BitVec.ofNat 32 s.sizeBytes)).complete

end Sys2Proof.Machine
end

