-- ==== Sys2Proof/Machine/HuffTokens.lean ====
section
/-! DEFINITION. The Huffman alphabet, the zero-run tokens, and the encoder: histogram, tree, codes, serialization and
emission (42_huffman.md R160 to R170). -/

namespace Sys2Proof.Machine

/-! ## Run tokens (42_huffman.md R160 to R162) -/

/-- base of a run token's bucket (42_huffman.md R160); meant for symbols 256 to 260. -/
def runBase (sym : Nat) : Nat :=
  if sym = 256 then 2 else if sym = 257 then 3 else if sym = 258 then 7 else if sym = 259 then 23 else 279

/-- nb, the count of extra bits of a run token (42_huffman.md R160); meant for symbols 256 to 260. -/
def runExtraBits (sym : Nat) : Nat :=
  if sym = 256 then 0 else if sym = 257 then 2 else if sym = 258 then 4 else if sym = 259 then 8 else 14

/-- The longest run one token stands for (42_huffman.md R160). -/
def maxRun : Nat := 16662

/-- The run token whose lengths contain `len`, for 2 ≤ len ≤ 16662 (42_huffman.md R160). -/
def runSymbol (len : Nat) : Nat :=
  if len ≤ 2 then 256 else if len ≤ 6 then 257 else if len ≤ 22 then 258 else if len ≤ 278 then 259 else 260

/-- A token (sym, extra, nb) (42_huffman.md R162). -/
structure Token where
  sym : Sym
  extra : Nat
  nb : Nat
deriving DecidableEq, Repr

/-- The token of a literal byte. -/
def literalToken (b : Byte) : Token := ⟨b.setWidth 9, 0, 0⟩

/-- The token of a run of 2 to 16662 zeros. -/
def runToken (len : Nat) : Token :=
  ⟨BitVec.ofNat 9 (runSymbol len), len - runBase (runSymbol len), runExtraBits (runSymbol len)⟩

/-- The tokens of a maximal run of `len` zeros: full tokens of 16662, then the rest, of which an isolated zero is the
literal 0 (42_huffman.md R162). -/
def runTokens (len : Nat) : List Token :=
  List.replicate (len / maxRun) (runToken maxRun) ++
    (if len % maxRun = 0 then [] else if len % maxRun = 1 then [literalToken 0#8] else [runToken (len % maxRun)])

/-- Tokenize, with `run` zeros just before the rest of the block (42_huffman.md R162). -/
def tokenizeFrom : (run : Nat) → List Byte → List Token
  | run, [] => runTokens run
  | run, b :: bs =>
    if b = 0#8 then tokenizeFrom (run + 1) bs else runTokens run ++ literalToken b :: tokenizeFrom 0 bs

/-- Tokenize(B) (42_huffman.md R162). -/
def tokenize (block : List Byte) : List Token := tokenizeFrom 0 block

/-! ## The encoder's tree (42_huffman.md R164 to R168) -/

/-- FREQ[s], the number of tokens whose symbol is s (42_huffman.md R164). -/
def freq (ts : List Token) (s : Nat) : Nat := ts.countP (fun t => t.sym.toNat == s)

/-- A binary tree of symbols (42_huffman.md R165). -/
inductive HuffTree where
  | leaf (sym : Sym)
  | branch (a b : HuffTree)
deriving DecidableEq, Repr

/-- An active node of the merge, with its key (freq, id) (42_huffman.md R167). -/
structure ActiveNode where
  freq : Nat
  id : Nat
  tree : HuffTree
deriving DecidableEq, Repr

/-- The key order (freq, id), lexicographic (42_huffman.md R167). -/
def ActiveNode.before (x y : ActiveNode) : Bool := decide (x.freq < y.freq) || (x.freq == y.freq && decide (x.id < y.id))

/-- A node put into the active nodes, which are kept in key order. -/
def insertActive (x : ActiveNode) : List ActiveNode → List ActiveNode
  | [] => [x]
  | y :: ys => if x.before y then x :: y :: ys else y :: insertActive x ys

/-- One leaf for each symbol of nonzero frequency, in key order (42_huffman.md R165). -/
def activeLeaves (ts : List Token) : List ActiveNode :=
  ((List.range 261).filter (fun s => 0 < freq ts s)).foldr
    (fun s acc => insertActive ⟨freq ts s, s, .leaf (BitVec.ofNat 9 s)⟩ acc) []

/-- How many of the active nodes have the least frequency. -/
def leastCount : List ActiveNode → Nat
  | [] => 0
  | x :: xs => (x :: xs).countP (fun y => y.freq == x.freq)

/-- Which active node an extraction takes: the least key, or any node of least frequency (42_huffman.md R165, R167). -/
def extractIndex (policy : TreePolicy) (draw extraction : Nat) (active : List ActiveNode) : Nat :=
  match policy with
  | .reference => 0
  | .any => Config.tieBreak draw extraction % leastCount active

/-- Branch(A = x, B = y) for the removed nodes, or the other way round where the policy leaves it open
(42_huffman.md R165, R167). -/
def joinPair (policy : TreePolicy) (draw extraction : Nat) (x y : HuffTree) : HuffTree :=
  match policy with
  | .reference => .branch x y
  | .any => if Config.swapPair draw extraction then .branch y x else .branch x y

/-- Merge until one root remains (42_huffman.md R165, R167). `nextId` is the id of the next internal node; `fuel`, the
number of active nodes, is never exhausted. -/
def mergeAll (policy : TreePolicy) (draw : Nat) : (fuel nextId : Nat) → List ActiveNode → Option HuffTree
  | 0, _, _ => none
  | fuel + 1, nextId, active =>
    match active with
    | [] => none
    | [x] => some x.tree
    | x0 :: y0 :: rest =>
      let all := x0 :: y0 :: rest
      let i := extractIndex policy draw (2 * nextId) all
      let x := all.getD i x0
      let others := all.eraseIdx i
      let j := extractIndex policy draw (2 * nextId + 1) others
      let y := others.getD j y0
      let z : ActiveNode := ⟨x.freq + y.freq, nextId, joinPair policy draw nextId x.tree y.tree⟩
      mergeAll policy draw fuel (nextId + 1) (insertActive z (others.eraseIdx j))

/-- The encoder's tree: the merge for two or more symbols, and the degenerate trees of 42_huffman.md R166. -/
def encoderTree (policy : TreePolicy) (draw : Nat) (ts : List Token) : HuffTree :=
  match activeLeaves ts with
  | [] => .branch (.leaf 0#9) (.leaf 1#9)
  | [x] => .branch x.tree (.leaf (if x.id = 0 then 1#9 else 0#9))
  | x :: y :: rest => (mergeAll policy draw (rest.length + 2) 261 (x :: y :: rest)).getD x.tree

/-- The code of a symbol: the branch bits on its path, child A appending 0 and child B appending 1
(42_huffman.md R168). -/
def codeOf : HuffTree → Sym → Option Bits
  | .leaf s, x => if s = x then some [] else none
  | .branch a b, x =>
    match codeOf a x with
    | some c => some (false :: c)
    | none => (codeOf b x).map (fun c => true :: c)

/-! ## Serialization and emission (42_huffman.md R169, R170) -/

/-- Ser(node), one bit string for each WrBits (42_huffman.md R169). -/
def serChunks : HuffTree → List Bits
  | .leaf s => [[true], bitsOfNat 9 s.toNat]
  | .branch a b => [false] :: (serChunks a ++ serChunks b)

/-- The WrBits of one token: its code, then its extra bits if it has any (42_huffman.md R170). -/
def tokenChunks (t : HuffTree) (tok : Token) : List Bits :=
  ((codeOf t tok.sym).getD []) :: (if 0 < tok.nb then [bitsOfNat tok.nb tok.extra] else [])

/-- Every WrBits of HENC on a block, in order (42_huffman.md R171). -/
def encodeChunks (policy : TreePolicy) (draw : Nat) (block : List Byte) : List Bits :=
  let ts := tokenize block
  let t := encoderTree policy draw ts
  serChunks t ++ ts.flatMap (tokenChunks t)

/-- A sequence of WrBits at writer position `pos`; the error is the info of the WRITE_OVERFLOW that the first one that
does not fit raises (42_huffman.md R171). The position is a number, as the rule computes it (assumption log 15). -/
def State.wrChunksAt (s : State) (pos : Nat) : List Bits → Except Word State
  | [] => .ok s
  | c :: cs =>
    if pos + c.length > s.regionBits then .error (BitVec.ofNat 32 pos) else (s.wrAll c).wrChunksAt (pos + c.length) cs

/-- A sequence of WrBits from BW_POS (42_huffman.md R171). -/
def State.wrChunks (s : State) (cs : List Bits) : Except Word State := s.wrChunksAt s.bwPos.toNat cs

end Sys2Proof.Machine
end

