-- ==== Sys2Proof/Machine/HuffDecode.lean ====
section
/-! DEFINITION. The Huffman decoder: the tree read with its LUT, one symbol by LUT or by walk, and one block
(42_huffman.md R163, R172 to R175). -/

namespace Sys2Proof.Machine

/-- What ReadTree builds as it reads (42_huffman.md R172). -/
structure TreeBuild where
  pos : Nat
  node : Vector TreeNode 521
  nnodes : Nat
  lut : Vector LutEntry 256
deriving DecidableEq, Repr

/-- Every key whose low `depth` bits are `code` gets the entry (42_huffman.md R172). -/
def fillLut (lut : Vector LutEntry 256) (depth code : Nat) (e : LutEntry) : Vector LutEntry 256 :=
  Vector.ofFn (fun key : Fin 256 => if key.val % 2 ^ depth = code then e else lut[key])

/-- The LUT after a leaf is read at a depth: a leaf at depth ≤ 8 fills its keys (42_huffman.md R172). -/
def lutAfterLeaf (lut : Vector LutEntry 256) (depth code : Nat) (sym : Sym) : Vector LutEntry 256 :=
  if h : depth ≤ 8 then fillLut lut depth code (.terminal sym ⟨depth, by omega⟩) else lut

/-- The LUT after a branch is met at a depth: a branch at depth exactly 8 fills its key (42_huffman.md R172). -/
def lutAfterBranch (lut : Vector LutEntry 256) (depth code : Nat) (idx : NodeIx) : Vector LutEntry 256 :=
  if depth = 8 then fillLut lut 8 code (.nonTerminal idx) else lut

/-- CORRUPT_TREE(BC_POS), raised where the stream stands at `pos`. -/
def corruptTreeAt (pos : Nat) : StreamFault := ⟨.corruptTree, BitVec.ofNat 32 pos, pos⟩

/-- ReadNode(depth, code) (42_huffman.md R172). `fuel` is 521 − depth: a node at depth 521 would be the 522nd, so fuel
0 is the CORRUPT_TREE of the node cap. -/
def State.readNode (s : State) : (fuel depth code : Nat) → TreeBuild → Except StreamFault (NodeIx × TreeBuild)
  | 0, _, _, b => .error (corruptTreeAt b.pos)
  | fuel + 1, depth, code, b =>
    if h : b.nnodes < 521 then
      let idx : NodeIx := ⟨b.nnodes, h⟩
      match s.rdBit b.pos with
      | .error f => .error f
      | .ok (true, pos) =>
        match s.rdBits 9 pos with
        | .error f => .error f
        | .ok (v, pos') =>
          .ok (idx, ⟨pos', b.node.set idx (.leaf (BitVec.ofNat 9 v)), b.nnodes + 1,
            lutAfterLeaf b.lut depth code (BitVec.ofNat 9 v)⟩)
      | .ok (false, pos) =>
        match s.readNode fuel (depth + 1) code ⟨pos, b.node, b.nnodes + 1, lutAfterBranch b.lut depth code idx⟩ with
        | .error f => .error f
        | .ok (ca, b2) =>
          match s.readNode fuel (depth + 1) (code + 2 ^ depth) b2 with
          | .error f => .error f
          | .ok (cb, b3) => .ok (idx, ⟨b3.pos, b3.node.set idx (.branch ca cb), b3.nnodes, b3.lut⟩)
    else .error (corruptTreeAt b.pos)

/-- The node a bit string leads to from node n: 0 to child a, 1 to child b (10_state.md R46). -/
def descend (node : Vector TreeNode 521) : NodeIx → Bits → Option NodeIx
  | n, [] => some n
  | n, b :: bs =>
    match node[n] with
    | .branch x y => descend node (if b then y else x) bs
    | .leaf _ => none

/-- ReadTree() from BC_POS (42_huffman.md R172). -/
def State.readTree (s : State) : Except StreamFault TreeBuild :=
  match s.readNode 521 0 0 ⟨s.bcPos.toNat, s.node, 0, s.lut⟩ with
  | .error f => .error f
  | .ok (_, b) => .ok b

/-- The arena, LUT, NNODES, TREE_VALID and BC_POS after a complete tree read (42_huffman.md R172). -/
def State.withTree (s : State) (b : TreeBuild) : State :=
  { s with node := b.node, nnodes := b.nnodes, lut := b.lut, treeValid := true, bcPos := BitVec.ofNat 32 b.pos }

/-- The slow path from node n: one stream bit for each branch (42_huffman.md R173). `fuel` is the number of bits left
in the window, so at fuel 0 the next RdBit is TRUNCATED. -/
def State.walk (s : State) (node : Vector TreeNode 521) : (fuel : Nat) → NodeIx → (pos : Nat) →
    Except StreamFault (Sym × Nat)
  | 0, n, pos =>
    match node[n] with
    | .leaf sym => .ok (sym, pos)
    | .branch _ _ => .error (truncatedAt pos)
  | fuel + 1, n, pos =>
    match node[n] with
    | .leaf sym => .ok (sym, pos)
    | .branch a b =>
      match s.rdBit pos with
      | .error f => .error f
      | .ok (bit, pos') => s.walk node fuel (if bit then b else a) pos'

/-- The slow path from node n, to its end (42_huffman.md R173). -/
def State.walkFrom (s : State) (node : Vector TreeNode 521) (n : NodeIx) (pos : Nat) : Except StreamFault (Sym × Nat) :=
  s.walk node (s.windowBits - pos) n pos

/-- DecodeSym(w) at a position, with an arena and a LUT (42_huffman.md R173). -/
def State.decodeSym (s : State) (node : Vector TreeNode 521) (lut : Vector LutEntry 256) (walk : Bool) (pos : Nat) :
    Except StreamFault (Sym × Nat) :=
  if walk then s.walkFrom node 0 pos
  else
    match lut[(s.peekByte pos).toFin] with
    | .terminal sym len =>
      match s.advance len.val pos with
      | .error f => .error f
      | .ok pos' => .ok (sym, pos')
    | .nonTerminal n =>
      match s.advance 8 pos with
      | .error f => .error f
      | .ok pos' => s.walkFrom node n pos'

/-- The extra value of a run token: RdBits(nb), or 0 where nb = 0 (42_huffman.md R163, R175). -/
def State.readExtra (s : State) (sym pos : Nat) : Except StreamFault (Nat × Nat) :=
  if 0 < runExtraBits sym then s.rdBits (runExtraBits sym) pos else .ok (0, pos)

/-- Bytes put before the bytes a decode gives. -/
def prependBytes (bs : List Byte) : Except StreamFault (List Byte × Nat) → Except StreamFault (List Byte × Nat)
  | .error f => .error f
  | .ok (out, pos) => .ok (bs ++ out, pos)

/-- The symbol loop of HDEC with `room` output bytes still to fill (42_huffman.md R175). Every symbol gives a byte or
faults, so `fuel`, at first the output size, is never exhausted before the room. -/
def State.decodeLoop (s : State) (node : Vector TreeNode 521) (lut : Vector LutEntry 256) (walk : Bool) :
    (fuel room pos : Nat) → Except StreamFault (List Byte × Nat)
  | 0, _, pos => .ok ([], pos)
  | fuel + 1, room, pos =>
    if room = 0 then .ok ([], pos)
    else
      match s.decodeSym node lut walk pos with
      | .error f => .error f
      | .ok (sym, pos1) =>
        if sym.toNat ≤ 255 then
          prependBytes [BitVec.ofNat 8 sym.toNat] (s.decodeLoop node lut walk fuel (room - 1) pos1)
        else if sym.toNat ≤ 260 then
          match s.readExtra sym.toNat pos1 with
          | .error f => .error f
          | .ok (extra, pos2) =>
            let len := runBase sym.toNat + extra
            if len > room then .error ⟨.corruptRun, BitVec.ofNat 32 len, pos2⟩
            else prependBytes (List.replicate len 0#8) (s.decodeLoop node lut walk fuel (room - len) pos2)
        else .error ⟨.corruptSymbol, BitVec.ofNat 32 sym.toNat, pos1⟩

/-- A block that HDEC has decoded: its tree and its bytes. -/
structure DecodedBlock where
  tree : TreeBuild
  bytes : List Byte
  pos : Nat
deriving DecidableEq, Repr

/-- HDEC's tree read, symbol loop and end test for an output of `m` bytes (42_huffman.md R175). -/
def State.decodeBlock (s : State) (walk : Bool) (m : Nat) : Except StreamFault DecodedBlock :=
  match s.readTree with
  | .error f => .error f
  | .ok b =>
    match s.decodeLoop b.node b.lut walk m m b.pos with
    | .error f => .error f
    | .ok (out, pos) =>
      if s.atEnd pos then .ok ⟨b, out, pos⟩
      else .error ⟨.corruptTrailing, BitVec.ofNat 32 (s.windowBits - pos), pos⟩

end Sys2Proof.Machine
end

