-- ==== Sys2Proof/Machine/Huffman.lean ====
section
/-! DEFINITION. The Huffman commands (42_huffman.md R171, R175 to R178). -/

namespace Sys2Proof.Machine

/-- The source block overlaps the writer region (42_huffman.md R171, 20_memory.md R80). -/
def State.hencClash (s : State) (ra rb : RegIx) : Bool :=
  overlaps (s.regNat ra) (s.regNat rb) s.bwBase.toNat s.bwCap.toNat

/-- The bytes HENC may leave with any value: its region from the byte BW_POS stands in (60_exceptions.md R310), or all
of the region where the source overlaps it (42_huffman.md R171). -/
def State.hencRange (s : State) (clash : Bool) : Nat × Nat :=
  if clash then (s.bwBase.toNat, s.bwCap.toNat)
  else (s.bwBase.toNat + s.bwPos.toNat / 8, s.bwCap.toNat - s.bwPos.toNat / 8)

/-- One more free value is drawn where ENC_TREE_POLICY leaves the tree open. -/
def State.drewTree (s : State) : State :=
  match s.cfg.treePolicy with
  | .reference => s
  | .any => { s with draws := s.draws + 1 }

/-- BW_POS holds any value between its own and 8·BW_CAP that 32 bits hold (60_exceptions.md R310, after a fault of
HENC). -/
def State.scrambleBwPos (s : State) : State :=
  { s with
    bwPos := BitVec.ofNat 32
      (s.bwPos.toNat + Config.freeCount s.draws % (min s.regionBits 4294967295 - s.bwPos.toNat + 1))
    draws := s.draws + 1 }

/-- Every WrBits of HENC on its source block (42_huffman.md R171). -/
def State.hencChunks (s : State) (ra rb : RegIx) : List Bits :=
  encodeChunks s.cfg.treePolicy s.draws (s.readBytes (s.regNat ra) (s.regNat rb))

/-- HENC ra, rb (42_huffman.md R171). -/
def execHenc (ra rb : RegIx) (s : State) : Result :=
  s.withRanges [(s.reg ra, s.regNat rb)]
    (match s.wrChunks (s.hencChunks ra rb) with
    | .error info =>
      .next (((s.drewTree.scramble (s.hencRange (s.hencClash ra rb)).1
        (s.hencRange (s.hencClash ra rb)).2).scrambleBwPos).raise .writeOverflow info)
    | .ok s' =>
      if s.hencClash ra rb then
        .next { s.drewTree.scramble (s.hencRange true).1 (s.hencRange true).2 with bwPos := s'.bwPos }.complete
      else .next s'.drewTree.complete)

/-- HDEC ra, rb[, walk] (42_huffman.md R175). -/
def execHdec (ra rb : RegIx) (walk : Bool) (s : State) : Result :=
  s.withRanges [(s.reg ra, s.regNat rb)]
    (match s.decodeBlock walk (s.regNat rb) with
    | .error f => .next ((s.scramble (s.regNat ra) (s.regNat rb)).scrambleTree.raiseStream f)
    | .ok d =>
      .next ((s.storeOrScramble (overlaps (s.regNat ra) (s.regNat rb) s.bcBase.toNat s.bcLen.toNat) (s.regNat ra)
        d.bytes).withTree d.tree |>.setBcPos d.pos).complete)

/-- HTREE (42_huffman.md R176). -/
def execHtree (s : State) : Result :=
  match s.readTree with
  | .error f => .next (s.scrambleTree.raiseStream f)
  | .ok b => .next (s.withTree b).complete

/-- A command that reads NODE and LUT needs TREE_VALID = 1 (10_state.md R48, 42_huffman.md R177, R178). -/
def State.withTreeValid (s : State) (body : Result) : Result :=
  if s.treeValid then body else .next (s.raise .noTree 0#32)

/-- HSYM rd[, walk] (42_huffman.md R177). -/
def execHsym (rd : RegIx) (walk : Bool) (s : State) : Result :=
  s.withTreeValid
    (s.readInto rd ((s.decodeSym s.node s.lut walk s.bcPos.toNat).map (fun r => (r.1.setWidth 32, r.2))))

/-- The word HLUTRD gives for a LUT entry: bit 31 tells the kinds apart (42_huffman.md R178). -/
def lutWord : LutEntry → Word
  | .terminal sym len => BitVec.ofNat 32 (2 ^ 31 + len.val * 2 ^ 16 + sym.toNat)
  | .nonTerminal n => BitVec.ofNat 32 n.val

/-- HLUTRD rd, ra (42_huffman.md R178). -/
def execHlutrd (rd ra : RegIx) (s : State) : Result :=
  s.withTreeValid (.next (s.setReg rd (lutWord s.lut[(s.regByte ra).toFin])).complete)

end Sys2Proof.Machine
end

