-- ==== Sys2Proof/Machine/Plane.lean ====
section
/-! DEFINITION. The plane geometry, the downsampler, the upsampler, residual and reconstruction (45_plane.md). -/

namespace Sys2Proof.Machine

/-! ## Geometry (45_plane.md R250 to R252) -/

/-- W = DIM[15:0] (10_state.md R50). -/
def State.planeW (s : State) : Nat := (s.dim.extractLsb' 0 16).toNat
/-- H = DIM[31:16] (10_state.md R50). -/
def State.planeH (s : State) : Nat := (s.dim.extractLsb' 16 16).toNat
/-- k = PCFG[2:0] (10_state.md R51). -/
def State.scaleLog (s : State) : Nat := (s.pcfg.extractLsb' 0 3).toNat
/-- S = 2^k (10_state.md R51). -/
def State.scale (s : State) : Nat := 2 ^ s.scaleLog
/-- UPK = PCFG[8]: nearest where true, bilinear where false (10_state.md R52). -/
def State.upNearest (s : State) : Bool := s.pcfg.getLsbD 8
/-- LW = ceil(W / S) (45_plane.md R252). -/
def State.lowW (s : State) : Nat := (s.planeW + s.scale - 1) / s.scale
/-- LH = ceil(H / S) (45_plane.md R252). -/
def State.lowH (s : State) : Nat := (s.planeH + s.scale - 1) / s.scale
/-- W·H, the samples of a full-resolution plane (45_plane.md R251). -/
def State.planeSize (s : State) : Nat := s.planeW * s.planeH
/-- LW·LH, the samples of a low-resolution plane (45_plane.md R251). -/
def State.lowSize (s : State) : Nat := s.lowW * s.lowH

/-- The plane configuration check (45_plane.md R250). -/
def State.withPlane (s : State) (body : Result) : Result :=
  if s.planeW = 0 ∨ s.planeH = 0 ∨ s.scaleLog = 0 then .next (s.raise .badArg 0#32) else body

/-! ## Kernels (45_plane.md R254, R256, R257) -/

/-- The coordinates of block `n` of a side of `len` samples: [n·S, min(n·S + S, len)) (45_plane.md R252). -/
def blockRange (n scale len : Nat) : List Nat := List.range' (n * scale) (min (n * scale + scale) len - n * scale)

/-- The pixels of the block of low-resolution sample (x, y) (45_plane.md R252, R254). -/
def State.blockPixels (s : State) (src x y : Nat) : List Nat :=
  (blockRange y s.scale s.planeH).flatMap (fun yy =>
    (blockRange x s.scale s.planeW).map (fun xx => (s.readByte (src + yy * s.planeW + xx)).toNat))

/-- Down(X, Y), the box mean rounded half up (45_plane.md R254). -/
def State.down (s : State) (src x y : Nat) : Nat :=
  let px := s.blockPixels src x y
  (px.sum + px.length / 2) / px.length

/-- Low-resolution sample P[X, Y] at src (45_plane.md R251). -/
def State.lowSample (s : State) (src x y : Nat) : Int := s.readInt16 (src + 2 * (y * s.lowW + x))

/-- Low-resolution sample P[cx(i), cy(j)] with the edge clamp (45_plane.md R256). -/
def State.clampedSample (s : State) (src : Nat) (i j : Int) : Int :=
  s.lowSample src (clampInt i 0 ((s.lowW : Int) - 1)).toNat (clampInt j 0 ((s.lowH : Int) - 1)).toNat

/-- Up(x, y) of the bilinear kernel (45_plane.md R256); `/` rounds toward −∞ for the positive divisors here. -/
def State.upBilinear (s : State) (src x y : Nat) : Int :=
  let S : Int := s.scale
  let D : Int := 2 * S
  let tx : Int := 2 * x + 1 - S
  let x0 : Int := tx / D
  let fx : Int := tx - x0 * D
  let ty : Int := 2 * y + 1 - S
  let y0 : Int := ty / D
  let fy : Int := ty - y0 * D
  let acc : Int :=
    (D - fx) * (D - fy) * s.clampedSample src x0 y0 + fx * (D - fy) * s.clampedSample src (x0 + 1) y0
      + (D - fx) * fy * s.clampedSample src x0 (y0 + 1) + fx * fy * s.clampedSample src (x0 + 1) (y0 + 1)
  (acc + D * D / 2) / (D * D)

/-- Up(x, y) of the nearest kernel (45_plane.md R257). -/
def State.upSampleNearest (s : State) (src x y : Nat) : Int := s.lowSample src (x / s.scale) (y / s.scale)

/-- Up(x, y) of the kernel PCFG selects (45_plane.md R258). -/
def State.up (s : State) (src x y : Nat) : Int :=
  if s.upNearest then s.upSampleNearest src x y else s.upBilinear src x y

/-! ## Commands (45_plane.md R253, R255, R258 to R260) -/

/-- SETDIM ra, rb (45_plane.md R253). -/
def execSetdim (ra rb : RegIx) (s : State) : Result :=
  let w := (s.reg ra).extractLsb' 0 16
  let h := (s.reg ra).extractLsb' 16 16
  let k := (s.reg rb).extractLsb' 0 3
  let u := (s.reg rb).extractLsb' 8 1
  if w = 0 ∨ h = 0 ∨ k.toNat < 1 ∨ k.toNat > 4 then .next (s.raise .badArg (s.reg ra))
  else .next { s with dim := h ++ w, pcfg := 0#23 ++ u ++ 0#5 ++ k }.complete

/-- DSAMP ra, rb (45_plane.md R255). -/
def execDsamp (ra rb : RegIx) (s : State) : Result :=
  s.withPlane
    (s.withRanges [(s.reg ra, 2 * s.lowSize), (s.reg rb, s.planeSize)]
      (.next (s.storeOrScramble (overlaps (s.regNat ra) (2 * s.lowSize) (s.regNat rb) s.planeSize) (s.regNat ra)
        (halvesBytes ((List.range s.lowSize).map
          (fun e => u16 (s.down (s.regNat rb) (e % s.lowW) (e / s.lowW)))))).complete))

/-- USAMP ra, rb (45_plane.md R258). -/
def execUsamp (ra rb : RegIx) (s : State) : Result :=
  s.withPlane
    (s.withRanges [(s.reg ra, 2 * s.planeSize), (s.reg rb, 2 * s.lowSize)]
      (.next (s.storeOrScramble (overlaps (s.regNat ra) (2 * s.planeSize) (s.regNat rb) (2 * s.lowSize)) (s.regNat ra)
        (halvesBytes ((List.range s.planeSize).map
          (fun e => u16 (s.up (s.regNat rb) (e % s.planeW) (e / s.planeW)))))).complete))

/-- The residual of a pixel against a prediction (45_plane.md R259). -/
def residualOf (pix : Byte) (pred : Int) : Int := clampInt ((pix.toNat : Int) - pred) (-32768) 32767

/-- The pixel of a prediction and a residual (45_plane.md R260). -/
def pixelOf (pred res : Int) : Byte := BitVec.ofInt 8 (clampInt (pred + res) 0 255)

/-- RESID ra, rb, rc, exact where the destination is the prediction (45_plane.md R259, 20_memory.md R80). -/
def execResid (ra rb rc : RegIx) (s : State) : Result :=
  s.withPlane
    (s.withRanges [(s.reg ra, 2 * s.planeSize), (s.reg rb, s.planeSize), (s.reg rc, 2 * s.planeSize)]
      (.next (s.storeOrScramble
        (overlaps (s.regNat ra) (2 * s.planeSize) (s.regNat rb) s.planeSize ||
          (s.regNat ra != s.regNat rc && overlaps (s.regNat ra) (2 * s.planeSize) (s.regNat rc) (2 * s.planeSize)))
        (s.regNat ra)
        (halvesBytes ((List.range s.planeSize).map (fun i =>
          u16 (residualOf (s.readByte (s.regNat rb + i)) (s.readInt16 (s.regNat rc + 2 * i))))))).complete))

/-- RECON ra, rb, rc (45_plane.md R260). -/
def execRecon (ra rb rc : RegIx) (s : State) : Result :=
  s.withPlane
    (s.withRanges [(s.reg ra, s.planeSize), (s.reg rb, 2 * s.planeSize), (s.reg rc, 2 * s.planeSize)]
      (.next (s.storeOrScramble
        (overlaps (s.regNat ra) s.planeSize (s.regNat rb) (2 * s.planeSize) ||
          overlaps (s.regNat ra) s.planeSize (s.regNat rc) (2 * s.planeSize))
        (s.regNat ra)
        ((List.range s.planeSize).map (fun i =>
          pixelOf (s.readInt16 (s.regNat rb + 2 * i)) (s.readInt16 (s.regNat rc + 2 * i))))).complete))

end Sys2Proof.Machine
end

