-- ==== Sys2Proof/Machine/Fetch.lean ====
section
/-! DEFINITION. Fetching a command word (46_control.md R280), and the destination range of a command (20_memory.md R80). -/

namespace Sys2Proof.Machine

/-- What the fetch at CP finds (46_control.md R280). -/
inductive Fetched where
  /-- CP + 4 > MEM_BYTES (20_memory.md R75). -/
  | outOfRange
  /-- The word does not decode (30_encoding.md R103). -/
  | illegal (word : Word)
  | command (i : Instr)
deriving DecidableEq, Repr

/-- MemRead(CP, 4) (30_encoding.md R100, 20_memory.md R74). -/
def State.fetchWord (s : State) : Word :=
  wordOfBytes (s.readByte s.cp.toNat) (s.readByte (s.cp.toNat + 1)) (s.readByte (s.cp.toNat + 2))
    (s.readByte (s.cp.toNat + 3))

/-- Fetch and decode (46_control.md R280). -/
def State.fetch (s : State) : Fetched :=
  if s.cp.toNat + 4 > s.cfg.memBytes then .outOfRange
  else
    match decodeWord s.fetchWord with
    | .ok i => .command i
    | .error _ => .illegal s.fetchWord

/-- A command word stored at CP. -/
def State.storeWordAtCp (s : State) (w : Word) : State := s.storeBytes s.cp.toNat (bytesOfWord w)

/-- The destination range (start, length) of a command, as its rule names it (20_memory.md R80); length 0 where it
stores nothing, as a BWBITS that does not fit its region (41_bitstream.md R136). -/
def State.destRange (s : State) : Instr → Nat × Nat
  | .bwbits _ n =>
    if s.bwPos.toNat + n > s.regionBits then (0, 0)
    else (s.bwBase.toNat + s.bwPos.toNat / 8, (s.bwPos.toNat + n + 7) / 8 - s.bwPos.toNat / 8)
  | .henc ra rb => s.hencRange (s.hencClash ra rb)
  | .hdec ra rb _ => (s.regNat ra, s.regNat rb)
  | .mstore _ ra => (s.regNat ra, 256)
  | .mmapv _ ra _ rc => (s.regNat ra, s.regNat rc)
  | .munmapv _ ra _ rc => (s.regNat ra, 2 * s.regNat rc)
  | .quantv _ ra _ rc => (s.regNat ra, 2 * s.regNat rc)
  | .dequantv _ ra _ rc => (s.regNat ra, 2 * s.regNat rc)
  | .dsamp ra _ => (s.regNat ra, 2 * s.lowSize)
  | .usamp ra _ => (s.regNat ra, 2 * s.planeSize)
  | .resid ra _ _ => (s.regNat ra, 2 * s.planeSize)
  | .recon ra _ _ => (s.regNat ra, s.planeSize)
  | .halt | .nop | .li _ _ | .lih _ _ | .add _ _ _ | .addi _ _ _ | .brinit _ _ | .brbit _ | .brbits _ _ | .brpeek _
  | .bradv _ | .brend _ | .brpos _ | .bwinit _ _ | .bwsize _ | .htree | .hsym _ _ | .hlutrd _ _ | .mload _ _
  | .msize _ | .mqinit _ _ | .mmap _ _ _ | .munmap _ _ _ | .setq _ _ | .quant _ _ _ | .dequant _ _ _
  | .setdim _ _ => (0, 0)

end Sys2Proof.Machine
end

