-- ==== Sys2Proof/Machine/Mapping.lean ====
section
/-! DEFINITION. The mapping tables: validity, Map and Unmap, the quality curve, and the mapping commands
(43_mapping.md). -/

namespace Sys2Proof.Machine

/-- A 128-entry table (10_state.md R44). -/
abbrev MapTable := Vector Half 128

/-! ## Functions (43_mapping.md R200 to R204, R213) -/

/-- Entry n of a table, for n in 0..127. -/
def entryOf (T : MapTable) (n : Nat) : Nat := (T[min n 127]'(by omega)).toNat

/-- The first i with T[i] > T[i+1], of entries numbered from `i` (43_mapping.md R212). -/
def firstDrop : List Half → (i : Nat) → Option Nat
  | x :: y :: rest, i => if x.toNat > y.toNat then some i else firstDrop (y :: rest) (i + 1)
  | _, _ => none

/-- The info of the CORRUPT_MAP that loading a table raises: the first i with T[i] > T[i+1], or 127 for T[127] > 32767;
none for a valid table (43_mapping.md R200, R212). -/
def tableFault (T : MapTable) : Option Nat :=
  match firstDrop T.toList 0 with
  | some i => some i
  | none => if entryOf T 127 > 32767 then some 127 else none

/-- Unmap(t, c) for a table (43_mapping.md R203). -/
def unmapCode (T : MapTable) (c : Byte) : Int :=
  let k := c.toInt
  if 0 ≤ k then (entryOf T k.toNat : Int)
  else if -127 ≤ k then -(entryOf T (-k).toNat : Int)
  else -(entryOf T 127 : Int)

/-- |T[i] − m| (43_mapping.md R204). -/
def distance (e : Half) (m : Nat) : Nat := (e.toNat - m) + (m - e.toNat)

/-- The least index with the least distance: of the entries numbered from `i`, and of `best` at distance `d`. -/
def scanNearest (m : Nat) : List Half → (i best d : Nat) → Nat
  | [], _, best, _ => best
  | e :: es, i, best, d =>
    if distance e m < d then scanNearest m es (i + 1) i (distance e m) else scanNearest m es (i + 1) best d

/-- The least index in 0..127 that minimizes |T[i] − m| (43_mapping.md R204). -/
def nearestIndex (T : MapTable) (m : Nat) : Nat := scanNearest m T.toList 0 0 (distance T[0] m)

/-- Map(t, v) for a table (43_mapping.md R204). -/
def mapCode (T : MapTable) (v : Int) : Byte :=
  let i := nearestIndex T v.natAbs
  if 0 ≤ v then BitVec.ofNat 8 i else BitVec.ofNat 8 ((256 - i) % 256)

/-- The reference quality curve (43_mapping.md R213). -/
def referenceCurve (q : Nat) : MapTable :=
  Vector.ofFn (fun i : Fin 128 => BitVec.ofNat 16 (i.val + i.val * i.val * (100 - q) / 1600))

/-- QUALITY_CURVE: the reference, or the implementation's own, which is any curve of valid tables (43_mapping.md R213;
assumption log 18). -/
def qualityTable (curve : QualityCurve) (q : Nat) : MapTable :=
  match curve with
  | .reference => referenceCurve q
  | .own =>
    let T : MapTable := Vector.ofFn (Config.ownCurve q)
    if tableFault T = none then T else referenceCurve q

/-! ## Commands (43_mapping.md R212 to R220) -/

/-- A command that reads MT[t] needs TVALID[t] = 1 (43_mapping.md R201). -/
def State.withTable (s : State) (t : TableIx) (body : Result) : Result :=
  if s.tvalid[t] then body else .next (s.raise .noTable (BitVec.ofNat 32 t.val))

/-- MT[t] ← T; TVALID[t] ← 1. -/
def State.setTable (s : State) (t : TableIx) (T : MapTable) : State :=
  { s with mt := s.mt.set t T, tvalid := s.tvalid.set t true }

/-- The 128 entries serialized at an address (43_mapping.md R211). -/
def State.readTable (s : State) (a : Nat) : MapTable := Vector.ofFn (fun i : Fin 128 => s.readHalf (a + 2 * i.val))

/-- The 256 bytes of a serialized table (43_mapping.md R211). -/
def tableBytes (T : MapTable) : List Byte := halvesBytes T.toList

/-- MLOAD t, ra (43_mapping.md R212). -/
def execMload (t : TableIx) (ra : RegIx) (s : State) : Result :=
  s.withRanges [(s.reg ra, 256)]
    (match tableFault (s.readTable (s.regNat ra)) with
    | some i => .next (s.raise .corruptMap (BitVec.ofNat 32 i))
    | none => .next (s.setTable t (s.readTable (s.regNat ra))).complete)

/-- MSTORE t, ra (43_mapping.md R215). -/
def execMstore (t : TableIx) (ra : RegIx) (s : State) : Result :=
  s.withTable t (s.withRanges [(s.reg ra, 256)] (.next (s.storeBytes (s.regNat ra) (tableBytes s.mt[t])).complete))

/-- MSIZE rd (43_mapping.md R216). -/
def execMsize (rd : RegIx) (s : State) : Result := .next (s.setReg rd 256#32).complete

/-- MQINIT t, ra (43_mapping.md R214). -/
def execMqinit (t : TableIx) (ra : RegIx) (s : State) : Result :=
  .next (s.setTable t (qualityTable s.cfg.curve (min (s.regNat ra) 100))).complete

/-- MMAP rd, ra, t (43_mapping.md R217). -/
def execMmap (rd ra : RegIx) (t : TableIx) (s : State) : Result :=
  s.withTable t (.next (s.setReg rd ((mapCode s.mt[t] (s.regInt16 ra)).setWidth 32)).complete)

/-- MUNMAP rd, ra, t (43_mapping.md R218). -/
def execMunmap (rd ra : RegIx) (t : TableIx) (s : State) : Result :=
  s.withTable t (.next (s.setReg rd (sextInt16 (unmapCode s.mt[t] (s.regByte ra)))).complete)

/-- MMAPV t, ra, rb, rc (43_mapping.md R219). -/
def execMmapv (t : TableIx) (ra rb rc : RegIx) (s : State) : Result :=
  s.withTable t
    (s.withRanges [(s.reg ra, s.regNat rc), (s.reg rb, 2 * s.regNat rc)]
      (.next (s.storeOrScramble (overlaps (s.regNat ra) (s.regNat rc) (s.regNat rb) (2 * s.regNat rc)) (s.regNat ra)
        ((List.range (s.regNat rc)).map (fun k => mapCode s.mt[t] (s.readInt16 (s.regNat rb + 2 * k))))).complete))

/-- MUNMAPV t, ra, rb, rc (43_mapping.md R220). -/
def execMunmapv (t : TableIx) (ra rb rc : RegIx) (s : State) : Result :=
  s.withTable t
    (s.withRanges [(s.reg ra, 2 * s.regNat rc), (s.reg rb, s.regNat rc)]
      (.next (s.storeOrScramble (overlaps (s.regNat ra) (2 * s.regNat rc) (s.regNat rb) (s.regNat rc)) (s.regNat ra)
        (halvesBytes ((List.range (s.regNat rc)).map
          (fun k => u16 (unmapCode s.mt[t] (s.readByte (s.regNat rb + k))))))).complete))

end Sys2Proof.Machine
end

