-- ==== Sys2Proof/Machine/Loose.lean ====
section
/-! DEFINITION. What is loose after a memory-port write while BUSY (20_memory.md R78, 93_implementation_defined.md U7): the
pieces of the state, any legal values for some of them, and the pieces in which two states differ. Also the bytes a soft
reset leaves with any value (70_reset_and_hazards.md R341). -/

namespace Sys2Proof.Machine

/-! ## Pieces -/

/-- A piece is the same in two states. -/
def Piece.agrees (s t : State) : Piece → Bool
  | .reg r => s.reg r == t.reg r
  | .errinfo => s.errinfo == t.errinfo
  | .bcBase => s.bcBase == t.bcBase
  | .bcLen => s.bcLen == t.bcLen
  | .bcPos => s.bcPos == t.bcPos
  | .bwBase => s.bwBase == t.bwBase
  | .bwCap => s.bwCap == t.bwCap
  | .bwPos => s.bwPos == t.bwPos
  | .entry k i => s.mt[k][i] == t.mt[k][i]
  | .tvalid k => s.tvalid[k] == t.tvalid[k]
  | .qstep q => s.qstep[q] == t.qstep[q]
  | .node n => s.node[n] == t.node[n]
  | .nnodes => s.nnodes == t.nnodes
  | .lut key => s.lut[key] == t.lut[key]
  | .treeValid => s.treeValid == t.treeValid
  | .dim => s.dim == t.dim
  | .pcfg => s.pcfg == t.pcfg
  | .byte a => s.readByte a == t.readByte a

/-- Every piece but the bytes of memory. -/
def fixedPieces : List Piece :=
  [.errinfo, .bcBase, .bcLen, .bcPos, .bwBase, .bwCap, .bwPos, .nnodes, .treeValid, .dim, .pcfg] ++
    (List.finRange 8).map .reg ++ (List.finRange 2).map .tvalid ++ (List.finRange 4).map .qstep ++
    (List.finRange 2).flatMap (fun t => (List.finRange 128).map (.entry t)) ++ (List.finRange 521).map .node ++
    (List.finRange 256).map .lut

/-- The bytes that a state lists in memory. -/
def State.listedBytes (s : State) : List Piece := s.mem.map (fun c => .byte c.1)

/-- The pieces in which a state differs from another with the same unwritten memory. -/
def State.differing (s t : State) : List Piece :=
  (fixedPieces ++ s.listedBytes ++ t.listedBytes).filter (fun p => !p.agrees s t)

/-! ## Any legal values -/

/-- A piece takes its value of a draw, legal or not. -/
def State.redrawPiece (d : Nat) (s : State) : Piece → State
  | .reg r => s.setReg r (Config.freeReg d r)
  | .errinfo => { s with errinfo := Config.freeField d 0 }
  | .bcBase => { s with bcBase := Config.freeField d 1 }
  | .bcLen => { s with bcLen := Config.freeField d 2 }
  | .bcPos => { s with bcPos := Config.freeField d 3 }
  | .bwBase => { s with bwBase := Config.freeField d 4 }
  | .bwCap => { s with bwCap := Config.freeField d 5 }
  | .bwPos => { s with bwPos := Config.freeField d 6 }
  | .entry t i => { s with mt := s.mt.set t (s.mt[t].set i (Config.freeEntry d t i)) }
  | .tvalid t => { s with tvalid := s.tvalid.set t ((Config.freeField d (7 + t.val)).getLsbD 0) }
  | .qstep q => { s with qstep := s.qstep.set q ((Config.freeField d (9 + q.val)).extractLsb' 0 16) }
  | .node n => { s with node := s.node.set n (Config.freeNode d n) }
  | .nnodes => { s with nnodes := Config.freeCount d % 522 }
  | .lut key => { s with lut := s.lut.set key (Config.freeLut d key) }
  | .treeValid => { s with treeValid := (Config.freeField d 13).getLsbD 0 }
  | .dim => { s with dim := Config.freeField d 14 }
  | .pcfg => { s with pcfg := Config.freeField d 15 }
  | .byte a => if a < s.cfg.memBytes then { s with mem := s.mem.put a (Config.freeByte d a) } else s

/-- The cursor window as 10_state.md R42 has it: in memory or empty, BC_POS inside; an empty one has any base. -/
def State.readerLegal (s : State) : Bool :=
  decide (s.bcPos.toNat ≤ s.windowBits) && s.inRange s.bcBase.toNat s.bcLen.toNat

/-- The writer region as 10_state.md R43 has it: in memory or empty, BW_POS inside; an empty one has any base. -/
def State.writerLegal (s : State) : Bool :=
  decide (s.bwPos.toNat ≤ s.regionBits) && s.inRange s.bwBase.toNat s.bwCap.toNat

/-- Every present table is valid (10_state.md R44, 43_mapping.md R200). -/
def State.tablesLegal (s : State) : Bool :=
  (List.finRange 2).all (fun t => !s.tvalid[t] || tableFault s.mt[t] == none)

/-- Every step is at least 1 (10_state.md R45). -/
def State.stepsLegal (s : State) : Bool := (List.finRange 4).all (fun q => s.qstep[q] != 0#16)

/-- No plane, or a legal one, the reserved bits of PCFG 0 (10_state.md R50 to R52, 45_plane.md R253). -/
def State.planeLegal (s : State) : Bool :=
  (s.dim == 0#32 && s.pcfg == 0#32) ||
    (s.planeW != 0 && s.planeH != 0 && s.scaleLog != 0 && decide (s.scaleLog ≤ 4) &&
      s.pcfg &&& 0xFFFFFEF8#32 == 0#32)

/-- A LUT entry names the leaf or the branch that its key's bits lead to (10_state.md R47, 42_huffman.md R172). -/
def lutEntryLegal (node : Vector TreeNode 521) (key : Nat) : LutEntry → Bool
  | .terminal sym len =>
    match descend node 0 (bitsOfNat len.val key) with
    | some n => node[n] == .leaf sym
    | none => false
  | .nonTerminal n =>
    descend node 0 (bitsOfNat 8 key) == some n &&
      (match node[n] with
      | .branch _ _ => true
      | .leaf _ => false)

/-- The children of a node stand after it, among the nodes in use (42_huffman.md R172). -/
def childrenLegal (nnodes n : Nat) : TreeNode → Bool
  | .leaf _ => true
  | .branch a b => decide (n < a.val ∧ a.val < nnodes ∧ n < b.val ∧ b.val < nnodes)

/-- No tree, or nodes in use that form one, with a LUT that agrees (10_state.md R46 to R48). -/
def State.treeLegal (s : State) : Bool :=
  decide (s.nnodes ≤ 521) &&
    (!s.treeValid ||
      (s.nnodes != 0 &&
        (List.finRange 521).all (fun n => decide (s.nnodes ≤ n.val) || childrenLegal s.nnodes n.val s.node[n]) &&
        (List.finRange 256).all (fun key => lutEntryLegal s.node key.val s.lut[key])))

/-- The new state, each unit of it as in the old one where the new values are no legal ones together. ERRINFO changes in
FAILED alone (10_state.md R38). -/
def State.keepLegal (old new : State) : State :=
  { new with
    errinfo := if new.engine = .failed then new.errinfo else old.errinfo
    bcBase := if new.readerLegal then new.bcBase else old.bcBase
    bcLen := if new.readerLegal then new.bcLen else old.bcLen
    bcPos := if new.readerLegal then new.bcPos else old.bcPos
    bwBase := if new.writerLegal then new.bwBase else old.bwBase
    bwCap := if new.writerLegal then new.bwCap else old.bwCap
    bwPos := if new.writerLegal then new.bwPos else old.bwPos
    mt := if new.tablesLegal then new.mt else old.mt
    tvalid := if new.tablesLegal then new.tvalid else old.tvalid
    qstep := if new.stepsLegal then new.qstep else old.qstep
    node := if new.treeLegal then new.node else old.node
    nnodes := if new.treeLegal then new.nnodes else old.nnodes
    lut := if new.treeLegal then new.lut else old.lut
    treeValid := if new.treeLegal then new.treeValid else old.treeValid
    dim := if new.planeLegal then new.dim else old.dim
    pcfg := if new.planeLegal then new.pcfg else old.pcfg }

/-- Some pieces hold any values that are legal together, of one draw; the others their own. -/
def State.drawn (s : State) (ps : List Piece) (d : Nat) : State := s.keepLegal (ps.foldl (State.redrawPiece d) s)

/-- The states a command is run from: the state itself, or where some pieces are loose, any number of states that differ
from it in any legal values of those pieces. Each makes its further draws from the same number on. -/
def State.variants (s : State) : List State :=
  match s.loose with
  | [] => [s]
  | _ :: _ =>
    (List.range (Config.freeCount s.draws + 1)).map (fun k =>
      { s.drawn s.loose (s.draws + 1 + k) with draws := s.draws + Config.freeCount s.draws + 2 })

/-! ## A command that a soft reset abandons -/

/-- The destination range of the command at CP, where the engine is BUSY, a command stands there, and the range lies in
memory (20_memory.md R75); else none. -/
def State.destAtCp (s : State) : Nat × Nat :=
  match s.engine with
  | .busy =>
    match s.fetch with
    | .command i => if s.inRange (s.destRange i).1 (s.destRange i).2 then s.destRange i else (0, 0)
    | .illegal _ | .outOfRange => (0, 0)
  | .idle | .done | .failed => (0, 0)

/-- The command at CP is abandoned at an unspecified point: every byte of its destination range holds any value, and
every other byte keeps its own (70_reset_and_hazards.md R341, 93_implementation_defined.md U8; assumption log 11). Where
what decides the range is loose, so is the range. -/
def State.abandonCommand (s : State) : State :=
  s.variants.foldl (fun t v => t.scramble v.destAtCp.1 v.destAtCp.2) s

end Sys2Proof.Machine
end

