-- ==== Sys2Proof/Machine/HostPort.lean ====
section
/-! DEFINITION. The host's transactions: the register port (10_state.md R40), the memory port (20_memory.md R78), and
the two resets (70_reset_and_hazards.md R340, R341). -/

namespace Sys2Proof.Machine

/-! ## Resets -/

/-- The reset input (70_reset_and_hazards.md R340): every element at its stated value, and R0 to R7, MT, NODE, LUT and
MEM at any value. The parameters, the last value read and the turns to come are not the machine's. -/
def State.hardReset (s : State) : State :=
  State.afterReset s.cfg (Vector.ofFn (Config.freeReg s.draws))
    (Vector.ofFn (fun t => Vector.ofFn (Config.freeEntry s.draws t)))
    (Vector.ofFn (Config.freeNode s.draws)) (Vector.ofFn (Config.freeLut s.draws)) s.draws (s.draws + 1)
    s.hostData s.inputs

/-- The soft reset CTRL.SRST (70_reset_and_hazards.md R341): every element with a stated reset value takes it; R0 to R7,
MT, NODE, LUT and MEM keep their own, but for the destination of a command it abandons. -/
def State.softReset (s : State) : State :=
  let a := s.abandonCommand
  { a with
    engine := .idle, ie := false, cp := 0#32, cmdcnt := 0#32, err := 0#32, errcp := 0#32, errinfo := 0#32
    bcBase := 0#32, bcLen := 0#32, bcPos := 0#32, bwBase := 0#32, bwCap := 0#32, bwPos := 0#32
    tvalid := Vector.replicate 2 false, qstep := Vector.replicate 4 1#16, nnodes := 0, treeValid := false
    dim := 0#32, pcfg := 0#32, loose := [] }

/-! ## Register port (10_state.md R34 to R54) -/

/-- CTRL.GO: from IDLE, CMDCNT ← 0 and STATE ← BUSY; ignored otherwise (10_state.md R34). What an earlier run left loose
has its value now (assumption log 12). -/
def State.go (s : State) : State :=
  match s.engine with
  | .idle => { s with engine := .busy, cmdcnt := 0#32, loose := [] }
  | .busy | .done | .failed => s

/-- A write of CTRL: SRST first, and it alone; else IE, then CLR, then GO (10_state.md R34, 70_reset_and_hazards.md
R341). While BUSY, CLR and GO find no state they act in. -/
def State.writeCtrl (s : State) (v : Word) : State :=
  if v.getLsbD 2 then s.softReset
  else
    let s1 := { s with ie := v.getLsbD 8 }
    let s2 := if v.getLsbD 1 then s1.clear else s1
    if v.getLsbD 0 then s2.go else s2

/-- CP as the host writes it: bits 1:0 are hardwired to 0 (10_state.md R32). -/
def alignCp (v : Word) : Word := v &&& 0xFFFFFFFC#32

/-- A 32-bit write of the register at offset 4 · reg (10_state.md R40): CTRL; CP and R[i] while not BUSY; every other
register is read-only or reserved and ignores it. -/
def State.regPortWrite (s : State) (reg : Fin 64) (v : Word) : State :=
  if reg.val = 1 then s.writeCtrl v
  else if s.engine = .busy then s
  else if reg.val = 6 then { s with cp := alignCp v }
  else if h : 8 ≤ reg.val ∧ reg.val ≤ 15 then s.setReg ⟨reg.val - 8, by omega⟩ v
  else s

/-- ID, the ASCII bytes of HMG1 (10_state.md R41). -/
def idWord : Word := 0x484D4731#32

/-- The true value of the register at offset 4 · reg; a reserved offset reads 0 (10_state.md R40). -/
def State.regPortValue (s : State) (reg : Fin 64) : Word :=
  if h : 8 ≤ reg.val ∧ reg.val ≤ 15 then s.reg ⟨reg.val - 8, by omega⟩
  else
    match reg.val with
    | 0 => idWord
    | 1 => s.ctrlWord
    | 2 => s.statusWord
    | 3 => s.err
    | 4 => s.errcp
    | 5 => s.errinfo
    | 6 => s.cp
    | 7 => s.cmdcnt
    | 16 => s.bcBase
    | 17 => s.bcLen
    | 18 => s.bcPos
    | 20 => s.bwBase
    | 21 => s.bwCap
    | 22 => s.bwPos
    | 24 => s.qstep[0].setWidth 32
    | 25 => s.qstep[1].setWidth 32
    | 26 => s.qstep[2].setWidth 32
    | 27 => s.qstep[3].setWidth 32
    | 28 => s.dim
    | 29 => s.pcfg
    | 30 => s.validWord
    | 31 => BitVec.ofNat 32 s.cfg.memBytes
    | _ => 0#32

/-- A register that reads its true value in any state: ID, CTRL, STATUS and MEMSIZE (10_state.md R40), and a reserved
offset, which reads 0. -/
def alwaysReadable (reg : Fin 64) : Bool :=
  reg.val ≤ 2 || reg.val == 19 || reg.val == 23 || decide (31 ≤ reg.val)

/-- A 32-bit read of the register at offset 4 · reg: any value for the registers that are not always readable, while
BUSY (10_state.md R40, 93_implementation_defined.md U4). -/
def State.regPortRead (s : State) (reg : Fin 64) : State :=
  if s.engine = .busy ∧ alwaysReadable reg = false then
    { s with hostData := Config.freeWord s.draws, draws := s.draws + 1 }
  else { s with hostData := s.regPortValue reg }

/-! ## Memory port (20_memory.md R78) -/

/-- A byte read through the memory port; any value while BUSY (93_implementation_defined.md U7). -/
def State.memPortRead (s : State) (a : Word) : State :=
  if s.engine = .busy then
    { s with hostData := (Config.freeByte s.draws a.toNat).setWidth 32, draws := s.draws + 1 }
  else { s with hostData := (s.readByte a.toNat).setWidth 32 }

/-- A byte write through the memory port; while BUSY it leaves the byte, and every result of the run that depends on it,
with any value (20_memory.md R78, 93_implementation_defined.md U7; assumption log 12). -/
def State.memPortWrite (s : State) (a : Word) (b : Byte) : State :=
  if s.engine = .busy then { s.scramble a.toNat 1 with loose := .byte a.toNat :: s.loose } else s.storeBytes a.toNat [b]

/-- One transaction of the host (10_state.md R56). -/
def hostTurn (a : HostAction) (s : State) : Result :=
  match a with
  | .regRead reg => .next (s.regPortRead reg)
  | .regWrite reg v => .next (s.regPortWrite reg v)
  | .memRead addr => if addr.toNat < s.cfg.memBytes then .next (s.memPortRead addr) else .fault (.hostAddress addr)
  | .memWrite addr b =>
    if addr.toNat < s.cfg.memBytes then .next (s.memPortWrite addr b) else .fault (.hostAddress addr)
  | .resetInput => .next s.hardReset

end Sys2Proof.Machine
end

