-- ==== Sys2Proof/Machine/Control.lean ====
section
/-! DEFINITION. Engine control and register commands (46_control.md R282 to R287). -/

namespace Sys2Proof.Machine

/-- HALT (46_control.md R282). -/
def execHalt (s : State) : Result := .next { s.complete with engine := .done }

/-- NOP (46_control.md R283). -/
def execNop (s : State) : Result := .next s.complete

/-- LI rd, imm16 (46_control.md R284). -/
def execLi (rd : RegIx) (imm : BitVec 16) (s : State) : Result := .next (s.setReg rd (zextImm16 imm)).complete

/-- LIH rd, imm16 (46_control.md R285). -/
def execLih (rd : RegIx) (imm : BitVec 16) (s : State) : Result :=
  .next (s.setReg rd (highHalf imm (s.reg rd))).complete

/-- ADD rd, ra, rb (46_control.md R286). -/
def execAdd (rd ra rb : RegIx) (s : State) : Result := .next (s.setReg rd (s.reg ra + s.reg rb)).complete

/-- ADDI rd, ra, simm14 (46_control.md R287). -/
def execAddi (rd ra : RegIx) (imm : BitVec 14) (s : State) : Result :=
  .next (s.setReg rd (s.reg ra + sextImm14 imm)).complete

end Sys2Proof.Machine
end

