-- ==== Sys2Proof/Machine/Quant.lean ====
section
/-! DEFINITION. The scalar quantizer (44_quant.md). -/

namespace Sys2Proof.Machine

/-- The nearest step index before the clamp, half away from zero (44_quant.md R231). -/
def roundIndex (v : Int) (step : Nat) : Int :=
  let m : Int := ((2 * v.natAbs + step) / (2 * step) : Nat)
  if 0 ≤ v then m else -m

/-- Quantize(v, s) (44_quant.md R231). -/
def quantize (v : Int) (step : Nat) : Int :=
  let idx := roundIndex v step
  if idx * step > 32767 then ((32767 / step : Nat) : Int)
  else if idx * step < -32768 then -((32768 / step : Nat) : Int)
  else idx

/-- Dequantize(idx, s) (44_quant.md R232). -/
def dequantize (idx : Int) (step : Nat) : Int := clampInt (idx * step) (-32768) 32767

/-- QSTEP[q] (10_state.md R45). -/
def State.quantStep (s : State) (q : StepIx) : Nat := s.qstep[q].toNat

/-- QUANTV and DEQUANTV: a function of each 16-bit element, exact in place (44_quant.md R237, R238, 20_memory.md
R80). -/
def State.mapSamples (s : State) (f : Int → Int) (ra rb rc : RegIx) : Result :=
  s.withRanges [(s.reg ra, 2 * s.regNat rc), (s.reg rb, 2 * s.regNat rc)]
    (.next (s.storeOrScramble
      (s.regNat ra != s.regNat rb && overlaps (s.regNat ra) (2 * s.regNat rc) (s.regNat rb) (2 * s.regNat rc))
      (s.regNat ra)
      (halvesBytes ((List.range (s.regNat rc)).map (fun k => u16 (f (s.readInt16 (s.regNat rb + 2 * k))))))).complete)

/-- SETQ q, ra (44_quant.md R234). -/
def execSetq (q : StepIx) (ra : RegIx) (s : State) : Result :=
  if s.regNat ra = 0 ∨ s.regNat ra > 65535 then .next (s.raise .badStep (s.reg ra))
  else .next { s with qstep := s.qstep.set q (BitVec.ofNat 16 (s.regNat ra)) }.complete

/-- QUANT rd, ra, q (44_quant.md R235). -/
def execQuant (rd ra : RegIx) (q : StepIx) (s : State) : Result :=
  .next (s.setReg rd (sextInt16 (quantize (s.regInt16 ra) (s.quantStep q)))).complete

/-- DEQUANT rd, ra, q (44_quant.md R236). -/
def execDequant (rd ra : RegIx) (q : StepIx) (s : State) : Result :=
  .next (s.setReg rd (sextInt16 (dequantize (s.regInt16 ra) (s.quantStep q)))).complete

/-- QUANTV q, ra, rb, rc (44_quant.md R237). -/
def execQuantv (q : StepIx) (ra rb rc : RegIx) (s : State) : Result :=
  s.mapSamples (fun v => quantize v (s.quantStep q)) ra rb rc

/-- DEQUANTV q, ra, rb, rc (44_quant.md R238). -/
def execDequantv (q : StepIx) (ra rb rc : RegIx) (s : State) : Result :=
  s.mapSamples (fun v => dequantize v (s.quantStep q)) ra rb rc

end Sys2Proof.Machine
end

