-- ==== Sys2Proof/Machine/Dispatch.lean ====
section
/-! DEFINITION. exec: one arm per command, each one direct call of its meaning. -/

namespace Sys2Proof.Machine

def exec (i : Instr) (s : State) : Host.Outcome State Fault Refusal :=
  match i with
  | .halt => Sys2Proof.Machine.execHalt s
  | .nop => Sys2Proof.Machine.execNop s
  | .li rd imm => Sys2Proof.Machine.execLi rd imm s
  | .lih rd imm => Sys2Proof.Machine.execLih rd imm s
  | .add rd ra rb => Sys2Proof.Machine.execAdd rd ra rb s
  | .addi rd ra imm => Sys2Proof.Machine.execAddi rd ra imm s
  | .brinit ra rb => Sys2Proof.Machine.execBrinit ra rb s
  | .brbit rd => Sys2Proof.Machine.execBrbit rd s
  | .brbits rd n => Sys2Proof.Machine.execBrbits rd n s
  | .brpeek rd => Sys2Proof.Machine.execBrpeek rd s
  | .bradv ra => Sys2Proof.Machine.execBradv ra s
  | .brend rd => Sys2Proof.Machine.execBrend rd s
  | .brpos rd => Sys2Proof.Machine.execBrpos rd s
  | .bwinit ra rb => Sys2Proof.Machine.execBwinit ra rb s
  | .bwbits ra n => Sys2Proof.Machine.execBwbits ra n s
  | .bwsize rd => Sys2Proof.Machine.execBwsize rd s
  | .henc ra rb => Sys2Proof.Machine.execHenc ra rb s
  | .hdec ra rb w => Sys2Proof.Machine.execHdec ra rb w s
  | .htree => Sys2Proof.Machine.execHtree s
  | .hsym rd w => Sys2Proof.Machine.execHsym rd w s
  | .hlutrd rd ra => Sys2Proof.Machine.execHlutrd rd ra s
  | .mload t ra => Sys2Proof.Machine.execMload t ra s
  | .mstore t ra => Sys2Proof.Machine.execMstore t ra s
  | .msize rd => Sys2Proof.Machine.execMsize rd s
  | .mqinit t ra => Sys2Proof.Machine.execMqinit t ra s
  | .mmap rd ra t => Sys2Proof.Machine.execMmap rd ra t s
  | .munmap rd ra t => Sys2Proof.Machine.execMunmap rd ra t s
  | .mmapv t ra rb rc => Sys2Proof.Machine.execMmapv t ra rb rc s
  | .munmapv t ra rb rc => Sys2Proof.Machine.execMunmapv t ra rb rc s
  | .setq q ra => Sys2Proof.Machine.execSetq q ra s
  | .quant rd ra q => Sys2Proof.Machine.execQuant rd ra q s
  | .dequant rd ra q => Sys2Proof.Machine.execDequant rd ra q s
  | .quantv q ra rb rc => Sys2Proof.Machine.execQuantv q ra rb rc s
  | .dequantv q ra rb rc => Sys2Proof.Machine.execDequantv q ra rb rc s
  | .setdim ra rb => Sys2Proof.Machine.execSetdim ra rb s
  | .dsamp ra rb => Sys2Proof.Machine.execDsamp ra rb s
  | .usamp ra rb => Sys2Proof.Machine.execUsamp ra rb s
  | .resid ra rb rc => Sys2Proof.Machine.execResid ra rb rc s
  | .recon ra rb rc => Sys2Proof.Machine.execRecon ra rb rc s

end Sys2Proof.Machine
end

