-- ==== Sys2Proof/Machine/Run.lean ====
section
/-! DEFINITION. One turn of the BUSY engine: a command fetched and executed (46_control.md R280), its results free where
they depend on what the host wrote while BUSY (20_memory.md R78). -/

namespace Sys2Proof.Machine

/-- Fetch, decode and execute the command at CP (46_control.md R280, R288). -/
def State.fetchAndExec (s : State) : Result :=
  match s.fetch with
  | .outOfRange => .next (s.raise .memRange s.cp)
  | .illegal w => .next (s.raise .illegalCmd w)
  | .command i => exec i s

/-- The pieces in which a state differs from the next state of one of the variants. -/
def State.looseAgainst (t : State) (vs : List State) : List Piece :=
  (vs.flatMap (fun v =>
    match v.fetchAndExec with
    | .next u => t.differing u
    | .fault _ | .refused _ => [])).dedup

/-- Some pieces are loose from now on, and hold any legal values. -/
def State.loosened (t : State) (ps : List Piece) : State :=
  { t.drawn ps t.draws with loose := ps, draws := t.draws + 1 }

/-- The engine's command. Where something is loose, the command is run from every variant: it completes or faults as from
the first, a result that no variant changes is that result, and each piece in which two variants differ depends on
something loose and holds any legal value (20_memory.md R78, 93_implementation_defined.md U7; assumption log 12). -/
def State.runNext (s : State) : Result :=
  match s.loose, s.variants with
  | [], _ | _, [] => s.fetchAndExec
  | _ :: _, v :: vs =>
    match v.fetchAndExec with
    | .next t => .next (t.loosened (t.looseAgainst vs))
    | .fault f => .fault f
    | .refused r => .refused r

end Sys2Proof.Machine
end

