-- ==== Sys2Proof/Machine/Step.lean ====
section
/-! DEFINITION. One step of the machine: the engine's turn or the host's. -/

namespace Sys2Proof.Machine

/-- The engine's turn: while BUSY it fetches and executes one command (46_control.md R280); in IDLE, DONE and FAILED it
keeps every piece of state (60_exceptions.md R334). -/
def engineTurn (s : State) : Host.Outcome State Fault Refusal :=
  match s.engine with
  | .busy => s.runNext
  | .idle | .done | .failed => .next s

/-- One step: the first turn that is listed, or the engine's where none is (assumption log 6). -/
def step (s : State) : Host.Outcome State Fault Refusal :=
  match s.inputs with
  | [] => engineTurn s
  | .engine :: rest => engineTurn { s with inputs := rest }
  | .host a :: rest => hostTurn a { s with inputs := rest }

/-- The state in which the very next step runs the command whose bits are `w`: the word stands at CP, the engine is
BUSY, and the turn is the engine's, and nothing is loose (assumption log 7). A CP that cannot be fetched from is replaced by 0. -/
def State.withFetchWord (s : State) (nbits w : Nat) : State :=
  let s1 :=
    { s with
      engine := .busy, inputs := [], loose := []
      cp := if s.cp.toNat + 4 > s.cfg.memBytes then 0#32 else s.cp }
  s1.storeWordAtCp (BitVec.ofNat 32 (w % 2 ^ nbits))

end Sys2Proof.Machine
end

