-- ==== Sys2Proof/Safety.lean ====
section
/-! DEFINITION. The words claims are made in: which parts of the state a command leaves alone, what completing and
faulting mean, and the invariants of the machine. -/

namespace Sys2Proof.Machine

/-! ## Parts of the state -/

/-- The units whose state a command may change, apart from the engine-control registers. -/
inductive Part where
  /-- R0 to R7. -/
  | regs
  /-- BC_BASE, BC_LEN, BC_POS. -/
  | reader
  /-- BW_BASE, BW_CAP, BW_POS. -/
  | writer
  /-- MT[0..1], TVALID[0..1]. -/
  | tables
  /-- QSTEP[0..3]. -/
  | steps
  /-- NODE, NNODES, LUT, TREE_VALID. -/
  | tree
  /-- DIM, PCFG. -/
  | plane
  /-- Every byte of local memory. -/
  | memory
deriving DecidableEq, Repr

/-- A part reads the same in both states; memory through the read of one byte, at every address. -/
def Part.Same : Part → State → State → Prop
  | .regs, s, t => ∀ r, t.reg r = s.reg r
  | .reader, s, t => t.bcBase = s.bcBase ∧ t.bcLen = s.bcLen ∧ t.bcPos = s.bcPos
  | .writer, s, t => t.bwBase = s.bwBase ∧ t.bwCap = s.bwCap ∧ t.bwPos = s.bwPos
  | .tables, s, t => t.mt = s.mt ∧ t.tvalid = s.tvalid
  | .steps, s, t => t.qstep = s.qstep
  | .tree, s, t => t.node = s.node ∧ t.nnodes = s.nnodes ∧ t.lut = s.lut ∧ t.treeValid = s.treeValid
  | .plane, s, t => t.dim = s.dim ∧ t.pcfg = s.pcfg
  | .memory, s, t => ∀ a, t.readByte a = s.readByte a

/-- Every part that is not listed reads the same in both states. -/
def SameBut (changed : List Part) (s t : State) : Prop := ∀ p, p ∉ changed → p.Same s t

/-- Every register but rd reads the same in both states. -/
def SameRegsBut (rd : RegIx) (s t : State) : Prop := ∀ r, r ≠ rd → t.reg r = s.reg r

/-- Every byte outside [a, a + n) reads the same in both states. -/
def SameBytesOutside (a n : Nat) (s t : State) : Prop :=
  ∀ x, (x < a ∨ a + n ≤ x) → t.readByte x = s.readByte x

/-- What no command touches: the parameters, IE, and the host's side, with the record of what it left loose. -/
def SameHostSide (s t : State) : Prop :=
  t.cfg = s.cfg ∧ t.ie = s.ie ∧ t.loose = s.loose ∧ t.hostData = s.hostData ∧ t.inputs = s.inputs

/-- ERR, ERRCP and ERRINFO read the same in both states. -/
def SameErr (s t : State) : Prop := t.err = s.err ∧ t.errcp = s.errcp ∧ t.errinfo = s.errinfo

/-- A command other than HALT completed: CP + 4, one more in CMDCNT, the engine as it was (46_control.md R281). -/
def Completed (s t : State) : Prop :=
  t.cp = s.cp + 4#32 ∧ t.cmdcnt = s.cmdcnt + 1#32 ∧ t.engine = s.engine ∧ SameErr s t ∧ SameHostSide s t

/-- A fault was taken (60_exceptions.md R310): ERR, ERRCP, ERRINFO and STATE say so, CP and CMDCNT stand, and no R[rd]
was written. -/
def Raised (c : Cause) (info : Word) (s t : State) : Prop :=
  t.err = c.errWord ∧ t.errcp = s.cp ∧ t.errinfo = info ∧ t.engine = .failed ∧
    t.cp = s.cp ∧ t.cmdcnt = s.cmdcnt ∧ (∀ r, t.reg r = s.reg r) ∧ SameHostSide s t

/-- A fault that leaves every part alone (60_exceptions.md R310, raised before the command changes any state). -/
def RaisedClean (c : Cause) (info : Word) (s t : State) : Prop := Raised c info s t ∧ SameBut [] s t

/-- A fault, its info, and where it leaves BC_POS (60_exceptions.md R300, R310). -/
def FaultsAt (i : Instr) (s : State) (c : Cause) (info pos : Nat) : Prop :=
  ∃ t, exec i s = .next t ∧ Raised c (BitVec.ofNat 32 info) s t ∧ t.bcPos = BitVec.ofNat 32 pos

/-- A byte range that no check of 20_memory.md R75 rejects. -/
abbrev FitsMemory (s : State) (a n : Nat) : Prop := n = 0 ∨ a + n ≤ s.cfg.memBytes

/-- Two byte ranges share no address (20_memory.md R80). -/
abbrev DisjointRanges (a la b lb : Nat) : Prop := la = 0 ∨ lb = 0 ∨ a + la ≤ b ∨ b + lb ≤ a

/-! ## Streams and tables -/

/-- Consecutive RdBits from a position: the values and the position after them; none where one is TRUNCATED
(41_bitstream.md R132, R150). -/
def State.readFields (s : State) : (pos : Nat) → (widths : List Nat) → Option (List Nat × Nat)
  | pos, [] => some ([], pos)
  | pos, n :: ns =>
    match s.rdBits n pos with
    | .error _ => none
    | .ok (v, pos') => (s.readFields pos' ns).map (fun r => (v :: r.1, r.2))

/-- Bit p of the writer region: bit p mod 8 of MEM[BW_BASE + p / 8] (20_memory.md R73). -/
def State.regionBit (s : State) (p : Nat) : Bool := (s.readByte (s.bwBase.toNat + p / 8)).getLsbD (p % 8)

/-- A valid table: non-decreasing, its last entry at most 32767 (43_mapping.md R200). -/
abbrev TableValid (T : MapTable) : Prop :=
  (∀ i : Fin 127, (T[i.castSucc]).toNat ≤ (T[i.succ]).toNat) ∧ (T[127]).toNat ≤ 32767

/-- One LUT entry agrees with the tree: a terminal entry names the leaf its low bits lead to, a non-terminal entry the
branch that all 8 bits lead to (10_state.md R47, 42_huffman.md R172). -/
def LutEntryOk (node : Vector TreeNode 521) (key : Fin 256) : LutEntry → Prop
  | .terminal sym len => ∃ n, descend node 0 (bitsOfNat len.val key.val) = some n ∧ node[n] = .leaf sym
  | .nonTerminal n => descend node 0 (bitsOfNat 8 key.val) = some n ∧ ∃ x y, node[n] = .branch x y

/-- Every entry of a LUT agrees with the tree. -/
def LutOk (node : Vector TreeNode 521) (lut : Vector LutEntry 256) : Prop := ∀ key : Fin 256, LutEntryOk node key lut[key]

/-- The number of leaves of a tree. -/
def HuffTree.leaves : HuffTree → Nat
  | .leaf _ => 1
  | .branch a b => a.leaves + b.leaves

/-- The arena holds a tree from node n on, numbered in read order: child A is node n + 1, and child B the node after the
2·L − 1 nodes of an A with L leaves (42_huffman.md R172). -/
def ArenaHolds (node : Vector TreeNode 521) : HuffTree → (n : Nat) → Prop
  | .leaf sym, n => node[n]? = some (.leaf sym)
  | .branch a b, n => ∃ x y : NodeIx, node[n]? = some (.branch x y) ∧ x.val = n + 1 ∧ y.val = n + 2 * a.leaves ∧
      ArenaHolds node a x.val ∧ ArenaHolds node b y.val

/-- The symbol of the leaf that exactly these branch bits lead to: 0 to child A, 1 to child B (42_huffman.md R168). -/
def HuffTree.leafAt : HuffTree → Bits → Option Sym
  | .leaf s, [] => some s
  | .leaf _, _ :: _ => none
  | .branch _ _, [] => none
  | .branch a b, c :: cs => if c then b.leafAt cs else a.leafAt cs

/-- These branch bits stop at a branch, before any leaf. -/
def HuffTree.stopsInside : HuffTree → Bits → Bool
  | .leaf _, _ => false
  | .branch _ _, [] => true
  | .branch a b, c :: cs => if c then b.stopsInside cs else a.stopsInside cs

/-- Nodes of a serialized tree in pre-order, a leaf by its symbol and a branch by none, as bits (42_huffman.md R169). -/
def nodeBits (items : List (Option Sym)) : Bits :=
  items.flatMap (fun x => match x with
    | some sym => true :: bitsOfNat 9 sym.toNat
    | none => [false])

/-- After these nodes, and after any of them, the tree still needs one: no more leaves than branches so far. -/
def TreeGoesOn (items : List (Option Sym)) : Prop :=
  ∀ k, k ≤ items.length → (items.take k).countP Option.isSome ≤ (items.take k).countP Option.isNone

/-! ## The merge of 42_huffman.md R165 and R167 -/

/-- x, then y, are the two nodes to remove: of least key under `reference`, of least frequency under `any`. -/
def LeastTwo (policy : TreePolicy) (x y : ActiveNode) (rest : List ActiveNode) : Prop :=
  match policy with
  | .reference => (x.freq < y.freq ∨ (x.freq = y.freq ∧ x.id < y.id)) ∧
      ∀ z ∈ rest, y.freq < z.freq ∨ (y.freq = z.freq ∧ y.id < z.id)
  | .any => x.freq ≤ y.freq ∧ ∀ z ∈ rest, y.freq ≤ z.freq

/-- Branch(A = x, B = y); under `any` also with x and y the other way round. -/
def Joins (policy : TreePolicy) (x y joined : HuffTree) : Prop :=
  match policy with
  | .reference => joined = .branch x y
  | .any => joined = .branch x y ∨ joined = .branch y x

/-- The merge takes these active nodes to this tree, its next internal node having this id. -/
inductive Merges (policy : TreePolicy) : (nextId : Nat) → List ActiveNode → HuffTree → Prop
  | root (nextId : Nat) (x : ActiveNode) : Merges policy nextId [x] x.tree
  | join (nextId : Nat) (active rest : List ActiveNode) (x y : ActiveNode) (joined tree : HuffTree) :
      active.Perm (x :: y :: rest) → LeastTwo policy x y rest → Joins policy x.tree y.tree joined →
      Merges policy (nextId + 1) (⟨x.freq + y.freq, nextId, joined⟩ :: rest) tree → Merges policy nextId active tree

/-! ## Coded tokens -/

/-- The output bytes a token stands for (42_huffman.md R163). -/
def expandToken (t : Token) : List Byte :=
  if t.sym.toNat ≤ 255 then [BitVec.ofNat 8 t.sym.toNat] else List.replicate (runBase t.sym.toNat + t.extra) 0#8

/-- A literal, or a run token whose extra value fits its extra bits (42_huffman.md R160, R161). -/
def TokenOk (t : Token) : Prop :=
  t.sym.toNat ≤ 260 ∧ (t.sym.toNat ≤ 255 → t.nb = 0 ∧ t.extra = 0) ∧
    (256 ≤ t.sym.toNat → t.nb = runExtraBits t.sym.toNat ∧ t.extra < 2 ^ t.nb)

/-- Tokens with the codes they are written in: each code leads to a leaf of the token's symbol. -/
def Coded (T : HuffTree) (cts : List (Bits × Token)) : Prop :=
  ∀ ct ∈ cts, T.leafAt ct.1 = some ct.2.sym ∧ TokenOk ct.2

/-- The stream bits of coded tokens: each code, then its extra bits (42_huffman.md R170). -/
def codedBits (cts : List (Bits × Token)) : Bits := cts.flatMap (fun ct => ct.1 ++ bitsOfNat ct.2.nb ct.2.extra)

/-- The output bytes of coded tokens (42_huffman.md R163). -/
def codedBytes (cts : List (Bits × Token)) : List Byte := cts.flatMap (fun ct => expandToken ct.2)

/-! ## Invariants -/

/-- CP[1:0] = 0 (10_state.md R32). -/
abbrev CpInv (s : State) : Prop := s.cp.toNat % 4 = 0

/-- FAILED is the only state with an error recorded, and it always has one of the thirteen (10_state.md R33, R36). -/
abbrev ErrInv (s : State) : Prop :=
  if s.engine = .failed then
    s.err ∈ [0x101#32, 0x202#32, 0x203#32, 0x204#32, 0x205#32, 0x206#32, 0x307#32, 0x308#32, 0x309#32, 0x30A#32,
      0x30B#32, 0x30C#32, 0x30D#32]
  else s.err = 0#32 ∧ s.errcp = 0#32 ∧ s.errinfo = 0#32

/-- The cursor window (10_state.md R42). -/
abbrev ReaderInv (s : State) : Prop :=
  s.bcPos.toNat ≤ 8 * s.bcLen.toNat ∧ (0 < s.bcLen.toNat → s.bcBase.toNat + s.bcLen.toNat ≤ s.cfg.memBytes)

/-- The writer region (10_state.md R43). -/
abbrev WriterInv (s : State) : Prop :=
  s.bwPos.toNat ≤ 8 * s.bwCap.toNat ∧ (0 < s.bwCap.toNat → s.bwBase.toNat + s.bwCap.toNat ≤ s.cfg.memBytes)

/-- Memory is in canonical form and lists no address outside local memory (20_memory.md R70). -/
abbrev MemoryInv (s : State) : Prop := s.mem.wf ∧ ∀ c ∈ s.mem, c.1 < s.cfg.memBytes

/-- Every table whose TVALID is 1 is valid (10_state.md R44, 43_mapping.md R200). -/
abbrev TablesInv (s : State) : Prop := ∀ t : TableIx, s.tvalid[t] = true → TableValid s.mt[t]

/-- QSTEP[q] ≥ 1 (10_state.md R45). -/
abbrev StepsInv (s : State) : Prop := ∀ q : StepIx, 1 ≤ (s.qstep[q]).toNat

/-- Either no plane is configured or W, H and k are legal; the reserved bits of PCFG are 0 (10_state.md R50 to R52,
45_plane.md R250). -/
abbrev PlaneInv (s : State) : Prop :=
  (s.dim = 0#32 ∧ s.pcfg = 0#32) ∨
    (1 ≤ s.planeW ∧ 1 ≤ s.planeH ∧ 1 ≤ s.scaleLog ∧ s.scaleLog ≤ 4 ∧ s.pcfg &&& 0xFFFFFEF8#32 = 0#32)

/-- The decoder tree (10_state.md R46 to R48): NNODES is at most 521, and where TREE_VALID is 1 the nodes in use form a
tree whose children stand after their parents, with a LUT that agrees with it. -/
def TreeInv (s : State) : Prop :=
  s.nnodes ≤ 521 ∧
    (s.treeValid = true →
      1 ≤ s.nnodes ∧
      (∀ n x y : NodeIx, n.val < s.nnodes → s.node[n] = .branch x y →
        n.val < x.val ∧ x.val < s.nnodes ∧ n.val < y.val ∧ y.val < s.nnodes) ∧
      LutOk s.node s.lut)

/-! ## Loose values (20_memory.md R78) -/

/-- Every unit holds values that 10_state.md allows together. -/
def Legal (s : State) : Prop :=
  ReaderInv s ∧ WriterInv s ∧ TablesInv s ∧ StepsInv s ∧ PlaneInv s ∧ TreeInv s

/-- A state that differs from another in its loose pieces and the count of draws alone. -/
def VariesLoose (s v : State) : Prop :=
  SameHostSide s v ∧ SameErr { s with errinfo := v.errinfo } v ∧ v.engine = s.engine ∧ v.cp = s.cp ∧
    v.cmdcnt = s.cmdcnt ∧ v.memEpoch = s.memEpoch ∧ ∀ p, p ∉ s.loose → p.agrees s v = true

end Sys2Proof.Machine
end

