-- ==== Sys2Proof/Certificates/Slice0/Obligations.lean ====
section
/-! DEFINITION. The statements about HIMG-CORE. Each docstring names the rules of spec/ it formalises. -/

open Sys2Proof Sys2Proof.Machine

/-! ## Encoding -/

/-- 30_encoding.md R102 to R105, R109: decoding the word of a well-formed command gives the command back, alone and at
the start of a byte list. -/
def Obligations.DecodeOfEncodeIsTheCommand : Prop :=
  ∀ i : Instr, i.wellFormed = true →
    decodeWord (encode i) = .ok i ∧ ∀ rest : List Byte, decodeBytes (encodeBytes i ++ rest) = .ok (i, rest)

/-- 30_encoding.md R102, R103, R109: a word that decodes is the word of the command it decodes to, and that command is
well formed, so no bit of a word is dropped. -/
def Obligations.EncodeOfDecodeIsTheWord : Prop :=
  ∀ (w : Word) (i : Instr), decodeWord w = .ok i → encode i = w ∧ i.wellFormed = true

/-- 30_encoding.md R105: a word that decodes matches, under its mask, the row of the opcode map that has the command's
mnemonic; a word that matches a row decodes to a command with the row's mnemonic; no word matches two rows. -/
def Obligations.DecodeFollowsTheOpcodeMap : Prop :=
  ∀ w : Word,
    (∀ i, decodeWord w = .ok i → ∃ row ∈ opcodeTable, row.mnemonic = i.mnemonic ∧ w &&& row.mask = row.matchBits) ∧
      (∀ row ∈ opcodeTable, w &&& row.mask = row.matchBits → ∃ i, decodeWord w = .ok i ∧ i.mnemonic = row.mnemonic) ∧
      (opcodeTable.filter (fun row => w &&& row.mask == row.matchBits)).length ≤ 1

/-- 95_test_vectors.md V-CTL-1 to V-CTL-13 and programs P1 to P4: words of every family, and words that are illegal
(30_encoding.md R103, R109). -/
def Obligations.SampleWordsDecode : Prop :=
  decodeWord 0x08801234#32 = .ok (.li 1 0x1234#16) ∧
  decodeWord 0x15203FFF#32 = .ok (.addi 2 2 0x3FFF#14) ∧
  decodeWord 0x29000008#32 = .ok (.brbits 2 9) ∧
  decodeWord 0x44300002#32 = .ok (.bwbits 3 3) ∧
  decodeWord 0x6C800001#32 = .ok (.hsym 1 true) ∧
  decodeWord 0x9842C001#32 = .ok (.mmapv 1 4 1 3) ∧
  decodeWord 0xB05AC000#32 = .ok (.dequantv 0 5 5 3) ∧
  decodeWord 0xCC674000#32 = .ok (.resid 6 3 5) ∧
  decodeWord 0x18000000#32 = .error .reservedOpcode ∧
  decodeWord 0xFC000000#32 = .error .reservedOpcode ∧
  decodeWord 0x04000001#32 = .error .mustBeZero ∧
  decodeWord 0x08810000#32 = .error .mustBeZero

/-! ## The step -/

/-- 46_control.md R280, 30_encoding.md R100: where the four bytes at CP decode to a well-formed command, a step of the
BUSY engine is `exec` of that command, and adds nothing. With turns listed, the engine's own turn is taken off the list
first; where the first turn listed is the host's, the step is that transaction (assumption log 6). Nothing is loose for the
step: the host wrote no byte of memory in this run; where it did, LooseBytesFreeTheResults speaks of the same fetch and
command (assumption log 12). -/
def Obligations.StepRunsTheDecodedCommand : Prop :=
  ∀ (s : State) (i : Instr) (a : HostAction) (rest : List Turn), i.wellFormed = true → s.engine = .busy →
    s.cp.toNat + 4 ≤ s.cfg.memBytes → decodeBytes (s.readBytes s.cp.toNat 4) = .ok (i, []) →
      s.fetchAndExec = exec i s ∧ (s.inputs = [] → s.loose = [] → step s = exec i s) ∧
      (s.inputs = .engine :: rest → s.loose = [] → step s = exec i { s with inputs := rest }) ∧
      (s.inputs = .host a :: rest → step s = hostTurn a { s with inputs := rest })

/-- 46_control.md R280 and R288, 20_memory.md R75: a fetch past the end of memory raises MEM_RANGE(CP); a word that does
not decode, read little-endian at CP, raises ILLEGAL_CMD(word) and changes nothing else. The step is that of a run in which
nothing is loose (20_memory.md R78, assumption log 12). -/
def Obligations.FetchFaultsAreTaken : Prop :=
  ∀ s : State, s.inputs = [] → s.engine = .busy →
    (s.cfg.memBytes < s.cp.toNat + 4 → ∃ t, s.fetchAndExec = .next t ∧ (s.loose = [] → step s = .next t) ∧
      RaisedClean .memRange s.cp s t) ∧
    (s.cp.toNat + 4 ≤ s.cfg.memBytes → ∀ (w : Word) (e : DecodeError),
      w.toNat = (s.readByte s.cp.toNat).toNat + 256 * (s.readByte (s.cp.toNat + 1)).toNat
        + 65536 * (s.readByte (s.cp.toNat + 2)).toNat + 16777216 * (s.readByte (s.cp.toNat + 3)).toNat →
      decodeWord w = .error e → ∃ t, s.fetchAndExec = .next t ∧ (s.loose = [] → step s = .next t) ∧
        RaisedClean .illegalCmd w s t)

/-- 60_exceptions.md R334: IDLE, DONE and FAILED are stopped states that keep every piece of state while the host is
silent. -/
def Obligations.StoppedEngineKeepsItsState : Prop :=
  ∀ s : State, s.inputs = [] → s.engine ≠ .busy → step s = .next s

/-- 46_control.md R281, 60_exceptions.md R310, R311: every command, from every state, gives a next state, in which either
it completed (CP + 4, CMDCNT + 1, HALT ending the run) or exactly one fault was taken (CP, CMDCNT and every register as
before). -/
def Obligations.EveryCommandCompletesOrFaults : Prop :=
  ∀ (i : Instr) (s : State), ∃ t, exec i s = .next t ∧
    ((i = .halt ∧ t.cp = s.cp + 4#32 ∧ t.cmdcnt = s.cmdcnt + 1#32 ∧ t.engine = .done ∧ SameErr s t ∧
        SameHostSide s t) ∨
      (i ≠ .halt ∧ Completed s t) ∨ ∃ c info, Raised c info s t)

/-- 60_exceptions.md R300, 10_state.md R36: the ERR register of each fault, its CODE in bits 7:0 and its CLASS in bits
9:8; taking a fault writes it, with CP in ERRCP and the info in ERRINFO, moves to FAILED, and changes no part. -/
def Obligations.FaultEntryAndCodes : Prop :=
  (Cause.truncated.errWord = 0x101#32 ∧ Cause.corruptTree.errWord = 0x202#32 ∧
    Cause.corruptSymbol.errWord = 0x203#32 ∧ Cause.corruptRun.errWord = 0x204#32 ∧
    Cause.corruptTrailing.errWord = 0x205#32 ∧ Cause.corruptMap.errWord = 0x206#32 ∧
    Cause.badStep.errWord = 0x307#32 ∧ Cause.writeOverflow.errWord = 0x308#32 ∧ Cause.noTable.errWord = 0x309#32 ∧
    Cause.noTree.errWord = 0x30A#32 ∧ Cause.badArg.errWord = 0x30B#32 ∧ Cause.memRange.errWord = 0x30C#32 ∧
    Cause.illegalCmd.errWord = 0x30D#32) ∧
  ∀ (s : State) (c : Cause) (info : Word), RaisedClean c info s (s.raise c info)

/-! ## Control and register commands -/

/-- 46_control.md R282, R283: HALT ends the run in DONE with CP past it and CMDCNT counted; NOP only advances. -/
def Obligations.HaltEndsTheRunAndNopAdvances : Prop :=
  ∀ s : State,
    (∃ t, exec .halt s = .next t ∧ t.engine = .done ∧ t.cp = s.cp + 4#32 ∧ t.cmdcnt = s.cmdcnt + 1#32 ∧
      SameErr s t ∧ SameHostSide s t ∧ SameBut [] s t) ∧
    (∃ t, exec .nop s = .next t ∧ Completed s t ∧ SameBut [] s t)

/-- 46_control.md R284, R285, 30_encoding.md R104: LI writes the zero-extended immediate; LIH writes the high half and
keeps the low half of R[rd]. -/
def Obligations.LiAndLihLoadHalves : Prop :=
  ∀ (rd : RegIx) (imm : BitVec 16) (s : State),
    (∃ t, exec (.li rd imm) s = .next t ∧ Completed s t ∧ (t.reg rd).toNat = imm.toNat ∧ SameRegsBut rd s t ∧
      SameBut [.regs] s t) ∧
    (∃ t, exec (.lih rd imm) s = .next t ∧ Completed s t ∧
      (t.reg rd).toNat = imm.toNat * 65536 + (s.reg rd).toNat % 65536 ∧ SameRegsBut rd s t ∧ SameBut [.regs] s t)

/-- 46_control.md R286, R287, 30_encoding.md R104: ADD and ADDI give the sum modulo 2^32, the immediate read as a signed
value in −8192..8191; sources are read before the write, so rd may be a source. -/
def Obligations.AddAndAddiWrap : Prop :=
  ∀ (rd ra rb : RegIx) (imm : BitVec 14) (s : State),
    (∃ t, exec (.add rd ra rb) s = .next t ∧ Completed s t ∧
      (t.reg rd).toNat = ((s.reg ra).toNat + (s.reg rb).toNat) % 2 ^ 32 ∧ SameRegsBut rd s t ∧ SameBut [.regs] s t) ∧
    (∃ t, exec (.addi rd ra imm) s = .next t ∧ Completed s t ∧
      ((t.reg rd).toNat : Int) = (((s.reg ra).toNat : Int) + imm.toInt) % 2 ^ 32 ∧ SameRegsBut rd s t ∧
      SameBut [.regs] s t)

/-! ## Bit reader and writer -/

/-- 41_bitstream.md R140, R147, 20_memory.md R75: BRINIT and BWINIT open a window or region that lies in memory or is
empty, at position 0, and touch no byte; otherwise they raise MEM_RANGE(base) and do nothing. -/
def Obligations.BrinitAndBwinitCheckTheRange : Prop :=
  ∀ (ra rb : RegIx) (s : State),
    (FitsMemory s (s.regNat ra) (s.regNat rb) →
      (∃ t, exec (.brinit ra rb) s = .next t ∧ Completed s t ∧ t.bcBase = s.reg ra ∧ t.bcLen = s.reg rb ∧
        t.bcPos = 0#32 ∧ SameBut [.reader] s t) ∧
      (∃ t, exec (.bwinit ra rb) s = .next t ∧ Completed s t ∧ t.bwBase = s.reg ra ∧ t.bwCap = s.reg rb ∧
        t.bwPos = 0#32 ∧ SameBut [.writer] s t)) ∧
    (¬ FitsMemory s (s.regNat ra) (s.regNat rb) →
      (∃ t, exec (.brinit ra rb) s = .next t ∧ RaisedClean .memRange (s.reg ra) s t) ∧
      (∃ t, exec (.bwinit ra rb) s = .next t ∧ RaisedClean .memRange (s.reg ra) s t))

/-- 41_bitstream.md R130 to R132, R141, R142: BRBIT (n = 1) and BRBITS read the next n stream bits, the first into bit 0
of R[rd], and move BC_POS by n; where fewer remain they raise TRUNCATED(BC_POS) and change nothing. -/
def Obligations.BitReadsTakeTheNextBits : Prop :=
  ∀ (i : Instr) (rd : RegIx) (n : Nat) (s : State),
    ((i = .brbit rd ∧ n = 1) ∨ (i = .brbits rd n ∧ 1 ≤ n ∧ n ≤ 32)) →
      (s.bcPos.toNat + n ≤ 8 * s.bcLen.toNat → ∃ t, exec i s = .next t ∧ Completed s t ∧
        (∀ k, k < 32 → (t.reg rd).getLsbD k = (decide (k < n) &&
          (s.readByte (s.bcBase.toNat + (s.bcPos.toNat + k) / 8)).getLsbD ((s.bcPos.toNat + k) % 8))) ∧
        t.bcPos = s.bcPos + BitVec.ofNat 32 n ∧ t.bcBase = s.bcBase ∧ t.bcLen = s.bcLen ∧ SameRegsBut rd s t ∧
        SameBut [.regs, .reader] s t) ∧
      (8 * s.bcLen.toNat < s.bcPos.toNat + n → ∃ t, exec i s = .next t ∧ RaisedClean .truncated s.bcPos s t)

/-- 41_bitstream.md R133, R143: BRPEEK reads the next 8 pending bits without consuming them; a bit beyond the window
reads 0; it never faults. -/
def Obligations.BrpeekPadsWithZeros : Prop :=
  ∀ (rd : RegIx) (s : State), ∃ t, exec (.brpeek rd) s = .next t ∧ Completed s t ∧
    (∀ k, k < 32 → (t.reg rd).getLsbD k = (decide (k < 8) && (decide (s.bcPos.toNat + k < 8 * s.bcLen.toNat) &&
      (s.readByte (s.bcBase.toNat + (s.bcPos.toNat + k) / 8)).getLsbD ((s.bcPos.toNat + k) % 8)))) ∧
    SameRegsBut rd s t ∧ SameBut [.regs] s t

/-- 41_bitstream.md R134, R144: BRADV moves BC_POS by the unsigned R[ra], up to the window's end; past it, it raises
TRUNCATED(BC_POS) and changes nothing. -/
def Obligations.BradvMovesOrTruncates : Prop :=
  ∀ (ra : RegIx) (s : State),
    (s.bcPos.toNat + s.regNat ra ≤ 8 * s.bcLen.toNat → ∃ t, exec (.bradv ra) s = .next t ∧ Completed s t ∧
      t.bcPos = s.bcPos + s.reg ra ∧ t.bcBase = s.bcBase ∧ t.bcLen = s.bcLen ∧ SameBut [.reader] s t) ∧
    (8 * s.bcLen.toNat < s.bcPos.toNat + s.regNat ra → ∃ t, exec (.bradv ra) s = .next t ∧
      RaisedClean .truncated s.bcPos s t)

/-- 41_bitstream.md R137, R138, R145, R146, R149, 43_mapping.md R216: BREND gives 1 exactly when at most 7 bits remain,
BRPOS gives BC_POS, BWSIZE the written bits rounded up to bytes, MSIZE 256. -/
def Obligations.PositionAndSizeReads : Prop :=
  ∀ (rd : RegIx) (s : State),
    (∃ t, exec (.brend rd) s = .next t ∧ Completed s t ∧
      (t.reg rd).toNat = (if (8 * s.bcLen.toNat : Int) - s.bcPos.toNat ≤ 7 then 1 else 0) ∧ SameRegsBut rd s t ∧
      SameBut [.regs] s t) ∧
    (∃ t, exec (.brpos rd) s = .next t ∧ Completed s t ∧ t.reg rd = s.bcPos ∧ SameRegsBut rd s t ∧
      SameBut [.regs] s t) ∧
    (∃ t, exec (.bwsize rd) s = .next t ∧ Completed s t ∧ (t.reg rd).toNat = (s.bwPos.toNat + 7) / 8 ∧
      SameRegsBut rd s t ∧ SameBut [.regs] s t) ∧
    (∃ t, exec (.msize rd) s = .next t ∧ Completed s t ∧ (t.reg rd).toNat = 256 ∧ SameRegsBut rd s t ∧
      SameBut [.regs] s t)

/-- 41_bitstream.md R135, R136, R148: BWBITS appends the low n bits of R[ra] at BW_POS. Earlier bits stand; a byte the
write starts holds 0 above its last bit; a byte it only continues keeps its other bits; no byte outside the written ones
changes. A write that does not fit raises WRITE_OVERFLOW(BW_POS) and changes nothing. The premise BW_CAP ≤ 2^29 holds
in every state with a legal MEM_BYTES (10_state.md R43). -/
def Obligations.BwbitsAppendsBits : Prop :=
  ∀ (ra : RegIx) (n : Nat) (s : State), 1 ≤ n → n ≤ 32 → s.bwCap.toNat ≤ 536870912 →
    (s.bwPos.toNat + n ≤ 8 * s.bwCap.toNat → ∃ t, exec (.bwbits ra n) s = .next t ∧ Completed s t ∧
      t.bwPos = s.bwPos + BitVec.ofNat 32 n ∧ t.bwBase = s.bwBase ∧ t.bwCap = s.bwCap ∧
      (∀ k, k < n → t.regionBit (s.bwPos.toNat + k) = (s.reg ra).getLsbD k) ∧
      (∀ p, p < s.bwPos.toNat → t.regionBit p = s.regionBit p) ∧
      (∀ p, s.bwPos.toNat + n ≤ p → p / 8 = (s.bwPos.toNat + n - 1) / 8 →
        t.regionBit p = (decide (8 * (p / 8) < s.bwPos.toNat) && s.regionBit p)) ∧
      SameBytesOutside (s.bwBase.toNat + s.bwPos.toNat / 8)
        ((s.bwPos.toNat + n + 7) / 8 - s.bwPos.toNat / 8) s t ∧
      SameBut [.writer, .memory] s t) ∧
    (8 * s.bwCap.toNat < s.bwPos.toNat + n → ∃ t, exec (.bwbits ra n) s = .next t ∧
      RaisedClean .writeOverflow s.bwPos s t)

/-- 41_bitstream.md R150: fields written from BW_POS = 0 read back, through a window on the same base of SizeBytes()
bytes, as their low bits, and the reader is then at its end. Every position is one that the 32-bit BW_POS holds
(10_state.md R43, 00_scope.md R11). -/
def Obligations.BitFieldsRoundTrip : Prop :=
  ∀ (s t u : State) (fields : List (Nat × Nat)), (∀ f ∈ fields, 1 ≤ f.2 ∧ f.2 ≤ 32) → s.bwPos = 0#32 →
    (fields.map (fun f => f.2)).sum < 2 ^ 32 → s.wrChunks (fields.map (fun f => bitsOfNat f.2 f.1)) = .ok t →
    (∀ a, u.readByte a = t.readByte a) → u.bcBase = t.bwBase → u.bcLen.toNat = t.sizeBytes →
      u.readFields 0 (fields.map (fun f => f.2)) = some (fields.map (fun f => f.1 % 2 ^ f.2), t.bwPos.toNat) ∧
        u.atEnd t.bwPos.toNat = true

/-! ## Huffman codec -/

/-- 42_huffman.md R160, R162: a maximal run of L zeros between literals gives the tokens of the run; an isolated zero is
the literal 0; a run of 2 to 16662 is one run token whose bucket holds it; a longer run splits off a full token of
16662. -/
def Obligations.TokenizeSplitsRuns : Prop :=
  (∀ (len : Nat) (b : Byte) (rest : List Byte), b ≠ 0#8 →
    tokenize (List.replicate len 0#8 ++ b :: rest) = runTokens len ++ ⟨b.setWidth 9, 0, 0⟩ :: tokenize rest) ∧
  (∀ len : Nat, tokenize (List.replicate len 0#8) = runTokens len) ∧
  runTokens 0 = [] ∧ runTokens 1 = [⟨0#9, 0, 0⟩] ∧
  (∀ len : Nat, 2 ≤ len → len ≤ 16662 → ∃ (k base nb : Nat),
    (k, base, nb) ∈ [(256, 2, 0), (257, 3, 2), (258, 7, 4), (259, 23, 8), (260, 279, 14)] ∧
    base ≤ len ∧ len < base + 2 ^ nb ∧ runTokens len = [⟨BitVec.ofNat 9 k, len - base, nb⟩]) ∧
  (∀ len : Nat, 16662 < len → runTokens len = ⟨260#9, 16383, 14⟩ :: runTokens (len - 16662))

/-- 42_huffman.md R161 to R163: the tokens of a block expand to the block, and each is a literal or a run token whose
extra value fits its extra bits. -/
def Obligations.TokensExpandToTheBlock : Prop :=
  ∀ block : List Byte, (tokenize block).flatMap expandToken = block ∧
    ∀ tok ∈ tokenize block, TokenOk tok

/-- 42_huffman.md R164 to R168, R181: with no symbol used, or one, the encoder's tree is the degenerate one of R166;
with more, it is a tree of the merge, for ENC_TREE_POLICY = reference the one with the tie-break of R167. Under either
policy it has one leaf for each symbol used, two in the degenerate cases, at most 261, and every token's symbol has a
code of 1 to 260 bits, the path to its leaf. -/
def Obligations.EncoderTreeCodesEverySymbol : Prop :=
  ∀ (policy : TreePolicy) (draw : Nat) (block : List Byte) (toks : List Token) (T : HuffTree) (count : Nat → Nat)
    (used : List Nat), toks = tokenize block → T = encoderTree policy draw toks →
    (∀ k, count k = (toks.filter (fun tok => tok.sym.toNat = k)).length) →
    used = (List.range 261).filter (fun k => 0 < count k) →
      (used = [] → T = .branch (.leaf 0#9) (.leaf 1#9)) ∧
      (∀ k, used = [k] → T = .branch (.leaf (BitVec.ofNat 9 k)) (.leaf (if k = 0 then 1#9 else 0#9))) ∧
      (2 ≤ used.length → Merges policy 261 (used.map (fun k => ⟨count k, k, .leaf (BitVec.ofNat 9 k)⟩)) T) ∧
      T.leaves = max 2 used.length ∧ T.leaves ≤ 261 ∧
      ∀ tok ∈ toks, ∃ c, codeOf T tok.sym = some c ∧ T.leafAt c = some tok.sym ∧ 1 ≤ c.length ∧ c.length ≤ 260

/-- 42_huffman.md R169 to R171, 41_bitstream.md R135, R136: HENC moves BW_POS by the bits of the serialized tree and
the tokens of its block, and, where the source shares no byte with the region, appends them there, changing no bit
before them and no byte outside the written ones, the last byte holding 0 above them; where they do not fit, it raises
WRITE_OVERFLOW at the first WrBits that passes the capacity; a source out of memory raises MEM_RANGE and does nothing.
The premise BW_CAP ≤ 2^29 holds in every state with a legal MEM_BYTES (10_state.md R43). -/
def Obligations.HencAppendsTheEncoding : Prop :=
  ∀ (ra rb : RegIx) (s : State) (chunks : List Bits) (bits : Bits), s.bwCap.toNat ≤ 536870912 →
    chunks = encodeChunks s.cfg.treePolicy s.draws (s.readBytes (s.regNat ra) (s.regNat rb)) → bits = chunks.flatten →
    (¬ FitsMemory s (s.regNat ra) (s.regNat rb) → ∃ t, exec (.henc ra rb) s = .next t ∧
      RaisedClean .memRange (s.reg ra) s t) ∧
    (FitsMemory s (s.regNat ra) (s.regNat rb) → s.bwPos.toNat + bits.length ≤ 8 * s.bwCap.toNat →
      ∃ t, exec (.henc ra rb) s = .next t ∧ Completed s t ∧
        t.bwPos = s.bwPos + BitVec.ofNat 32 bits.length ∧ t.bwBase = s.bwBase ∧ t.bwCap = s.bwCap ∧
        SameBut [.writer, .memory] s t ∧
        (DisjointRanges (s.regNat ra) (s.regNat rb) s.bwBase.toNat s.bwCap.toNat →
          (∀ k (h : k < bits.length), t.regionBit (s.bwPos.toNat + k) = bits[k]) ∧
          (∀ p, p < s.bwPos.toNat → t.regionBit p = s.regionBit p) ∧
          (∀ p, s.bwPos.toNat + bits.length ≤ p → p / 8 = (s.bwPos.toNat + bits.length - 1) / 8 →
            t.regionBit p = false) ∧
          SameBytesOutside (s.bwBase.toNat + s.bwPos.toNat / 8)
            ((s.bwPos.toNat + bits.length + 7) / 8 - s.bwPos.toNat / 8) s t)) ∧
    (FitsMemory s (s.regNat ra) (s.regNat rb) → 8 * s.bwCap.toNat < s.bwPos.toNat + bits.length →
      s.bwPos.toNat ≤ 8 * s.bwCap.toNat →
      ∃ t pre c post, exec (.henc ra rb) s = .next t ∧ chunks = pre ++ c :: post ∧
        s.bwPos.toNat + pre.flatten.length ≤ 8 * s.bwCap.toNat ∧
        8 * s.bwCap.toNat < s.bwPos.toNat + pre.flatten.length + c.length ∧
        Raised .writeOverflow (s.bwPos + BitVec.ofNat 32 pre.flatten.length) s t)

/-- 42_huffman.md R169, R172, R176: HTREE reads a serialized tree of at most 261 leaves back node for node in read
order, root at NODE[0], fills the LUT in agreement with it, sets TREE_VALID, and consumes its 11·L − 1 bits.
60_exceptions.md R300, R310, 42_huffman.md R175: HTREE, and HDEC with its destination in memory, raise
CORRUPT_TREE(BC_POS) where the tree goes on after 521 nodes, and TRUNCATED where the next node, or the symbol of a
leaf, passes the window; BC_POS stands there. -/
def Obligations.HtreeReadsASerializedTree : Prop :=
  (∀ (i : Instr) (ra rb : RegIx) (walk : Bool) (s : State) (items : List (Option Sym)) (p : Nat),
    (i = .htree ∨ (i = .hdec ra rb walk ∧ FitsMemory s (s.regNat ra) (s.regNat rb))) → TreeGoesOn items →
    p = s.bcPos.toNat + (nodeBits items).length → p ≤ 8 * s.bcLen.toNat →
    s.sbits s.bcPos.toNat (nodeBits items).length = nodeBits items →
      (items.length = 521 → FaultsAt i s .corruptTree p p) ∧
      (items.length < 521 → p = 8 * s.bcLen.toNat → FaultsAt i s .truncated p p) ∧
      (items.length < 521 → p < 8 * s.bcLen.toNat → 8 * s.bcLen.toNat < p + 10 → s.sbits p 1 = [true] →
        FaultsAt i s .truncated (p + 1) (p + 1))) ∧
  ∀ (T : HuffTree) (s : State), T.leaves ≤ 261 →
    s.bcPos.toNat + (serChunks T).flatten.length ≤ 8 * s.bcLen.toNat →
    s.sbits s.bcPos.toNat (serChunks T).flatten.length = (serChunks T).flatten →
      (serChunks T).flatten.length = 11 * T.leaves - 1 ∧
      ∃ t, exec .htree s = .next t ∧ Completed s t ∧ t.treeValid = true ∧ t.nnodes = 2 * T.leaves - 1 ∧
        ArenaHolds t.node T 0 ∧ LutOk t.node t.lut ∧ t.bcPos = s.bcPos + BitVec.ofNat 32 (11 * T.leaves - 1) ∧
        t.bcBase = s.bcBase ∧ t.bcLen = s.bcLen ∧ SameBut [.reader, .tree] s t

/-- 42_huffman.md R173, R177: where the pending bits are the path of the tree to a leaf, HSYM gives that leaf's raw
symbol and consumes exactly those bits, under either walk flag. 60_exceptions.md R300, R310: where all the bits left
in the window lead only to a branch, it raises TRUNCATED with the position of the read that passes the window: the
window's end for the walk, BC_POS for the LUT with fewer than 8 bits left (93_implementation_defined.md U19); BC_POS
stands there. -/
def Obligations.HsymDecodesACode : Prop :=
  ∀ (rd : RegIx) (walk : Bool) (s : State) (c : Bits) (n : NodeIx), s.treeValid = true →
    LutOk s.node s.lut → s.bcPos.toNat + c.length ≤ 8 * s.bcLen.toNat → s.sbits s.bcPos.toNat c.length = c →
    descend s.node 0 c = some n →
      (∀ x y q, s.node[n] = .branch x y → s.bcPos.toNat + c.length = 8 * s.bcLen.toNat →
        q = (if walk = true ∨ 8 ≤ c.length then 8 * s.bcLen.toNat else s.bcPos.toNat) →
          FaultsAt (.hsym rd walk) s .truncated q q) ∧
      ∀ sym, s.node[n] = .leaf sym → ∃ t, exec (.hsym rd walk) s = .next t ∧ Completed s t ∧ (t.reg rd).toNat = sym.toNat ∧
        t.bcPos = s.bcPos + BitVec.ofNat 32 c.length ∧ t.bcBase = s.bcBase ∧ t.bcLen = s.bcLen ∧
        SameRegsBut rd s t ∧ SameBut [.regs, .reader] s t

/-- 42_huffman.md R178, 10_state.md R48: HLUTRD gives the LUT entry of key R[ra][7:0], bit 31 telling a terminal entry;
HSYM and HLUTRD raise NO_TREE(0) where TREE_VALID is 0 and change nothing. -/
def Obligations.HlutrdReadsAnEntry : Prop :=
  ∀ (rd ra : RegIx) (walk : Bool) (s : State) (key : Fin 256),
    key.val = (s.reg ra).toNat % 256 →
    (s.treeValid = true → ∃ t, exec (.hlutrd rd ra) s = .next t ∧ Completed s t ∧
      (∀ sym len, s.lut[key] = .terminal sym len →
        (t.reg rd).toNat = 2147483648 + len.val * 65536 + sym.toNat) ∧
      (∀ n, s.lut[key] = .nonTerminal n → (t.reg rd).toNat = n.val) ∧ SameRegsBut rd s t ∧ SameBut [.regs] s t) ∧
    (s.treeValid = false →
      (∃ t, exec (.hlutrd rd ra) s = .next t ∧ RaisedClean .noTree 0#32 s t) ∧
      (∃ t, exec (.hsym rd walk) s = .next t ∧ RaisedClean .noTree 0#32 s t))

/-- 42_huffman.md R179: on a complete tree with its LUT, HSYM by LUT and HSYM by tree walk give the same next state, or
both raise TRUNCATED. The premises hold in every state the machine reaches (StepKeepsTheTree and
StepKeepsMemoryAndWindows). -/
def Obligations.LutAndWalkAgree : Prop :=
  ∀ (rd : RegIx) (s : State), s.treeValid = true → LutOk s.node s.lut → s.bcPos.toNat ≤ 8 * s.bcLen.toNat →
    (∃ t, exec (.hsym rd false) s = .next t ∧ exec (.hsym rd true) s = .next t ∧ Completed s t) ∨
    (∃ t u info info', exec (.hsym rd false) s = .next t ∧ exec (.hsym rd true) s = .next u ∧
      Raised .truncated info s t ∧ Raised .truncated info' s u)

/-- 42_huffman.md R175, R163, 41_bitstream.md R137: HDEC of a serialized tree of at most 261 leaves and then any coded
tokens of it, Tokenize's own or others, that make up its output and end the window up to 7 padding bits: the destination
holds their bytes, no other byte changes, BC_POS stands after them, and the tree stays; a destination out of memory raises
MEM_RANGE and does nothing. 60_exceptions.md R300, R310: after tokens that leave room, TRUNCATED where a code or the extra
bits pass the window, CORRUPT_RUN(L) where a run is longer than the room, CORRUPT_SYMBOL where a code leads to 261..511;
after tokens that leave none, CORRUPT_TRAILING where 8 or more bits are left; BC_POS stands at the faulting primitive. -/
def Obligations.HdecDecodesAnEncodedBlock : Prop :=
  ∀ (ra rb : RegIx) (walk : Bool) (s : State) (T : HuffTree) (cts : List (Bits × Token)) (bits : Bits) (p room : Nat),
    (¬ FitsMemory s (s.regNat ra) (s.regNat rb) → ∃ t, exec (.hdec ra rb walk) s = .next t ∧
      RaisedClean .memRange (s.reg ra) s t) ∧
    (FitsMemory s (s.regNat ra) (s.regNat rb) → T.leaves ≤ 261 → Coded T cts →
      bits = (serChunks T).flatten ++ codedBits cts → p = s.bcPos.toNat + bits.length → p ≤ 8 * s.bcLen.toNat →
      s.sbits s.bcPos.toNat bits.length = bits → s.regNat rb = (codedBytes cts).length + room →
        (room = 0 → 8 * s.bcLen.toNat ≤ p + 7 →
          ∃ t, exec (.hdec ra rb walk) s = .next t ∧ Completed s t ∧
            (DisjointRanges (s.regNat ra) (s.regNat rb) s.bcBase.toNat s.bcLen.toNat →
              t.readBytes (s.regNat ra) (s.regNat rb) = codedBytes cts) ∧
            SameBytesOutside (s.regNat ra) (s.regNat rb) s t ∧
            t.bcPos = BitVec.ofNat 32 p ∧ t.bcBase = s.bcBase ∧ t.bcLen = s.bcLen ∧
            t.treeValid = true ∧ ArenaHolds t.node T 0 ∧ LutOk t.node t.lut ∧ SameBut [.reader, .tree, .memory] s t) ∧
        (room = 0 → p + 8 ≤ 8 * s.bcLen.toNat →
          FaultsAt (.hdec ra rb walk) s .corruptTrailing (8 * s.bcLen.toNat - p) p) ∧
        (0 < room → ∀ q, T.stopsInside (s.sbits p (8 * s.bcLen.toNat - p)) = true →
          q = (if walk = true ∨ p + 8 ≤ 8 * s.bcLen.toNat then 8 * s.bcLen.toNat else p) →
            FaultsAt (.hdec ra rb walk) s .truncated q q) ∧
        (0 < room → ∀ (c : Bits) (sym : Sym) (q : Nat), T.leafAt c = some sym → q = p + c.length →
          q ≤ 8 * s.bcLen.toNat → s.sbits p c.length = c →
            (261 ≤ sym.toNat → FaultsAt (.hdec ra rb walk) s .corruptSymbol sym.toNat q) ∧
            (256 ≤ sym.toNat → sym.toNat ≤ 260 → 8 * s.bcLen.toNat < q + runExtraBits sym.toNat →
              FaultsAt (.hdec ra rb walk) s .truncated q q) ∧
            (256 ≤ sym.toNat → sym.toNat ≤ 260 → q + runExtraBits sym.toNat ≤ 8 * s.bcLen.toNat →
              ∀ len, len = runBase sym.toNat + natOfBits (s.sbits q (runExtraBits sym.toNat)) → room < len →
                FaultsAt (.hdec ra rb walk) s .corruptRun len (q + runExtraBits sym.toNat))))

/-- 42_huffman.md R180: HENC of a block from BW_POS = 0, then HDEC of the same size through a window on the writer base of
SizeBytes() bytes, completes and writes exactly the block, under either walk flag and either ENC_TREE_POLICY. The
source block and the output are clear of the stream (20_memory.md R80); the premises on MEM_BYTES and on the writer hold
in every state the machine reaches (StepKeepsMemoryAndWindows). -/
def Obligations.HuffmanRoundTrip : Prop :=
  ∀ (ra rb rc rd : RegIx) (walk : Bool) (s t u : State), s.cfg.Valid → WriterInv s → s.bwPos = 0#32 →
    DisjointRanges (s.regNat ra) (s.regNat rb) s.bwBase.toNat s.bwCap.toNat →
    exec (.henc ra rb) s = .next t → Completed s t →
    (∀ a, u.readByte a = t.readByte a) → u.bcBase = t.bwBase → u.bcLen.toNat = t.sizeBytes → u.bcPos = 0#32 →
    u.regNat rd = s.regNat rb → FitsMemory u (u.regNat rc) (u.regNat rd) →
    DisjointRanges (u.regNat rc) (u.regNat rd) u.bcBase.toNat u.bcLen.toNat →
      ∃ v, exec (.hdec rc rd walk) u = .next v ∧ Completed u v ∧
        v.readBytes (u.regNat rc) (u.regNat rd) = s.readBytes (s.regNat ra) (s.regNat rb)

/-- 60_exceptions.md R310, 10_state.md R48: what a fault of the Huffman commands may leave changed. After MEM_RANGE
nothing; after a data fault of HTREE or HDEC, BC_POS and the tree, TREE_VALID being 0, and for HDEC the bytes of its
destination; of HSYM, BC_POS; BC_POS is ERRINFO for TRUNCATED and CORRUPT_TREE and lies ERRINFO bits before the window's
end for CORRUPT_TRAILING; of HENC, BW_POS, not moved back nor past 8·BW_CAP, and bytes of its region from the one
BW_POS stood in (of the whole region where the source overlaps it). -/
def Obligations.DataFaultsStayInBounds : Prop :=
  ∀ (ra rb rd : RegIx) (walk : Bool) (s t : State) (c : Cause) (info : Word), Raised c info s t →
    (exec .htree s = .next t ∨ exec (.hsym rd walk) s = .next t ∨ exec (.hdec ra rb walk) s = .next t →
      ((c = .truncated ∨ c = .corruptTree) → t.bcPos = info) ∧
      (c = .corruptTrailing → t.bcPos = 8#32 * s.bcLen - info)) ∧
    (exec .htree s = .next t → t.treeValid = false ∧ t.bcBase = s.bcBase ∧ t.bcLen = s.bcLen ∧
      SameBut [.reader, .tree] s t) ∧
    (exec (.hsym rd walk) s = .next t → t.bcBase = s.bcBase ∧ t.bcLen = s.bcLen ∧ SameBut [.reader] s t) ∧
    (exec (.hdec ra rb walk) s = .next t → c = .memRange → SameBut [] s t) ∧
    (exec (.hdec ra rb walk) s = .next t → c ≠ .memRange → t.treeValid = false ∧ t.bcBase = s.bcBase ∧
      t.bcLen = s.bcLen ∧ SameBytesOutside (s.regNat ra) (s.regNat rb) s t ∧
      SameBut [.reader, .tree, .memory] s t) ∧
    (exec (.henc ra rb) s = .next t → c = .memRange → SameBut [] s t) ∧
    (exec (.henc ra rb) s = .next t → c ≠ .memRange → s.bwPos.toNat ≤ 8 * s.bwCap.toNat →
      t.bwBase = s.bwBase ∧ t.bwCap = s.bwCap ∧ s.bwPos.toNat ≤ t.bwPos.toNat ∧
      t.bwPos.toNat ≤ 8 * s.bwCap.toNat ∧ SameBytesOutside s.bwBase.toNat s.bwCap.toNat s t ∧
      (DisjointRanges (s.regNat ra) (s.regNat rb) s.bwBase.toNat s.bwCap.toNat →
        SameBytesOutside (s.bwBase.toNat + s.bwPos.toNat / 8) (s.bwCap.toNat - s.bwPos.toNat / 8) s t) ∧
      SameBut [.writer, .memory] s t)

/-! ## Mapping tables -/

/-- 43_mapping.md R200, R212, R211: MLOAD commits the 128 little-endian entries of a valid table and sets TVALID[t]; it
raises CORRUPT_MAP with the first i where T[i] > T[i+1], else CORRUPT_MAP(127) where T[127] > 32767, and MEM_RANGE for a
source out of memory, each changing nothing. -/
def Obligations.MloadValidatesBeforeCommit : Prop :=
  ∀ (t : TableIx) (ra : RegIx) (s : State) (T : Nat → Nat), (∀ i, T i = (s.readHalf (s.regNat ra + 2 * i)).toNat) →
    (s.cfg.memBytes < s.regNat ra + 256 → ∃ u, exec (.mload t ra) s = .next u ∧
      RaisedClean .memRange (s.reg ra) s u) ∧
    (s.regNat ra + 256 ≤ s.cfg.memBytes →
      (∀ i, i < 127 → T (i + 1) < T i → (∀ j, j < i → T j ≤ T (j + 1)) → ∃ u, exec (.mload t ra) s = .next u ∧
        RaisedClean .corruptMap (BitVec.ofNat 32 i) s u) ∧
      ((∀ i, i < 127 → T i ≤ T (i + 1)) → 32767 < T 127 → ∃ u, exec (.mload t ra) s = .next u ∧
        RaisedClean .corruptMap 127#32 s u) ∧
      ((∀ i, i < 127 → T i ≤ T (i + 1)) → T 127 ≤ 32767 → ∃ u, exec (.mload t ra) s = .next u ∧ Completed s u ∧
        (∀ i : Fin 128, (u.mt[t][i]).toNat = T i.val) ∧ u.tvalid[t] = true ∧
        (∀ t' : TableIx, t' ≠ t → u.mt[t'] = s.mt[t'] ∧ u.tvalid[t'] = s.tvalid[t']) ∧ SameBut [.tables] s u))

/-- 43_mapping.md R201, R211, R215: MSTORE writes the 128 entries of a present table as little-endian 16-bit values and
changes no other byte; it raises NO_TABLE(t) first, then MEM_RANGE, each changing nothing. -/
def Obligations.MstoreSerializes : Prop :=
  ∀ (t : TableIx) (ra : RegIx) (s : State),
    (s.tvalid[t] = false → ∃ u, exec (.mstore t ra) s = .next u ∧ RaisedClean .noTable (BitVec.ofNat 32 t.val) s u) ∧
    (s.tvalid[t] = true → s.cfg.memBytes < s.regNat ra + 256 → ∃ u, exec (.mstore t ra) s = .next u ∧
      RaisedClean .memRange (s.reg ra) s u) ∧
    (s.tvalid[t] = true → s.regNat ra + 256 ≤ s.cfg.memBytes → ∃ u, exec (.mstore t ra) s = .next u ∧
      Completed s u ∧ (∀ i : Fin 128, u.readHalf (s.regNat ra + 2 * i.val) = s.mt[t][i]) ∧
      SameBytesOutside (s.regNat ra) 256 s u ∧ SameBut [.memory] s u)

/-- 43_mapping.md R213, R214: MQINIT sets the table of the quality min(R[ra], 100), under the reference curve
T[i] = i + floor(i·i·(100 − q) / 1600); under either curve the table is valid; the other table stands. -/
def Obligations.MqinitTakesTheCurve : Prop :=
  ∀ (t : TableIx) (ra : RegIx) (s : State), ∃ u, exec (.mqinit t ra) s = .next u ∧ Completed s u ∧
    (s.cfg.curve = .reference → ∀ i : Fin 128,
      (u.mt[t][i]).toNat = i.val + i.val * i.val * (100 - min (s.regNat ra) 100) / 1600) ∧
    TableValid u.mt[t] ∧ u.tvalid[t] = true ∧
    (∀ t' : TableIx, t' ≠ t → u.mt[t'] = s.mt[t'] ∧ u.tvalid[t'] = s.tvalid[t']) ∧ SameBut [.tables] s u

/-- 43_mapping.md R201, R204, R217: MMAP gives the least index whose entry is nearest the magnitude of int16(R[ra][15:0]),
as the code i, or 256 − i modulo 256 for a negative value; NO_TABLE(t) where the table is absent. -/
def Obligations.MmapFindsTheNearestEntry : Prop :=
  ∀ (rd ra : RegIx) (t : TableIx) (s : State) (v : Int) (m : Nat),
    v = ((s.reg ra).extractLsb' 0 16).toInt → m = v.natAbs →
    (s.tvalid[t] = false → ∃ u, exec (.mmap rd ra t) s = .next u ∧
      RaisedClean .noTable (BitVec.ofNat 32 t.val) s u) ∧
    (s.tvalid[t] = true → ∃ u, exec (.mmap rd ra t) s = .next u ∧ Completed s u ∧
      (∃ i : Fin 128,
        (∀ j : Fin 128, ((s.mt[t][i]).toNat - (m : Int)).natAbs ≤ ((s.mt[t][j]).toNat - (m : Int)).natAbs) ∧
        (∀ j : Fin 128, j < i → ((s.mt[t][i]).toNat - (m : Int)).natAbs < ((s.mt[t][j]).toNat - (m : Int)).natAbs) ∧
        (u.reg rd).toNat = if 0 ≤ v then i.val else (256 - i.val) % 256) ∧
      SameRegsBut rd s u ∧ SameBut [.regs] s u)

/-- 43_mapping.md R201 to R203, R218: MUNMAP gives +T[k] for a code k of 0..127, −T[256 − k] for 0x81..0xFF and
−T[127] for 0x80, sign-extended; NO_TABLE(t) where the table is absent. The table is valid, as every present table is
(StepKeepsTablesStepsAndPlane). -/
def Obligations.MunmapReadsSignAndMagnitude : Prop :=
  ∀ (rd ra : RegIx) (t : TableIx) (s : State) (code : Nat), code = (s.reg ra).toNat % 256 →
    (s.tvalid[t] = false → ∃ u, exec (.munmap rd ra t) s = .next u ∧
      RaisedClean .noTable (BitVec.ofNat 32 t.val) s u) ∧
    (s.tvalid[t] = true → TableValid s.mt[t] → ∃ u, exec (.munmap rd ra t) s = .next u ∧ Completed s u ∧
      (∀ i : Fin 128, code = i.val → (u.reg rd).toInt = (s.mt[t][i]).toNat) ∧
      (∀ i : Fin 128, 0 < i.val → code = 256 - i.val → (u.reg rd).toInt = -((s.mt[t][i]).toNat : Int)) ∧
      (code = 128 → (u.reg rd).toInt = -((s.mt[t][127]).toNat : Int)) ∧ SameRegsBut rd s u ∧ SameBut [.regs] s u)

/-- 43_mapping.md R219, R220, 20_memory.md R75, R80: MMAPV and MUNMAPV complete on every present table with both ranges in
memory and change no byte outside the destination; where source and destination share no byte, element k of the
destination is Map or Unmap of element k of the source. NO_TABLE first, then MEM_RANGE, destination before source. -/
def Obligations.MmapvAndMunmapvMapEachElement : Prop :=
  ∀ (t : TableIx) (ra rb rc : RegIx) (s : State) (dst src n : Nat),
    dst = s.regNat ra → src = s.regNat rb → n = s.regNat rc →
    (s.tvalid[t] = false →
      (∃ u, exec (.mmapv t ra rb rc) s = .next u ∧ RaisedClean .noTable (BitVec.ofNat 32 t.val) s u) ∧
      (∃ u, exec (.munmapv t ra rb rc) s = .next u ∧ RaisedClean .noTable (BitVec.ofNat 32 t.val) s u)) ∧
    (s.tvalid[t] = true →
      (¬ FitsMemory s dst n → ∃ u, exec (.mmapv t ra rb rc) s = .next u ∧ RaisedClean .memRange (s.reg ra) s u) ∧
      (FitsMemory s dst n → ¬ FitsMemory s src (2 * n) →
        ∃ u, exec (.mmapv t ra rb rc) s = .next u ∧ RaisedClean .memRange (s.reg rb) s u) ∧
      (FitsMemory s dst n → FitsMemory s src (2 * n) → ∃ u, exec (.mmapv t ra rb rc) s = .next u ∧ Completed s u ∧
        SameBytesOutside dst n s u ∧ SameBut [.memory] s u ∧
        (DisjointRanges dst n src (2 * n) →
          ∀ k, k < n → u.readByte (dst + k) = mapCode s.mt[t] (s.readHalf (src + 2 * k)).toInt)) ∧
      (¬ FitsMemory s dst (2 * n) →
        ∃ u, exec (.munmapv t ra rb rc) s = .next u ∧ RaisedClean .memRange (s.reg ra) s u) ∧
      (FitsMemory s dst (2 * n) → ¬ FitsMemory s src n →
        ∃ u, exec (.munmapv t ra rb rc) s = .next u ∧ RaisedClean .memRange (s.reg rb) s u) ∧
      (FitsMemory s dst (2 * n) → FitsMemory s src n → ∃ u, exec (.munmapv t ra rb rc) s = .next u ∧
        Completed s u ∧ SameBytesOutside dst (2 * n) s u ∧ SameBut [.memory] s u ∧
        (DisjointRanges dst (2 * n) src n → TableValid s.mt[t] →
          ∀ k, k < n → (u.readHalf (dst + 2 * k)).toInt = unmapCode s.mt[t] (s.readByte (src + k)))))

/-- 43_mapping.md R205: the three properties of Map and Unmap on a valid table, the exception of 90_conflicts.md C11
included, with the rule's example of it and the reference tables, which it never touches. -/
def Obligations.MapAndUnmapProperties : Prop :=
  ∀ T : MapTable, TableValid T →
    (∀ v : Int, -32768 ≤ v → v ≤ 32767 →
      (if v < 0 ∧ 0 < (T[0]).toNat ∧ mapCode T v = 0#8 then unmapCode T (mapCode T v) = (T[0]).toNat
      else ∃ i : Fin 128,
        (unmapCode T (mapCode T v) - v).natAbs = ((T[i]).toNat - (v.natAbs : Int)).natAbs ∧
        ∀ j : Fin 128, ((T[i]).toNat - (v.natAbs : Int)).natAbs ≤ ((T[j]).toNat - (v.natAbs : Int)).natAbs)) ∧
    (∀ v w : Int, -32768 ≤ v → v ≤ w → w ≤ 32767 → (mapCode T v).toInt ≤ (mapCode T w).toInt) ∧
    ((∀ i : Fin 127, (T[i.castSucc]).toNat < (T[i.succ]).toNat) →
      (∀ c : Byte, c ≠ 0x80#8 → mapCode T (unmapCode T c) = c) ∧ mapCode T (unmapCode T 0x80#8) = 0x81#8) ∧
    ((∀ i : Fin 128, (T[i]).toNat = 4 + 2 * i.val) → mapCode T (-5) = 0x00#8 ∧ unmapCode T 0x00#8 = 4) ∧
    (∀ q : Nat, (referenceCurve q)[0] = 0#16)

/-! ## Quantizer -/

/-- 44_quant.md R234: SETQ stores a step of 1 to 65535 in QSTEP[q] and no other; 0 or a larger value raises BAD_STEP with
the value and changes nothing. -/
def Obligations.SetqStoresAStep : Prop :=
  ∀ (q : StepIx) (ra : RegIx) (s : State),
    (1 ≤ s.regNat ra → s.regNat ra ≤ 65535 → ∃ t, exec (.setq q ra) s = .next t ∧ Completed s t ∧
      (t.qstep[q]).toNat = s.regNat ra ∧ (∀ q' : StepIx, q' ≠ q → t.qstep[q'] = s.qstep[q']) ∧
      SameBut [.steps] s t) ∧
    ((s.regNat ra = 0 ∨ 65535 < s.regNat ra) → ∃ t, exec (.setq q ra) s = .next t ∧
      RaisedClean .badStep (s.reg ra) s t)

/-- 44_quant.md R231, R235: QUANT gives the index of the multiple of the step nearest v, halves away from zero, clamped so
that index times step is an int16. -/
def Obligations.QuantRoundsHalfAway : Prop :=
  ∀ (rd ra : RegIx) (q : StepIx) (s : State) (v : Int) (step : Nat), v = ((s.reg ra).extractLsb' 0 16).toInt →
    step = (s.qstep[q]).toNat → 1 ≤ step →
      ∃ t, exec (.quant rd ra q) s = .next t ∧ Completed s t ∧
        (t.reg rd).toInt =
          (if 0 ≤ v then ((min ((2 * v.natAbs + step) / (2 * step)) (32767 / step) : Nat) : Int)
          else -((min ((2 * v.natAbs + step) / (2 * step)) (32768 / step) : Nat) : Int)) ∧
        SameRegsBut rd s t ∧ SameBut [.regs] s t

/-- 44_quant.md R232, R236: DEQUANT gives the index times the step, saturated to −32768..32767. -/
def Obligations.DequantSaturates : Prop :=
  ∀ (rd ra : RegIx) (q : StepIx) (s : State), ∃ t, exec (.dequant rd ra q) s = .next t ∧ Completed s t ∧
    (t.reg rd).toInt = max (-32768) (min 32767 (((s.reg ra).extractLsb' 0 16).toInt * (s.qstep[q]).toNat)) ∧
    SameRegsBut rd s t ∧ SameBut [.regs] s t

/-- 44_quant.md R237, R238, 20_memory.md R75, R80: QUANTV and DEQUANTV complete where both arrays lie in memory and change
no byte outside the destination; in place, and where the arrays share no byte, element k is Quantize or Dequantize of
element k. MEM_RANGE otherwise, destination before source. -/
def Obligations.QuantvAndDequantvAreExactInPlace : Prop :=
  ∀ (q : StepIx) (ra rb rc : RegIx) (s : State) (dst src n step : Nat),
    dst = s.regNat ra → src = s.regNat rb → n = s.regNat rc → step = (s.qstep[q]).toNat → 1 ≤ step →
    (¬ FitsMemory s dst (2 * n) →
      (∃ t, exec (.quantv q ra rb rc) s = .next t ∧ RaisedClean .memRange (s.reg ra) s t) ∧
      (∃ t, exec (.dequantv q ra rb rc) s = .next t ∧ RaisedClean .memRange (s.reg ra) s t)) ∧
    (FitsMemory s dst (2 * n) → ¬ FitsMemory s src (2 * n) →
      (∃ t, exec (.quantv q ra rb rc) s = .next t ∧ RaisedClean .memRange (s.reg rb) s t) ∧
      (∃ t, exec (.dequantv q ra rb rc) s = .next t ∧ RaisedClean .memRange (s.reg rb) s t)) ∧
    (FitsMemory s dst (2 * n) → FitsMemory s src (2 * n) →
      (∃ t, exec (.quantv q ra rb rc) s = .next t ∧ Completed s t ∧ SameBytesOutside dst (2 * n) s t ∧
        SameBut [.memory] s t ∧
        ((dst = src ∨ DisjointRanges dst (2 * n) src (2 * n)) →
          ∀ k, k < n → (t.readHalf (dst + 2 * k)).toInt = quantize (s.readHalf (src + 2 * k)).toInt step)) ∧
      (∃ t, exec (.dequantv q ra rb rc) s = .next t ∧ Completed s t ∧ SameBytesOutside dst (2 * n) s t ∧
        SameBut [.memory] s t ∧
        ((dst = src ∨ DisjointRanges dst (2 * n) src (2 * n)) →
          ∀ k, k < n → (t.readHalf (dst + 2 * k)).toInt = dequantize (s.readHalf (src + 2 * k)).toInt step)))

/-- 44_quant.md R239: the error bound of Quantize followed by Dequantize, for every int16 and every step. -/
def Obligations.QuantizerErrorBound : Prop :=
  ∀ (v : Int) (step : Nat), -32768 ≤ v → v ≤ 32767 → 1 ≤ step → step ≤ 65535 →
    (-32768 ≤ roundIndex v step * step → roundIndex v step * step ≤ 32767 →
      (dequantize (quantize v step) step - v).natAbs ≤ step / 2) ∧
    ((roundIndex v step * step < -32768 ∨ 32767 < roundIndex v step * step) →
      (dequantize (quantize v step) step - v).natAbs < step ∧
      (dequantize (quantize v step) step = 0 ∨ (0 < dequantize (quantize v step) step ∧ 0 < v) ∨
        (dequantize (quantize v step) step < 0 ∧ v < 0))) ∧
    quantize v 1 = v ∧ dequantize v 1 = v

/-! ## Plane -/

/-- 45_plane.md R253, 10_state.md R50 to R52: SETDIM sets DIM to R[ra] and PCFG to k and UPK of R[rb] with every reserved
bit 0; W = 0, H = 0 or k outside 1..4 raises BAD_ARG(R[ra]) and changes nothing. -/
def Obligations.SetdimConfiguresThePlane : Prop :=
  ∀ (ra rb : RegIx) (s : State) (w h k u : Nat), w = s.regNat ra % 65536 → h = s.regNat ra / 65536 →
    k = s.regNat rb % 8 → u = s.regNat rb / 256 % 2 →
    (1 ≤ w → 1 ≤ h → 1 ≤ k → k ≤ 4 → ∃ t, exec (.setdim ra rb) s = .next t ∧ Completed s t ∧ t.dim = s.reg ra ∧
      t.pcfg.toNat = k + 256 * u ∧ SameBut [.plane] s t) ∧
    ((w = 0 ∨ h = 0 ∨ k = 0 ∨ 4 < k) → ∃ t, exec (.setdim ra rb) s = .next t ∧ RaisedClean .badArg (s.reg ra) s t)

/-- 45_plane.md R250: DSAMP, USAMP, RESID and RECON raise BAD_ARG(0) before any access where no plane is configured, and
change nothing. -/
def Obligations.PlaneCommandsNeedSetdim : Prop :=
  ∀ (i : Instr) (ra rb rc : RegIx) (s : State),
    (i = .dsamp ra rb ∨ i = .usamp ra rb ∨ i = .resid ra rb rc ∨ i = .recon ra rb rc) →
    (s.dim.toNat % 65536 = 0 ∨ s.dim.toNat / 65536 = 0 ∨ s.pcfg.toNat % 8 = 0) →
      ∃ t, exec i s = .next t ∧ RaisedClean .badArg 0#32 s t

/-- 45_plane.md R252, R254, R255: DSAMP completes where a plane is configured and both planes lie in memory; where they
share no byte, low-resolution sample (X, Y) is the mean of the n pixels of its clipped block, rounded half up; no byte
outside the destination changes. MEM_RANGE otherwise, destination before source. -/
def Obligations.DsampTakesTheBoxMean : Prop :=
  ∀ (ra rb : RegIx) (s : State) (dst src w h S lw lh : Nat), dst = s.regNat ra → src = s.regNat rb →
    w = s.dim.toNat % 65536 → h = s.dim.toNat / 65536 → 1 ≤ w → 1 ≤ h → 1 ≤ s.pcfg.toNat % 8 →
    S = 2 ^ (s.pcfg.toNat % 8) → lw = (w + S - 1) / S → lh = (h + S - 1) / S →
    (¬ FitsMemory s dst (2 * (lw * lh)) →
      ∃ t, exec (.dsamp ra rb) s = .next t ∧ RaisedClean .memRange (s.reg ra) s t) ∧
    (FitsMemory s dst (2 * (lw * lh)) → ¬ FitsMemory s src (w * h) →
      ∃ t, exec (.dsamp ra rb) s = .next t ∧ RaisedClean .memRange (s.reg rb) s t) ∧
    (FitsMemory s dst (2 * (lw * lh)) → FitsMemory s src (w * h) →
      ∃ t, exec (.dsamp ra rb) s = .next t ∧ Completed s t ∧ SameBytesOutside dst (2 * (lw * lh)) s t ∧
        SameBut [.memory] s t ∧
        (DisjointRanges dst (2 * (lw * lh)) src (w * h) → ∀ X Y bw bh total : Nat, X < lw → Y < lh →
          bw = min (X * S + S) w - X * S → bh = min (Y * S + S) h - Y * S →
          total = ∑ y ∈ Finset.range bh, ∑ x ∈ Finset.range bw,
            (s.readByte (src + (Y * S + y) * w + (X * S + x))).toNat →
          (t.readHalf (dst + 2 * (Y * lw + X))).toNat = (total + bw * bh / 2) / (bw * bh)))

/-- 45_plane.md R256 to R258: USAMP completes where a plane is configured and both planes lie in memory; where they share
no byte, sample (x, y) is the nearest or the bilinear kernel of the low-resolution plane, as PCFG[8] says; no byte outside
the destination changes. MEM_RANGE otherwise, destination before source. -/
def Obligations.UsampInterpolates : Prop :=
  ∀ (ra rb : RegIx) (s : State) (dst src w h S lw lh : Nat) (P : Int → Int → Int) (cx cy : Int → Int),
    dst = s.regNat ra → src = s.regNat rb →
    w = s.dim.toNat % 65536 → h = s.dim.toNat / 65536 → 1 ≤ w → 1 ≤ h → 1 ≤ s.pcfg.toNat % 8 →
    S = 2 ^ (s.pcfg.toNat % 8) → lw = (w + S - 1) / S → lh = (h + S - 1) / S →
    (∀ X Y : Nat, P X Y = (s.readHalf (src + 2 * (Y * lw + X))).toInt) →
    (∀ i, cx i = max 0 (min i (lw - 1))) → (∀ j, cy j = max 0 (min j (lh - 1))) →
    (¬ FitsMemory s dst (2 * (w * h)) →
      ∃ t, exec (.usamp ra rb) s = .next t ∧ RaisedClean .memRange (s.reg ra) s t) ∧
    (FitsMemory s dst (2 * (w * h)) → ¬ FitsMemory s src (2 * (lw * lh)) →
      ∃ t, exec (.usamp ra rb) s = .next t ∧ RaisedClean .memRange (s.reg rb) s t) ∧
    (FitsMemory s dst (2 * (w * h)) → FitsMemory s src (2 * (lw * lh)) →
      ∃ t, exec (.usamp ra rb) s = .next t ∧ Completed s t ∧ SameBytesOutside dst (2 * (w * h)) s t ∧
        SameBut [.memory] s t ∧
        (DisjointRanges dst (2 * (w * h)) src (2 * (lw * lh)) → ∀ x y : Nat, x < w → y < h →
          (s.pcfg.getLsbD 8 = true →
            (t.readHalf (dst + 2 * (y * w + x))).toInt = P ((x / S : Nat) : Int) ((y / S : Nat) : Int)) ∧
          (s.pcfg.getLsbD 8 = false → ∀ D X0 Y0 fx fy : Int, D = 2 * S →
            X0 = Int.fdiv (2 * x + 1 - S) D → fx = 2 * x + 1 - S - X0 * D →
            Y0 = Int.fdiv (2 * y + 1 - S) D → fy = 2 * y + 1 - S - Y0 * D →
            (t.readHalf (dst + 2 * (y * w + x))).toInt =
              Int.fdiv ((D - fx) * (D - fy) * P (cx X0) (cy Y0) + fx * (D - fy) * P (cx (X0 + 1)) (cy Y0)
                + (D - fx) * fy * P (cx X0) (cy (Y0 + 1)) + fx * fy * P (cx (X0 + 1)) (cy (Y0 + 1))
                + Int.fdiv (D * D) 2) (D * D))))

/-- 45_plane.md R259, R260, 20_memory.md R75, R80: RESID and RECON complete where a plane is configured and the three
planes lie in memory, and change no byte outside the destination. The residual is pixel minus prediction, clamped to
int16, exact also where the destination is the prediction; the pixel is prediction plus residual, clamped to 0..255.
MEM_RANGE otherwise, in operand order. -/
def Obligations.ResidAndReconClamp : Prop :=
  ∀ (ra rb rc : RegIx) (s : State) (a b c n : Nat), a = s.regNat ra → b = s.regNat rb → c = s.regNat rc →
    n = s.dim.toNat % 65536 * (s.dim.toNat / 65536) → 1 ≤ n → 1 ≤ s.pcfg.toNat % 8 →
    (¬ FitsMemory s a (2 * n) → ∃ t, exec (.resid ra rb rc) s = .next t ∧ RaisedClean .memRange (s.reg ra) s t) ∧
    (FitsMemory s a (2 * n) → ¬ FitsMemory s b n →
      ∃ t, exec (.resid ra rb rc) s = .next t ∧ RaisedClean .memRange (s.reg rb) s t) ∧
    (FitsMemory s a (2 * n) → FitsMemory s b n → ¬ FitsMemory s c (2 * n) →
      ∃ t, exec (.resid ra rb rc) s = .next t ∧ RaisedClean .memRange (s.reg rc) s t) ∧
    (FitsMemory s a (2 * n) → FitsMemory s b n → FitsMemory s c (2 * n) →
      ∃ t, exec (.resid ra rb rc) s = .next t ∧ Completed s t ∧ SameBytesOutside a (2 * n) s t ∧
        SameBut [.memory] s t ∧
        (DisjointRanges a (2 * n) b n → (a = c ∨ DisjointRanges a (2 * n) c (2 * n)) → ∀ i, i < n →
          (t.readHalf (a + 2 * i)).toInt =
            max (-32768) (min 32767 ((s.readByte (b + i)).toNat - (s.readHalf (c + 2 * i)).toInt)))) ∧
    (¬ FitsMemory s a n → ∃ t, exec (.recon ra rb rc) s = .next t ∧ RaisedClean .memRange (s.reg ra) s t) ∧
    (FitsMemory s a n → ¬ FitsMemory s b (2 * n) →
      ∃ t, exec (.recon ra rb rc) s = .next t ∧ RaisedClean .memRange (s.reg rb) s t) ∧
    (FitsMemory s a n → FitsMemory s b (2 * n) → ¬ FitsMemory s c (2 * n) →
      ∃ t, exec (.recon ra rb rc) s = .next t ∧ RaisedClean .memRange (s.reg rc) s t) ∧
    (FitsMemory s a n → FitsMemory s b (2 * n) → FitsMemory s c (2 * n) →
      ∃ t, exec (.recon ra rb rc) s = .next t ∧ Completed s t ∧ SameBytesOutside a n s t ∧ SameBut [.memory] s t ∧
        (DisjointRanges a n b (2 * n) → DisjointRanges a n c (2 * n) → ∀ i, i < n →
          ((t.readByte (a + i)).toNat : Int) =
            max 0 (min 255 ((s.readHalf (b + 2 * i)).toInt + (s.readHalf (c + 2 * i)).toInt))))

/-! ## Host -/

/-- 10_state.md R34, 60_exceptions.md R314: a CTRL write without SRST takes IE from bit 8; CLR from DONE or FAILED
gives IDLE and clears ERR, ERRCP and ERRINFO, and is ignored otherwise; GO, after any CLR, from IDLE gives BUSY and
clears CMDCNT, and is ignored otherwise; nothing else changes, but that a new run starts with nothing loose
(assumption log 12). -/
def Obligations.CtrlWriteActions : Prop :=
  ∀ (s : State) (v : Word) (rest : List Turn) (clr go : Prop), s.inputs = .host (.regWrite 1 v) :: rest →
    v.getLsbD 2 = false →
    (clr ↔ v.getLsbD 1 = true ∧ (s.engine = .done ∨ s.engine = .failed)) →
    (go ↔ v.getLsbD 0 = true ∧ (s.engine = .idle ∨ clr)) →
      ∃ t, step s = .next t ∧ t.ie = v.getLsbD 8 ∧
        (go → t.engine = .busy ∧ t.cmdcnt = 0#32) ∧ (¬ go → t.cmdcnt = s.cmdcnt) ∧
        (clr → t.err = 0#32 ∧ t.errcp = 0#32 ∧ t.errinfo = 0#32) ∧ (¬ clr → SameErr s t) ∧
        (clr → ¬ go → t.engine = .idle) ∧ (¬ clr → ¬ go → t.engine = s.engine) ∧
        (go → t.loose = []) ∧ (¬ go → t.loose = s.loose) ∧
        t.cp = s.cp ∧ t.cfg = s.cfg ∧ t.hostData = s.hostData ∧ t.inputs = rest ∧ SameBut [] s t

/-- 70_reset_and_hazards.md R341: a CTRL write with SRST, in any state, gives every element with a stated reset value that
value and keeps R0 to R7, MT, NODE, LUT and MEM; where a command was in progress, only the bytes of its destination range
may change (assumption log 11), and none for a BWBITS that does not fit its region (41_bitstream.md R136). -/
def Obligations.SoftResetKeepsRegistersAndMemory : Prop :=
  ∀ (s : State) (v : Word) (rest : List Turn), s.inputs = .host (.regWrite 1 v) :: rest → v.getLsbD 2 = true →
    ∃ t, step s = .next t ∧ t.engine = .idle ∧ t.ie = false ∧ t.cp = 0#32 ∧ t.cmdcnt = 0#32 ∧ t.err = 0#32 ∧
      t.errcp = 0#32 ∧ t.errinfo = 0#32 ∧ t.bcBase = 0#32 ∧ t.bcLen = 0#32 ∧ t.bcPos = 0#32 ∧ t.bwBase = 0#32 ∧
      t.bwCap = 0#32 ∧ t.bwPos = 0#32 ∧ (∀ k : TableIx, t.tvalid[k] = false) ∧ (∀ q : StepIx, t.qstep[q] = 1#16) ∧
      t.nnodes = 0 ∧ t.treeValid = false ∧ t.dim = 0#32 ∧ t.pcfg = 0#32 ∧ t.cfg = s.cfg ∧ t.inputs = rest ∧
      (∀ r, t.reg r = s.reg r) ∧ t.mt = s.mt ∧ t.node = s.node ∧ t.lut = s.lut ∧
      t.loose = [] ∧
      ((s.engine ≠ .busy ∨ (s.loose = [] ∧ ∀ i, s.fetch ≠ .command i)) → ∀ a, t.readByte a = s.readByte a) ∧
      (s.engine = .busy → s.loose = [] → ∀ i, s.fetch = .command i →
        SameBytesOutside (s.destRange i).1 (s.destRange i).2 s t ∧
        (∀ ra n, i = .bwbits ra n → 8 * s.bwCap.toNat < s.bwPos.toNat + n → ∀ a, t.readByte a = s.readByte a))

/-- 70_reset_and_hazards.md R340: the reset input, in any state, gives every element with a stated reset value that
value. -/
def Obligations.ResetInputSetsEveryStatedValue : Prop :=
  ∀ (s : State) (rest : List Turn), s.inputs = .host .resetInput :: rest →
    ∃ t, step s = .next t ∧ t.engine = .idle ∧ t.ie = false ∧ t.irq = false ∧ t.cp = 0#32 ∧ t.cmdcnt = 0#32 ∧
      t.err = 0#32 ∧ t.errcp = 0#32 ∧ t.errinfo = 0#32 ∧ t.bcBase = 0#32 ∧ t.bcLen = 0#32 ∧ t.bcPos = 0#32 ∧
      t.bwBase = 0#32 ∧ t.bwCap = 0#32 ∧ t.bwPos = 0#32 ∧ (∀ k : TableIx, t.tvalid[k] = false) ∧
      (∀ q : StepIx, t.qstep[q] = 1#16) ∧ t.nnodes = 0 ∧ t.treeValid = false ∧ t.dim = 0#32 ∧ t.pcfg = 0#32 ∧
      t.loose = [] ∧ t.regPortValue 0 = 0x484D4731#32 ∧ t.regPortValue 31 = BitVec.ofNat 32 s.cfg.memBytes ∧
      t.cfg = s.cfg ∧ t.inputs = rest

/-- 10_state.md R32, R35, R40, R41, R53, R54, 60_exceptions.md R320: what the register port reads outside BUSY, and in any
state for ID, CTRL, STATUS and MEMSIZE; and what a write of it changes: CP with bits 1:0 as 0 and R[i], outside BUSY, and
nothing at any other offset but CTRL. -/
def Obligations.RegisterPortReadsAndWrites : Prop :=
  (∀ (s : State) (reg : Fin 64) (rest : List Turn), s.inputs = .host (.regRead reg) :: rest →
    ∃ t, step s = .next t ∧ t.inputs = rest ∧ SameBut [] s t ∧ SameErr s t ∧ t.cfg = s.cfg ∧ t.ie = s.ie ∧
      t.cp = s.cp ∧ t.cmdcnt = s.cmdcnt ∧ t.engine = s.engine ∧
      (reg = 0 → t.hostData = 0x484D4731#32) ∧
      (reg = 1 → t.hostData.toNat = if s.ie then 256 else 0) ∧
      (reg = 2 → t.hostData.toNat =
        (match s.engine with | .idle => 0 | .busy => 1 | .done => 2 | .failed => 3)
          + (if s.ie = true ∧ (s.engine = .done ∨ s.engine = .failed) then 4 else 0)) ∧
      (reg = 31 → t.hostData = BitVec.ofNat 32 s.cfg.memBytes) ∧
      (s.engine ≠ .busy →
        (reg = 3 → t.hostData = s.err) ∧ (reg = 4 → t.hostData = s.errcp) ∧ (reg = 5 → t.hostData = s.errinfo) ∧
        (reg = 6 → t.hostData = s.cp) ∧ (reg = 7 → t.hostData = s.cmdcnt) ∧
        (∀ r : RegIx, reg.val = 8 + r.val → t.hostData = s.reg r) ∧
        (reg = 16 → t.hostData = s.bcBase) ∧ (reg = 17 → t.hostData = s.bcLen) ∧ (reg = 18 → t.hostData = s.bcPos) ∧
        (reg = 20 → t.hostData = s.bwBase) ∧ (reg = 21 → t.hostData = s.bwCap) ∧ (reg = 22 → t.hostData = s.bwPos) ∧
        (∀ q : StepIx, reg.val = 24 + q.val → t.hostData.toNat = (s.qstep[q]).toNat) ∧
        (reg = 28 → t.hostData = s.dim) ∧ (reg = 29 → t.hostData = s.pcfg) ∧
        (reg = 30 → t.hostData.toNat = (if s.tvalid[0] then 1 else 0) + (if s.tvalid[1] then 2 else 0)
          + (if s.treeValid then 4 else 0))) ∧
      ((reg = 19 ∨ reg = 23 ∨ 32 ≤ reg.val) → t.hostData = 0#32)) ∧
  (∀ (s : State) (reg : Fin 64) (v : Word) (rest : List Turn), s.inputs = .host (.regWrite reg v) :: rest →
    reg ≠ 1 → ∃ t, step s = .next t ∧ t.inputs = rest ∧ SameErr s t ∧ t.cfg = s.cfg ∧ t.ie = s.ie ∧
      t.cmdcnt = s.cmdcnt ∧ t.engine = s.engine ∧ t.hostData = s.hostData ∧ SameBut [.regs] s t ∧
      (s.engine ≠ .busy → reg = 6 → t.cp.toNat = v.toNat / 4 * 4) ∧
      ((s.engine = .busy ∨ reg ≠ 6) → t.cp = s.cp) ∧
      (∀ r : RegIx, (s.engine ≠ .busy ∧ reg.val = 8 + r.val → t.reg r = v) ∧
        (s.engine = .busy ∨ reg.val ≠ 8 + r.val → t.reg r = s.reg r)))

/-- 20_memory.md R78: outside BUSY the memory port reads and writes one byte of local memory and changes nothing else;
while BUSY a write leaves only the written byte with any value, and loose for the rest of the run
(LooseBytesFreeTheResults, assumption log 12). An address that does not exist stops the model
(assumption log 14). -/
def Obligations.MemoryPortReadsAndWrites : Prop :=
  ∀ (s : State) (a : Word) (b : Byte) (rest : List Turn),
    (s.inputs = .host (.memRead a) :: rest → a.toNat < s.cfg.memBytes → ∃ t, step s = .next t ∧ t.inputs = rest ∧
      SameBut [] s t ∧ SameErr s t ∧ t.engine = s.engine ∧ t.cp = s.cp ∧ t.cmdcnt = s.cmdcnt ∧ t.ie = s.ie ∧
      t.cfg = s.cfg ∧ (s.engine ≠ .busy → t.hostData.toNat = (s.readByte a.toNat).toNat)) ∧
    (s.inputs = .host (.memWrite a b) :: rest → a.toNat < s.cfg.memBytes → ∃ t, step s = .next t ∧ t.inputs = rest ∧
      SameBut [.memory] s t ∧ SameErr s t ∧ t.engine = s.engine ∧ t.cp = s.cp ∧ t.cmdcnt = s.cmdcnt ∧ t.ie = s.ie ∧
      t.cfg = s.cfg ∧ t.hostData = s.hostData ∧ SameBytesOutside a.toNat 1 s t ∧
      (s.engine ≠ .busy → t.readByte a.toNat = b ∧ t.loose = s.loose) ∧
      (s.engine = .busy → t.loose = .byte a.toNat :: s.loose)) ∧
    ((s.inputs = .host (.memRead a) :: rest ∨ s.inputs = .host (.memWrite a b) :: rest) → s.cfg.memBytes ≤ a.toNat →
      step s = .fault (.hostAddress a))

/-- 20_memory.md R78, 70_reset_and_hazards.md R352, 93_implementation_defined.md U7: the engine's step in a run in which the
host wrote bytes of memory. The command completes or faults as from one of the variants, states with legal values of what is
loose. Exactly the pieces of its result that another variant changes are loose after it, and so none that no legal values of
what is loose change; they hold free values of one fresh draw, within what 10_state.md allows (`State.drawn`): a register or a
byte of memory any value. Every other piece of the result is exact (assumption log 12). -/
def Obligations.LooseBytesFreeTheResults : Prop :=
  ∀ s : State, s.inputs = [] → s.engine = .busy → s.loose ≠ [] → Legal s →
    ∃ v t u, v ∈ s.variants ∧ VariesLoose s v ∧ Legal v ∧ v.fetchAndExec = .next t ∧ step s = .next u ∧
      u.cp = t.cp ∧ u.cmdcnt = t.cmdcnt ∧ u.engine = t.engine ∧ u.err = t.err ∧ u.errcp = t.errcp ∧ u.cfg = s.cfg ∧
      u.ie = s.ie ∧ u.hostData = s.hostData ∧ u.inputs = [] ∧ u.draws = t.draws + 1 ∧
      (∀ p, p ∈ u.loose ↔ ∃ v' ∈ s.variants, ∃ t', v'.fetchAndExec = .next t' ∧ p.agrees t t' = false) ∧
      (∀ p, p ∉ u.loose → p.agrees t u = true) ∧
      (∀ p, (∀ v' t', VariesLoose s v' → Legal v' → v'.draws = v.draws → v'.fetchAndExec = .next t' →
        p.agrees t t' = true) → p ∉ u.loose) ∧
      (∀ p : Piece, p.agrees (t.drawn u.loose t.draws) u = true) ∧
      (∀ r, .reg r ∈ u.loose → u.reg r = Config.freeReg t.draws r) ∧
      (∀ a, a < s.cfg.memBytes → .byte a ∈ u.loose → u.readByte a = Config.freeByte t.draws a)

/-! ## The whole machine -/

/-- 20_memory.md R85, 10_state.md R42 to R52: no command changes a unit but those the spec names for it: MT by MLOAD and
MQINIT, NODE and LUT by HTREE and HDEC, QSTEP by SETQ, DIM and PCFG by SETDIM, the reader by BRINIT and the reading
commands, the writer by BWINIT, BWBITS and HENC; memory by the commands that store. -/
def Obligations.OnlyTheNamedCommandsChangeAUnit : Prop :=
  ∀ (i : Instr) (s t : State), exec i s = .next t →
    ((∀ k ra, i ≠ .mload k ra ∧ i ≠ .mqinit k ra) → Part.tables.Same s t) ∧
    ((∀ ra rb w, i ≠ .htree ∧ i ≠ .hdec ra rb w) → Part.tree.Same s t) ∧
    ((∀ q ra, i ≠ .setq q ra) → Part.steps.Same s t) ∧
    ((∀ ra rb, i ≠ .setdim ra rb) → Part.plane.Same s t) ∧
    ((∀ ra rb rd n w, i ≠ .brinit ra rb ∧ i ≠ .brbit rd ∧ i ≠ .brbits rd n ∧ i ≠ .bradv ra ∧ i ≠ .htree ∧
      i ≠ .hsym rd w ∧ i ≠ .hdec ra rb w) → Part.reader.Same s t) ∧
    ((∀ ra rb n, i ≠ .bwinit ra rb ∧ i ≠ .bwbits ra n ∧ i ≠ .henc ra rb) → Part.writer.Same s t) ∧
    ((∀ ra rb rc n w k q, i ≠ .bwbits ra n ∧ i ≠ .henc ra rb ∧ i ≠ .hdec ra rb w ∧ i ≠ .mstore k ra ∧
      i ≠ .mmapv k ra rb rc ∧ i ≠ .munmapv k ra rb rc ∧ i ≠ .quantv q ra rb rc ∧ i ≠ .dequantv q ra rb rc ∧
      i ≠ .dsamp ra rb ∧ i ≠ .usamp ra rb ∧ i ≠ .resid ra rb rc ∧ i ≠ .recon ra rb rc) → Part.memory.Same s t)

/-- 20_memory.md R80, 60_exceptions.md R310: no command, completing or faulting, overlapping or not, changes a byte
outside its destination range. The premises on the writer hold in every state the machine reaches
(StepKeepsMemoryAndWindows). -/
def Obligations.StoresStayInTheDestination : Prop :=
  ∀ (i : Instr) (s t : State), s.bwCap.toNat ≤ 536870912 → s.bwPos.toNat ≤ 8 * s.bwCap.toNat → exec i s = .next t →
    SameBytesOutside (s.destRange i).1 (s.destRange i).2 s t

/-- 46_control.md R289, 70_reset_and_hazards.md R355: with the host silent, a BUSY engine reaches DONE or FAILED within
(MEM_BYTES − CP) / 4 commands and one fetch. -/
def Obligations.EveryRunEnds : Prop :=
  ∀ s : State, s.cfg.Valid → s.inputs = [] → s.engine = .busy →
    ∃ k t, k ≤ (s.cfg.memBytes - s.cp.toNat) / 4 + 1 ∧ Host.Core.run Sys2Proof.core k s = .next t ∧
      (t.engine = .done ∨ t.engine = .failed)

/-- 70_reset_and_hazards.md R340: the state after reset meets every invariant, under the default parameters. -/
def Obligations.ResetMeetsTheInvariants : Prop :=
  State.reset.cfg.Valid ∧ CpInv State.reset ∧ ErrInv State.reset ∧ ReaderInv State.reset ∧ WriterInv State.reset ∧
    MemoryInv State.reset ∧ TablesInv State.reset ∧ StepsInv State.reset ∧ PlaneInv State.reset ∧ TreeInv State.reset

/-- 10_state.md R32, R42, R43, 20_memory.md R70, R75: every step, the host's included, keeps the parameters, CP aligned,
the cursor window and writer region in memory with their positions inside, and memory in canonical form with no listed
address outside it. -/
def Obligations.StepKeepsMemoryAndWindows : Prop :=
  ∀ s t : State, s.cfg.Valid → CpInv s → ReaderInv s → WriterInv s → MemoryInv s → step s = .next t →
    t.cfg = s.cfg ∧ CpInv t ∧ ReaderInv t ∧ WriterInv t ∧ MemoryInv t

/-- 10_state.md R33, R36, R44, R45, R50 to R52, 43_mapping.md R200: every step keeps an error recorded exactly in FAILED,
every present table valid, every step at least 1, and the plane either unset or legal. -/
def Obligations.StepKeepsTablesStepsAndPlane : Prop :=
  ∀ s t : State, ErrInv s → TablesInv s → StepsInv s → PlaneInv s → step s = .next t →
    ErrInv t ∧ TablesInv t ∧ StepsInv t ∧ PlaneInv t

/-- 10_state.md R46 to R48, 42_huffman.md R172: every step keeps the decoder tree: NNODES at most 521, and where
TREE_VALID is 1 a tree with children after their parents and a LUT that agrees with it. -/
def Obligations.StepKeepsTheTree : Prop :=
  ∀ s t : State, TreeInv s → step s = .next t → TreeInv t
end

