-- ==== Sys2Proof/Laws/Encode.lean ====
section
/-! SUPPORT. The fields of an encoded word, and the sub-fields of an encoded immediate (30_encoding.md R101, R104,
R109). -/

namespace Sys2Proof

/-! ## Bits of a word -/

theorem getLsbD_wordR (op : BitVec 6) (rd ra rb rc : BitVec 3) (imm : BitVec 14) (i : Nat) :
    (wordR op rd ra rb rc imm).getLsbD i =
      if i < 14 then imm.getLsbD i else if i - 14 < 3 then rc.getLsbD (i - 14)
      else if i - 14 - 3 < 3 then rb.getLsbD (i - 14 - 3) else if i - 14 - 3 - 3 < 3 then ra.getLsbD (i - 14 - 3 - 3)
      else if i - 14 - 3 - 3 - 3 < 3 then rd.getLsbD (i - 14 - 3 - 3 - 3) else op.getLsbD (i - 14 - 3 - 3 - 3 - 3) := by
  change BitVec.getLsbD (w := 6 + 3 + 3 + 3 + 3 + 14) (op ++ rd ++ ra ++ rb ++ rc ++ imm) i = _
  simp only [BitVec.getLsbD_append]

theorem getLsbD_wordI16 (op : BitVec 6) (rd : BitVec 3) (imm : BitVec 16) (i : Nat) :
    (wordI16 op rd imm).getLsbD i =
      if i < 16 then imm.getLsbD i else if i - 16 < 7 then false
      else if i - 16 - 7 < 3 then rd.getLsbD (i - 16 - 7) else op.getLsbD (i - 16 - 7 - 3) := by
  change BitVec.getLsbD (w := 6 + 3 + 7 + 16) (op ++ rd ++ 0#7 ++ imm) i = _
  simp only [BitVec.getLsbD_append, BitVec.getLsbD_zero]

theorem getLsbD_wordN (op : BitVec 6) (i : Nat) :
    (wordN op).getLsbD i = if i < 26 then false else op.getLsbD (i - 26) := by
  change BitVec.getLsbD (w := 6 + 26) (op ++ 0#26) i = _
  simp only [BitVec.getLsbD_append, BitVec.getLsbD_zero]

/-! ## Fields of a word -/

@[simp] theorem opField_wordR (op : BitVec 6) (rd ra rb rc : BitVec 3) (imm : BitVec 14) :
    opField (wordR op rd ra rb rc imm) = op := by
  refine BitVec.eq_of_getLsbD_eq fun i hi => ?_
  simp only [opField, BitVec.getLsbD_extractLsb', hi, decide_true, Bool.true_and, getLsbD_wordR]
  interval_cases i <;> simp

@[simp] theorem rdField_wordR (op : BitVec 6) (rd ra rb rc : BitVec 3) (imm : BitVec 14) :
    rdField (wordR op rd ra rb rc imm) = rd := by
  refine BitVec.eq_of_getLsbD_eq fun i hi => ?_
  simp only [rdField, BitVec.getLsbD_extractLsb', hi, decide_true, Bool.true_and, getLsbD_wordR]
  interval_cases i <;> simp

@[simp] theorem raField_wordR (op : BitVec 6) (rd ra rb rc : BitVec 3) (imm : BitVec 14) :
    raField (wordR op rd ra rb rc imm) = ra := by
  refine BitVec.eq_of_getLsbD_eq fun i hi => ?_
  simp only [raField, BitVec.getLsbD_extractLsb', hi, decide_true, Bool.true_and, getLsbD_wordR]
  interval_cases i <;> simp

@[simp] theorem rbField_wordR (op : BitVec 6) (rd ra rb rc : BitVec 3) (imm : BitVec 14) :
    rbField (wordR op rd ra rb rc imm) = rb := by
  refine BitVec.eq_of_getLsbD_eq fun i hi => ?_
  simp only [rbField, BitVec.getLsbD_extractLsb', hi, decide_true, Bool.true_and, getLsbD_wordR]
  interval_cases i <;> simp

@[simp] theorem rcField_wordR (op : BitVec 6) (rd ra rb rc : BitVec 3) (imm : BitVec 14) :
    rcField (wordR op rd ra rb rc imm) = rc := by
  refine BitVec.eq_of_getLsbD_eq fun i hi => ?_
  simp only [rcField, BitVec.getLsbD_extractLsb', hi, decide_true, Bool.true_and, getLsbD_wordR]
  interval_cases i <;> simp

@[simp] theorem imm14Field_wordR (op : BitVec 6) (rd ra rb rc : BitVec 3) (imm : BitVec 14) :
    imm14Field (wordR op rd ra rb rc imm) = imm := by
  refine BitVec.eq_of_getLsbD_eq fun i hi => ?_
  simp only [imm14Field, BitVec.getLsbD_extractLsb', hi, decide_true, Bool.true_and, getLsbD_wordR]
  interval_cases i <;> simp

@[simp] theorem opField_wordI16 (op : BitVec 6) (rd : BitVec 3) (imm : BitVec 16) :
    opField (wordI16 op rd imm) = op := by
  refine BitVec.eq_of_getLsbD_eq fun i hi => ?_
  simp only [opField, BitVec.getLsbD_extractLsb', hi, decide_true, Bool.true_and, getLsbD_wordI16]
  interval_cases i <;> simp

@[simp] theorem rdField_wordI16 (op : BitVec 6) (rd : BitVec 3) (imm : BitVec 16) :
    rdField (wordI16 op rd imm) = rd := by
  refine BitVec.eq_of_getLsbD_eq fun i hi => ?_
  simp only [rdField, BitVec.getLsbD_extractLsb', hi, decide_true, Bool.true_and, getLsbD_wordI16]
  interval_cases i <;> simp

@[simp] theorem gapField_wordI16 (op : BitVec 6) (rd : BitVec 3) (imm : BitVec 16) :
    gapField (wordI16 op rd imm) = 0#7 := by
  refine BitVec.eq_of_getLsbD_eq fun i hi => ?_
  simp only [gapField, BitVec.getLsbD_extractLsb', hi, decide_true, Bool.true_and, getLsbD_wordI16]
  interval_cases i <;> simp

@[simp] theorem imm16Field_wordI16 (op : BitVec 6) (rd : BitVec 3) (imm : BitVec 16) :
    imm16Field (wordI16 op rd imm) = imm := by
  refine BitVec.eq_of_getLsbD_eq fun i hi => ?_
  simp only [imm16Field, BitVec.getLsbD_extractLsb', hi, decide_true, Bool.true_and, getLsbD_wordI16]
  interval_cases i <;> simp

@[simp] theorem opField_wordN (op : BitVec 6) :
    opField (wordN op) = op := by
  refine BitVec.eq_of_getLsbD_eq fun i hi => ?_
  simp only [opField, BitVec.getLsbD_extractLsb', hi, decide_true, Bool.true_and, getLsbD_wordN]
  interval_cases i <;> simp

@[simp] theorem bodyField_wordN (op : BitVec 6) :
    bodyField (wordN op) = 0#26 := by
  refine BitVec.eq_of_getLsbD_eq fun i hi => ?_
  simp only [bodyField, BitVec.getLsbD_extractLsb', hi, decide_true, Bool.true_and, getLsbD_wordN]
  interval_cases i <;> simp

/-! ## Sub-fields -/

@[simp] theorem regOf_regBits (r : RegIx) : regOf (regBits r) = r := by revert r; decide
@[simp] theorem tableOf_tableBits (t : TableIx) : tableOf (tableBits t) = t := by revert t; decide
@[simp] theorem above0_tableBits (t : TableIx) : above0 (tableBits t) = true := by revert t; decide
@[simp] theorem stepOf_stepBits (q : StepIx) : stepOf (stepBits q) = q := by revert q; decide
@[simp] theorem above1_stepBits (q : StepIx) : above1 (stepBits q) = true := by revert q; decide
@[simp] theorem walkOf_walkBits (w : Bool) : walkOf (walkBits w) = w := by revert w; decide
@[simp] theorem above0_walkBits (w : Bool) : above0 (walkBits w) = true := by revert w; decide

/-- Every bit count of 1 to 32 is carried, and leaves the bits above it 0. -/
theorem countOf_countBits (n : Nat) (h : bitCountOk n = true) :
    countOf (countBits n) = n ∧ above4 (countBits n) = true := by
  have hn : 1 ≤ n ∧ n ≤ 32 := by simpa [bitCountOk] using h
  obtain ⟨h1, h2⟩ := hn
  interval_cases n <;> decide

/-- The four bytes of a word give the word back. -/
theorem wordOfBytes_bytesOfWord (w : Word) :
    wordOfBytes (w.extractLsb' 0 8) (w.extractLsb' 8 8) (w.extractLsb' 16 8) (w.extractLsb' 24 8) = w := by
  refine BitVec.eq_of_getLsbD_eq fun i hi => ?_
  change BitVec.getLsbD (w := 8 + 8 + 8 + 8) (_ ++ _ ++ _ ++ _) i = _
  simp only [BitVec.getLsbD_append, BitVec.getLsbD_extractLsb']
  interval_cases i <;> simp

end Sys2Proof
end

