-- ==== Sys2Proof/Laws/State.lean ====
section
/-! SUPPORT. The fields of State after each named update: one lemma per field and update, each true by definition. -/

namespace Sys2Proof.Machine

/-! ## setReg -/

@[simp] theorem setReg_cfg (s : State) (r : RegIx) (v : Word) : (s.setReg r v).cfg = s.cfg := rfl
@[simp] theorem setReg_engine (s : State) (r : RegIx) (v : Word) : (s.setReg r v).engine = s.engine := rfl
@[simp] theorem setReg_ie (s : State) (r : RegIx) (v : Word) : (s.setReg r v).ie = s.ie := rfl
@[simp] theorem setReg_cp (s : State) (r : RegIx) (v : Word) : (s.setReg r v).cp = s.cp := rfl
@[simp] theorem setReg_cmdcnt (s : State) (r : RegIx) (v : Word) : (s.setReg r v).cmdcnt = s.cmdcnt := rfl
@[simp] theorem setReg_err (s : State) (r : RegIx) (v : Word) : (s.setReg r v).err = s.err := rfl
@[simp] theorem setReg_errcp (s : State) (r : RegIx) (v : Word) : (s.setReg r v).errcp = s.errcp := rfl
@[simp] theorem setReg_errinfo (s : State) (r : RegIx) (v : Word) : (s.setReg r v).errinfo = s.errinfo := rfl
@[simp] theorem setReg_regs (s : State) (r : RegIx) (v : Word) : (s.setReg r v).regs = s.regs.set r v := rfl
@[simp] theorem setReg_bcBase (s : State) (r : RegIx) (v : Word) : (s.setReg r v).bcBase = s.bcBase := rfl
@[simp] theorem setReg_bcLen (s : State) (r : RegIx) (v : Word) : (s.setReg r v).bcLen = s.bcLen := rfl
@[simp] theorem setReg_bcPos (s : State) (r : RegIx) (v : Word) : (s.setReg r v).bcPos = s.bcPos := rfl
@[simp] theorem setReg_bwBase (s : State) (r : RegIx) (v : Word) : (s.setReg r v).bwBase = s.bwBase := rfl
@[simp] theorem setReg_bwCap (s : State) (r : RegIx) (v : Word) : (s.setReg r v).bwCap = s.bwCap := rfl
@[simp] theorem setReg_bwPos (s : State) (r : RegIx) (v : Word) : (s.setReg r v).bwPos = s.bwPos := rfl
@[simp] theorem setReg_mt (s : State) (r : RegIx) (v : Word) : (s.setReg r v).mt = s.mt := rfl
@[simp] theorem setReg_tvalid (s : State) (r : RegIx) (v : Word) : (s.setReg r v).tvalid = s.tvalid := rfl
@[simp] theorem setReg_qstep (s : State) (r : RegIx) (v : Word) : (s.setReg r v).qstep = s.qstep := rfl
@[simp] theorem setReg_node (s : State) (r : RegIx) (v : Word) : (s.setReg r v).node = s.node := rfl
@[simp] theorem setReg_nnodes (s : State) (r : RegIx) (v : Word) : (s.setReg r v).nnodes = s.nnodes := rfl
@[simp] theorem setReg_treeValid (s : State) (r : RegIx) (v : Word) : (s.setReg r v).treeValid = s.treeValid := rfl
@[simp] theorem setReg_lut (s : State) (r : RegIx) (v : Word) : (s.setReg r v).lut = s.lut := rfl
@[simp] theorem setReg_dim (s : State) (r : RegIx) (v : Word) : (s.setReg r v).dim = s.dim := rfl
@[simp] theorem setReg_pcfg (s : State) (r : RegIx) (v : Word) : (s.setReg r v).pcfg = s.pcfg := rfl
@[simp] theorem setReg_mem (s : State) (r : RegIx) (v : Word) : (s.setReg r v).mem = s.mem := rfl
@[simp] theorem setReg_memEpoch (s : State) (r : RegIx) (v : Word) : (s.setReg r v).memEpoch = s.memEpoch := rfl
@[simp] theorem setReg_draws (s : State) (r : RegIx) (v : Word) : (s.setReg r v).draws = s.draws := rfl
@[simp] theorem setReg_loose (s : State) (r : RegIx) (v : Word) : (s.setReg r v).loose = s.loose := rfl
@[simp] theorem setReg_hostData (s : State) (r : RegIx) (v : Word) : (s.setReg r v).hostData = s.hostData := rfl
@[simp] theorem setReg_inputs (s : State) (r : RegIx) (v : Word) : (s.setReg r v).inputs = s.inputs := rfl

/-! ## complete -/

@[simp] theorem complete_cfg (s : State) : (s.complete).cfg = s.cfg := rfl
@[simp] theorem complete_engine (s : State) : (s.complete).engine = s.engine := rfl
@[simp] theorem complete_ie (s : State) : (s.complete).ie = s.ie := rfl
@[simp] theorem complete_cp (s : State) : (s.complete).cp = s.cp + 4#32 := rfl
@[simp] theorem complete_cmdcnt (s : State) : (s.complete).cmdcnt = s.cmdcnt + 1#32 := rfl
@[simp] theorem complete_err (s : State) : (s.complete).err = s.err := rfl
@[simp] theorem complete_errcp (s : State) : (s.complete).errcp = s.errcp := rfl
@[simp] theorem complete_errinfo (s : State) : (s.complete).errinfo = s.errinfo := rfl
@[simp] theorem complete_regs (s : State) : (s.complete).regs = s.regs := rfl
@[simp] theorem complete_bcBase (s : State) : (s.complete).bcBase = s.bcBase := rfl
@[simp] theorem complete_bcLen (s : State) : (s.complete).bcLen = s.bcLen := rfl
@[simp] theorem complete_bcPos (s : State) : (s.complete).bcPos = s.bcPos := rfl
@[simp] theorem complete_bwBase (s : State) : (s.complete).bwBase = s.bwBase := rfl
@[simp] theorem complete_bwCap (s : State) : (s.complete).bwCap = s.bwCap := rfl
@[simp] theorem complete_bwPos (s : State) : (s.complete).bwPos = s.bwPos := rfl
@[simp] theorem complete_mt (s : State) : (s.complete).mt = s.mt := rfl
@[simp] theorem complete_tvalid (s : State) : (s.complete).tvalid = s.tvalid := rfl
@[simp] theorem complete_qstep (s : State) : (s.complete).qstep = s.qstep := rfl
@[simp] theorem complete_node (s : State) : (s.complete).node = s.node := rfl
@[simp] theorem complete_nnodes (s : State) : (s.complete).nnodes = s.nnodes := rfl
@[simp] theorem complete_treeValid (s : State) : (s.complete).treeValid = s.treeValid := rfl
@[simp] theorem complete_lut (s : State) : (s.complete).lut = s.lut := rfl
@[simp] theorem complete_dim (s : State) : (s.complete).dim = s.dim := rfl
@[simp] theorem complete_pcfg (s : State) : (s.complete).pcfg = s.pcfg := rfl
@[simp] theorem complete_mem (s : State) : (s.complete).mem = s.mem := rfl
@[simp] theorem complete_memEpoch (s : State) : (s.complete).memEpoch = s.memEpoch := rfl
@[simp] theorem complete_draws (s : State) : (s.complete).draws = s.draws := rfl
@[simp] theorem complete_loose (s : State) : (s.complete).loose = s.loose := rfl
@[simp] theorem complete_hostData (s : State) : (s.complete).hostData = s.hostData := rfl
@[simp] theorem complete_inputs (s : State) : (s.complete).inputs = s.inputs := rfl

/-! ## raise -/

@[simp] theorem raise_cfg (s : State) (c : Cause) (i : Word) : (s.raise c i).cfg = s.cfg := rfl
@[simp] theorem raise_engine (s : State) (c : Cause) (i : Word) : (s.raise c i).engine = .failed := rfl
@[simp] theorem raise_ie (s : State) (c : Cause) (i : Word) : (s.raise c i).ie = s.ie := rfl
@[simp] theorem raise_cp (s : State) (c : Cause) (i : Word) : (s.raise c i).cp = s.cp := rfl
@[simp] theorem raise_cmdcnt (s : State) (c : Cause) (i : Word) : (s.raise c i).cmdcnt = s.cmdcnt := rfl
@[simp] theorem raise_err (s : State) (c : Cause) (i : Word) : (s.raise c i).err = c.errWord := rfl
@[simp] theorem raise_errcp (s : State) (c : Cause) (i : Word) : (s.raise c i).errcp = s.cp := rfl
@[simp] theorem raise_errinfo (s : State) (c : Cause) (i : Word) : (s.raise c i).errinfo = i := rfl
@[simp] theorem raise_regs (s : State) (c : Cause) (i : Word) : (s.raise c i).regs = s.regs := rfl
@[simp] theorem raise_bcBase (s : State) (c : Cause) (i : Word) : (s.raise c i).bcBase = s.bcBase := rfl
@[simp] theorem raise_bcLen (s : State) (c : Cause) (i : Word) : (s.raise c i).bcLen = s.bcLen := rfl
@[simp] theorem raise_bcPos (s : State) (c : Cause) (i : Word) : (s.raise c i).bcPos = s.bcPos := rfl
@[simp] theorem raise_bwBase (s : State) (c : Cause) (i : Word) : (s.raise c i).bwBase = s.bwBase := rfl
@[simp] theorem raise_bwCap (s : State) (c : Cause) (i : Word) : (s.raise c i).bwCap = s.bwCap := rfl
@[simp] theorem raise_bwPos (s : State) (c : Cause) (i : Word) : (s.raise c i).bwPos = s.bwPos := rfl
@[simp] theorem raise_mt (s : State) (c : Cause) (i : Word) : (s.raise c i).mt = s.mt := rfl
@[simp] theorem raise_tvalid (s : State) (c : Cause) (i : Word) : (s.raise c i).tvalid = s.tvalid := rfl
@[simp] theorem raise_qstep (s : State) (c : Cause) (i : Word) : (s.raise c i).qstep = s.qstep := rfl
@[simp] theorem raise_node (s : State) (c : Cause) (i : Word) : (s.raise c i).node = s.node := rfl
@[simp] theorem raise_nnodes (s : State) (c : Cause) (i : Word) : (s.raise c i).nnodes = s.nnodes := rfl
@[simp] theorem raise_treeValid (s : State) (c : Cause) (i : Word) : (s.raise c i).treeValid = s.treeValid := rfl
@[simp] theorem raise_lut (s : State) (c : Cause) (i : Word) : (s.raise c i).lut = s.lut := rfl
@[simp] theorem raise_dim (s : State) (c : Cause) (i : Word) : (s.raise c i).dim = s.dim := rfl
@[simp] theorem raise_pcfg (s : State) (c : Cause) (i : Word) : (s.raise c i).pcfg = s.pcfg := rfl
@[simp] theorem raise_mem (s : State) (c : Cause) (i : Word) : (s.raise c i).mem = s.mem := rfl
@[simp] theorem raise_memEpoch (s : State) (c : Cause) (i : Word) : (s.raise c i).memEpoch = s.memEpoch := rfl
@[simp] theorem raise_draws (s : State) (c : Cause) (i : Word) : (s.raise c i).draws = s.draws := rfl
@[simp] theorem raise_loose (s : State) (c : Cause) (i : Word) : (s.raise c i).loose = s.loose := rfl
@[simp] theorem raise_hostData (s : State) (c : Cause) (i : Word) : (s.raise c i).hostData = s.hostData := rfl
@[simp] theorem raise_inputs (s : State) (c : Cause) (i : Word) : (s.raise c i).inputs = s.inputs := rfl

/-! ## setBcPos -/

@[simp] theorem setBcPos_cfg (s : State) (p : Nat) : (s.setBcPos p).cfg = s.cfg := rfl
@[simp] theorem setBcPos_engine (s : State) (p : Nat) : (s.setBcPos p).engine = s.engine := rfl
@[simp] theorem setBcPos_ie (s : State) (p : Nat) : (s.setBcPos p).ie = s.ie := rfl
@[simp] theorem setBcPos_cp (s : State) (p : Nat) : (s.setBcPos p).cp = s.cp := rfl
@[simp] theorem setBcPos_cmdcnt (s : State) (p : Nat) : (s.setBcPos p).cmdcnt = s.cmdcnt := rfl
@[simp] theorem setBcPos_err (s : State) (p : Nat) : (s.setBcPos p).err = s.err := rfl
@[simp] theorem setBcPos_errcp (s : State) (p : Nat) : (s.setBcPos p).errcp = s.errcp := rfl
@[simp] theorem setBcPos_errinfo (s : State) (p : Nat) : (s.setBcPos p).errinfo = s.errinfo := rfl
@[simp] theorem setBcPos_regs (s : State) (p : Nat) : (s.setBcPos p).regs = s.regs := rfl
@[simp] theorem setBcPos_bcBase (s : State) (p : Nat) : (s.setBcPos p).bcBase = s.bcBase := rfl
@[simp] theorem setBcPos_bcLen (s : State) (p : Nat) : (s.setBcPos p).bcLen = s.bcLen := rfl
@[simp] theorem setBcPos_bcPos (s : State) (p : Nat) : (s.setBcPos p).bcPos = BitVec.ofNat 32 p := rfl
@[simp] theorem setBcPos_bwBase (s : State) (p : Nat) : (s.setBcPos p).bwBase = s.bwBase := rfl
@[simp] theorem setBcPos_bwCap (s : State) (p : Nat) : (s.setBcPos p).bwCap = s.bwCap := rfl
@[simp] theorem setBcPos_bwPos (s : State) (p : Nat) : (s.setBcPos p).bwPos = s.bwPos := rfl
@[simp] theorem setBcPos_mt (s : State) (p : Nat) : (s.setBcPos p).mt = s.mt := rfl
@[simp] theorem setBcPos_tvalid (s : State) (p : Nat) : (s.setBcPos p).tvalid = s.tvalid := rfl
@[simp] theorem setBcPos_qstep (s : State) (p : Nat) : (s.setBcPos p).qstep = s.qstep := rfl
@[simp] theorem setBcPos_node (s : State) (p : Nat) : (s.setBcPos p).node = s.node := rfl
@[simp] theorem setBcPos_nnodes (s : State) (p : Nat) : (s.setBcPos p).nnodes = s.nnodes := rfl
@[simp] theorem setBcPos_treeValid (s : State) (p : Nat) : (s.setBcPos p).treeValid = s.treeValid := rfl
@[simp] theorem setBcPos_lut (s : State) (p : Nat) : (s.setBcPos p).lut = s.lut := rfl
@[simp] theorem setBcPos_dim (s : State) (p : Nat) : (s.setBcPos p).dim = s.dim := rfl
@[simp] theorem setBcPos_pcfg (s : State) (p : Nat) : (s.setBcPos p).pcfg = s.pcfg := rfl
@[simp] theorem setBcPos_mem (s : State) (p : Nat) : (s.setBcPos p).mem = s.mem := rfl
@[simp] theorem setBcPos_memEpoch (s : State) (p : Nat) : (s.setBcPos p).memEpoch = s.memEpoch := rfl
@[simp] theorem setBcPos_draws (s : State) (p : Nat) : (s.setBcPos p).draws = s.draws := rfl
@[simp] theorem setBcPos_loose (s : State) (p : Nat) : (s.setBcPos p).loose = s.loose := rfl
@[simp] theorem setBcPos_hostData (s : State) (p : Nat) : (s.setBcPos p).hostData = s.hostData := rfl
@[simp] theorem setBcPos_inputs (s : State) (p : Nat) : (s.setBcPos p).inputs = s.inputs := rfl

/-! ## storeBytes -/

@[simp] theorem storeBytes_cfg (s : State) (a : Nat) (bs : List Byte) : (s.storeBytes a bs).cfg = s.cfg := rfl
@[simp] theorem storeBytes_engine (s : State) (a : Nat) (bs : List Byte) : (s.storeBytes a bs).engine = s.engine := rfl
@[simp] theorem storeBytes_ie (s : State) (a : Nat) (bs : List Byte) : (s.storeBytes a bs).ie = s.ie := rfl
@[simp] theorem storeBytes_cp (s : State) (a : Nat) (bs : List Byte) : (s.storeBytes a bs).cp = s.cp := rfl
@[simp] theorem storeBytes_cmdcnt (s : State) (a : Nat) (bs : List Byte) : (s.storeBytes a bs).cmdcnt = s.cmdcnt := rfl
@[simp] theorem storeBytes_err (s : State) (a : Nat) (bs : List Byte) : (s.storeBytes a bs).err = s.err := rfl
@[simp] theorem storeBytes_errcp (s : State) (a : Nat) (bs : List Byte) : (s.storeBytes a bs).errcp = s.errcp := rfl
@[simp] theorem storeBytes_errinfo (s : State) (a : Nat) (bs : List Byte) :
    (s.storeBytes a bs).errinfo = s.errinfo := rfl
@[simp] theorem storeBytes_regs (s : State) (a : Nat) (bs : List Byte) : (s.storeBytes a bs).regs = s.regs := rfl
@[simp] theorem storeBytes_bcBase (s : State) (a : Nat) (bs : List Byte) : (s.storeBytes a bs).bcBase = s.bcBase := rfl
@[simp] theorem storeBytes_bcLen (s : State) (a : Nat) (bs : List Byte) : (s.storeBytes a bs).bcLen = s.bcLen := rfl
@[simp] theorem storeBytes_bcPos (s : State) (a : Nat) (bs : List Byte) : (s.storeBytes a bs).bcPos = s.bcPos := rfl
@[simp] theorem storeBytes_bwBase (s : State) (a : Nat) (bs : List Byte) : (s.storeBytes a bs).bwBase = s.bwBase := rfl
@[simp] theorem storeBytes_bwCap (s : State) (a : Nat) (bs : List Byte) : (s.storeBytes a bs).bwCap = s.bwCap := rfl
@[simp] theorem storeBytes_bwPos (s : State) (a : Nat) (bs : List Byte) : (s.storeBytes a bs).bwPos = s.bwPos := rfl
@[simp] theorem storeBytes_mt (s : State) (a : Nat) (bs : List Byte) : (s.storeBytes a bs).mt = s.mt := rfl
@[simp] theorem storeBytes_tvalid (s : State) (a : Nat) (bs : List Byte) : (s.storeBytes a bs).tvalid = s.tvalid := rfl
@[simp] theorem storeBytes_qstep (s : State) (a : Nat) (bs : List Byte) : (s.storeBytes a bs).qstep = s.qstep := rfl
@[simp] theorem storeBytes_node (s : State) (a : Nat) (bs : List Byte) : (s.storeBytes a bs).node = s.node := rfl
@[simp] theorem storeBytes_nnodes (s : State) (a : Nat) (bs : List Byte) : (s.storeBytes a bs).nnodes = s.nnodes := rfl
@[simp] theorem storeBytes_treeValid (s : State) (a : Nat) (bs : List Byte) :
    (s.storeBytes a bs).treeValid = s.treeValid := rfl
@[simp] theorem storeBytes_lut (s : State) (a : Nat) (bs : List Byte) : (s.storeBytes a bs).lut = s.lut := rfl
@[simp] theorem storeBytes_dim (s : State) (a : Nat) (bs : List Byte) : (s.storeBytes a bs).dim = s.dim := rfl
@[simp] theorem storeBytes_pcfg (s : State) (a : Nat) (bs : List Byte) : (s.storeBytes a bs).pcfg = s.pcfg := rfl
@[simp] theorem storeBytes_mem (s : State) (a : Nat) (bs : List Byte) :
    (s.storeBytes a bs).mem = s.mem.putAll a bs := rfl
@[simp] theorem storeBytes_memEpoch (s : State) (a : Nat) (bs : List Byte) :
    (s.storeBytes a bs).memEpoch = s.memEpoch := rfl
@[simp] theorem storeBytes_draws (s : State) (a : Nat) (bs : List Byte) : (s.storeBytes a bs).draws = s.draws := rfl
@[simp] theorem storeBytes_loose (s : State) (a : Nat) (bs : List Byte) : (s.storeBytes a bs).loose = s.loose := rfl
@[simp] theorem storeBytes_hostData (s : State) (a : Nat) (bs : List Byte) :
    (s.storeBytes a bs).hostData = s.hostData := rfl
@[simp] theorem storeBytes_inputs (s : State) (a : Nat) (bs : List Byte) : (s.storeBytes a bs).inputs = s.inputs := rfl

/-! ## scramble -/

@[simp] theorem scramble_cfg (s : State) (a n : Nat) : (s.scramble a n).cfg = s.cfg := rfl
@[simp] theorem scramble_engine (s : State) (a n : Nat) : (s.scramble a n).engine = s.engine := rfl
@[simp] theorem scramble_ie (s : State) (a n : Nat) : (s.scramble a n).ie = s.ie := rfl
@[simp] theorem scramble_cp (s : State) (a n : Nat) : (s.scramble a n).cp = s.cp := rfl
@[simp] theorem scramble_cmdcnt (s : State) (a n : Nat) : (s.scramble a n).cmdcnt = s.cmdcnt := rfl
@[simp] theorem scramble_err (s : State) (a n : Nat) : (s.scramble a n).err = s.err := rfl
@[simp] theorem scramble_errcp (s : State) (a n : Nat) : (s.scramble a n).errcp = s.errcp := rfl
@[simp] theorem scramble_errinfo (s : State) (a n : Nat) : (s.scramble a n).errinfo = s.errinfo := rfl
@[simp] theorem scramble_regs (s : State) (a n : Nat) : (s.scramble a n).regs = s.regs := rfl
@[simp] theorem scramble_bcBase (s : State) (a n : Nat) : (s.scramble a n).bcBase = s.bcBase := rfl
@[simp] theorem scramble_bcLen (s : State) (a n : Nat) : (s.scramble a n).bcLen = s.bcLen := rfl
@[simp] theorem scramble_bcPos (s : State) (a n : Nat) : (s.scramble a n).bcPos = s.bcPos := rfl
@[simp] theorem scramble_bwBase (s : State) (a n : Nat) : (s.scramble a n).bwBase = s.bwBase := rfl
@[simp] theorem scramble_bwCap (s : State) (a n : Nat) : (s.scramble a n).bwCap = s.bwCap := rfl
@[simp] theorem scramble_bwPos (s : State) (a n : Nat) : (s.scramble a n).bwPos = s.bwPos := rfl
@[simp] theorem scramble_mt (s : State) (a n : Nat) : (s.scramble a n).mt = s.mt := rfl
@[simp] theorem scramble_tvalid (s : State) (a n : Nat) : (s.scramble a n).tvalid = s.tvalid := rfl
@[simp] theorem scramble_qstep (s : State) (a n : Nat) : (s.scramble a n).qstep = s.qstep := rfl
@[simp] theorem scramble_node (s : State) (a n : Nat) : (s.scramble a n).node = s.node := rfl
@[simp] theorem scramble_nnodes (s : State) (a n : Nat) : (s.scramble a n).nnodes = s.nnodes := rfl
@[simp] theorem scramble_treeValid (s : State) (a n : Nat) : (s.scramble a n).treeValid = s.treeValid := rfl
@[simp] theorem scramble_lut (s : State) (a n : Nat) : (s.scramble a n).lut = s.lut := rfl
@[simp] theorem scramble_dim (s : State) (a n : Nat) : (s.scramble a n).dim = s.dim := rfl
@[simp] theorem scramble_pcfg (s : State) (a n : Nat) : (s.scramble a n).pcfg = s.pcfg := rfl
@[simp] theorem scramble_mem (s : State) (a n : Nat) :
    (s.scramble a n).mem = s.mem.putAll a ((List.range n).map (fun k => Config.freeByte s.draws (a + k))) := rfl
@[simp] theorem scramble_memEpoch (s : State) (a n : Nat) : (s.scramble a n).memEpoch = s.memEpoch := rfl
@[simp] theorem scramble_draws (s : State) (a n : Nat) : (s.scramble a n).draws = s.draws + 1 := rfl
@[simp] theorem scramble_loose (s : State) (a n : Nat) : (s.scramble a n).loose = s.loose := rfl
@[simp] theorem scramble_hostData (s : State) (a n : Nat) : (s.scramble a n).hostData = s.hostData := rfl
@[simp] theorem scramble_inputs (s : State) (a n : Nat) : (s.scramble a n).inputs = s.inputs := rfl

/-! ## scrambleTree -/

@[simp] theorem scrambleTree_cfg (s : State) : (s.scrambleTree).cfg = s.cfg := by simp only [State.scrambleTree]
@[simp] theorem scrambleTree_engine (s : State) :
    (s.scrambleTree).engine = s.engine := by simp only [State.scrambleTree]
@[simp] theorem scrambleTree_ie (s : State) : (s.scrambleTree).ie = s.ie := by simp only [State.scrambleTree]
@[simp] theorem scrambleTree_cp (s : State) : (s.scrambleTree).cp = s.cp := by simp only [State.scrambleTree]
@[simp] theorem scrambleTree_cmdcnt (s : State) :
    (s.scrambleTree).cmdcnt = s.cmdcnt := by simp only [State.scrambleTree]
@[simp] theorem scrambleTree_err (s : State) : (s.scrambleTree).err = s.err := by simp only [State.scrambleTree]
@[simp] theorem scrambleTree_errcp (s : State) : (s.scrambleTree).errcp = s.errcp := by simp only [State.scrambleTree]
@[simp] theorem scrambleTree_errinfo (s : State) :
    (s.scrambleTree).errinfo = s.errinfo := by simp only [State.scrambleTree]
@[simp] theorem scrambleTree_regs (s : State) : (s.scrambleTree).regs = s.regs := by simp only [State.scrambleTree]
@[simp] theorem scrambleTree_bcBase (s : State) :
    (s.scrambleTree).bcBase = s.bcBase := by simp only [State.scrambleTree]
@[simp] theorem scrambleTree_bcLen (s : State) : (s.scrambleTree).bcLen = s.bcLen := by simp only [State.scrambleTree]
@[simp] theorem scrambleTree_bcPos (s : State) : (s.scrambleTree).bcPos = s.bcPos := by simp only [State.scrambleTree]
@[simp] theorem scrambleTree_bwBase (s : State) :
    (s.scrambleTree).bwBase = s.bwBase := by simp only [State.scrambleTree]
@[simp] theorem scrambleTree_bwCap (s : State) : (s.scrambleTree).bwCap = s.bwCap := by simp only [State.scrambleTree]
@[simp] theorem scrambleTree_bwPos (s : State) : (s.scrambleTree).bwPos = s.bwPos := by simp only [State.scrambleTree]
@[simp] theorem scrambleTree_mt (s : State) : (s.scrambleTree).mt = s.mt := by simp only [State.scrambleTree]
@[simp] theorem scrambleTree_tvalid (s : State) :
    (s.scrambleTree).tvalid = s.tvalid := by simp only [State.scrambleTree]
@[simp] theorem scrambleTree_qstep (s : State) : (s.scrambleTree).qstep = s.qstep := by simp only [State.scrambleTree]
@[simp] theorem scrambleTree_node (s : State) :
    (s.scrambleTree).node = Vector.ofFn (Config.freeNode s.draws) := by simp only [State.scrambleTree]
@[simp] theorem scrambleTree_nnodes (s : State) :
    (s.scrambleTree).nnodes = Config.freeCount s.draws % 522 := by simp only [State.scrambleTree]
@[simp] theorem scrambleTree_treeValid (s : State) :
    (s.scrambleTree).treeValid = false := by simp only [State.scrambleTree]
@[simp] theorem scrambleTree_lut (s : State) :
    (s.scrambleTree).lut = Vector.ofFn (Config.freeLut s.draws) := by simp only [State.scrambleTree]
@[simp] theorem scrambleTree_dim (s : State) : (s.scrambleTree).dim = s.dim := by simp only [State.scrambleTree]
@[simp] theorem scrambleTree_pcfg (s : State) : (s.scrambleTree).pcfg = s.pcfg := by simp only [State.scrambleTree]
@[simp] theorem scrambleTree_mem (s : State) : (s.scrambleTree).mem = s.mem := by simp only [State.scrambleTree]
@[simp] theorem scrambleTree_memEpoch (s : State) :
    (s.scrambleTree).memEpoch = s.memEpoch := by simp only [State.scrambleTree]
@[simp] theorem scrambleTree_draws (s : State) :
    (s.scrambleTree).draws = s.draws + 1 := by simp only [State.scrambleTree]
@[simp] theorem scrambleTree_loose (s : State) : (s.scrambleTree).loose = s.loose := by simp only [State.scrambleTree]
@[simp] theorem scrambleTree_hostData (s : State) :
    (s.scrambleTree).hostData = s.hostData := by simp only [State.scrambleTree]
@[simp] theorem scrambleTree_inputs (s : State) :
    (s.scrambleTree).inputs = s.inputs := by simp only [State.scrambleTree]

/-! ## scrambleBwPos -/

@[simp] theorem scrambleBwPos_cfg (s : State) : (s.scrambleBwPos).cfg = s.cfg := rfl
@[simp] theorem scrambleBwPos_engine (s : State) : (s.scrambleBwPos).engine = s.engine := rfl
@[simp] theorem scrambleBwPos_ie (s : State) : (s.scrambleBwPos).ie = s.ie := rfl
@[simp] theorem scrambleBwPos_cp (s : State) : (s.scrambleBwPos).cp = s.cp := rfl
@[simp] theorem scrambleBwPos_cmdcnt (s : State) : (s.scrambleBwPos).cmdcnt = s.cmdcnt := rfl
@[simp] theorem scrambleBwPos_err (s : State) : (s.scrambleBwPos).err = s.err := rfl
@[simp] theorem scrambleBwPos_errcp (s : State) : (s.scrambleBwPos).errcp = s.errcp := rfl
@[simp] theorem scrambleBwPos_errinfo (s : State) : (s.scrambleBwPos).errinfo = s.errinfo := rfl
@[simp] theorem scrambleBwPos_regs (s : State) : (s.scrambleBwPos).regs = s.regs := rfl
@[simp] theorem scrambleBwPos_bcBase (s : State) : (s.scrambleBwPos).bcBase = s.bcBase := rfl
@[simp] theorem scrambleBwPos_bcLen (s : State) : (s.scrambleBwPos).bcLen = s.bcLen := rfl
@[simp] theorem scrambleBwPos_bcPos (s : State) : (s.scrambleBwPos).bcPos = s.bcPos := rfl
@[simp] theorem scrambleBwPos_bwBase (s : State) : (s.scrambleBwPos).bwBase = s.bwBase := rfl
@[simp] theorem scrambleBwPos_bwCap (s : State) : (s.scrambleBwPos).bwCap = s.bwCap := rfl
@[simp] theorem scrambleBwPos_mt (s : State) : (s.scrambleBwPos).mt = s.mt := rfl
@[simp] theorem scrambleBwPos_tvalid (s : State) : (s.scrambleBwPos).tvalid = s.tvalid := rfl
@[simp] theorem scrambleBwPos_qstep (s : State) : (s.scrambleBwPos).qstep = s.qstep := rfl
@[simp] theorem scrambleBwPos_node (s : State) : (s.scrambleBwPos).node = s.node := rfl
@[simp] theorem scrambleBwPos_nnodes (s : State) : (s.scrambleBwPos).nnodes = s.nnodes := rfl
@[simp] theorem scrambleBwPos_treeValid (s : State) : (s.scrambleBwPos).treeValid = s.treeValid := rfl
@[simp] theorem scrambleBwPos_lut (s : State) : (s.scrambleBwPos).lut = s.lut := rfl
@[simp] theorem scrambleBwPos_dim (s : State) : (s.scrambleBwPos).dim = s.dim := rfl
@[simp] theorem scrambleBwPos_pcfg (s : State) : (s.scrambleBwPos).pcfg = s.pcfg := rfl
@[simp] theorem scrambleBwPos_mem (s : State) : (s.scrambleBwPos).mem = s.mem := rfl
@[simp] theorem scrambleBwPos_memEpoch (s : State) : (s.scrambleBwPos).memEpoch = s.memEpoch := rfl
@[simp] theorem scrambleBwPos_draws (s : State) : (s.scrambleBwPos).draws = s.draws + 1 := rfl
@[simp] theorem scrambleBwPos_loose (s : State) : (s.scrambleBwPos).loose = s.loose := rfl
@[simp] theorem scrambleBwPos_hostData (s : State) : (s.scrambleBwPos).hostData = s.hostData := rfl
@[simp] theorem scrambleBwPos_inputs (s : State) : (s.scrambleBwPos).inputs = s.inputs := rfl

/-! ## withTree -/

@[simp] theorem withTree_cfg (s : State) (b : TreeBuild) : (s.withTree b).cfg = s.cfg := rfl
@[simp] theorem withTree_engine (s : State) (b : TreeBuild) : (s.withTree b).engine = s.engine := rfl
@[simp] theorem withTree_ie (s : State) (b : TreeBuild) : (s.withTree b).ie = s.ie := rfl
@[simp] theorem withTree_cp (s : State) (b : TreeBuild) : (s.withTree b).cp = s.cp := rfl
@[simp] theorem withTree_cmdcnt (s : State) (b : TreeBuild) : (s.withTree b).cmdcnt = s.cmdcnt := rfl
@[simp] theorem withTree_err (s : State) (b : TreeBuild) : (s.withTree b).err = s.err := rfl
@[simp] theorem withTree_errcp (s : State) (b : TreeBuild) : (s.withTree b).errcp = s.errcp := rfl
@[simp] theorem withTree_errinfo (s : State) (b : TreeBuild) : (s.withTree b).errinfo = s.errinfo := rfl
@[simp] theorem withTree_regs (s : State) (b : TreeBuild) : (s.withTree b).regs = s.regs := rfl
@[simp] theorem withTree_bcBase (s : State) (b : TreeBuild) : (s.withTree b).bcBase = s.bcBase := rfl
@[simp] theorem withTree_bcLen (s : State) (b : TreeBuild) : (s.withTree b).bcLen = s.bcLen := rfl
@[simp] theorem withTree_bcPos (s : State) (b : TreeBuild) : (s.withTree b).bcPos = BitVec.ofNat 32 b.pos := rfl
@[simp] theorem withTree_bwBase (s : State) (b : TreeBuild) : (s.withTree b).bwBase = s.bwBase := rfl
@[simp] theorem withTree_bwCap (s : State) (b : TreeBuild) : (s.withTree b).bwCap = s.bwCap := rfl
@[simp] theorem withTree_bwPos (s : State) (b : TreeBuild) : (s.withTree b).bwPos = s.bwPos := rfl
@[simp] theorem withTree_mt (s : State) (b : TreeBuild) : (s.withTree b).mt = s.mt := rfl
@[simp] theorem withTree_tvalid (s : State) (b : TreeBuild) : (s.withTree b).tvalid = s.tvalid := rfl
@[simp] theorem withTree_qstep (s : State) (b : TreeBuild) : (s.withTree b).qstep = s.qstep := rfl
@[simp] theorem withTree_node (s : State) (b : TreeBuild) : (s.withTree b).node = b.node := rfl
@[simp] theorem withTree_nnodes (s : State) (b : TreeBuild) : (s.withTree b).nnodes = b.nnodes := rfl
@[simp] theorem withTree_treeValid (s : State) (b : TreeBuild) : (s.withTree b).treeValid = true := rfl
@[simp] theorem withTree_lut (s : State) (b : TreeBuild) : (s.withTree b).lut = b.lut := rfl
@[simp] theorem withTree_dim (s : State) (b : TreeBuild) : (s.withTree b).dim = s.dim := rfl
@[simp] theorem withTree_pcfg (s : State) (b : TreeBuild) : (s.withTree b).pcfg = s.pcfg := rfl
@[simp] theorem withTree_mem (s : State) (b : TreeBuild) : (s.withTree b).mem = s.mem := rfl
@[simp] theorem withTree_memEpoch (s : State) (b : TreeBuild) : (s.withTree b).memEpoch = s.memEpoch := rfl
@[simp] theorem withTree_draws (s : State) (b : TreeBuild) : (s.withTree b).draws = s.draws := rfl
@[simp] theorem withTree_loose (s : State) (b : TreeBuild) : (s.withTree b).loose = s.loose := rfl
@[simp] theorem withTree_hostData (s : State) (b : TreeBuild) : (s.withTree b).hostData = s.hostData := rfl
@[simp] theorem withTree_inputs (s : State) (b : TreeBuild) : (s.withTree b).inputs = s.inputs := rfl

/-! ## setTable -/

@[simp] theorem setTable_cfg (s : State) (t : TableIx) (T : MapTable) : (s.setTable t T).cfg = s.cfg := rfl
@[simp] theorem setTable_engine (s : State) (t : TableIx) (T : MapTable) : (s.setTable t T).engine = s.engine := rfl
@[simp] theorem setTable_ie (s : State) (t : TableIx) (T : MapTable) : (s.setTable t T).ie = s.ie := rfl
@[simp] theorem setTable_cp (s : State) (t : TableIx) (T : MapTable) : (s.setTable t T).cp = s.cp := rfl
@[simp] theorem setTable_cmdcnt (s : State) (t : TableIx) (T : MapTable) : (s.setTable t T).cmdcnt = s.cmdcnt := rfl
@[simp] theorem setTable_err (s : State) (t : TableIx) (T : MapTable) : (s.setTable t T).err = s.err := rfl
@[simp] theorem setTable_errcp (s : State) (t : TableIx) (T : MapTable) : (s.setTable t T).errcp = s.errcp := rfl
@[simp] theorem setTable_errinfo (s : State) (t : TableIx) (T : MapTable) : (s.setTable t T).errinfo = s.errinfo := rfl
@[simp] theorem setTable_regs (s : State) (t : TableIx) (T : MapTable) : (s.setTable t T).regs = s.regs := rfl
@[simp] theorem setTable_bcBase (s : State) (t : TableIx) (T : MapTable) : (s.setTable t T).bcBase = s.bcBase := rfl
@[simp] theorem setTable_bcLen (s : State) (t : TableIx) (T : MapTable) : (s.setTable t T).bcLen = s.bcLen := rfl
@[simp] theorem setTable_bcPos (s : State) (t : TableIx) (T : MapTable) : (s.setTable t T).bcPos = s.bcPos := rfl
@[simp] theorem setTable_bwBase (s : State) (t : TableIx) (T : MapTable) : (s.setTable t T).bwBase = s.bwBase := rfl
@[simp] theorem setTable_bwCap (s : State) (t : TableIx) (T : MapTable) : (s.setTable t T).bwCap = s.bwCap := rfl
@[simp] theorem setTable_bwPos (s : State) (t : TableIx) (T : MapTable) : (s.setTable t T).bwPos = s.bwPos := rfl
@[simp] theorem setTable_mt (s : State) (t : TableIx) (T : MapTable) : (s.setTable t T).mt = s.mt.set t T := rfl
@[simp] theorem setTable_tvalid (s : State) (t : TableIx) (T : MapTable) :
    (s.setTable t T).tvalid = s.tvalid.set t true := rfl
@[simp] theorem setTable_qstep (s : State) (t : TableIx) (T : MapTable) : (s.setTable t T).qstep = s.qstep := rfl
@[simp] theorem setTable_node (s : State) (t : TableIx) (T : MapTable) : (s.setTable t T).node = s.node := rfl
@[simp] theorem setTable_nnodes (s : State) (t : TableIx) (T : MapTable) : (s.setTable t T).nnodes = s.nnodes := rfl
@[simp] theorem setTable_treeValid (s : State) (t : TableIx) (T : MapTable) :
    (s.setTable t T).treeValid = s.treeValid := rfl
@[simp] theorem setTable_lut (s : State) (t : TableIx) (T : MapTable) : (s.setTable t T).lut = s.lut := rfl
@[simp] theorem setTable_dim (s : State) (t : TableIx) (T : MapTable) : (s.setTable t T).dim = s.dim := rfl
@[simp] theorem setTable_pcfg (s : State) (t : TableIx) (T : MapTable) : (s.setTable t T).pcfg = s.pcfg := rfl
@[simp] theorem setTable_mem (s : State) (t : TableIx) (T : MapTable) : (s.setTable t T).mem = s.mem := rfl
@[simp] theorem setTable_memEpoch (s : State) (t : TableIx) (T : MapTable) :
    (s.setTable t T).memEpoch = s.memEpoch := rfl
@[simp] theorem setTable_draws (s : State) (t : TableIx) (T : MapTable) : (s.setTable t T).draws = s.draws := rfl
@[simp] theorem setTable_loose (s : State) (t : TableIx) (T : MapTable) : (s.setTable t T).loose = s.loose := rfl
@[simp] theorem setTable_hostData (s : State) (t : TableIx) (T : MapTable) :
    (s.setTable t T).hostData = s.hostData := rfl
@[simp] theorem setTable_inputs (s : State) (t : TableIx) (T : MapTable) : (s.setTable t T).inputs = s.inputs := rfl

/-! ## wrBit -/

@[simp] theorem wrBit_cfg (s : State) (b : Bool) : (s.wrBit b).cfg = s.cfg := rfl
@[simp] theorem wrBit_engine (s : State) (b : Bool) : (s.wrBit b).engine = s.engine := rfl
@[simp] theorem wrBit_ie (s : State) (b : Bool) : (s.wrBit b).ie = s.ie := rfl
@[simp] theorem wrBit_cp (s : State) (b : Bool) : (s.wrBit b).cp = s.cp := rfl
@[simp] theorem wrBit_cmdcnt (s : State) (b : Bool) : (s.wrBit b).cmdcnt = s.cmdcnt := rfl
@[simp] theorem wrBit_err (s : State) (b : Bool) : (s.wrBit b).err = s.err := rfl
@[simp] theorem wrBit_errcp (s : State) (b : Bool) : (s.wrBit b).errcp = s.errcp := rfl
@[simp] theorem wrBit_errinfo (s : State) (b : Bool) : (s.wrBit b).errinfo = s.errinfo := rfl
@[simp] theorem wrBit_regs (s : State) (b : Bool) : (s.wrBit b).regs = s.regs := rfl
@[simp] theorem wrBit_bcBase (s : State) (b : Bool) : (s.wrBit b).bcBase = s.bcBase := rfl
@[simp] theorem wrBit_bcLen (s : State) (b : Bool) : (s.wrBit b).bcLen = s.bcLen := rfl
@[simp] theorem wrBit_bcPos (s : State) (b : Bool) : (s.wrBit b).bcPos = s.bcPos := rfl
@[simp] theorem wrBit_bwBase (s : State) (b : Bool) : (s.wrBit b).bwBase = s.bwBase := rfl
@[simp] theorem wrBit_bwCap (s : State) (b : Bool) : (s.wrBit b).bwCap = s.bwCap := rfl
@[simp] theorem wrBit_bwPos (s : State) (b : Bool) : (s.wrBit b).bwPos = s.bwPos + 1#32 := rfl
@[simp] theorem wrBit_mt (s : State) (b : Bool) : (s.wrBit b).mt = s.mt := rfl
@[simp] theorem wrBit_tvalid (s : State) (b : Bool) : (s.wrBit b).tvalid = s.tvalid := rfl
@[simp] theorem wrBit_qstep (s : State) (b : Bool) : (s.wrBit b).qstep = s.qstep := rfl
@[simp] theorem wrBit_node (s : State) (b : Bool) : (s.wrBit b).node = s.node := rfl
@[simp] theorem wrBit_nnodes (s : State) (b : Bool) : (s.wrBit b).nnodes = s.nnodes := rfl
@[simp] theorem wrBit_treeValid (s : State) (b : Bool) : (s.wrBit b).treeValid = s.treeValid := rfl
@[simp] theorem wrBit_lut (s : State) (b : Bool) : (s.wrBit b).lut = s.lut := rfl
@[simp] theorem wrBit_dim (s : State) (b : Bool) : (s.wrBit b).dim = s.dim := rfl
@[simp] theorem wrBit_pcfg (s : State) (b : Bool) : (s.wrBit b).pcfg = s.pcfg := rfl
@[simp] theorem wrBit_memEpoch (s : State) (b : Bool) : (s.wrBit b).memEpoch = s.memEpoch := rfl
@[simp] theorem wrBit_draws (s : State) (b : Bool) : (s.wrBit b).draws = s.draws := rfl
@[simp] theorem wrBit_loose (s : State) (b : Bool) : (s.wrBit b).loose = s.loose := rfl
@[simp] theorem wrBit_hostData (s : State) (b : Bool) : (s.wrBit b).hostData = s.hostData := rfl
@[simp] theorem wrBit_inputs (s : State) (b : Bool) : (s.wrBit b).inputs = s.inputs := rfl

end Sys2Proof.Machine
end

