-- ==== Sys2Proof/Laws/Memory.lean ====
section
/-! SUPPORT. Local memory: read after write, the bytes a write leaves alone, and the canonical form, which every memory
operation keeps. -/

namespace Sys2Proof.Machine

/-! ## One byte -/

theorem Memory.get?_put (m : Memory) (a : Nat) (b : Byte) (x : Nat) :
    (m.put a b).get? x = if x = a then some b else m.get? x := by
  induction m with
  | nil => simp only [Memory.put, Memory.get?, eq_comm]
  | cons c m ih =>
    obtain ⟨k, c⟩ := c
    unfold Memory.put
    split
    · simp only [Memory.get?, eq_comm]
    · split
      · subst_vars
        by_cases h : x = k
        · subst h; simp [Memory.get?]
        · simp [Memory.get?, h, Ne.symm h]
      · by_cases h : k = x
        · subst h; simp [Memory.get?, Ne.symm ‹¬a = k›]
        · simp [Memory.get?, h, ih]

theorem Memory.mem_put (m : Memory) (a : Nat) (b : Byte) (c : Host.Cell) (h : c ∈ m.put a b) : c = (a, b) ∨ c ∈ m := by
  induction m with
  | nil => simpa [Memory.put] using h
  | cons d m ih =>
    obtain ⟨k, d⟩ := d
    unfold Memory.put at h
    split at h
    · simpa using h
    · split at h
      · rcases List.mem_cons.mp h with h | h
        · exact .inl h
        · exact .inr (List.mem_cons_of_mem _ h)
      · rcases List.mem_cons.mp h with h | h
        · exact .inr (h ▸ List.mem_cons_self ..)
        · exact (ih h).imp_right (List.mem_cons_of_mem _)

theorem Memory.wf_put (m : Memory) (a : Nat) (b : Byte) (h : m.wf) : (m.put a b).wf := by
  induction m with
  | nil => exact List.pairwise_singleton _ _
  | cons d m ih =>
    obtain ⟨k, d⟩ := d
    obtain ⟨hk, hm⟩ := List.pairwise_cons.mp h
    unfold Memory.put
    split
    · refine List.pairwise_cons.mpr ⟨fun c hc => ?_, h⟩
      rcases List.mem_cons.mp hc with rfl | hc
      · assumption
      · exact lt_trans ‹_› (hk c hc)
    · split
      · subst_vars; exact List.pairwise_cons.mpr ⟨hk, hm⟩
      · refine List.pairwise_cons.mpr ⟨fun c hc => ?_, ih hm⟩
        rcases Memory.mem_put m a b c hc with rfl | hc
        · simp only; omega
        · exact hk c hc

/-! ## Many bytes -/

theorem Memory.get?_putAll (bs : List Byte) : ∀ (m : Memory) (a x : Nat),
    (m.putAll a bs).get? x = if a ≤ x ∧ x < a + bs.length then bs[x - a]? else m.get? x := by
  induction bs with
  | nil => intro m a x; simp [Memory.putAll]
  | cons b bs ih =>
    intro m a x
    rw [Memory.putAll, ih, Memory.get?_put]
    by_cases hx : x = a
    · subst hx; simp
    · rcases Nat.lt_or_gt_of_ne hx with hlt | hgt
      · simp [hx, Nat.not_le.mpr hlt, Nat.not_le.mpr (Nat.lt_succ_of_lt hlt)]
      · obtain ⟨d, rfl⟩ : ∃ d, x = a + 1 + d := ⟨x - (a + 1), by omega⟩
        have e : a + 1 + d - a = d + 1 := by omega
        simp only [e, List.getElem?_cons_succ, List.length_cons, hx, if_false]
        have hiff : (a + 1 ≤ a + 1 + d ∧ a + 1 + d < a + 1 + bs.length) ↔
            (a ≤ a + 1 + d ∧ a + 1 + d < a + (bs.length + 1)) := by omega
        simp only [hiff, Nat.add_sub_cancel_left]

theorem Memory.wf_putAll (bs : List Byte) : ∀ (m : Memory) (a : Nat), m.wf → (m.putAll a bs).wf := by
  induction bs with
  | nil => exact fun _ _ h => h
  | cons b bs ih => exact fun m a h => ih _ _ (Memory.wf_put m a b h)

theorem Memory.mem_putAll (bs : List Byte) : ∀ (m : Memory) (a : Nat) (c : Host.Cell), c ∈ m.putAll a bs →
    (a ≤ c.1 ∧ c.1 < a + bs.length) ∨ c ∈ m := by
  induction bs with
  | nil => exact fun _ _ _ h => .inr h
  | cons b bs ih =>
    intro m a c h
    rcases ih _ _ _ h with h | h
    · left; simp only [List.length_cons]; omega
    · rcases Memory.mem_put m a b c h with rfl | h
      · left; simp
      · exact .inr h

/-! ## Reading the state's memory -/

/-- Two states with the same memory and the same unwritten bytes read the same byte everywhere. -/
theorem readByte_congr {s t : State} (hm : t.mem = s.mem) (he : t.memEpoch = s.memEpoch) (a : Nat) :
    t.readByte a = s.readByte a := by simp only [State.readByte, State.unwritten, hm, he]

theorem readByte_storeBytes (s : State) (a : Nat) (bs : List Byte) (x : Nat) :
    (s.storeBytes a bs).readByte x = if h : a ≤ x ∧ x < a + bs.length then bs[x - a] else s.readByte x := by
  by_cases h : a ≤ x ∧ x < a + bs.length
  · have hlt : x - a < bs.length := by omega
    simp [State.readByte, Memory.get?_putAll, h, List.getElem?_eq_getElem hlt]
  · simp [State.readByte, Memory.get?_putAll, h, State.unwritten]

/-- A store leaves every byte outside its range alone. -/
theorem readByte_storeBytes_outside (s : State) (a : Nat) (bs : List Byte) (x : Nat) (h : x < a ∨ a + bs.length ≤ x) :
    (s.storeBytes a bs).readByte x = s.readByte x := by
  rw [readByte_storeBytes, dif_neg (by omega)]

theorem readByte_storeBytes_inside (s : State) (a : Nat) (bs : List Byte) (k : Nat) (h : k < bs.length) :
    (s.storeBytes a bs).readByte (a + k) = bs[k] := by
  rw [readByte_storeBytes, dif_pos (by omega)]
  simp

/-- A byte of a scrambled range is the free value of its draw; every other byte is as before. -/
theorem readByte_scramble (s : State) (a n x : Nat) : (s.scramble a n).readByte x =
    if a ≤ x ∧ x < a + n then Config.freeByte s.draws x else s.readByte x := by
  by_cases h : a ≤ x ∧ x < a + n
  · have hlt : x - a < n := by omega
    have e : a + (x - a) = x := by omega
    simp [State.readByte, Memory.get?_putAll, h, hlt, e]
  · simp [State.readByte, Memory.get?_putAll, h, State.unwritten]

theorem readByte_scramble_outside (s : State) (a n x : Nat) (h : x < a ∨ a + n ≤ x) :
    (s.scramble a n).readByte x = s.readByte x := by
  rw [readByte_scramble, if_neg (by omega)]

/-- What storing a destination does, overlapping or not: no byte outside the range changes. -/
theorem readByte_storeOrScramble_outside (s : State) (clash : Bool) (a : Nat) (bs : List Byte) (x : Nat)
    (h : x < a ∨ a + bs.length ≤ x) : (s.storeOrScramble clash a bs).readByte x = s.readByte x := by
  unfold State.storeOrScramble
  split
  · exact readByte_scramble_outside s a _ x h
  · exact readByte_storeBytes_outside s a bs x h

/-- Without an overlap, the destination holds the bytes the command computes. -/
theorem readByte_storeOrScramble_inside (s : State) (a : Nat) (bs : List Byte) (k : Nat) (h : k < bs.length) :
    (s.storeOrScramble false a bs).readByte (a + k) = bs[k] := by
  simp only [State.storeOrScramble, Bool.false_eq_true, if_false]
  exact readByte_storeBytes_inside s a bs k h

/-! ## The canonical form -/

theorem storeBytes_wf (s : State) (a : Nat) (bs : List Byte) (h : s.mem.wf) : (s.storeBytes a bs).mem.wf :=
  Memory.wf_putAll _ _ _ h

theorem scramble_wf (s : State) (a n : Nat) (h : s.mem.wf) : (s.scramble a n).mem.wf := Memory.wf_putAll _ _ _ h

theorem storeOrScramble_wf (s : State) (clash : Bool) (a : Nat) (bs : List Byte) (h : s.mem.wf) :
    (s.storeOrScramble clash a bs).mem.wf := by
  unfold State.storeOrScramble
  split
  · exact scramble_wf s a _ h
  · exact storeBytes_wf s a bs h

theorem wrBit_wf (s : State) (b : Bool) (h : s.mem.wf) : (s.wrBit b).mem.wf := Memory.wf_put _ _ _ h

theorem wrAll_wf (bs : Bits) : ∀ s : State, s.mem.wf → (s.wrAll bs).mem.wf := by
  induction bs with
  | nil => exact fun _ h => h
  | cons b bs ih => exact fun s h => ih _ (wrBit_wf s b h)

theorem wrChunksAt_wf (cs : List Bits) : ∀ (s t : State) (pos : Nat), s.mem.wf → s.wrChunksAt pos cs = .ok t →
    t.mem.wf := by
  induction cs with
  | nil => intro s t pos h e; cases e; exact h
  | cons c cs ih =>
    intro s t pos h e
    unfold State.wrChunksAt at e
    split at e
    · cases e
    · exact ih _ _ _ (wrAll_wf c s h) e

theorem reset_mem_wf : State.reset.mem.wf := List.Pairwise.nil

/-! ## Sixteen-bit values -/

theorem halvesBytes_length (hs : List Half) : (halvesBytes hs).length = 2 * hs.length := by
  induction hs with
  | nil => rfl
  | cons h hs ih =>
    have e : halvesBytes (h :: hs) = halfBytes h ++ halvesBytes hs := rfl
    rw [e, List.length_append, ih]
    simp only [halfBytes, List.length_cons, List.length_nil]
    omega

theorem halvesBytes_getElem (hs : List Half) : ∀ (k : Nat) (h : k < hs.length),
    (halvesBytes hs)[2 * k]? = some (hs[k].extractLsb' 0 8) ∧
      (halvesBytes hs)[2 * k + 1]? = some (hs[k].extractLsb' 8 8) := by
  induction hs with
  | nil => intro k h; exact absurd h (Nat.not_lt_zero k)
  | cons x hs ih =>
    have e : halvesBytes (x :: hs) = x.extractLsb' 0 8 :: x.extractLsb' 8 8 :: halvesBytes hs := rfl
    intro k h
    cases k with
    | zero => simp [e]
    | succ k =>
      have e0 : 2 * (k + 1) = 2 * k + 1 + 1 := by omega
      have hk : k < hs.length := by simpa using h
      simpa [e, e0] using ih k hk

/-- Where 16-bit values are stored, they read back. -/
theorem readHalf_storeBytes_halvesBytes (s : State) (a : Nat) (hs : List Half) (k : Nat) (h : k < hs.length) :
    (s.storeBytes a (halvesBytes hs)).readHalf (a + 2 * k) = hs[k] := by
  have hl := halvesBytes_length hs
  obtain ⟨h0, h1⟩ := halvesBytes_getElem hs k h
  have b0 := readByte_storeBytes_inside s a (halvesBytes hs) (2 * k) (by omega)
  have b1 := readByte_storeBytes_inside s a (halvesBytes hs) (2 * k + 1) (by omega)
  rw [List.getElem?_eq_getElem (by omega), Option.some.injEq] at h0 h1
  rw [State.readHalf, b0, Nat.add_assoc, b1, h0, h1]
  ext i hi
  simp only [BitVec.getElem_append, BitVec.getElem_extractLsb']
  split
  · simp [BitVec.getLsbD_eq_getElem, hi]
  · rw [← BitVec.getLsbD_eq_getElem]; congr 1; omega

end Sys2Proof.Machine
end

