-- ==== Sys2Proof/Laws/Ops.lean ====
section
/-! SUPPORT. What each shared operation can do, once: the provers cite these and unfold the operation no more. -/

namespace Sys2Proof.Machine

/-! ## Registers -/

theorem reg_setReg (s : State) (r : RegIx) (v : Word) (q : RegIx) :
    (s.setReg r v).reg q = if q = r then v else s.reg q := by
  simp only [State.reg, setReg_regs, Fin.getElem_fin, Vector.getElem_set, Fin.ext_iff, eq_comm]

@[simp] theorem reg_setReg_self (s : State) (r : RegIx) (v : Word) : (s.setReg r v).reg r = v := by simp [reg_setReg]

theorem reg_setReg_ne (s : State) (r : RegIx) (v : Word) (q : RegIx) (h : q ≠ r) : (s.setReg r v).reg q = s.reg q := by
  simp [reg_setReg, h]

/-- Two states with the same register file read the same registers. -/
theorem reg_congr {s t : State} (h : t.regs = s.regs) (q : RegIx) : t.reg q = s.reg q := by simp only [State.reg, h]

/-! ## Ranges -/

theorem inRange_iff (s : State) (a n : Nat) : s.inRange a n = true ↔ FitsMemory s a n := by
  simp [State.inRange, FitsMemory]

/-- No range is bad exactly when every range fits. -/
theorem badRange_eq_none_iff (s : State) (rs : List (Word × Nat)) :
    s.badRange rs = none ↔ ∀ r ∈ rs, FitsMemory s r.1.toNat r.2 := by
  induction rs with
  | nil => simp [State.badRange]
  | cons r rs ih =>
    obtain ⟨a, n⟩ := r
    by_cases h : s.inRange a.toNat n = true
    · simp [State.badRange, h, ih, ← inRange_iff]
    · simp [State.badRange, h, ← inRange_iff]

/-- The bad range is the first that does not fit. -/
theorem badRange_eq_some_iff (s : State) (rs : List (Word × Nat)) (a : Word) :
    s.badRange rs = some a ↔ ∃ pre n post, rs = pre ++ (a, n) :: post ∧
      (∀ r ∈ pre, FitsMemory s r.1.toNat r.2) ∧ ¬ FitsMemory s a.toNat n := by
  induction rs with
  | nil => simp [State.badRange]
  | cons r rs ih =>
    obtain ⟨b, n⟩ := r
    by_cases h : s.inRange b.toNat n = true
    · rw [State.badRange, if_pos h, ih]
      constructor
      · rintro ⟨pre, k, post, rfl, hp, hn⟩
        refine ⟨(b, n) :: pre, k, post, rfl, fun r hr => ?_, hn⟩
        rcases List.mem_cons.mp hr with rfl | hr
        · exact (inRange_iff ..).mp h
        · exact hp r hr
      · rintro ⟨pre, k, post, e, hp, hn⟩
        cases pre with
        | nil =>
          obtain ⟨⟨rfl, rfl⟩, -⟩ : (b = a ∧ n = k) ∧ rs = post := by simpa using e
          exact absurd ((inRange_iff ..).mp h) hn
        | cons p pre =>
          obtain ⟨-, rfl⟩ := List.cons.inj e
          exact ⟨pre, k, post, rfl, fun r hr => hp r (List.mem_cons_of_mem _ hr), hn⟩
    · rw [State.badRange, if_neg h, Option.some.injEq]
      constructor
      · rintro rfl
        exact ⟨[], n, rs, rfl, by simp, fun hf => h ((inRange_iff ..).mpr hf)⟩
      · rintro ⟨pre, k, post, e, hp, -⟩
        cases pre with
        | nil => simpa using (List.cons.inj e).1 |> congrArg Prod.fst
        | cons p pre =>
          obtain ⟨rfl, -⟩ := List.cons.inj e
          exact absurd ((inRange_iff ..).mpr (hp _ List.mem_cons_self)) h

/-- A range check passes to the body, or takes MEM_RANGE at the first range that does not fit. -/
theorem withRanges_cases (s : State) (rs : List (Word × Nat)) (body : Result) :
    (∃ a, s.badRange rs = some a ∧ s.withRanges rs body = .next (s.raise .memRange a)) ∨
      ((∀ r ∈ rs, FitsMemory s r.1.toNat r.2) ∧ s.withRanges rs body = body) := by
  unfold State.withRanges
  cases h : s.badRange rs with
  | some a => exact .inl ⟨a, rfl, rfl⟩
  | none => exact .inr ⟨(badRange_eq_none_iff s rs).mp h, rfl⟩

theorem overlaps_eq_false_iff (a la b lb : Nat) : overlaps a la b lb = false ↔ DisjointRanges a la b lb := by
  simp only [overlaps, DisjointRanges, Bool.and_eq_false_iff, decide_eq_false_iff_not]
  omega

/-! ## Checks -/

theorem withTable_of_valid (s : State) (t : TableIx) (body : Result) (h : s.tvalid[t] = true) :
    s.withTable t body = body := if_pos h

theorem withTable_of_absent (s : State) (t : TableIx) (body : Result) (h : s.tvalid[t] = false) :
    s.withTable t body = .next (s.raise .noTable (BitVec.ofNat 32 t.val)) := by
  simp only [State.withTable, h, Bool.false_eq_true, if_false]

theorem withTreeValid_of_valid (s : State) (body : Result) (h : s.treeValid = true) : s.withTreeValid body = body :=
  if_pos h

theorem withTreeValid_of_absent (s : State) (body : Result) (h : s.treeValid = false) :
    s.withTreeValid body = .next (s.raise .noTree 0#32) := by
  simp only [State.withTreeValid, h, Bool.false_eq_true, if_false]

theorem withPlane_of_configured (s : State) (body : Result) (hw : s.planeW ≠ 0) (hh : s.planeH ≠ 0)
    (hk : s.scaleLog ≠ 0) : s.withPlane body = body := if_neg (by simp [hw, hh, hk])

theorem withPlane_of_unset (s : State) (body : Result) (h : s.planeW = 0 ∨ s.planeH = 0 ∨ s.scaleLog = 0) :
    s.withPlane body = .next (s.raise .badArg 0#32) := if_pos h

/-! ## Returning from a fault, and starting -/

/-- CLR acts in DONE and FAILED only. -/
theorem clear_cases (s : State) :
    ((s.engine = .done ∨ s.engine = .failed) ∧
        s.clear = { s with engine := .idle, err := 0#32, errcp := 0#32, errinfo := 0#32 }) ∨
      ((s.engine = .idle ∨ s.engine = .busy) ∧ s.clear = s) := by
  unfold State.clear
  cases h : s.engine <;> simp

/-- GO acts in IDLE only. -/
theorem go_cases (s : State) :
    (s.engine = .idle ∧ s.go = { s with engine := .busy, cmdcnt := 0#32, loose := [] }) ∨
    (s.engine ≠ .idle ∧ s.go = s) := by
  unfold State.go
  cases h : s.engine <;> simp

/-! ## Storing a destination -/

@[simp] theorem storeOrScramble_cfg (s : State) (c : Bool) (a : Nat) (bs : List Byte) :
    (s.storeOrScramble c a bs).cfg = s.cfg := by cases c <;> rfl
@[simp] theorem storeOrScramble_engine (s : State) (c : Bool) (a : Nat) (bs : List Byte) :
    (s.storeOrScramble c a bs).engine = s.engine := by cases c <;> rfl
@[simp] theorem storeOrScramble_ie (s : State) (c : Bool) (a : Nat) (bs : List Byte) :
    (s.storeOrScramble c a bs).ie = s.ie := by cases c <;> rfl
@[simp] theorem storeOrScramble_cp (s : State) (c : Bool) (a : Nat) (bs : List Byte) :
    (s.storeOrScramble c a bs).cp = s.cp := by cases c <;> rfl
@[simp] theorem storeOrScramble_cmdcnt (s : State) (c : Bool) (a : Nat) (bs : List Byte) :
    (s.storeOrScramble c a bs).cmdcnt = s.cmdcnt := by cases c <;> rfl
@[simp] theorem storeOrScramble_err (s : State) (c : Bool) (a : Nat) (bs : List Byte) :
    (s.storeOrScramble c a bs).err = s.err := by cases c <;> rfl
@[simp] theorem storeOrScramble_errcp (s : State) (c : Bool) (a : Nat) (bs : List Byte) :
    (s.storeOrScramble c a bs).errcp = s.errcp := by cases c <;> rfl
@[simp] theorem storeOrScramble_errinfo (s : State) (c : Bool) (a : Nat) (bs : List Byte) :
    (s.storeOrScramble c a bs).errinfo = s.errinfo := by cases c <;> rfl
@[simp] theorem storeOrScramble_regs (s : State) (c : Bool) (a : Nat) (bs : List Byte) :
    (s.storeOrScramble c a bs).regs = s.regs := by cases c <;> rfl
@[simp] theorem storeOrScramble_bcBase (s : State) (c : Bool) (a : Nat) (bs : List Byte) :
    (s.storeOrScramble c a bs).bcBase = s.bcBase := by cases c <;> rfl
@[simp] theorem storeOrScramble_bcLen (s : State) (c : Bool) (a : Nat) (bs : List Byte) :
    (s.storeOrScramble c a bs).bcLen = s.bcLen := by cases c <;> rfl
@[simp] theorem storeOrScramble_bcPos (s : State) (c : Bool) (a : Nat) (bs : List Byte) :
    (s.storeOrScramble c a bs).bcPos = s.bcPos := by cases c <;> rfl
@[simp] theorem storeOrScramble_bwBase (s : State) (c : Bool) (a : Nat) (bs : List Byte) :
    (s.storeOrScramble c a bs).bwBase = s.bwBase := by cases c <;> rfl
@[simp] theorem storeOrScramble_bwCap (s : State) (c : Bool) (a : Nat) (bs : List Byte) :
    (s.storeOrScramble c a bs).bwCap = s.bwCap := by cases c <;> rfl
@[simp] theorem storeOrScramble_bwPos (s : State) (c : Bool) (a : Nat) (bs : List Byte) :
    (s.storeOrScramble c a bs).bwPos = s.bwPos := by cases c <;> rfl
@[simp] theorem storeOrScramble_mt (s : State) (c : Bool) (a : Nat) (bs : List Byte) :
    (s.storeOrScramble c a bs).mt = s.mt := by cases c <;> rfl
@[simp] theorem storeOrScramble_tvalid (s : State) (c : Bool) (a : Nat) (bs : List Byte) :
    (s.storeOrScramble c a bs).tvalid = s.tvalid := by cases c <;> rfl
@[simp] theorem storeOrScramble_qstep (s : State) (c : Bool) (a : Nat) (bs : List Byte) :
    (s.storeOrScramble c a bs).qstep = s.qstep := by cases c <;> rfl
@[simp] theorem storeOrScramble_node (s : State) (c : Bool) (a : Nat) (bs : List Byte) :
    (s.storeOrScramble c a bs).node = s.node := by cases c <;> rfl
@[simp] theorem storeOrScramble_nnodes (s : State) (c : Bool) (a : Nat) (bs : List Byte) :
    (s.storeOrScramble c a bs).nnodes = s.nnodes := by cases c <;> rfl
@[simp] theorem storeOrScramble_treeValid (s : State) (c : Bool) (a : Nat) (bs : List Byte) :
    (s.storeOrScramble c a bs).treeValid = s.treeValid := by cases c <;> rfl
@[simp] theorem storeOrScramble_lut (s : State) (c : Bool) (a : Nat) (bs : List Byte) :
    (s.storeOrScramble c a bs).lut = s.lut := by cases c <;> rfl
@[simp] theorem storeOrScramble_dim (s : State) (c : Bool) (a : Nat) (bs : List Byte) :
    (s.storeOrScramble c a bs).dim = s.dim := by cases c <;> rfl
@[simp] theorem storeOrScramble_pcfg (s : State) (c : Bool) (a : Nat) (bs : List Byte) :
    (s.storeOrScramble c a bs).pcfg = s.pcfg := by cases c <;> rfl
@[simp] theorem storeOrScramble_memEpoch (s : State) (c : Bool) (a : Nat) (bs : List Byte) :
    (s.storeOrScramble c a bs).memEpoch = s.memEpoch := by cases c <;> rfl
@[simp] theorem storeOrScramble_loose (s : State) (c : Bool) (a : Nat) (bs : List Byte) :
    (s.storeOrScramble c a bs).loose = s.loose := by cases c <;> rfl
@[simp] theorem storeOrScramble_hostData (s : State) (c : Bool) (a : Nat) (bs : List Byte) :
    (s.storeOrScramble c a bs).hostData = s.hostData := by cases c <;> rfl
@[simp] theorem storeOrScramble_inputs (s : State) (c : Bool) (a : Nat) (bs : List Byte) :
    (s.storeOrScramble c a bs).inputs = s.inputs := by cases c <;> rfl

/-! ## The bit reader -/

/-- RdBits either takes n bits of the window or is TRUNCATED where it stood. -/
theorem rdBits_cases (s : State) (n pos : Nat) :
    (pos + n ≤ s.windowBits ∧ s.rdBits n pos = .ok (natOfBits (s.sbits pos n), pos + n)) ∨
      (s.windowBits < pos + n ∧ s.rdBits n pos = .error (truncatedAt pos)) := by
  unfold State.rdBits
  split
  · exact .inr ⟨‹_›, rfl⟩
  · exact .inl ⟨by omega, rfl⟩

theorem rdBit_cases (s : State) (pos : Nat) :
    (pos + 1 ≤ s.windowBits ∧ s.rdBit pos = .ok (s.sbit pos, pos + 1)) ∨
      (s.windowBits < pos + 1 ∧ s.rdBit pos = .error (truncatedAt pos)) := by
  unfold State.rdBit
  split
  · exact .inr ⟨‹_›, rfl⟩
  · exact .inl ⟨by omega, rfl⟩

theorem advance_cases (s : State) (n pos : Nat) :
    (pos + n ≤ s.windowBits ∧ s.advance n pos = .ok (pos + n)) ∨
      (s.windowBits < pos + n ∧ s.advance n pos = .error (truncatedAt pos)) := by
  unfold State.advance
  split
  · exact .inr ⟨‹_›, rfl⟩
  · exact .inl ⟨by omega, rfl⟩

/-- A reading command completes with its value, or takes the data fault it met. -/
theorem readInto_ok (s : State) (rd : RegIx) (v : Word) (pos : Nat) :
    s.readInto rd (.ok (v, pos)) = .next ((s.setReg rd v).setBcPos pos).complete := rfl

theorem readInto_error (s : State) (rd : RegIx) (f : StreamFault) :
    s.readInto rd (.error f) = .next ((s.setBcPos f.pos).raise f.cause f.info) := rfl

@[simp] theorem sbits_length (s : State) (pos n : Nat) : (s.sbits pos n).length = n := by simp [State.sbits]

@[simp] theorem sbits_getElem (s : State) (pos n k : Nat) (h : k < (s.sbits pos n).length) :
    (s.sbits pos n)[k] = s.sbit (pos + k) := by simp [State.sbits]

/-! ## Bit strings and numbers -/

theorem natOfBits_lt (bs : Bits) : natOfBits bs < 2 ^ bs.length := by
  induction bs with
  | nil => simp [natOfBits]
  | cons b bs ih =>
    simp only [natOfBits, List.length_cons, Nat.pow_succ]
    split <;> omega

/-- Bit k of the number of a bit string is its element k. -/
theorem testBit_natOfBits (bs : Bits) : ∀ k, (natOfBits bs).testBit k = bs[k]?.getD false := by
  induction bs with
  | nil => simp [natOfBits]
  | cons b bs ih =>
    intro k
    cases k with
    | zero => cases b <;> simp [natOfBits, Nat.testBit_zero]
    | succ k =>
      rw [Nat.testBit_succ, List.getElem?_cons_succ, ← ih k]
      congr 1
      simp only [natOfBits]
      split <;> omega

@[simp] theorem bitsOfNat_length : ∀ n v : Nat, (bitsOfNat n v).length = n
  | 0, _ => rfl
  | n + 1, v => by simp [bitsOfNat, bitsOfNat_length n]

/-- Element k of the low bits of a number is its bit k. -/
theorem bitsOfNat_getElem : ∀ (n v k : Nat) (h : k < (bitsOfNat n v).length), (bitsOfNat n v)[k] = v.testBit k
  | 0, _, _, h => absurd h (Nat.not_lt_zero _)
  | n + 1, v, 0, _ => by simp only [bitsOfNat, List.getElem_cons_zero, Nat.testBit_zero]; rfl
  | n + 1, v, k + 1, h => by
    simp only [bitsOfNat, List.getElem_cons_succ, Nat.testBit_succ]
    exact bitsOfNat_getElem n (v / 2) k _

/-- The low n bits of a number, read as a number, are the number modulo 2^n. -/
theorem natOfBits_bitsOfNat : ∀ n v : Nat, natOfBits (bitsOfNat n v) = v % 2 ^ n
  | 0, v => by simp [bitsOfNat, natOfBits, Nat.mod_one]
  | n + 1, v => by
    rw [bitsOfNat, natOfBits, natOfBits_bitsOfNat n, Nat.pow_succ, Nat.mul_comm (2 ^ n) 2, Nat.mod_mul]
    rcases Nat.mod_two_eq_zero_or_one v with h | h <;> simp [h]

/-! ## The bit writer -/

@[simp] theorem wrAll_cfg (bs : Bits) (s : State) : (s.wrAll bs).cfg = s.cfg := by
  induction bs generalizing s with
  | nil => rfl
  | cons b bs ih => exact ih (s.wrBit b)
@[simp] theorem wrAll_engine (bs : Bits) (s : State) : (s.wrAll bs).engine = s.engine := by
  induction bs generalizing s with
  | nil => rfl
  | cons b bs ih => exact ih (s.wrBit b)
@[simp] theorem wrAll_ie (bs : Bits) (s : State) : (s.wrAll bs).ie = s.ie := by
  induction bs generalizing s with
  | nil => rfl
  | cons b bs ih => exact ih (s.wrBit b)
@[simp] theorem wrAll_cp (bs : Bits) (s : State) : (s.wrAll bs).cp = s.cp := by
  induction bs generalizing s with
  | nil => rfl
  | cons b bs ih => exact ih (s.wrBit b)
@[simp] theorem wrAll_cmdcnt (bs : Bits) (s : State) : (s.wrAll bs).cmdcnt = s.cmdcnt := by
  induction bs generalizing s with
  | nil => rfl
  | cons b bs ih => exact ih (s.wrBit b)
@[simp] theorem wrAll_err (bs : Bits) (s : State) : (s.wrAll bs).err = s.err := by
  induction bs generalizing s with
  | nil => rfl
  | cons b bs ih => exact ih (s.wrBit b)
@[simp] theorem wrAll_errcp (bs : Bits) (s : State) : (s.wrAll bs).errcp = s.errcp := by
  induction bs generalizing s with
  | nil => rfl
  | cons b bs ih => exact ih (s.wrBit b)
@[simp] theorem wrAll_errinfo (bs : Bits) (s : State) : (s.wrAll bs).errinfo = s.errinfo := by
  induction bs generalizing s with
  | nil => rfl
  | cons b bs ih => exact ih (s.wrBit b)
@[simp] theorem wrAll_regs (bs : Bits) (s : State) : (s.wrAll bs).regs = s.regs := by
  induction bs generalizing s with
  | nil => rfl
  | cons b bs ih => exact ih (s.wrBit b)
@[simp] theorem wrAll_bcBase (bs : Bits) (s : State) : (s.wrAll bs).bcBase = s.bcBase := by
  induction bs generalizing s with
  | nil => rfl
  | cons b bs ih => exact ih (s.wrBit b)
@[simp] theorem wrAll_bcLen (bs : Bits) (s : State) : (s.wrAll bs).bcLen = s.bcLen := by
  induction bs generalizing s with
  | nil => rfl
  | cons b bs ih => exact ih (s.wrBit b)
@[simp] theorem wrAll_bcPos (bs : Bits) (s : State) : (s.wrAll bs).bcPos = s.bcPos := by
  induction bs generalizing s with
  | nil => rfl
  | cons b bs ih => exact ih (s.wrBit b)
@[simp] theorem wrAll_bwBase (bs : Bits) (s : State) : (s.wrAll bs).bwBase = s.bwBase := by
  induction bs generalizing s with
  | nil => rfl
  | cons b bs ih => exact ih (s.wrBit b)
@[simp] theorem wrAll_bwCap (bs : Bits) (s : State) : (s.wrAll bs).bwCap = s.bwCap := by
  induction bs generalizing s with
  | nil => rfl
  | cons b bs ih => exact ih (s.wrBit b)
@[simp] theorem wrAll_mt (bs : Bits) (s : State) : (s.wrAll bs).mt = s.mt := by
  induction bs generalizing s with
  | nil => rfl
  | cons b bs ih => exact ih (s.wrBit b)
@[simp] theorem wrAll_tvalid (bs : Bits) (s : State) : (s.wrAll bs).tvalid = s.tvalid := by
  induction bs generalizing s with
  | nil => rfl
  | cons b bs ih => exact ih (s.wrBit b)
@[simp] theorem wrAll_qstep (bs : Bits) (s : State) : (s.wrAll bs).qstep = s.qstep := by
  induction bs generalizing s with
  | nil => rfl
  | cons b bs ih => exact ih (s.wrBit b)
@[simp] theorem wrAll_node (bs : Bits) (s : State) : (s.wrAll bs).node = s.node := by
  induction bs generalizing s with
  | nil => rfl
  | cons b bs ih => exact ih (s.wrBit b)
@[simp] theorem wrAll_nnodes (bs : Bits) (s : State) : (s.wrAll bs).nnodes = s.nnodes := by
  induction bs generalizing s with
  | nil => rfl
  | cons b bs ih => exact ih (s.wrBit b)
@[simp] theorem wrAll_treeValid (bs : Bits) (s : State) : (s.wrAll bs).treeValid = s.treeValid := by
  induction bs generalizing s with
  | nil => rfl
  | cons b bs ih => exact ih (s.wrBit b)
@[simp] theorem wrAll_lut (bs : Bits) (s : State) : (s.wrAll bs).lut = s.lut := by
  induction bs generalizing s with
  | nil => rfl
  | cons b bs ih => exact ih (s.wrBit b)
@[simp] theorem wrAll_dim (bs : Bits) (s : State) : (s.wrAll bs).dim = s.dim := by
  induction bs generalizing s with
  | nil => rfl
  | cons b bs ih => exact ih (s.wrBit b)
@[simp] theorem wrAll_pcfg (bs : Bits) (s : State) : (s.wrAll bs).pcfg = s.pcfg := by
  induction bs generalizing s with
  | nil => rfl
  | cons b bs ih => exact ih (s.wrBit b)
@[simp] theorem wrAll_memEpoch (bs : Bits) (s : State) : (s.wrAll bs).memEpoch = s.memEpoch := by
  induction bs generalizing s with
  | nil => rfl
  | cons b bs ih => exact ih (s.wrBit b)
@[simp] theorem wrAll_draws (bs : Bits) (s : State) : (s.wrAll bs).draws = s.draws := by
  induction bs generalizing s with
  | nil => rfl
  | cons b bs ih => exact ih (s.wrBit b)
@[simp] theorem wrAll_loose (bs : Bits) (s : State) : (s.wrAll bs).loose = s.loose := by
  induction bs generalizing s with
  | nil => rfl
  | cons b bs ih => exact ih (s.wrBit b)
@[simp] theorem wrAll_hostData (bs : Bits) (s : State) : (s.wrAll bs).hostData = s.hostData := by
  induction bs generalizing s with
  | nil => rfl
  | cons b bs ih => exact ih (s.wrBit b)
@[simp] theorem wrAll_inputs (bs : Bits) (s : State) : (s.wrAll bs).inputs = s.inputs := by
  induction bs generalizing s with
  | nil => rfl
  | cons b bs ih => exact ih (s.wrBit b)

/-- BW_POS moves by the number of bits written. -/
@[simp] theorem wrAll_bwPos (bs : Bits) (s : State) :
    (s.wrAll bs).bwPos = s.bwPos + BitVec.ofNat 32 bs.length := by
  induction bs generalizing s with
  | nil => simp [State.wrAll]
  | cons b bs ih =>
    rw [State.wrAll, ih, wrBit_bwPos, List.length_cons, BitVec.add_assoc, ← BitVec.ofNat_add_ofNat]
    congr 1
    rw [BitVec.add_comm]

/-- One written bit changes one byte: the bit is set in it, and the byte starts as zeros where its bit 0 is written. -/
theorem readByte_wrBit (s : State) (b : Bool) (x : Nat) :
    (s.wrBit b).readByte x = if x = s.bwBase.toNat + s.bwPos.toNat / 8 then
      withBit (if s.bwPos.toNat % 8 = 0 then 0#8 else s.readByte x) (s.bwPos.toNat % 8) b else s.readByte x := by
  by_cases h : x = s.bwBase.toNat + s.bwPos.toNat / 8
  · subst h
    simp [State.readByte, State.wrBit, Memory.get?_put]
  · simp only [State.readByte, State.wrBit, Memory.get?_put, h, if_false, State.unwritten]

theorem withBit_getLsbD (x : Byte) (j : Nat) (b : Bool) (i : Nat) (hi : i < 8) :
    (withBit x j b).getLsbD i = if i = j then b else x.getLsbD i := by
  have hb : (1#8 <<< j).getLsbD i = decide (i = j) := by
    simp only [BitVec.getLsbD_shiftLeft, hi, decide_true, Bool.true_and, BitVec.getLsbD_one]
    by_cases e : i = j
    · simp [e]
    · by_cases l : i < j
      · simp [l, e]
      · simp [l, e]; omega
  cases b
  · simp only [withBit, Bool.false_eq_true, if_false, BitVec.getLsbD_and, BitVec.getLsbD_not, hb, hi, decide_true,
      Bool.true_and]
    by_cases e : i = j <;> simp [e]
  · simp only [withBit, if_true, BitVec.getLsbD_or, hb]
    by_cases e : i = j <;> simp [e]

/-- WrBits either writes every bit or takes WRITE_OVERFLOW before the first. -/
theorem wrBits_cases (s : State) (bs : Bits) :
    (s.bwPos.toNat + bs.length ≤ s.regionBits ∧ s.wrBits bs = .ok (s.wrAll bs)) ∨
      (s.regionBits < s.bwPos.toNat + bs.length ∧ s.wrBits bs = .error s.bwPos) := by
  unfold State.wrBits
  split
  · exact .inr ⟨‹_›, rfl⟩
  · exact .inl ⟨by omega, rfl⟩

theorem wrAll_append (bs cs : Bits) : ∀ s : State, s.wrAll (bs ++ cs) = (s.wrAll bs).wrAll cs := by
  induction bs with
  | nil => exact fun _ => rfl
  | cons b bs ih => exact fun s => ih (s.wrBit b)

/-- A sequence of WrBits that all fit writes their bits one after another. -/
theorem wrChunksAt_of_fits (cs : List Bits) : ∀ (s : State) (pos : Nat), pos + cs.flatten.length ≤ s.regionBits →
    s.wrChunksAt pos cs = .ok (s.wrAll cs.flatten) := by
  induction cs with
  | nil => exact fun _ _ _ => rfl
  | cons c cs ih =>
    intro s pos h
    rw [List.flatten_cons, List.length_append] at h
    have hr : (s.wrAll c).regionBits = s.regionBits := by simp only [State.regionBits, wrAll_bwCap]
    rw [State.wrChunksAt, if_neg (by omega), List.flatten_cons, wrAll_append, ih _ _ (by rw [hr]; omega)]

/-! ## Fetch and step -/

/-- Fetch reads the four bytes at CP where they lie in memory, and decodes them. -/
theorem fetch_cases (s : State) :
    (s.cfg.memBytes < s.cp.toNat + 4 ∧ s.fetch = .outOfRange) ∨
      (s.cp.toNat + 4 ≤ s.cfg.memBytes ∧
        ((∃ i, decodeWord s.fetchWord = .ok i ∧ s.fetch = .command i) ∨
          (∃ e, decodeWord s.fetchWord = .error e ∧ s.fetch = .illegal s.fetchWord))) := by
  unfold State.fetch
  split
  · exact .inl ⟨‹_›, rfl⟩
  · refine .inr ⟨by omega, ?_⟩
    cases h : decodeWord s.fetchWord with
    | ok i => exact .inl ⟨i, rfl, rfl⟩
    | error e => exact .inr ⟨e, rfl, rfl⟩

/-- What a fetch and its command can do: one of the two fetch faults or one command. -/
theorem fetchAndExec_cases (s : State) :
    (s.fetch = .outOfRange ∧ s.fetchAndExec = .next (s.raise .memRange s.cp)) ∨
      (∃ w, s.fetch = .illegal w ∧ s.fetchAndExec = .next (s.raise .illegalCmd w)) ∨
      (∃ i, s.fetch = .command i ∧ s.fetchAndExec = exec i s) := by
  unfold State.fetchAndExec
  cases hf : s.fetch with
  | outOfRange => exact .inl ⟨rfl, rfl⟩
  | illegal w => exact .inr (.inl ⟨w, rfl, rfl⟩)
  | command i => exact .inr (.inr ⟨i, rfl, rfl⟩)

/-- What the engine's turn can do: nothing while stopped; while BUSY, its command. -/
theorem engineTurn_cases (s : State) :
    (s.engine ≠ .busy ∧ engineTurn s = .next s) ∨ (s.engine = .busy ∧ engineTurn s = s.runNext) := by
  unfold engineTurn
  cases he : s.engine <;> simp

/-- Whose turn a step is. -/
theorem step_cases (s : State) :
    (s.inputs = [] ∧ step s = engineTurn s) ∨
      (∃ rest, s.inputs = .engine :: rest ∧ step s = engineTurn { s with inputs := rest }) ∨
      (∃ a rest, s.inputs = .host a :: rest ∧ step s = hostTurn a { s with inputs := rest }) := by
  unfold step
  cases h : s.inputs with
  | nil => exact .inl ⟨rfl, rfl⟩
  | cons t rest =>
    cases t with
    | engine => exact .inr (.inl ⟨rest, rfl, rfl⟩)
    | host a => exact .inr (.inr ⟨a, rest, rfl, rfl⟩)

end Sys2Proof.Machine
end

