-- ==== Sys2Proof/Laws/Loose.lean ====
section
/-! SUPPORT. What drawing pieces of the state can change, that it keeps the state legal, and what the engine's command is
with nothing loose and with something. -/

namespace Sys2Proof.Machine

/-! ## What a draw keeps -/

/-- The fields that no drawn piece lies in. -/
def SameControl (s t : State) : Prop :=
  t.cfg = s.cfg ∧ t.engine = s.engine ∧ t.ie = s.ie ∧ t.cp = s.cp ∧ t.cmdcnt = s.cmdcnt ∧ t.err = s.err ∧
    t.errcp = s.errcp ∧ t.memEpoch = s.memEpoch ∧ t.draws = s.draws ∧ t.loose = s.loose ∧ t.hostData = s.hostData ∧
    t.inputs = s.inputs

theorem SameControl.refl (s : State) : SameControl s s := by simp [SameControl]

theorem SameControl.trans {s t u : State} (h : SameControl s t) (k : SameControl t u) : SameControl s u := by
  simp_all [SameControl]

theorem redrawPiece_control (d : Nat) (s : State) (p : Piece) : SameControl s (s.redrawPiece d p) := by
  cases p with
  | byte a => simp only [State.redrawPiece]; split <;> simp [SameControl]
  | _ => simp [State.redrawPiece, SameControl]

theorem redrawPieces_control (d : Nat) (ps : List Piece) : ∀ s, SameControl s (ps.foldl (State.redrawPiece d) s) := by
  induction ps with
  | nil => exact SameControl.refl
  | cons p ps ih => exact fun s => (redrawPiece_control d s p).trans (ih _)

/-- Drawing pieces keeps the parameters, the engine-control registers but ERRINFO, and the host's side. -/
theorem drawn_control (s : State) (ps : List Piece) (d : Nat) : SameControl s (s.drawn ps d) :=
  redrawPieces_control d ps s

/-! ## A piece that is not drawn -/

@[simp] theorem agrees_refl (s : State) (p : Piece) : p.agrees s s = true := by cases p <;> simp [Piece.agrees]

theorem agrees_trans {s t u : State} {p : Piece} (h : p.agrees s t = true) (k : p.agrees t u = true) :
    p.agrees s u = true := by
  cases p <;> simp only [Piece.agrees, beq_iff_eq] at * <;> exact h.trans k

/-- Drawing one piece leaves every other as it is. -/
theorem agrees_redrawPiece (d : Nat) (s : State) (p q : Piece) (h : p ≠ q) : p.agrees s (s.redrawPiece d q) = true := by
  cases q with
  | byte a =>
    simp only [State.redrawPiece]
    split
    · cases p with
      | byte b =>
        have hb : b ≠ a := fun e => h (congrArg _ e)
        simp [Piece.agrees, State.readByte, State.unwritten, Memory.get?_put, hb]
      | _ => simp [Piece.agrees, State.reg]
    · simp
  | reg r =>
    cases p with
    | reg b => simp [Piece.agrees, State.redrawPiece, reg_setReg_ne _ _ _ _ fun e => h (congrArg _ e)]
    | byte b => simp [Piece.agrees, State.redrawPiece, State.readByte, State.unwritten]
    | _ => simp [Piece.agrees, State.redrawPiece]
  | entry k i =>
    cases p with
    | entry k' i' =>
      by_cases hk : k = k'
      · subst hk
        have hi : i.val ≠ i'.val := fun e => h (by rw [Fin.ext e])
        simp [Piece.agrees, State.redrawPiece, hi]
      · have hk' : k.val ≠ k'.val := fun e => hk (Fin.ext e)
        simp [Piece.agrees, State.redrawPiece, hk']
    | reg r => simp [Piece.agrees, State.redrawPiece, State.reg]
    | byte b => simp [Piece.agrees, State.redrawPiece, State.readByte, State.unwritten]
    | _ => simp [Piece.agrees, State.redrawPiece]
  | _ =>
    cases p <;> simp only [Piece.agrees, State.redrawPiece, beq_iff_eq] <;>
      first
        | rfl
        | exact absurd rfl h
        | exact (Vector.getElem_set_ne _ _ fun e => h (by rw [Fin.ext e])).symm

theorem agrees_redrawPieces (d : Nat) (p : Piece) (ps : List Piece) (h : p ∉ ps) :
    ∀ s, p.agrees s (ps.foldl (State.redrawPiece d) s) = true := by
  induction ps with
  | nil => simp
  | cons q ps ih =>
    rw [List.mem_cons, not_or] at h
    exact fun s => agrees_trans (agrees_redrawPiece d s p q h.1) (ih h.2 _)

/-- Keeping to legal values leaves a piece as it was in both states. -/
theorem agrees_keepLegal (s t : State) (p : Piece) (h : p.agrees s t = true) :
    p.agrees s (s.keepLegal t) = true := by
  cases p with
  | reg r => exact h
  | byte a => exact h
  | _ => simp only [Piece.agrees, State.keepLegal] at h ⊢; split <;> simp_all

/-- A piece that is not drawn keeps its value. -/
theorem agrees_drawn (s : State) (ps : List Piece) (d : Nat) (p : Piece) (h : p ∉ ps) :
    p.agrees s (s.drawn ps d) = true :=
  agrees_keepLegal s _ p (agrees_redrawPieces d p ps h s)

/-! ## A draw keeps the state legal -/

theorem readerLegal_congr {s t : State} (hc : t.cfg = s.cfg) (hb : t.bcBase = s.bcBase) (hl : t.bcLen = s.bcLen)
    (hp : t.bcPos = s.bcPos) : t.readerLegal = s.readerLegal := by
  unfold State.readerLegal State.windowBits State.inRange
  rw [hc, hb, hl, hp]

theorem readerLegal_drawn (s : State) (ps : List Piece) (d : Nat) (h : s.readerLegal = true) :
    (s.drawn ps d).readerLegal = true := by
  have hc := (redrawPieces_control d ps s).1
  unfold State.drawn
  generalize ps.foldl (State.redrawPiece d) s = t at hc ⊢
  cases ht : t.readerLegal
  · have e : (s.keepLegal t).readerLegal = s.readerLegal := by
      refine readerLegal_congr (show (s.keepLegal t).cfg = s.cfg from hc) ?_ ?_ ?_ <;> simp [State.keepLegal, ht]
    exact e.trans h
  · have e : (s.keepLegal t).readerLegal = t.readerLegal := by
      refine readerLegal_congr (show (s.keepLegal t).cfg = t.cfg from rfl) ?_ ?_ ?_ <;> simp [State.keepLegal, ht]
    exact e.trans ht

theorem writerLegal_congr {s t : State} (hc : t.cfg = s.cfg) (hb : t.bwBase = s.bwBase) (hl : t.bwCap = s.bwCap)
    (hp : t.bwPos = s.bwPos) : t.writerLegal = s.writerLegal := by
  unfold State.writerLegal State.regionBits State.inRange
  rw [hc, hb, hl, hp]

theorem writerLegal_drawn (s : State) (ps : List Piece) (d : Nat) (h : s.writerLegal = true) :
    (s.drawn ps d).writerLegal = true := by
  have hc := (redrawPieces_control d ps s).1
  unfold State.drawn
  generalize ps.foldl (State.redrawPiece d) s = t at hc ⊢
  cases ht : t.writerLegal
  · have e : (s.keepLegal t).writerLegal = s.writerLegal := by
      refine writerLegal_congr (show (s.keepLegal t).cfg = s.cfg from hc) ?_ ?_ ?_ <;> simp [State.keepLegal, ht]
    exact e.trans h
  · have e : (s.keepLegal t).writerLegal = t.writerLegal := by
      refine writerLegal_congr (show (s.keepLegal t).cfg = t.cfg from rfl) ?_ ?_ ?_ <;> simp [State.keepLegal, ht]
    exact e.trans ht

theorem tablesLegal_drawn (s : State) (ps : List Piece) (d : Nat) (h : s.tablesLegal = true) :
    (s.drawn ps d).tablesLegal = true := by
  unfold State.drawn
  generalize ps.foldl (State.redrawPiece d) s = t
  cases ht : t.tablesLegal <;> simp only [State.tablesLegal, State.keepLegal] at * <;> simp only [ht] <;> assumption

theorem stepsLegal_drawn (s : State) (ps : List Piece) (d : Nat) (h : s.stepsLegal = true) :
    (s.drawn ps d).stepsLegal = true := by
  unfold State.drawn
  generalize ps.foldl (State.redrawPiece d) s = t
  cases ht : t.stepsLegal <;> simp only [State.stepsLegal, State.keepLegal] at * <;> simp only [ht] <;> assumption

theorem planeLegal_drawn (s : State) (ps : List Piece) (d : Nat) (h : s.planeLegal = true) :
    (s.drawn ps d).planeLegal = true := by
  unfold State.drawn
  generalize ps.foldl (State.redrawPiece d) s = t
  cases ht : t.planeLegal <;>
    simp only [State.planeLegal, State.keepLegal, State.planeW, State.planeH, State.scaleLog] at * <;>
    simp only [ht] <;> assumption

theorem treeLegal_drawn (s : State) (ps : List Piece) (d : Nat) (h : s.treeLegal = true) :
    (s.drawn ps d).treeLegal = true := by
  unfold State.drawn
  generalize ps.foldl (State.redrawPiece d) s = t
  cases ht : t.treeLegal <;> simp only [State.treeLegal, State.keepLegal] at * <;> simp only [ht] <;> assumption

/-! ## What two states differ in -/

theorem Memory.get?_eq_none (m : Memory) (a : Nat) (h : ∀ c ∈ m, c.1 ≠ a) : m.get? a = none := by
  induction m with
  | nil => rfl
  | cons c m ih =>
    have h1 : c.1 ≠ a := h c (List.mem_cons_self ..)
    simp [Memory.get?, h1, ih fun d hd => h d (List.mem_cons_of_mem _ hd)]

/-- A byte that neither of two states lists reads the same in both. -/
theorem agrees_byte_of_unlisted {s t : State} (he : t.memEpoch = s.memEpoch) (a : Nat) (hs : .byte a ∉ s.listedBytes)
    (ht : .byte a ∉ t.listedBytes) : (Piece.byte a).agrees s t = true := by
  have h : ∀ u : State, .byte a ∉ u.listedBytes → u.mem.get? a = none := fun u hu =>
    Memory.get?_eq_none _ _ fun c hc e => hu (List.mem_map.mpr ⟨c, hc, by rw [e]⟩)
  simp [Piece.agrees, State.readByte, State.unwritten, h s hs, h t ht, he]

/-- Two states with the same unwritten memory differ exactly in the pieces that are not the same in both. -/
theorem mem_differing {s t : State} (he : t.memEpoch = s.memEpoch) (p : Piece) :
    p ∈ s.differing t ↔ p.agrees s t = false := by
  simp only [State.differing, List.mem_filter, Bool.not_eq_true', List.mem_append]
  refine ⟨And.right, fun h => ⟨?_, h⟩⟩
  cases p with
  | byte a =>
    by_contra hn
    simp only [not_or] at hn
    simp [agrees_byte_of_unlisted he a hn.1.2 hn.2] at h
  | _ => exact .inl (.inl (by simp [fixedPieces]))

/-! ## The engine's command -/

/-- Where nothing is loose, it is the command at CP. -/
theorem runNext_of_nothing (s : State) (h : s.loose = []) : s.runNext = s.fetchAndExec := by
  simp [State.runNext, h]

/-- Where something is loose, it is the command from the first variant, with what another variant changes drawn anew. -/
theorem runNext_of_loose (s : State) (h : s.loose ≠ []) :
    ∃ v vs, s.variants = v :: vs ∧
      ∀ t, v.fetchAndExec = .next t → s.runNext = .next (t.loosened (t.looseAgainst vs)) := by
  unfold State.variants State.runNext
  cases hl : s.loose with
  | nil => exact absurd hl h
  | cons p ps =>
    simp only [State.variants, hl, List.range_succ_eq_map, List.map_cons]
    exact ⟨_, _, rfl, fun t ht => by simp only [ht]⟩

/-- A variant differs from the state in the loose pieces and the count of draws alone. -/
theorem agrees_variant (s v : State) (hv : v ∈ s.variants) (p : Piece) (hp : p ∉ s.loose) : p.agrees s v = true := by
  unfold State.variants at hv
  split at hv
  · simp [List.mem_singleton.mp hv]
  · obtain ⟨k, -, rfl⟩ := List.mem_map.mp hv
    have h := agrees_drawn s s.loose (s.draws + 1 + k) p hp
    cases p <;> exact h

/-- What becomes loose is what the next state of a variant differs in. -/
theorem mem_looseAgainst (t : State) (vs : List State) (p : Piece) :
    p ∈ t.looseAgainst vs ↔ ∃ v ∈ vs, ∃ u, v.fetchAndExec = .next u ∧ p ∈ t.differing u := by
  simp only [State.looseAgainst, List.mem_dedup, List.mem_flatMap]
  constructor
  · rintro ⟨v, hv, hp⟩
    refine ⟨v, hv, ?_⟩
    cases h : v.fetchAndExec with
    | next u => exact ⟨u, rfl, by simpa [h] using hp⟩
    | fault f => simp [h] at hp
    | refused r => simp [h] at hp
  · rintro ⟨v, hv, u, hu, hp⟩
    exact ⟨v, hv, by simpa [hu] using hp⟩

end Sys2Proof.Machine
end

