-- ==== Sys2Proof/Laws/Tables.lean ====
section
/-! SUPPORT. The stored tables entry by entry: the LUT that a tree read fills, the mapping tables, and what the validity
scan of 43_mapping.md R212 finds. -/

namespace Sys2Proof.Machine

/-- Filling a LUT changes the entries of the keys whose low bits are the code. -/
theorem fillLut_getElem (lut : Vector LutEntry 256) (depth code : Nat) (e : LutEntry) (key : Fin 256) :
    (fillLut lut depth code e)[key] = if key.val % 2 ^ depth = code then e else lut[key] := by
  unfold fillLut
  exact Vector.getElem_ofFn _

theorem lutAfterLeaf_of_le (lut : Vector LutEntry 256) (depth code : Nat) (sym : Sym) (h : depth ≤ 8) :
    lutAfterLeaf lut depth code sym = fillLut lut depth code (.terminal sym ⟨depth, by omega⟩) := dif_pos h

theorem lutAfterLeaf_of_gt (lut : Vector LutEntry 256) (depth code : Nat) (sym : Sym) (h : 8 < depth) :
    lutAfterLeaf lut depth code sym = lut := dif_neg (by omega)

theorem lutAfterBranch_at_eight (lut : Vector LutEntry 256) (code : Nat) (idx : NodeIx) :
    lutAfterBranch lut 8 code idx = fillLut lut 8 code (.nonTerminal idx) := if_pos rfl

theorem lutAfterBranch_elsewhere (lut : Vector LutEntry 256) (depth code : Nat) (idx : NodeIx) (h : depth ≠ 8) :
    lutAfterBranch lut depth code idx = lut := if_neg h

/-- Entry i of the reference curve is the formula's value: it fits 16 bits. -/
theorem referenceCurve_toNat (q : Nat) (i : Fin 128) :
    ((referenceCurve q)[i]).toNat = i.val + i.val * i.val * (100 - q) / 1600 := by
  have e : (referenceCurve q)[i] = BitVec.ofNat 16 (i.val + i.val * i.val * (100 - q) / 1600) := by
    unfold referenceCurve
    exact Vector.getElem_ofFn _
  have hi : i.val ≤ 127 := by omega
  have h1 : i.val * i.val ≤ 127 * 127 := Nat.mul_le_mul hi hi
  have h2 : i.val * i.val * (100 - q) ≤ 127 * 127 * 100 := Nat.mul_le_mul h1 (by omega)
  rw [e, BitVec.toNat_ofNat, Nat.mod_eq_of_lt]
  omega

/-- Entry i of the table serialized at an address. -/
theorem readTable_getElem (s : State) (a : Nat) (i : Fin 128) : (s.readTable a)[i] = s.readHalf (a + 2 * i.val) := by
  unfold State.readTable
  exact Vector.getElem_ofFn _

/-- The scan finds nothing exactly in a non-decreasing list. -/
theorem firstDrop_eq_none_iff (l : List Half) : ∀ n, firstDrop l n = none ↔
    ∀ i (h : i + 1 < l.length), (l[i]).toNat ≤ (l[i + 1]).toNat := by
  induction l with
  | nil => intro n; simp [firstDrop]
  | cons x l ih =>
    intro n
    cases l with
    | nil => simp [firstDrop]
    | cons y l =>
      by_cases hxy : x.toNat > y.toNat
      · simp only [firstDrop, hxy, if_true, reduceCtorEq, false_iff]
        exact fun h => absurd (h 0 (by simp)) (by simpa using hxy)
      · rw [firstDrop, if_neg hxy, ih]
        constructor
        · intro h i hi
          cases i with
          | zero => exact Nat.le_of_not_lt hxy
          | succ i => exact h i (by simpa using hi)
        · exact fun h i hi => h (i + 1) (by simpa using hi)

/-- Where the scan finds an entry, it is the first that is followed by a lower one. -/
theorem firstDrop_eq_some (l : List Half) : ∀ n k, firstDrop l n = some k →
    ∃ i, k = n + i ∧ ∃ h : i + 1 < l.length, (l[i + 1]).toNat < (l[i]).toNat ∧
      ∀ j (hj : j < i), (l[j]).toNat ≤ (l[j + 1]).toNat := by
  induction l with
  | nil => intro n k h; cases h
  | cons x l ih =>
    intro n k h
    cases l with
    | nil => cases h
    | cons y l =>
      by_cases hxy : x.toNat > y.toNat
      · rw [firstDrop, if_pos hxy, Option.some.injEq] at h
        exact ⟨0, h.symm, by simp, hxy, nofun⟩
      · rw [firstDrop, if_neg hxy] at h
        obtain ⟨i, rfl, hi, hd, hb⟩ := ih _ _ h
        refine ⟨i + 1, by omega, by simpa using hi, hd, fun j hj => ?_⟩
        cases j with
        | zero => exact Nat.le_of_not_lt hxy
        | succ j => exact hb j (by omega)

end Sys2Proof.Machine
end

