-- ==== Sys2Proof/Laws/Legal.lean ====
section
/-! SUPPORT. The checks that a drawn value is legal say what the invariants of Safety.lean say, so that a draw keeps
them. -/

namespace Sys2Proof.Machine

theorem readerLegal_iff (s : State) : s.readerLegal = true ↔ ReaderInv s := by
  simp only [State.readerLegal, Bool.and_eq_true, decide_eq_true_eq, inRange_iff, FitsMemory, ReaderInv]
  exact and_congr_right' (by omega)

theorem writerLegal_iff (s : State) : s.writerLegal = true ↔ WriterInv s := by
  simp only [State.writerLegal, Bool.and_eq_true, decide_eq_true_eq, inRange_iff, FitsMemory, WriterInv]
  exact and_congr_right' (by omega)

theorem stepsLegal_iff (s : State) : s.stepsLegal = true ↔ StepsInv s := by
  simp only [State.stepsLegal, List.all_eq_true, List.mem_finRange, true_imp_iff, bne_iff_ne, StepsInv]
  refine forall_congr' fun q => ?_
  rw [Nat.one_le_iff_ne_zero, ne_eq, ne_eq, ← BitVec.toNat_inj]
  rfl

theorem planeLegal_iff (s : State) : s.planeLegal = true ↔ PlaneInv s := by
  simp [State.planeLegal, PlaneInv, Nat.one_le_iff_ne_zero, and_assoc]

/-- The scan of 43_mapping.md R212 finds nothing exactly in a valid table. -/
theorem tableFault_eq_none_iff (T : MapTable) : tableFault T = none ↔ TableValid T := by
  have hl : entryOf T 127 = (T[127]).toNat := rfl
  have hn : firstDrop T.toList 0 = none ↔ ∀ i : Fin 127, (T[i.castSucc]).toNat ≤ (T[i.succ]).toNat := by
    rw [firstDrop_eq_none_iff]
    simp only [Vector.length_toList, Vector.getElem_toList]
    exact ⟨fun h i => h i.val (by omega), fun h i hi => h ⟨i, by omega⟩⟩
  unfold tableFault TableValid
  rw [← hn]
  cases firstDrop T.toList 0 <;> simp [hl]

theorem tablesLegal_iff (s : State) : s.tablesLegal = true ↔ TablesInv s := by
  simp only [State.tablesLegal, List.all_eq_true, List.mem_finRange, true_imp_iff, TablesInv]
  refine forall_congr' fun k => ?_
  cases s.tvalid[k] <;> simp [← tableFault_eq_none_iff]

theorem lutEntryLegal_iff (node : Vector TreeNode 521) (key : Fin 256) (e : LutEntry) :
    lutEntryLegal node key.val e = true ↔ LutEntryOk node key e := by
  cases e with
  | terminal sym len =>
    cases h : descend node 0 (bitsOfNat len.val key.val) <;> simp [lutEntryLegal, LutEntryOk, h]
  | nonTerminal n =>
    cases h : node[n] <;> simp_all [lutEntryLegal, LutEntryOk]

theorem treeLegal_iff (s : State) : s.treeLegal = true ↔ TreeInv s := by
  have hc : (∀ n : NodeIx, (decide (s.nnodes ≤ n.val) || childrenLegal s.nnodes n.val s.node[n]) = true) ↔
      ∀ n x y : NodeIx, n.val < s.nnodes → s.node[n] = .branch x y →
        n.val < x.val ∧ x.val < s.nnodes ∧ n.val < y.val ∧ y.val < s.nnodes := by
    refine forall_congr' fun n => ?_
    by_cases hn : s.nnodes ≤ n.val
    · simp [hn]
    · cases h : s.node[n] with
      | leaf _ => simp [childrenLegal]
      | branch a b =>
        simp only [hn, decide_false, Bool.false_or, childrenLegal, decide_eq_true_eq, TreeNode.branch.injEq]
        exact ⟨fun g x y _ e => e.1 ▸ e.2 ▸ g, fun g => g a b (by omega) ⟨rfl, rfl⟩⟩
  simp only [State.treeLegal, TreeInv, LutOk, Bool.and_eq_true, decide_eq_true_eq, List.all_eq_true, List.mem_finRange,
    true_imp_iff, Bool.or_eq_true, Bool.not_eq_true', bne_iff_ne, ← lutEntryLegal_iff, Nat.one_le_iff_ne_zero]
  simp only [Bool.or_eq_true, decide_eq_true_eq] at hc
  rw [hc]
  cases s.treeValid <;> simp [and_assoc]

/-- Drawing any pieces keeps every unit legal. -/
theorem legal_drawn (s : State) (ps : List Piece) (d : Nat) (h : Legal s) : Legal (s.drawn ps d) := by
  obtain ⟨hr, hw, ht, hq, hp, hn⟩ := h
  exact ⟨(readerLegal_iff _).mp (readerLegal_drawn _ _ _ ((readerLegal_iff _).mpr hr)),
    (writerLegal_iff _).mp (writerLegal_drawn _ _ _ ((writerLegal_iff _).mpr hw)),
    (tablesLegal_iff _).mp (tablesLegal_drawn _ _ _ ((tablesLegal_iff _).mpr ht)),
    (stepsLegal_iff _).mp (stepsLegal_drawn _ _ _ ((stepsLegal_iff _).mpr hq)),
    (planeLegal_iff _).mp (planeLegal_drawn _ _ _ ((planeLegal_iff _).mpr hp)),
    (treeLegal_iff _).mp (treeLegal_drawn _ _ _ ((treeLegal_iff _).mpr hn))⟩

end Sys2Proof.Machine
end

