-- ==== Sys2Proof/Laws/PerInstr.lean ====
section
/-! SUPPORT. One lemma per command: its word carries the opcode of its row of the opcode map (30_encoding.md R105). -/

namespace Sys2Proof.Laws.OpcodeField

open Sys2Proof

/-- The row of the opcode map with the command's mnemonic has the opcode that the command's word carries. -/
def Statement (i : Instr) : Prop :=
  ∃ row ∈ opcodeTable, row.mnemonic = i.mnemonic ∧ opField (encode i) = opField row.matchBits

theorem halt : Statement .halt :=
  ⟨opcodeTable[0], by decide, rfl, by simp only [encode, opField_wordN]; decide⟩
theorem nop : Statement .nop :=
  ⟨opcodeTable[1], by decide, rfl, by simp only [encode, opField_wordN]; decide⟩
theorem li (rd : RegIx) (imm16 : BitVec 16) : Statement (.li rd imm16) :=
  ⟨opcodeTable[2], by decide, rfl, by simp only [encode, opField_wordI16]; decide⟩
theorem lih (rd : RegIx) (imm16 : BitVec 16) : Statement (.lih rd imm16) :=
  ⟨opcodeTable[3], by decide, rfl, by simp only [encode, opField_wordI16]; decide⟩
theorem add (rd ra rb : RegIx) : Statement (.add rd ra rb) :=
  ⟨opcodeTable[4], by decide, rfl, by simp only [encode, opField_wordR]; decide⟩
theorem addi (rd ra : RegIx) (imm14 : BitVec 14) : Statement (.addi rd ra imm14) :=
  ⟨opcodeTable[5], by decide, rfl, by simp only [encode, opField_wordR]; decide⟩
theorem brinit (ra rb : RegIx) : Statement (.brinit ra rb) :=
  ⟨opcodeTable[6], by decide, rfl, by simp only [encode, opField_wordR]; decide⟩
theorem brbit (rd : RegIx) : Statement (.brbit rd) :=
  ⟨opcodeTable[7], by decide, rfl, by simp only [encode, opField_wordR]; decide⟩
theorem brbits (rd : RegIx) (n : Nat) : Statement (.brbits rd n) :=
  ⟨opcodeTable[8], by decide, rfl, by simp only [encode, opField_wordR]; decide⟩
theorem brpeek (rd : RegIx) : Statement (.brpeek rd) :=
  ⟨opcodeTable[9], by decide, rfl, by simp only [encode, opField_wordR]; decide⟩
theorem bradv (ra : RegIx) : Statement (.bradv ra) :=
  ⟨opcodeTable[10], by decide, rfl, by simp only [encode, opField_wordR]; decide⟩
theorem brend (rd : RegIx) : Statement (.brend rd) :=
  ⟨opcodeTable[11], by decide, rfl, by simp only [encode, opField_wordR]; decide⟩
theorem brpos (rd : RegIx) : Statement (.brpos rd) :=
  ⟨opcodeTable[12], by decide, rfl, by simp only [encode, opField_wordR]; decide⟩
theorem bwinit (ra rb : RegIx) : Statement (.bwinit ra rb) :=
  ⟨opcodeTable[13], by decide, rfl, by simp only [encode, opField_wordR]; decide⟩
theorem bwbits (ra : RegIx) (n : Nat) : Statement (.bwbits ra n) :=
  ⟨opcodeTable[14], by decide, rfl, by simp only [encode, opField_wordR]; decide⟩
theorem bwsize (rd : RegIx) : Statement (.bwsize rd) :=
  ⟨opcodeTable[15], by decide, rfl, by simp only [encode, opField_wordR]; decide⟩
theorem henc (ra rb : RegIx) : Statement (.henc ra rb) :=
  ⟨opcodeTable[16], by decide, rfl, by simp only [encode, opField_wordR]; decide⟩
theorem hdec (ra rb : RegIx) (walk : Bool) : Statement (.hdec ra rb walk) :=
  ⟨opcodeTable[17], by decide, rfl, by simp only [encode, opField_wordR]; decide⟩
theorem htree : Statement .htree :=
  ⟨opcodeTable[18], by decide, rfl, by simp only [encode, opField_wordN]; decide⟩
theorem hsym (rd : RegIx) (walk : Bool) : Statement (.hsym rd walk) :=
  ⟨opcodeTable[19], by decide, rfl, by simp only [encode, opField_wordR]; decide⟩
theorem hlutrd (rd ra : RegIx) : Statement (.hlutrd rd ra) :=
  ⟨opcodeTable[20], by decide, rfl, by simp only [encode, opField_wordR]; decide⟩
theorem mload (t : TableIx) (ra : RegIx) : Statement (.mload t ra) :=
  ⟨opcodeTable[21], by decide, rfl, by simp only [encode, opField_wordR]; decide⟩
theorem mstore (t : TableIx) (ra : RegIx) : Statement (.mstore t ra) :=
  ⟨opcodeTable[22], by decide, rfl, by simp only [encode, opField_wordR]; decide⟩
theorem msize (rd : RegIx) : Statement (.msize rd) :=
  ⟨opcodeTable[23], by decide, rfl, by simp only [encode, opField_wordR]; decide⟩
theorem mqinit (t : TableIx) (ra : RegIx) : Statement (.mqinit t ra) :=
  ⟨opcodeTable[24], by decide, rfl, by simp only [encode, opField_wordR]; decide⟩
theorem mmap (rd ra : RegIx) (t : TableIx) : Statement (.mmap rd ra t) :=
  ⟨opcodeTable[25], by decide, rfl, by simp only [encode, opField_wordR]; decide⟩
theorem munmap (rd ra : RegIx) (t : TableIx) : Statement (.munmap rd ra t) :=
  ⟨opcodeTable[26], by decide, rfl, by simp only [encode, opField_wordR]; decide⟩
theorem mmapv (t : TableIx) (ra rb rc : RegIx) : Statement (.mmapv t ra rb rc) :=
  ⟨opcodeTable[27], by decide, rfl, by simp only [encode, opField_wordR]; decide⟩
theorem munmapv (t : TableIx) (ra rb rc : RegIx) : Statement (.munmapv t ra rb rc) :=
  ⟨opcodeTable[28], by decide, rfl, by simp only [encode, opField_wordR]; decide⟩
theorem setq (q : StepIx) (ra : RegIx) : Statement (.setq q ra) :=
  ⟨opcodeTable[29], by decide, rfl, by simp only [encode, opField_wordR]; decide⟩
theorem quant (rd ra : RegIx) (q : StepIx) : Statement (.quant rd ra q) :=
  ⟨opcodeTable[30], by decide, rfl, by simp only [encode, opField_wordR]; decide⟩
theorem dequant (rd ra : RegIx) (q : StepIx) : Statement (.dequant rd ra q) :=
  ⟨opcodeTable[31], by decide, rfl, by simp only [encode, opField_wordR]; decide⟩
theorem quantv (q : StepIx) (ra rb rc : RegIx) : Statement (.quantv q ra rb rc) :=
  ⟨opcodeTable[32], by decide, rfl, by simp only [encode, opField_wordR]; decide⟩
theorem dequantv (q : StepIx) (ra rb rc : RegIx) : Statement (.dequantv q ra rb rc) :=
  ⟨opcodeTable[33], by decide, rfl, by simp only [encode, opField_wordR]; decide⟩
theorem setdim (ra rb : RegIx) : Statement (.setdim ra rb) :=
  ⟨opcodeTable[34], by decide, rfl, by simp only [encode, opField_wordR]; decide⟩
theorem dsamp (ra rb : RegIx) : Statement (.dsamp ra rb) :=
  ⟨opcodeTable[35], by decide, rfl, by simp only [encode, opField_wordR]; decide⟩
theorem usamp (ra rb : RegIx) : Statement (.usamp ra rb) :=
  ⟨opcodeTable[36], by decide, rfl, by simp only [encode, opField_wordR]; decide⟩
theorem resid (ra rb rc : RegIx) : Statement (.resid ra rb rc) :=
  ⟨opcodeTable[37], by decide, rfl, by simp only [encode, opField_wordR]; decide⟩
theorem recon (ra rb rc : RegIx) : Statement (.recon ra rb rc) :=
  ⟨opcodeTable[38], by decide, rfl, by simp only [encode, opField_wordR]; decide⟩

end Sys2Proof.Laws.OpcodeField
end

