-- ==== Sys2Proof/Tests/Slice0.lean ====
section
/-! SUPPORT. The model's own tests: well-formedness, one word per command, one or two steps per command with the results
of 95_test_vectors.md or of a rule's example, and, for every statement with hypotheses, a state that meets them. -/

namespace Sys2Proof.Tests

set_option Elab.async false

open Sys2Proof Sys2Proof.Machine

/-! ## Well-formed commands -/

theorem test_bit_count_0_is_ill_formed : Instr.wellFormed (.brbits 1 0) = false ∧ Instr.wellFormed (.bwbits 1 0) = false := by
  decide
theorem test_bit_count_33_is_ill_formed :
    Instr.wellFormed (.brbits 1 33) = false ∧ Instr.wellFormed (.bwbits 1 33) = false := by decide
theorem test_bit_counts_1_and_32_are_well_formed :
    Instr.wellFormed (.brbits 1 1) = true ∧ Instr.wellFormed (.bwbits 1 32) = true ∧ Instr.wellFormed .halt = true := by decide

/-! ## Words, field by field (30_encoding.md R101, R105): op, rd, ra, rb, rc, imm14, or op, rd, 0, imm16 -/

theorem test_decode_control :
    decodeWord 0b000000_00000000000000000000000000#32 = .ok .halt ∧
    decodeWord 0b000001_00000000000000000000000000#32 = .ok .nop ∧
    decodeWord 0b000010_001_0000000_0001001000110100#32 = .ok (.li 1 0x1234#16) ∧
    decodeWord 0b000011_001_0000000_1010101111001101#32 = .ok (.lih 1 0xABCD#16) ∧
    decodeWord 0b000100_011_001_010_000_00000000000000#32 = .ok (.add 3 1 2) ∧
    decodeWord 0b000101_010_010_000_000_11111111111111#32 = .ok (.addi 2 2 0x3FFF#14) := by decide

theorem test_decode_bitstream :
    decodeWord 0b001000_000_001_100_000_00000000000000#32 = .ok (.brinit 1 4) ∧
    decodeWord 0b001001_111_000_000_000_00000000000000#32 = .ok (.brbit 7) ∧
    decodeWord 0b001010_010_000_000_000_00000000001000#32 = .ok (.brbits 2 9) ∧
    decodeWord 0b001010_101_000_000_000_00000000011111#32 = .ok (.brbits 5 32) ∧
    decodeWord 0b001011_111_000_000_000_00000000000000#32 = .ok (.brpeek 7) ∧
    decodeWord 0b001100_000_110_000_000_00000000000000#32 = .ok (.bradv 6) ∧
    decodeWord 0b001101_101_000_000_000_00000000000000#32 = .ok (.brend 5) ∧
    decodeWord 0b001110_011_000_000_000_00000000000000#32 = .ok (.brpos 3) ∧
    decodeWord 0b010000_000_001_010_000_00000000000000#32 = .ok (.bwinit 1 2) ∧
    decodeWord 0b010001_000_011_000_000_00000000000010#32 = .ok (.bwbits 3 3) ∧
    decodeWord 0b010010_100_000_000_000_00000000000000#32 = .ok (.bwsize 4) := by decide

theorem test_decode_huffman :
    decodeWord 0b011000_000_001_010_000_00000000000000#32 = .ok (.henc 1 2) ∧
    decodeWord 0b011001_000_001_010_000_00000000000000#32 = .ok (.hdec 1 2 false) ∧
    decodeWord 0b011001_000_001_010_000_00000000000001#32 = .ok (.hdec 1 2 true) ∧
    decodeWord 0b011010_00000000000000000000000000#32 = .ok .htree ∧
    decodeWord 0b011011_001_000_000_000_00000000000001#32 = .ok (.hsym 1 true) ∧
    decodeWord 0b011100_010_011_000_000_00000000000000#32 = .ok (.hlutrd 2 3) := by decide

theorem test_decode_mapping :
    decodeWord 0b100000_000_010_000_000_00000000000001#32 = .ok (.mload 1 2) ∧
    decodeWord 0b100001_000_010_000_000_00000000000000#32 = .ok (.mstore 0 2) ∧
    decodeWord 0b100010_110_000_000_000_00000000000000#32 = .ok (.msize 6) ∧
    decodeWord 0b100011_000_001_000_000_00000000000001#32 = .ok (.mqinit 1 1) ∧
    decodeWord 0b100100_111_110_000_000_00000000000001#32 = .ok (.mmap 7 6 1) ∧
    decodeWord 0b100101_000_111_000_000_00000000000001#32 = .ok (.munmap 0 7 1) ∧
    decodeWord 0b100110_000_100_001_011_00000000000001#32 = .ok (.mmapv 1 4 1 3) ∧
    decodeWord 0b100111_000_101_100_011_00000000000001#32 = .ok (.munmapv 1 5 4 3) := by decide

theorem test_decode_quant :
    decodeWord 0b101000_000_010_000_000_00000000000011#32 = .ok (.setq 3 2) ∧
    decodeWord 0b101001_001_010_000_000_00000000000010#32 = .ok (.quant 1 2 2) ∧
    decodeWord 0b101010_001_010_000_000_00000000000001#32 = .ok (.dequant 1 2 1) ∧
    decodeWord 0b101011_000_001_010_011_00000000000000#32 = .ok (.quantv 0 1 2 3) ∧
    decodeWord 0b101100_000_101_101_011_00000000000000#32 = .ok (.dequantv 0 5 5 3) := by decide

theorem test_decode_plane :
    decodeWord 0b110000_000_001_010_000_00000000000000#32 = .ok (.setdim 1 2) ∧
    decodeWord 0b110001_000_100_011_000_00000000000000#32 = .ok (.dsamp 4 3) ∧
    decodeWord 0b110010_000_101_100_000_00000000000000#32 = .ok (.usamp 5 4) ∧
    decodeWord 0b110011_000_110_011_101_00000000000000#32 = .ok (.resid 6 3 5) ∧
    decodeWord 0b110100_000_111_101_110_00000000000000#32 = .ok (.recon 7 5 6) := by decide

/-- The words of programs P1 to P4 (95_test_vectors.md) that the encoder must give. -/
theorem test_encode_program_words :
    encode (.li 1 0x1234#16) = 0x08801234#32 ∧ encode (.bwbits 3 9) = 0x44300008#32 ∧
    encode (.hdec 1 2 false) = 0x64140000#32 ∧ encode (.hsym 1 true) = 0x6C800001#32 ∧
    encode (.mmapv 1 4 1 3) = 0x9842C001#32 ∧ encode (.dequantv 0 5 5 3) = 0xB05AC000#32 ∧
    encode (.recon 7 5 6) = 0xD07B8000#32 := by decide

theorem test_every_reserved_opcode_is_rejected :
    [0x06, 0x07, 0x0F, 0x13, 0x14, 0x15, 0x16, 0x17, 0x1D, 0x1E, 0x1F, 0x2D, 0x2E, 0x2F, 0x35, 0x36, 0x37, 0x38, 0x39,
      0x3A, 0x3B, 0x3C, 0x3D, 0x3E, 0x3F].all
      (fun op => decodeWord (BitVec.ofNat 32 (op * 2 ^ 26)) == .error .reservedOpcode) = true := by decide

theorem test_table_word_decodes : decodeTableWord 32 0x29000008 = some (.brbits 2 9) ∧
    decodeTableWord 32 0x04000001 = none := by decide

/-! ## States for the tests -/

/-- The outcome's next state; meant for outcomes that are one. -/
def next (r : Result) : State :=
  match r with
  | .next t => t
  | .fault _ | .refused _ => State.reset

def isNext (r : Result) : Bool :=
  match r with
  | .next _ => true
  | .fault _ | .refused _ => false

theorem eq_next (r : Result) (h : isNext r = true) : r = .next (next r) := by
  cases r <;> first | rfl | cases h

/-- The machine after reset with its engine started. -/
def s0 : State := { State.reset with engine := .busy }

/-- A cursor window on the given bytes, at a position. -/
def win (bs : List Byte) (pos : Nat) : State :=
  { s0.storeBytes 0x100 bs with
    bcBase := 0x100#32, bcLen := BitVec.ofNat 32 bs.length, bcPos := BitVec.ofNat 32 pos }

/-- A writer region at 0x200. -/
def wri (cap pos : Nat) : State :=
  { s0.storeBytes 0x200 [0xAA#8, 0xAA#8, 0xAA#8, 0xAA#8] with
    bwBase := 0x200#32, bwCap := BitVec.ofNat 32 cap, bwPos := BitVec.ofNat 32 pos }

/-- The block of V-HUF-1 at 0x300, R1 and R2 naming it, and a writer region at 0x400. -/
def blk (cap : Nat) : State :=
  { ((s0.storeBytes 0x300 [5#8, 0#8, 0#8, 0#8, 7#8, 5#8]).setReg 1 0x300#32).setReg 2 6#32 with
    bwBase := 0x400#32, bwCap := BitVec.ofNat 32 cap }

/-- The stream of V-HUF-1 in a window, R1 and R2 naming an output of m bytes at 0x500. -/
def stream (bs : List Byte) (m : Nat) : State := ((win bs 0).setReg 1 0x500#32).setReg 2 (BitVec.ofNat 32 m)

/-- The q = 50 reference table in MT[1]. -/
def mapped : State := s0.setTable 1 (referenceCurve 50)

/-- A plane of w by h samples at scale 2^k with the kernel u, its planes at R1, R2 and R3. -/
def plane (w h k u : Nat) (ra rb rc : Nat) : State :=
  { ((s0.setReg 1 (BitVec.ofNat 32 ra)).setReg 2 (BitVec.ofNat 32 rb)).setReg 3 (BitVec.ofNat 32 rc) with
    dim := BitVec.ofNat 32 (h * 65536 + w), pcfg := BitVec.ofNat 32 (k + 256 * u) }

/-! ## Control (95_test_vectors.md V-CTL) -/

theorem test_halt : (next (exec .halt s0)).engine = .done ∧ (next (exec .halt s0)).cp = 4#32 := by decide +kernel
theorem test_nop : (next (exec .nop s0)).cp = 4#32 ∧ (next (exec .nop s0)).cmdcnt = 1#32 := by decide +kernel
theorem test_li : (next (exec (.li 1 0x1234#16) s0)).reg 1 = 0x1234#32 := by decide +kernel
theorem test_lih : (next (exec (.lih 1 0xABCD#16) (s0.setReg 1 0x1234#32))).reg 1 = 0xABCD1234#32 := by decide +kernel
theorem test_add_wraps :
    (next (exec (.add 3 1 2) ((s0.setReg 1 0xFFFFFFFF#32).setReg 2 2#32))).reg 3 = 1#32 := by decide +kernel
theorem test_addi_minus_one : (next (exec (.addi 2 2 0x3FFF#14) (s0.setReg 2 0x100#32))).reg 2 = 0xFF#32 := by
  decide +kernel

/-! ## Bitstream (V-BIT) -/

theorem test_brinit_empty_window_at_any_base :
    (next (exec (.brinit 1 2) ((s0.setReg 1 0xFFFFFFFF#32).setReg 2 0#32))).bcBase = 0xFFFFFFFF#32 := by decide +kernel
theorem test_brinit_range : (next (exec (.brinit 1 2) ((s0.setReg 1 0xFFFFF#32).setReg 2 2#32))).err = 0x30C#32 ∧
    (next (exec (.brinit 1 2) ((s0.setReg 1 0xFFFFF#32).setReg 2 2#32))).errinfo = 0xFFFFF#32 := by decide +kernel
theorem test_brbit : (next (exec (.brbit 1) (win [0xB4#8] 2))).reg 1 = 1#32 ∧
    (next (exec (.brbit 1) (win [0xB4#8] 2))).bcPos = 3#32 := by decide +kernel
theorem test_brbits_cross_bytes : (next (exec (.brbits 1 9) (win [0xB4#8, 0x01#8] 3))).reg 1 = 54#32 ∧
    (next (exec (.brbits 1 9) (win [0xB4#8, 0x01#8] 3))).bcPos = 12#32 := by decide +kernel
theorem test_brbits_32 :
    (next (exec (.brbits 1 32) (win [0x78#8, 0x56#8, 0x34#8, 0x12#8] 0))).reg 1 = 0x12345678#32 := by decide +kernel
theorem test_brpeek_pads : (next (exec (.brpeek 1) (win [0xB4#8] 5))).reg 1 = 5#32 := by decide +kernel
theorem test_bradv_to_the_end :
    (next (exec (.bradv 1) ((win [0#8, 0#8] 3).setReg 1 13#32))).bcPos = 16#32 := by decide +kernel
theorem test_bradv_past_the_end :
    (next (exec (.bradv 1) ((win [0#8, 0#8] 3).setReg 1 14#32))).errinfo = 3#32 := by decide +kernel
theorem test_brend : (next (exec (.brend 1) (win [0#8, 0#8] 9))).reg 1 = 1#32 ∧
    (next (exec (.brend 1) (win [0#8, 0#8] 8))).reg 1 = 0#32 := by decide +kernel
theorem test_brpos : (next (exec (.brpos 1) (win [0xB4#8] 3))).reg 1 = 3#32 := by decide +kernel
theorem test_bwinit : (next (exec (.bwinit 1 2) ((s0.setReg 1 0x200#32).setReg 2 16#32))).bwCap = 16#32 := by
  decide +kernel
theorem test_bwbits_zero_fills_a_new_byte :
    (next (exec (.bwbits 1 9) ((wri 16 3).setReg 1 0x1FF#32))).readBytes 0x201 2 = [0x0F#8, 0xAA#8] := by decide +kernel
theorem test_bwbits_overflow : (next (exec (.bwbits 1 3) ((wri 1 6).setReg 1 7#32))).err = 0x308#32 ∧
    (next (exec (.bwbits 1 3) ((wri 1 6).setReg 1 7#32))).readByte 0x200 = 0xAA#8 := by decide +kernel
theorem test_bwsize : (next (exec (.bwsize 1) (wri 16 9))).reg 1 = 2#32 := by decide +kernel

/-! ## Huffman (V-HUF, V-SRC) -/

theorem test_henc_bytes :
    (next (exec (.henc 1 2) (blk 64))).readBytes 0x400 5 = [0x16#8, 0xF0#8, 0xC0#8, 0x80#8, 0x26#8] ∧
    (next (exec (.henc 1 2) (blk 64))).bwPos = 40#32 := by decide +kernel
theorem test_henc_overflow : (next (exec (.henc 1 2) (blk 4))).err = 0x308#32 ∧
    (next (exec (.henc 1 2) (blk 4))).errinfo = 32#32 := by decide +kernel
theorem test_hdec_bytes :
    (next (exec (.hdec 1 2 false) (stream [0x16#8, 0xF0#8, 0xC0#8, 0x80#8, 0x26#8] 6))).readBytes 0x500 6
      = [5#8, 0#8, 0#8, 0#8, 7#8, 5#8] := by decide +kernel
theorem test_hdec_trailing :
    (next (exec (.hdec 1 2 true) (stream [0x16#8, 0xF0#8, 0xC0#8, 0x80#8, 0x26#8, 0#8] 6))).err = 0x205#32 := by
  decide +kernel
theorem test_htree : (next (exec .htree (win [0x26#8, 0x08#8, 0#8] 0))).node[0] = .branch 1 2 ∧
    (next (exec .htree (win [0x26#8, 0x08#8, 0#8] 0))).bcPos = 21#32 := by decide +kernel
theorem test_hsym_lut_and_walk :
    (next (exec (.hsym 3 false) (next (exec .htree (win [0x26#8, 0x08#8, 0#8] 0))))).reg 3 = 9#32 ∧
    (next (exec (.hsym 3 true) (next (exec .htree (win [0x26#8, 0x08#8, 0#8] 0))))).reg 3 = 9#32 := by decide +kernel
theorem test_hlutrd :
    (next (exec (.hlutrd 2 1) ((next (exec .htree (win [0x26#8, 0x08#8, 0#8] 0))).setReg 1 0x102#32))).reg 2
      = 0x80010009#32 := by decide +kernel

/-! ## Mapping tables (V-MAP) -/

/-- A serialized table at 0x600, named by R1. -/
def tableAt (T : Nat → Nat) : State :=
  (s0.storeBytes 0x600 (halvesBytes ((List.range 128).map (fun i => BitVec.ofNat 16 (T i))))).setReg 1 0x600#32

theorem test_mload_equal_entries : (next (exec (.mload 1 1) (tableAt (fun _ => 7)))).tvalid[1] = true := by decide +kernel
theorem test_mload_not_monotonic :
    (next (exec (.mload 1 1) (tableAt (fun i => if i = 5 then 3 else i)))).errinfo = 4#32 := by decide +kernel
theorem test_mstore_little_endian :
    (next (exec (.mstore 1 1) (mapped.setReg 1 0x600#32))).readBytes 0x6FE 2 = [0x77#8, 0x02#8] := by decide +kernel
theorem test_msize : (next (exec (.msize 1) s0)).reg 1 = 0x100#32 := by decide +kernel
theorem test_mqinit_q50 : (next (exec (.mqinit 1 1) (s0.setReg 1 50#32))).mt[1][127] = 631#16 := by decide +kernel
theorem test_mqinit_clamps : (next (exec (.mqinit 0 1) (s0.setReg 1 250#32))).mt[0][127] = 127#16 := by decide +kernel
theorem test_mmap_tie_and_sign : (next (exec (.mmap 2 1 1) (mapped.setReg 1 0xFFF9#32))).reg 2 = 0xFA#32 := by
  decide +kernel
theorem test_munmap_0x80 : (next (exec (.munmap 2 1 1) (mapped.setReg 1 0x80#32))).reg 2 = 0xFFFFFD89#32 := by
  decide +kernel
theorem test_mmapv :
    (next (exec (.mmapv 1 1 2 3) ((((mapped.storeBytes 0x600 [0x64#8, 0#8, 0xF9#8, 0xFF#8, 0#8, 0#8]).setReg 1
      0x700#32).setReg 2 0x600#32).setReg 3 3#32))).readBytes 0x700 3 = [0x2B#8, 0xFA#8, 0x00#8] := by decide +kernel
theorem test_munmapv :
    (next (exec (.munmapv 1 1 2 3) ((((mapped.storeBytes 0x600 [0x2B#8, 0xFA#8, 0#8]).setReg 1
      0x700#32).setReg 2 0x600#32).setReg 3 3#32))).readBytes 0x700 6
      = [0x64#8, 0#8, 0xF9#8, 0xFF#8, 0#8, 0#8] := by decide +kernel

/-! ## Quantizer (V-Q) -/

/-- QSTEP[0] = s, R1 = v. -/
def stepped (s : Nat) (v : Word) : State := { s0.setReg 1 v with qstep := s0.qstep.set 0 (BitVec.ofNat 16 s) }

theorem test_setq : (next (exec (.setq 2 1) (s0.setReg 1 65535#32))).qstep[2] = 65535#16 := by decide +kernel
theorem test_setq_too_large : (next (exec (.setq 2 1) (s0.setReg 1 65536#32))).err = 0x307#32 ∧
    (next (exec (.setq 2 1) (s0.setReg 1 65536#32))).errinfo = 65536#32 := by decide +kernel
theorem test_quant_half_away : (next (exec (.quant 2 1 0) (stepped 4 0xFFF6#32))).reg 2 = 0xFFFFFFFD#32 := by
  decide +kernel
theorem test_quant_clamp : (next (exec (.quant 2 1 0) (stepped 2 0x7FFF#32))).reg 2 = 16383#32 := by decide +kernel
theorem test_dequant_saturates : (next (exec (.dequant 2 1 0) (stepped 2 0xB1E0#32))).reg 2 = 0xFFFF8000#32 := by
  decide +kernel
theorem test_quantv :
    (next (exec (.quantv 0 2 2 3) ((((stepped 4 0#32).storeBytes 0x600
      [0x0A#8, 0#8, 0xF6#8, 0xFF#8, 1#8, 0#8, 2#8, 0#8]).setReg 2 0x600#32).setReg 3 4#32))).readBytes 0x600 8
      = [3#8, 0#8, 0xFD#8, 0xFF#8, 0#8, 0#8, 1#8, 0#8] := by decide +kernel
theorem test_dequantv :
    (next (exec (.dequantv 0 4 2 3) (((((stepped 4 0#32).storeBytes 0x600
      [3#8, 0#8, 0xFD#8, 0xFF#8]).setReg 2 0x600#32).setReg 3 2#32).setReg 4 0x700#32))).readBytes 0x700 4
      = [12#8, 0#8, 0xF4#8, 0xFF#8] := by decide +kernel

/-! ## Plane (V-PL) -/

theorem test_setdim_nearest :
    (next (exec (.setdim 1 2) ((s0.setReg 1 0x00040004#32).setReg 2 0x101#32))).pcfg = 0x101#32 := by decide +kernel
theorem test_setdim_k5 : (next (exec (.setdim 1 2) ((s0.setReg 1 0x00010001#32).setReg 2 5#32))).err = 0x30B#32 ∧
    (next (exec (.setdim 1 2) ((s0.setReg 1 0x00010001#32).setReg 2 5#32))).errinfo = 0x10001#32 := by decide +kernel
theorem test_dsamp_clipped_blocks :
    (next (exec (.dsamp 1 2) ((plane 3 3 1 0 0x700 0x600 0).storeBytes 0x600
      [1#8, 2#8, 3#8, 4#8, 5#8, 6#8, 7#8, 8#8, 9#8]))).readBytes 0x700 8
      = [3#8, 0#8, 5#8, 0#8, 8#8, 0#8, 9#8, 0#8] := by decide +kernel
theorem test_usamp_bilinear :
    (next (exec (.usamp 1 2) ((plane 5 1 2 0 0x700 0x600 0).storeBytes 0x600
      [0xFD#8, 0xFF#8, 3#8, 0#8]))).readBytes 0x700 10
      = [0xFD#8, 0xFF#8, 0xFD#8, 0xFF#8, 0xFE#8, 0xFF#8, 0xFF#8, 0xFF#8, 1#8, 0#8] := by decide +kernel
theorem test_usamp_nearest :
    (next (exec (.usamp 1 2) ((plane 4 1 1 1 0x700 0x600 0).storeBytes 0x600
      [0#8, 0#8, 0xCE#8, 0xFF#8]))).readBytes 0x700 8
      = [0#8, 0#8, 0#8, 0#8, 0xCE#8, 0xFF#8, 0xCE#8, 0xFF#8] := by decide +kernel
theorem test_resid :
    (next (exec (.resid 1 2 3) (((plane 2 1 1 0 0x800 0x600 0x700).storeBytes 0x600 [0#8, 255#8]).storeBytes 0x700
      [128#8, 0#8, 128#8, 0#8]))).readBytes 0x800 4 = [0x80#8, 0xFF#8, 0x7F#8, 0#8] := by decide +kernel
theorem test_recon_clamps :
    (next (exec (.recon 1 2 3) (((plane 3 1 1 0 0x800 0x600 0x700).storeBytes 0x600
      [128#8, 0#8, 128#8, 0#8, 128#8, 0#8]).storeBytes 0x700
      [0x80#8, 0xFF#8, 0x7F#8, 0#8, 0xC8#8, 0#8]))).readBytes 0x800 3 = [0#8, 255#8, 255#8] := by decide +kernel

/-! ## The step, the host, and the interface -/

theorem test_step_runs_the_fetched_word :
    (next (step (State.reset.withFetchWord 32 0x08801234))).reg 1 = 0x1234#32 ∧
    (next (step (State.reset.withFetchWord 32 0x08801234))).cp = 4#32 := by decide +kernel
theorem test_step_illegal_word : (next (step (State.reset.withFetchWord 32 0x18000000))).err = 0x30D#32 ∧
    (next (step (State.reset.withFetchWord 32 0x18000000))).errinfo = 0x18000000#32 := by decide +kernel
theorem test_fetch_fault : (next (step { s0 with cp := 0x100000#32 })).errinfo = 0x100000#32 := by decide +kernel
theorem test_clear_and_go :
    (next (step { State.reset with engine := .failed, inputs := [.host (.regWrite 1 0x103#32)] })).engine = .busy ∧
    (next (step { State.reset with engine := .failed, inputs := [.host (.regWrite 1 0x103#32)] })).ie = true := by
  decide +kernel
theorem test_status_shows_irq :
    (next (step { State.reset with engine := .done, ie := true, inputs := [.host (.regRead 2)] })).hostData = 6#32 := by
  decide +kernel
theorem test_soft_reset_restores_steps :
    (next (step { stepped 4 9#32 with engine := .done, inputs := [.host (.regWrite 1 0x107#32)] })).qstep[0] = 1#16 ∧
    (next (step { stepped 4 9#32 with engine := .done, inputs := [.host (.regWrite 1 0x107#32)] })).reg 1 = 9#32 ∧
    (next (step { stepped 4 9#32 with engine := .done, inputs := [.host (.regWrite 1 0x107#32)] })).ie = false := by decide +kernel
theorem test_read_id : (next (step { State.reset with inputs := [.host (.regRead 0)] })).hostData = 0x484D4731#32 := by
  decide +kernel

/-! ## For every statement with hypotheses, states and operands that meet them, clause by clause -/

theorem witness_DecodeOfEncodeIsTheCommand :
    Instr.wellFormed (.brbits 7 32) = true ∧ Instr.wellFormed (.bwbits 0 1) = true := by decide

theorem witness_EncodeOfDecodeIsTheWord : decodeWord 0x2880001F#32 = .ok (.brbits 1 32) := by decide

theorem witness_DecodeFollowsTheOpcodeMap : decodeWord 0xD07B8000#32 = .ok (.recon 7 5 6) ∧
    (⟨"RECON", 0xFF803FFF#32, 0xD0000000#32⟩ : OpcodeRow) ∈ opcodeTable ∧
    0xD07B8000#32 &&& 0xFF803FFF#32 = 0xD0000000#32 := by decide

/-- A NOP in the last word of memory. -/
def nopAtTheEnd (inputs : List Turn) : State :=
  { s0.storeBytes 0xFFFFC [0#8, 0#8, 0#8, 0x04#8] with cp := 0xFFFFC#32, inputs := inputs }

theorem witness_StepRunsTheDecodedCommand :
    Instr.wellFormed .nop = true ∧
    ∀ inputs ∈ [[], [.engine], [.host .resetInput]],
      (nopAtTheEnd inputs).engine = .busy ∧ (nopAtTheEnd inputs).inputs = inputs ∧
      (nopAtTheEnd inputs).cp.toNat + 4 ≤ (nopAtTheEnd inputs).cfg.memBytes ∧
      (nopAtTheEnd inputs).loose = [] ∧
      (decodeBytes ((nopAtTheEnd inputs).readBytes (nopAtTheEnd inputs).cp.toNat 4)).toOption = some (.nop, []) := by
  decide +kernel

theorem witness_FetchFaultsAreTaken :
    (s0.inputs = [] ∧ s0.engine = .busy ∧ State.reset.cfg.memBytes < (0x100000#32).toNat + 4) ∧
    ({ s0 with cp := 0x100000#32 } : State).cfg.memBytes < ({ s0 with cp := 0x100000#32 } : State).cp.toNat + 4 ∧
    ((nopAtTheEnd []).storeBytes 0xFFFFC [1#8]).cp.toNat + 4 ≤
      ((nopAtTheEnd []).storeBytes 0xFFFFC [1#8]).cfg.memBytes ∧
    (0x04000001#32).toNat = (((nopAtTheEnd []).storeBytes 0xFFFFC [1#8]).readByte 0xFFFFC).toNat
      + 256 * (((nopAtTheEnd []).storeBytes 0xFFFFC [1#8]).readByte 0xFFFFD).toNat
      + 65536 * (((nopAtTheEnd []).storeBytes 0xFFFFC [1#8]).readByte 0xFFFFE).toNat
      + 16777216 * (((nopAtTheEnd []).storeBytes 0xFFFFC [1#8]).readByte 0xFFFFF).toNat ∧
    ((nopAtTheEnd []).storeBytes 0xFFFFC [1#8]).loose = [] ∧
    decodeWord 0x04000001#32 = .error .mustBeZero := by decide +kernel

theorem witness_StoppedEngineKeepsItsState :
    (State.reset.inputs = [] ∧ State.reset.engine ≠ .busy) ∧
    ({ s0 with engine := .done } : State).engine ≠ .busy ∧ ({ s0 with engine := .failed } : State).engine ≠ .busy := by
  decide

theorem witness_BrinitAndBwinitCheckTheRange :
    FitsMemory ((s0.setReg 1 0xFFFFFFFF#32).setReg 2 0#32) 0xFFFFFFFF 0 ∧
    FitsMemory ((s0.setReg 1 0xFFFFE#32).setReg 2 2#32) (((s0.setReg 1 0xFFFFE#32).setReg 2 2#32).regNat 1)
      (((s0.setReg 1 0xFFFFE#32).setReg 2 2#32).regNat 2) ∧
    ¬ FitsMemory ((s0.setReg 1 0xFFFFF#32).setReg 2 2#32) (((s0.setReg 1 0xFFFFF#32).setReg 2 2#32).regNat 1)
      (((s0.setReg 1 0xFFFFF#32).setReg 2 2#32).regNat 2) := by decide +kernel

theorem witness_BitReadsTakeTheNextBits :
    ((win [0xB4#8] 7).bcPos.toNat + 1 ≤ 8 * (win [0xB4#8] 7).bcLen.toNat) ∧
    (8 * (win [0xB4#8] 8).bcLen.toNat < (win [0xB4#8] 8).bcPos.toNat + 1) ∧
    ((win [1#8, 2#8, 3#8, 4#8] 0).bcPos.toNat + 32 ≤ 8 * (win [1#8, 2#8, 3#8, 4#8] 0).bcLen.toNat) ∧
    (8 * (win [1#8, 2#8, 3#8, 4#8] 1).bcLen.toNat < (win [1#8, 2#8, 3#8, 4#8] 1).bcPos.toNat + 32) := by decide +kernel

theorem witness_BradvMovesOrTruncates :
    (((win [0#8, 0#8] 3).setReg 1 13#32).bcPos.toNat + ((win [0#8, 0#8] 3).setReg 1 13#32).regNat 1
      ≤ 8 * ((win [0#8, 0#8] 3).setReg 1 13#32).bcLen.toNat) ∧
    (8 * ((win [0#8, 0#8] 3).setReg 1 14#32).bcLen.toNat
      < ((win [0#8, 0#8] 3).setReg 1 14#32).bcPos.toNat + ((win [0#8, 0#8] 3).setReg 1 14#32).regNat 1) := by
  decide +kernel

theorem witness_BwbitsAppendsBits :
    (wri 1 5).bwCap.toNat ≤ 536870912 ∧ (wri 1 5).bwPos.toNat + 3 ≤ 8 * (wri 1 5).bwCap.toNat ∧
    8 * (wri 1 6).bwCap.toNat < (wri 1 6).bwPos.toNat + 3 ∧
    (6 < (wri 1 5).bwPos.toNat + 3 ∧ (wri 16 5).bwPos.toNat + 6 ≤ 12 ∧
      12 / 8 = ((wri 16 5).bwPos.toNat + 6 - 1) / 8) := by decide +kernel

/-- The three fields of V-BIT-15, written at 0x200. -/
def fieldsWritten : State := (wri 16 0).wrAll (bitsOfNat 3 5 ++ (bitsOfNat 9 0x1FF ++ bitsOfNat 1 1))

theorem witness_BitFieldsRoundTrip :
    (∀ f ∈ [(5, 3), (0x1FF, 9), (1, 1)], 1 ≤ f.2 ∧ f.2 ≤ 32) ∧ (wri 16 0).bwPos = 0#32 ∧
    ([(5, 3), (0x1FF, 9), (1, 1)].map (fun f : Nat × Nat => f.2)).sum < 2 ^ 32 ∧
    (wri 16 0).wrChunks ([(5, 3), (0x1FF, 9), (1, 1)].map (fun f => bitsOfNat f.2 f.1)) = .ok fieldsWritten ∧
    (∀ a, ({ fieldsWritten with bcBase := fieldsWritten.bwBase, bcLen := 2#32 } : State).readByte a
      = fieldsWritten.readByte a) ∧
    (2#32).toNat = fieldsWritten.sizeBytes :=
  ⟨by decide, by decide +kernel, by decide,
    (wrChunksAt_of_fits _ (wri 16 0) _ (by decide +kernel)).trans (by
      rw [fieldsWritten]; exact congrArg (fun b => Except.ok ((wri 16 0).wrAll b)) (by decide)),
    fun _ => readByte_congr (by simp only) (by simp only) _, by decide +kernel⟩

theorem witness_TokenizeSplitsRuns : (1#8 ≠ 0#8) ∧ 2 ≤ 16662 ∧ 16662 ≤ 16662 ∧ 16662 < 16663 ∧
    runTokens 16663 = [⟨260#9, 16383, 14⟩, ⟨0#9, 0, 0⟩] := by decide

theorem witness_TokensExpandToTheBlock :
    (⟨1#9, 0, 0⟩ : Token) ∈ tokenize [1#8, 0#8, 0#8] ∧ (⟨256#9, 0, 0⟩ : Token) ∈ tokenize [1#8, 0#8, 0#8] := by decide

/-- The symbols a block uses. -/
def usedBy (block : List Byte) : List Nat :=
  (List.range 261).filter (fun k => 0 < ((tokenize block).filter (fun tok => tok.sym.toNat = k)).length)

theorem witness_EncoderTreeCodesEverySymbol :
    (⟨5#9, 0, 0⟩ : Token) ∈ tokenize [5#8, 5#8] ∧ usedBy [] = [] ∧ usedBy [0#8] = [0] ∧ usedBy [0#8, 0#8] = [256] ∧
    2 ≤ (usedBy [5#8, 0#8]).length := by decide +kernel

theorem witness_HencAppendsTheEncoding :
    (blk 64).bwCap.toNat ≤ 536870912 ∧
    ¬ FitsMemory ((blk 64).setReg 1 0xFFFFB#32) (((blk 64).setReg 1 0xFFFFB#32).regNat 1)
      (((blk 64).setReg 1 0xFFFFB#32).regNat 2) ∧
    FitsMemory (blk 5) ((blk 5).regNat 1) ((blk 5).regNat 2) ∧
    (blk 5).bwPos.toNat + ((blk 5).hencChunks 1 2).flatten.length ≤ 8 * (blk 5).bwCap.toNat ∧
    DisjointRanges ((blk 5).regNat 1) ((blk 5).regNat 2) (blk 5).bwBase.toNat (blk 5).bwCap.toNat ∧
    8 * (blk 4).bwCap.toNat < (blk 4).bwPos.toNat + ((blk 4).hencChunks 1 2).flatten.length ∧
    (blk 4).bwPos.toNat ≤ 8 * (blk 4).bwCap.toNat := by decide +kernel

theorem treeGoesOn_branches (n : Nat) : TreeGoesOn (List.replicate n none) := by
  intro k _
  simp [List.take_replicate, List.countP_replicate]

/-- 521 branches in a row, no node at all, and a leaf whose symbol is cut off. -/
theorem witness_HtreeReadsASerializedTree_faults :
    TreeGoesOn (List.replicate 521 none) ∧ TreeGoesOn [] ∧
    (0 + (nodeBits (List.replicate 521 none)).length = 521 ∧ (win (List.replicate 66 0#8) 0).bcPos.toNat = 0 ∧
      521 ≤ 8 * (win (List.replicate 66 0#8) 0).bcLen.toNat ∧
      (win (List.replicate 66 0#8) 0).sbits 0 521 = nodeBits (List.replicate 521 none)) ∧
    ((win [] 0).bcPos.toNat + (nodeBits []).length = 8 * (win [] 0).bcLen.toNat) ∧
    (8 * (win [1#8] 0).bcLen.toNat < 0 + 10 ∧ (win [1#8] 0).sbits 0 1 = [true]) ∧
    FitsMemory (stream [1#8] 6) ((stream [1#8] 6).regNat 1) ((stream [1#8] 6).regNat 2) := by
  refine ⟨treeGoesOn_branches _, treeGoesOn_branches 0, ?_⟩
  and_intros <;> decide +kernel

/-- The tree of V-HUF-5. -/
def treeNineZero : HuffTree := .branch (.leaf 9#9) (.leaf 0#9)

theorem witness_HtreeReadsASerializedTree :
    treeNineZero.leaves ≤ 261 ∧
    (win [0x26#8, 0x08#8, 0#8] 0).bcPos.toNat + (serChunks treeNineZero).flatten.length
      ≤ 8 * (win [0x26#8, 0x08#8, 0#8] 0).bcLen.toNat ∧
    (win [0x26#8, 0x08#8, 0#8] 0).sbits 0 (serChunks treeNineZero).flatten.length = (serChunks treeNineZero).flatten := by
  decide +kernel

/-- The arena of V-HUF-5. -/
@[irreducible] def arenaNineZero : Vector TreeNode 521 :=
  ((Vector.replicate 521 (.leaf 0#9)).set 0 (.branch 1 2)).set 1 (.leaf 9#9)

/-- The LUT entries of V-HUF-5. -/
def evenNine (key : Fin 256) : LutEntry := .terminal (if key.val % 2 = 0 then 9#9 else 0#9) 1

/-- The LUT of V-HUF-5. -/
@[irreducible] def lutNineZero : Vector LutEntry 256 := Vector.ofFn evenNine

theorem lutNineZero_ok : LutOk arenaNineZero lutNineZero := by
  have hd : ∀ key : Fin 256,
      descend arenaNineZero 0 (bitsOfNat 1 key.val) = some (if key.val % 2 = 0 then 1 else 2) ∧
        arenaNineZero[if key.val % 2 = 0 then (1 : NodeIx) else 2] = .leaf (if key.val % 2 = 0 then 9#9 else 0#9) := by
    decide +kernel
  intro key
  have e : lutNineZero[key] = evenNine key := by unfold lutNineZero; exact Vector.getElem_ofFn _
  rw [e]
  exact ⟨_, hd key⟩

/-- V-HUF-5 after HTREE, at a position. -/
def nineZero (pos : Nat) : State :=
  { win [0x26#8, 0x08#8, 0#8] pos with node := arenaNineZero, nnodes := 3, lut := lutNineZero, treeValid := true }

theorem nineZero_ok (pos : Nat) : LutOk (nineZero pos).node (nineZero pos).lut := by
  simpa only [nineZero] using lutNineZero_ok

theorem witness_HsymDecodesACode :
    (nineZero 23).treeValid = true ∧ LutOk (nineZero 23).node (nineZero 23).lut ∧
    (nineZero 23).bcPos.toNat + [false].length ≤ 8 * (nineZero 23).bcLen.toNat ∧
    (nineZero 23).sbits (nineZero 23).bcPos.toNat [false].length = [false] ∧
    descend (nineZero 23).node 0 [false] = some 1 ∧ (nineZero 23).node[1] = .leaf 9#9 :=
  by refine ⟨?_, nineZero_ok 23, ?_⟩ <;> (try and_intros) <;> decide +kernel

theorem witness_HsymDecodesACode_truncated :
    (nineZero 24).sbits (nineZero 24).bcPos.toNat ([] : Bits).length = [] ∧ descend (nineZero 24).node 0 [] = some 0 ∧
    (nineZero 24).node[0] = .branch 1 2 ∧ (nineZero 24).bcPos.toNat + ([] : Bits).length = 8 * (nineZero 24).bcLen.toNat := by
  decide +kernel

theorem witness_HlutrdReadsAnEntry :
    (255 = (((nineZero 21).setReg 1 0x1FF#32).reg 1).toNat % 256) ∧ ((nineZero 21).setReg 1 0x1FF#32).treeValid = true ∧
    ((nineZero 21).setReg 1 0x1FF#32).lut[255] = .terminal 0#9 1 ∧
    ({ nineZero 21 with lut := lutNineZero.set 255 (.nonTerminal 16) } : State).lut[255] = .nonTerminal 16 ∧
    s0.treeValid = false := by decide +kernel

theorem witness_LutAndWalkAgree :
    (nineZero 23).treeValid = true ∧ LutOk (nineZero 23).node (nineZero 23).lut ∧
    (nineZero 23).bcPos.toNat ≤ 8 * (nineZero 23).bcLen.toNat ∧ LutOk (nineZero 24).node (nineZero 24).lut ∧
    (nineZero 24).bcPos.toNat ≤ 8 * (nineZero 24).bcLen.toNat :=
  ⟨by decide +kernel, nineZero_ok 23, by decide +kernel, nineZero_ok 24, by decide +kernel⟩

/-- The tree of V-HUF-1. -/
def treeFive : HuffTree := .branch (.leaf 5#9) (.branch (.leaf 7#9) (.leaf 257#9))

/-- Bytes of a bit string, the first bit lowest. -/
def bytesOf (bits : Bits) : List Byte :=
  (List.range ((bits.length + 7) / 8)).map (fun k => BitVec.ofNat 8 (natOfBits ((bits.drop (8 * k)).take 8)))

/-- A window on a serialized tree, coded tokens and more bits, R1 and R2 naming an output of m bytes at 0x500. -/
def coded (T : HuffTree) (cts : List (Bits × Token)) (more : Bits) (m : Nat) : State :=
  stream (bytesOf ((serChunks T).flatten ++ codedBits cts ++ more)) m

/-- What the statement asks of such a state: the stream, its end p, and the room left. -/
abbrev CodedStream (T : HuffTree) (cts : List (Bits × Token)) (s : State) (p room : Nat) : Prop :=
  FitsMemory s (s.regNat 1) (s.regNat 2) ∧ T.leaves ≤ 261 ∧
    p = s.bcPos.toNat + ((serChunks T).flatten ++ codedBits cts).length ∧ p ≤ 8 * s.bcLen.toNat ∧
    s.sbits s.bcPos.toNat ((serChunks T).flatten ++ codedBits cts).length = (serChunks T).flatten ++ codedBits cts ∧
    s.regNat 2 = (codedBytes cts).length + room

/-- The tokens of V-HUF-1 in the codes of its tree. -/
def ctsFive : List (Bits × Token) :=
  [([false], ⟨5#9, 0, 0⟩), ([true, true], ⟨257#9, 0, 2⟩), ([true, false], ⟨7#9, 0, 0⟩), ([false], ⟨5#9, 0, 0⟩)]

/-- Two literal zeros in a row, which Tokenize never gives. -/
def ctsZeros : List (Bits × Token) := [([true], ⟨0#9, 0, 0⟩), ([true], ⟨0#9, 0, 0⟩)]

/-- Six literals 5, so that a run's code ends a byte. -/
def ctsSix : List (Bits × Token) := List.replicate 6 ([false], ⟨5#9, 0, 0⟩)

theorem coded_examples : Coded treeFive ctsFive ∧ Coded treeNineZero ctsZeros ∧ Coded treeFive ctsSix := by
  unfold Coded TokenOk
  decide +kernel

/-- The premises of the block, and of an output out of memory. -/
theorem witness_HdecDecodesAnEncodedBlock :
    CodedStream treeFive ctsFive (coded treeFive ctsFive [] 6) 40 0 ∧
    (8 * (coded treeFive ctsFive [] 6).bcLen.toNat ≤ 40 + 7) ∧
    DisjointRanges 0x500 6 (coded treeFive ctsFive [] 6).bcBase.toNat (coded treeFive ctsFive [] 6).bcLen.toNat ∧
    CodedStream treeNineZero ctsZeros (coded treeNineZero ctsZeros [] 2) 23 0 ∧
    ¬ FitsMemory ((coded treeFive ctsFive [] 6).setReg 1 0xFFFFB#32) 0xFFFFB 6 := by
  and_intros <;> decide +kernel

/-- The premises of each data fault: bits left over, a code cut off, an unknown symbol, extra bits cut off, a long run. -/
theorem witness_HdecDecodesAnEncodedBlock_faults :
    (CodedStream treeFive ctsFive (coded treeFive ctsFive (List.replicate 8 false) 6) 40 0 ∧
      40 + 8 ≤ 8 * (coded treeFive ctsFive (List.replicate 8 false) 6).bcLen.toNat) ∧
    (CodedStream treeFive [] (coded treeFive [] [] 6) 32 6 ∧
      treeFive.stopsInside ((coded treeFive [] [] 6).sbits 32 (8 * (coded treeFive [] [] 6).bcLen.toNat - 32)) = true) ∧
    (CodedStream (.leaf 261#9) [] (coded (.leaf 261#9) [] [] 1) 10 1 ∧ (HuffTree.leaf 261#9).leafAt [] = some 261#9) ∧
    (CodedStream treeFive ctsSix (coded treeFive ctsSix [true, true] 7) 38 1 ∧
      treeFive.leafAt [true, true] = some 257#9 ∧ (coded treeFive ctsSix [true, true] 7).sbits 38 2 = [true, true] ∧
      8 * (coded treeFive ctsSix [true, true] 7).bcLen.toNat < 40 + runExtraBits 257) ∧
    (CodedStream treeFive [] (coded treeFive [] [true, true, false, false] 2) 32 2 ∧
      34 + runExtraBits 257 ≤ 8 * (coded treeFive [] [true, true, false, false] 2).bcLen.toNat ∧
      2 < runBase 257 + natOfBits ((coded treeFive [] [true, true, false, false] 2).sbits 34 2)) := by
  and_intros <;> decide +kernel

/-- After HENC of the block of V-HUF-1, a window on the writer base, R3 naming an output at 0x500. -/
def reopened : State :=
  { (next (exec (.henc 1 2) (blk 64))).setReg 3 0x500#32 with
    bcBase := 0x400#32, bcLen := BitVec.ofNat 32 (next (exec (.henc 1 2) (blk 64))).sizeBytes, bcPos := 0#32 }

theorem witness_HuffmanRoundTrip :
    (blk 64).cfg.Valid ∧ WriterInv (blk 64) ∧ (blk 64).bwPos = 0#32 ∧
    DisjointRanges ((blk 64).regNat 1) ((blk 64).regNat 2) (blk 64).bwBase.toNat (blk 64).bwCap.toNat ∧
    exec (.henc 1 2) (blk 64) = .next (next (exec (.henc 1 2) (blk 64))) ∧
    Completed (blk 64) (next (exec (.henc 1 2) (blk 64))) ∧
    (∀ a, reopened.readByte a = (next (exec (.henc 1 2) (blk 64))).readByte a) ∧
    reopened.bcBase = (next (exec (.henc 1 2) (blk 64))).bwBase ∧
    reopened.bcLen.toNat = (next (exec (.henc 1 2) (blk 64))).sizeBytes ∧ reopened.bcPos = 0#32 ∧
    reopened.regNat 2 = (blk 64).regNat 2 ∧ FitsMemory reopened (reopened.regNat 3) (reopened.regNat 2) ∧
    DisjointRanges (reopened.regNat 3) (reopened.regNat 2) reopened.bcBase.toNat reopened.bcLen.toNat :=
  by
  refine ⟨?_, ?_, ?_, ?_, eq_next _ ?_, ?_, fun _ => readByte_congr ?_ ?_ _, ?_⟩
  case refine_7 | refine_8 => simp only [reopened, setReg_mem, setReg_memEpoch]
  case refine_6 => unfold Completed SameErr SameHostSide; decide +kernel
  all_goals (try and_intros) <;> decide +kernel

/-- A fault of a command on a state: what the statement's premises ask. -/
abbrev FaultsWith (i : Instr) (s : State) (c : Cause) (info : Word) : Prop :=
  exec i s = .next (next (exec i s)) ∧ Raised c info s (next (exec i s))

theorem faultsWith (i : Instr) (s : State) (c : Cause) (info : Word) (h : isNext (exec i s) = true)
    (r : Raised c info s (next (exec i s))) : FaultsWith i s c info := ⟨eq_next _ h, r⟩

theorem witness_DataFaultsStayInBounds_tree :
    FaultsWith .htree (win [] 0) .truncated 0#32 ∧ FaultsWith (.hsym 1 true) s0 .noTree 0#32 ∧
    FaultsWith (.hsym 1 false) (nineZero 24) .truncated 24#32 := by
  refine ⟨faultsWith _ _ _ _ ?_ ?_, faultsWith _ _ _ _ ?_ ?_, faultsWith _ _ _ _ ?_ ?_⟩ <;>
    (try unfold Raised SameHostSide) <;> decide +kernel

theorem witness_DataFaultsStayInBounds_blocks :
    FaultsWith (.hdec 1 2 false) ((stream [0x16#8] 6).setReg 1 0xFFFFB#32) .memRange 0xFFFFB#32 ∧
    FaultsWith (.hdec 1 2 false) (stream [0x16#8, 0xF0#8, 0xC0#8, 0x80#8] 6) .truncated 32#32 ∧
    FaultsWith (.henc 1 2) ((blk 64).setReg 1 0xFFFFB#32) .memRange 0xFFFFB#32 ∧
    FaultsWith (.henc 1 2) (blk 4) .writeOverflow 32#32 ∧ (blk 4).bwPos.toNat ≤ 8 * (blk 4).bwCap.toNat ∧
    DisjointRanges ((blk 4).regNat 1) ((blk 4).regNat 2) (blk 4).bwBase.toNat (blk 4).bwCap.toNat := by
  refine ⟨faultsWith _ _ _ _ ?_ ?_, faultsWith _ _ _ _ ?_ ?_, faultsWith _ _ _ _ ?_ ?_, faultsWith _ _ _ _ ?_ ?_, ?_,
    ?_⟩ <;> (try unfold Raised SameHostSide) <;> decide +kernel

theorem witness_MloadValidatesBeforeCommit_range :
    (s0.setReg 1 0xFFF01#32).cfg.memBytes < (s0.setReg 1 0xFFF01#32).regNat 1 + 256 ∧
    (s0.setReg 1 0xFFF00#32).regNat 1 + 256 ≤ (s0.setReg 1 0xFFF00#32).cfg.memBytes := by decide +kernel

theorem entry_tableAt (T : Nat → Nat) (i : Nat) (h : i < 128) :
    ((tableAt T).readHalf ((tableAt T).regNat 1 + 2 * i)).toNat = T i % 65536 := by
  have hr : (tableAt T).regNat 1 = 0x600 := by simp only [tableAt, State.regNat, reg_setReg_self]; rfl
  have hb : ∀ a, (tableAt T).readByte a = (s0.storeBytes 0x600
      (halvesBytes ((List.range 128).map (fun i => BitVec.ofNat 16 (T i))))).readByte a :=
    readByte_congr (by simp only [tableAt, setReg_mem]) (by simp only [tableAt, setReg_memEpoch])
  have hh := readHalf_storeBytes_halvesBytes s0 0x600 ((List.range 128).map (fun i => BitVec.ofNat 16 (T i))) i
    (by simpa using h)
  rw [hr, State.readHalf, hb, hb, ← State.readHalf, hh]
  simp

/-- Three tables with a drop at 0 only, a drop at 126 only, and an end past 32767, and a valid one at its bound. -/
theorem witness_MloadValidatesBeforeCommit_tables :
    (∀ T i, i < 128 → ((tableAt T).readHalf ((tableAt T).regNat 1 + 2 * i)).toNat = T i % 65536) ∧
    ((fun i => 200 - i) 1 < (fun i => 200 - i) 0) ∧
    ((fun i => if i = 127 then 3 else i) 127 < (fun i => if i = 127 then 3 else i) 126 ∧
      ∀ j, j < 126 → (fun i => if i = 127 then 3 else i) j ≤ (fun i => if i = 127 then 3 else i) (j + 1)) ∧
    ((∀ i, i < 127 → (fun i => if i = 127 then 32768 else i) i ≤ (fun i => if i = 127 then 32768 else i) (i + 1)) ∧
      32767 < (fun i => if i = 127 then 32768 else i) 127) ∧
    ((∀ i, i < 127 → (fun i => if i = 127 then 32767 else i) i ≤ (fun i => if i = 127 then 32767 else i) (i + 1)) ∧
      (fun i => if i = 127 then 32767 else i) 127 ≤ 32767) :=
  by
  refine ⟨entry_tableAt, ?_⟩
  and_intros <;> decide +kernel

theorem witness_MstoreSerializes :
    mapped.tvalid[0] = false ∧ mapped.tvalid[1] = true ∧
    (mapped.setReg 1 0xFFF01#32).cfg.memBytes < (mapped.setReg 1 0xFFF01#32).regNat 1 + 256 ∧
    (mapped.setReg 1 0xFFF00#32).regNat 1 + 256 ≤ (mapped.setReg 1 0xFFF00#32).cfg.memBytes := by decide +kernel

theorem witness_MqinitTakesTheCurve : State.reset.cfg.curve = .reference ∧ (0 : TableIx) ≠ 1 := by decide

theorem witness_MmapFindsTheNearestEntry : mapped.tvalid[0] = false ∧ mapped.tvalid[1] = true ∧
    ((mapped.setReg 1 0x8000#32).reg 1 |>.extractLsb' 0 16).toInt = -32768 ∧ (-32768 : Int).natAbs = 32768 := by
  decide +kernel

theorem tableValid_q50 : TableValid (referenceCurve 50) := by decide +kernel

theorem witness_MunmapReadsSignAndMagnitude :
    mapped.tvalid[0] = false ∧ mapped.tvalid[1] = true ∧ TableValid mapped.mt[1] ∧
    (∀ c ∈ [0, 127, 128, 129, 255], c = ((mapped.setReg 1 (BitVec.ofNat 32 c)).reg 1).toNat % 256) ∧
    (129 = 256 - (127 : Fin 128).val ∧ 255 = 256 - (1 : Fin 128).val) :=
  by and_intros <;> decide +kernel

/-- R1, R2 and R3 naming a destination, a source and a count, MT[1] present. -/
def vec (dst src n : Nat) : State :=
  ((mapped.setReg 1 (BitVec.ofNat 32 dst)).setReg 2 (BitVec.ofNat 32 src)).setReg 3 (BitVec.ofNat 32 n)

/-- The state's ranges: R1 with la bytes for each of R3 elements fits or not, R2 with lb bytes, and they are disjoint. -/
abbrev Ranges (s : State) (la lb : Nat) (fitsDst fitsSrc disjoint : Bool) : Prop :=
  decide (FitsMemory s (s.regNat 1) (la * s.regNat 3)) = fitsDst ∧
    decide (FitsMemory s (s.regNat 2) (lb * s.regNat 3)) = fitsSrc ∧
    decide (DisjointRanges (s.regNat 1) (la * s.regNat 3) (s.regNat 2) (lb * s.regNat 3)) = disjoint

theorem witness_MmapvAndMunmapvMapEachElement :
    mapped.tvalid[0] = false ∧ (vec 0 0 0).tvalid[1] = true ∧ TableValid (vec 0 0 0).mt[1] ∧
    Ranges (vec 0xFFFFE 0x600 3) 1 2 false true true ∧ Ranges (vec 0x600 0xFFFFB 3) 1 2 true false true ∧
    Ranges (vec 0xFFFFD 0xFFFF7 3) 1 2 true true true ∧ Ranges (vec 0xFFFFFFFF 0 0) 1 2 true true true ∧
    Ranges (vec 0xFFFFB 0x600 3) 2 1 false true true ∧ Ranges (vec 0x600 0xFFFFE 3) 2 1 true false true ∧
    Ranges (vec 0x600 0x606 3) 2 1 true true true :=
  by and_intros <;> decide +kernel

/-- The table of V-MAP-9, whose least entry is not 0. -/
def tableFour : MapTable := Vector.ofFn (fun i => BitVec.ofNat 16 (4 + 2 * i.val))

theorem witness_MapAndUnmapProperties :
    TableValid tableFour ∧ (∀ i : Fin 127, (tableFour[i.castSucc]).toNat < (tableFour[i.succ]).toNat) ∧
    ((-5 : Int) < 0 ∧ 0 < (tableFour[0]).toNat ∧ mapCode tableFour (-5) = 0#8) ∧
    mapCode tableFour (-32768) = 0x81#8 ∧ (∀ i : Fin 128, (tableFour[i]).toNat = 4 + 2 * i.val) :=
  by and_intros <;> decide +kernel

theorem witness_SetqStoresAStep :
    (1 ≤ (s0.setReg 1 1#32).regNat 1 ∧ (s0.setReg 1 65535#32).regNat 1 ≤ 65535) ∧ (s0.setReg 1 0#32).regNat 1 = 0 ∧
    65535 < (s0.setReg 1 65536#32).regNat 1 ∧ (0 : StepIx) ≠ 3 := by decide +kernel

theorem witness_QuantRoundsHalfAway :
    (((stepped 65535 0x8000#32).reg 1).extractLsb' 0 16).toInt = -32768 ∧
    ((stepped 65535 0x8000#32).qstep[0]).toNat = 65535 ∧ 1 ≤ 65535 := by decide +kernel

theorem witness_QuantvAndDequantvAreExactInPlace :
    ((vec 0 0 0).qstep[0]).toNat = 1 ∧ Ranges (vec 0xFFFFB 0x600 3) 2 2 false true true ∧
    Ranges (vec 0x600 0xFFFFB 3) 2 2 true false true ∧ Ranges (vec 0xFFFFA 0xFFFFA 3) 2 2 true true false ∧
    Ranges (vec 0xFFFFA 0xFFFF4 3) 2 2 true true true := by decide +kernel

theorem witness_QuantizerErrorBound :
    (-32768 ≤ roundIndex (-32768) 2 * 2 ∧ roundIndex (-32768) 2 * 2 ≤ 32767) ∧ 32767 < roundIndex 32767 2 * 2 ∧
    roundIndex (-32768) 65535 * 65535 < -32768 := by decide

theorem witness_SetdimConfiguresThePlane :
    (∀ r ∈ [(0x00010001, 0x104), (0xFFFFFFFF, 0xFFFFFFF9)], 1 ≤ r.1 % 65536 ∧ 1 ≤ r.1 / 65536 ∧ 1 ≤ r.2 % 8 ∧
      r.2 % 8 ≤ 4) ∧
    (0x00010000 % 65536 = 0 ∧ 0x0000FFFF / 65536 = 0 ∧ 0x100 % 8 = 0 ∧ 4 < 5 % 8) ∧
    (s0.setReg 1 0x00010001#32).regNat 1 = 0x00010001 := by decide +kernel

theorem witness_PlaneCommandsNeedSetdim :
    s0.dim.toNat % 65536 = 0 ∧ (plane 1 0 1 0 0 0 0).dim.toNat / 65536 = 0 ∧ (plane 1 1 0 0 0 0 0).pcfg.toNat % 8 = 0 := by
  decide +kernel

/-- What the premises of the plane statements ask of a configuration. -/
abbrev Configured (s : State) (w h k lw lh : Nat) : Prop :=
  w = s.dim.toNat % 65536 ∧ h = s.dim.toNat / 65536 ∧ 1 ≤ w ∧ 1 ≤ h ∧ 1 ≤ s.pcfg.toNat % 8 ∧ k = s.pcfg.toNat % 8 ∧
    lw = (w + 2 ^ k - 1) / 2 ^ k ∧ lh = (h + 2 ^ k - 1) / 2 ^ k

theorem witness_DsampTakesTheBoxMean :
    Configured (plane 3 3 1 0 0xFFFF8 0xFFFEF 0) 3 3 1 2 2 ∧
    ¬ FitsMemory (plane 3 3 1 0 0xFFFF9 0x600 0) 0xFFFF9 8 ∧ ¬ FitsMemory (plane 3 3 1 0 0x700 0xFFFF8 0) 0xFFFF8 9 ∧
    FitsMemory (plane 3 3 1 0 0xFFFF8 0xFFFEF 0) 0xFFFF8 8 ∧ FitsMemory (plane 3 3 1 0 0xFFFF8 0xFFFEF 0) 0xFFFEF 9 ∧
    DisjointRanges 0xFFFF8 8 0xFFFEF 9 ∧ (1 = min (1 * 2 + 2) 3 - 1 * 2) ∧ (2 = min (0 * 2 + 2) 3 - 0 * 2) := by
  decide +kernel

theorem witness_UsampInterpolates :
    Configured (plane 4 1 1 0 0xFFFF8 0xFFFF4 0) 4 1 1 2 1 ∧ Configured (plane 4 1 1 1 0xFFFF8 0xFFFF4 0) 4 1 1 2 1 ∧
    ¬ FitsMemory (plane 4 1 1 0 0xFFFF9 0x600 0) 0xFFFF9 8 ∧ ¬ FitsMemory (plane 4 1 1 0 0x700 0xFFFFD 0) 0xFFFFD 4 ∧
    FitsMemory (plane 4 1 1 0 0xFFFF8 0xFFFF4 0) 0xFFFF8 8 ∧ FitsMemory (plane 4 1 1 0 0xFFFF8 0xFFFF4 0) 0xFFFF4 4 ∧
    DisjointRanges 0xFFFF8 8 0xFFFF4 4 ∧ (plane 4 1 1 0 0xFFFF8 0xFFFF4 0).pcfg.getLsbD 8 = false ∧
    (plane 4 1 1 1 0xFFFF8 0xFFFF4 0).pcfg.getLsbD 8 = true ∧
    (-1 = Int.fdiv (2 * 0 + 1 - 2) 4 ∧ 3 = 2 * 0 + 1 - 2 - (-1) * 4) := by decide +kernel

theorem witness_ResidAndReconClamp :
    Configured (plane 2 1 1 0 0x800 0x600 0x700) 2 1 1 1 1 ∧
    ¬ FitsMemory s0 0xFFFFD 4 ∧ ¬ FitsMemory s0 0xFFFFF 2 ∧ FitsMemory s0 0xFFFFC 4 ∧ FitsMemory s0 0xFFFFE 2 ∧
    (DisjointRanges 0x800 4 0x600 2 ∧ DisjointRanges 0x800 4 0x700 4) ∧
    (DisjointRanges 0x800 2 0x600 4 ∧ DisjointRanges 0x800 2 0x700 4) := by decide +kernel

/-- The machine after reset, in an engine state, with one host transaction to come. -/
def hosted (e : EngineState) (a : HostAction) : State := { State.reset with engine := e, inputs := [.host a] }

theorem witness_CtrlWriteActions :
    (hosted .failed (.regWrite 1 0x103#32)).inputs = .host (.regWrite 1 0x103#32) :: [] ∧
    (0x103#32).getLsbD 2 = false ∧
    (True ↔ (0x103#32).getLsbD 1 = true ∧
      ((hosted .failed (.regWrite 1 0x103#32)).engine = .done ∨ (hosted .failed (.regWrite 1 0x103#32)).engine = .failed)) ∧
    (True ↔ (0x103#32).getLsbD 0 = true ∧ ((hosted .failed (.regWrite 1 0x103#32)).engine = .idle ∨ True)) ∧
    (False ↔ (0x103#32).getLsbD 1 = true ∧
      ((hosted .busy (.regWrite 1 0x103#32)).engine = .done ∨ (hosted .busy (.regWrite 1 0x103#32)).engine = .failed)) ∧
    (False ↔ (0x103#32).getLsbD 0 = true ∧ ((hosted .busy (.regWrite 1 0x103#32)).engine = .idle ∨ False)) := by
  decide +kernel

theorem witness_SoftResetKeepsRegistersAndMemory :
    (hosted .done (.regWrite 1 4#32)).inputs = .host (.regWrite 1 4#32) :: [] ∧ (4#32).getLsbD 2 = true ∧
    (hosted .done (.regWrite 1 4#32)).engine ≠ .busy ∧ (nopAtTheEnd []).engine = .busy ∧
    (nopAtTheEnd []).fetch = .command .nop ∧ (nopAtTheEnd []).loose = [] ∧
    (State.reset.withFetchWord 32 0x4400001F).fetch = .command (.bwbits 0 32) ∧
    8 * (State.reset.withFetchWord 32 0x4400001F).bwCap.toNat <
      (State.reset.withFetchWord 32 0x4400001F).bwPos.toNat + 32 := by decide +kernel

theorem witness_ResetInputSetsEveryStatedValue :
    (hosted .busy .resetInput).inputs = .host .resetInput :: [] := by decide

theorem witness_RegisterPortReadsAndWrites :
    (hosted .busy (.regRead 63)).inputs = .host (.regRead 63) :: [] ∧ (hosted .idle (.regRead 3)).engine ≠ .busy ∧
    (8 : Fin 64).val = 8 + (0 : RegIx).val ∧ (15 : Fin 64).val = 8 + (7 : RegIx).val ∧
    (27 : Fin 64).val = 24 + (3 : StepIx).val ∧
    (hosted .idle (.regWrite 6 7#32)).inputs = .host (.regWrite 6 7#32) :: [] ∧ (6 : Fin 64) ≠ 1 := by decide

theorem witness_MemoryPortReadsAndWrites :
    (hosted .idle (.memRead 0xFFFFF#32)).inputs = .host (.memRead 0xFFFFF#32) :: [] ∧
    (hosted .busy (.memWrite 0xFFFFF#32 1#8)).inputs = .host (.memWrite 0xFFFFF#32 1#8) :: [] ∧
    (0xFFFFF#32).toNat < State.reset.cfg.memBytes ∧ State.reset.cfg.memBytes ≤ (0x100000#32).toNat := by decide

/-- The machine about to run ADD R2, R1, R1, with R1 and a byte loose. -/
def looseAdd : State :=
  { State.reset.withFetchWord 32 (encode (.add 2 1 1)).toNat with loose := [.reg 1, .byte 0x600] }

theorem witness_LooseBytesFreeTheResults :
    looseAdd.inputs = [] ∧ looseAdd.engine = .busy ∧ looseAdd.loose ≠ [] ∧ Legal looseAdd ∧
    looseAdd.fetch = .command (.add 2 1 1) ∧ 0x600 < looseAdd.cfg.memBytes := by
  refine ⟨by decide, by decide, by decide, ⟨by decide, by decide, by decide, by decide, by decide, by decide, nofun⟩, ?_⟩
  decide +kernel

/-- The pieces, of the given ones, in which the next states of two outcomes differ. -/
def changed (ps : List Piece) (o o' : Result) : List Piece := ps.filter (fun p => !p.agrees (next o) (next o'))

/-- 20_memory.md R78: what a command makes of two values of R1 differs in R1 and R2, and of two values of a byte it does
not read in that byte alone. -/
theorem test_what_two_runs_differ_in :
    changed [.reg 1, .reg 2, .reg 3, .errinfo] (looseAdd.setReg 1 3#32).fetchAndExec
      (looseAdd.setReg 1 4#32).fetchAndExec = [.reg 1, .reg 2] ∧
    changed [.reg 1, .reg 2, .byte 0x600, .byte 0] (looseAdd.storeBytes 0x600 [3#8]).fetchAndExec
      (looseAdd.storeBytes 0x600 [4#8]).fetchAndExec = [.byte 0x600] := by
  constructor <;> decide +kernel

/-- 60_exceptions.md R310: a fault that no value of R2 changes differs in R2 alone. -/
theorem test_a_certain_fault_differs_in_the_loose_piece_alone :
    changed [.reg 1, .reg 2, .errinfo, .bcPos] (exec (.mmap 1 2 0) (s0.setReg 2 3#32))
      (exec (.mmap 1 2 0) (s0.setReg 2 4#32)) = [.reg 2] ∧
    changed [.reg 1, .reg 2, .errinfo, .bcPos] (exec (.dsamp 1 2) (s0.setReg 1 3#32))
      (exec (.dsamp 1 2) (s0.setReg 1 4#32)) = [.reg 1] := by
  constructor <;> decide +kernel

/-- 10_state.md R42: an empty window has any base. -/
theorem test_an_empty_window_has_any_base :
    ({ s0 with bcBase := 0xFFFFFFFF#32 } : State).readerLegal = true ∧
    ({ s0 with bcBase := 0xFFFFFFFF#32, bcLen := 1#32 } : State).readerLegal = false ∧
    ({ s0 with bwBase := 0xFFFFFFFF#32 } : State).writerLegal = true := by decide

theorem witness_OnlyTheNamedCommandsChangeAUnit :
    exec .nop s0 = .next s0.complete ∧ (∀ k ra, Instr.nop ≠ .mload k ra ∧ Instr.nop ≠ .mqinit k ra) ∧
    (∀ ra rb w, Instr.nop ≠ .htree ∧ Instr.nop ≠ .hdec ra rb w) ∧ (∀ q ra, Instr.nop ≠ .setq q ra) ∧
    (∀ ra rb, Instr.nop ≠ .setdim ra rb) :=
  ⟨rfl, by simp, by simp, by simp, by simp⟩

theorem witness_StoresStayInTheDestination :
    (wri 16 5).bwCap.toNat ≤ 536870912 ∧ (wri 16 5).bwPos.toNat ≤ 8 * (wri 16 5).bwCap.toNat ∧
    exec (.bwbits 1 9) (wri 16 5) = .next (next (exec (.bwbits 1 9) (wri 16 5))) :=
  ⟨by decide +kernel, by decide +kernel, eq_next _ (by decide +kernel)⟩

theorem witness_EveryRunEnds : s0.cfg.Valid ∧ s0.inputs = [] ∧ s0.engine = .busy := by decide

theorem witness_StepKeepsMemoryAndWindows :
    (State.reset.withFetchWord 32 0x20000000).cfg.Valid ∧ CpInv (State.reset.withFetchWord 32 0x20000000) ∧
    ReaderInv (State.reset.withFetchWord 32 0x20000000) ∧ WriterInv (State.reset.withFetchWord 32 0x20000000) ∧
    MemoryInv (State.reset.withFetchWord 32 0x20000000) ∧
    step (State.reset.withFetchWord 32 0x20000000) = .next (next (step (State.reset.withFetchWord 32 0x20000000))) :=
  ⟨by decide, by decide, by decide, by decide, by decide +kernel, eq_next _ (by decide +kernel)⟩

theorem witness_StepKeepsTablesStepsAndPlane :
    ErrInv (State.reset.withFetchWord 32 0x8C000000) ∧ TablesInv (State.reset.withFetchWord 32 0x8C000000) ∧
    StepsInv (State.reset.withFetchWord 32 0x8C000000) ∧ PlaneInv (State.reset.withFetchWord 32 0x8C000000) ∧
    step (State.reset.withFetchWord 32 0x8C000000) = .next (next (step (State.reset.withFetchWord 32 0x8C000000))) :=
  by refine ⟨?_, ?_, ?_, ?_, eq_next _ ?_⟩ <;> decide +kernel

theorem witness_StepKeepsTheTree :
    TreeInv (State.reset.withFetchWord 32 0x68000000) ∧
    step (State.reset.withFetchWord 32 0x68000000) = .next (next (step (State.reset.withFetchWord 32 0x68000000))) :=
  ⟨⟨by decide +kernel, fun h => absurd h (by decide +kernel)⟩, eq_next _ (by decide +kernel)⟩

end Sys2Proof.Tests
end

/-! What a command can do, once for all 39: where a stream can stand, the effects of a command, and that every command
gives a next state with one of them. -/

namespace Sys2Proof.Machine

/-! ## Where a stream can stand (10_state.md R42) -/

/-- A read of the stream ends inside the cursor window: where `posOf` says on success, and on a data fault where the
fault leaves BC_POS. -/
def EndsInWindow (s : State) {α : Type} (posOf : α → Nat) : Except StreamFault α → Prop
  | .ok a => posOf a ≤ s.windowBits
  | .error f => f.pos ≤ s.windowBits

theorem EndsInWindow.of_ok {s : State} {α : Type} {posOf : α → Nat} {r : Except StreamFault α} {a : α}
    (h : EndsInWindow s posOf r) (e : r = .ok a) : posOf a ≤ s.windowBits := by subst e; exact h

theorem EndsInWindow.of_error {s : State} {α : Type} {posOf : α → Nat} {r : Except StreamFault α} {f : StreamFault}
    (h : EndsInWindow s posOf r) (e : r = .error f) : f.pos ≤ s.windowBits := by subst e; exact h

theorem endsInWindow_map (s : State) {α β : Type} (posOf : β → Nat) (f : α → β) (r : Except StreamFault α) :
    EndsInWindow s posOf (r.map f) ↔ EndsInWindow s (fun a => posOf (f a)) r := by cases r <;> rfl

theorem endsInWindow_prependBytes (s : State) (bs : List Byte) (r : Except StreamFault (List Byte × Nat)) :
    EndsInWindow s Prod.snd (prependBytes bs r) ↔ EndsInWindow s Prod.snd r := by cases r <;> rfl

section
variable (s : State) {pos : Nat} (h : pos ≤ s.windowBits)
include h

theorem rdBit_endsInWindow : EndsInWindow s Prod.snd (s.rdBit pos) := by
  rcases rdBit_cases s pos with ⟨hp, e⟩ | ⟨-, e⟩ <;> rw [e]
  · exact hp
  · exact h

theorem rdBits_endsInWindow (n : Nat) : EndsInWindow s Prod.snd (s.rdBits n pos) := by
  rcases rdBits_cases s n pos with ⟨hp, e⟩ | ⟨-, e⟩ <;> rw [e]
  · exact hp
  · exact h

theorem advance_endsInWindow (n : Nat) : EndsInWindow s id (s.advance n pos) := by
  rcases advance_cases s n pos with ⟨hp, e⟩ | ⟨-, e⟩ <;> rw [e]
  · exact hp
  · exact h

end

theorem readNode_endsInWindow (s : State) (fuel : Nat) : ∀ (depth code : Nat) (b : TreeBuild), b.pos ≤ s.windowBits →
    EndsInWindow s (fun r => r.2.pos) (s.readNode fuel depth code b) := by
  induction fuel with
  | zero => exact fun _ _ _ hb => hb
  | succ fuel ih =>
    intro depth code b hb
    unfold State.readNode
    split
    · have hbit := rdBit_endsInWindow s hb
      dsimp only
      split
      · exact hbit.of_error ‹_›
      · have hv := rdBits_endsInWindow s (hbit.of_ok ‹_›) 9
        split
        · exact hv.of_error ‹_›
        · exact hv.of_ok ‹_›
      · have ha := ih (depth + 1) code ⟨_, b.node, b.nnodes + 1, lutAfterBranch b.lut depth code ⟨b.nnodes, ‹_›⟩⟩
          (hbit.of_ok ‹_›)
        split
        · exact ha.of_error ‹_›
        · have hb := ih (depth + 1) (code + 2 ^ depth) _ (ha.of_ok ‹_›)
          split
          · exact hb.of_error ‹_›
          · rename_i e
            have hb3 := hb.of_ok e
            exact hb3
    · exact hb

theorem readTree_endsInWindow (s : State) (h : ReaderInv s) : EndsInWindow s TreeBuild.pos s.readTree := by
  have hn := readNode_endsInWindow s 521 0 0 ⟨s.bcPos.toNat, s.node, 0, s.lut⟩ h.1
  unfold State.readTree
  split
  · exact hn.of_error ‹_›
  · exact hn.of_ok ‹_›

theorem walk_endsInWindow (s : State) (node : Vector TreeNode 521) (fuel : Nat) : ∀ (n : NodeIx) (pos : Nat),
    pos ≤ s.windowBits → EndsInWindow s Prod.snd (s.walk node fuel n pos) := by
  induction fuel with
  | zero => intro n pos hp; unfold State.walk; split <;> exact hp
  | succ fuel ih =>
    intro n pos hp
    have hbit := rdBit_endsInWindow s hp
    unfold State.walk
    split
    · exact hp
    · split
      · exact hbit.of_error ‹_›
      · exact ih _ _ (hbit.of_ok ‹_›)

theorem decodeSym_endsInWindow (s : State) (node : Vector TreeNode 521) (lut : Vector LutEntry 256) (walk : Bool)
    {pos : Nat} (hp : pos ≤ s.windowBits) : EndsInWindow s Prod.snd (s.decodeSym node lut walk pos) := by
  have ha := fun n => advance_endsInWindow s hp n
  unfold State.decodeSym
  split
  · exact walk_endsInWindow s node _ _ _ hp
  · split
    · split
      · exact (ha _).of_error ‹_›
      · exact (ha _).of_ok ‹_›
    · split
      · exact (ha _).of_error ‹_›
      · exact walk_endsInWindow s node _ _ _ ((ha _).of_ok ‹_›)

theorem readExtra_endsInWindow (s : State) (sym : Nat) {pos : Nat} (hp : pos ≤ s.windowBits) :
    EndsInWindow s Prod.snd (s.readExtra sym pos) := by
  unfold State.readExtra
  split
  · exact rdBits_endsInWindow s hp _
  · exact hp

theorem decodeLoop_endsInWindow (s : State) (node : Vector TreeNode 521) (lut : Vector LutEntry 256) (walk : Bool)
    (fuel : Nat) : ∀ room pos : Nat, pos ≤ s.windowBits →
      EndsInWindow s Prod.snd (s.decodeLoop node lut walk fuel room pos) := by
  induction fuel with
  | zero => exact fun _ _ hp => hp
  | succ fuel ih =>
    intro room pos hp
    have hs := decodeSym_endsInWindow s node lut walk hp
    unfold State.decodeLoop
    split
    · exact hp
    · split
      · exact hs.of_error ‹_›
      · have hsym := hs.of_ok ‹_›
        split
        · exact (endsInWindow_prependBytes ..).mpr (ih _ _ hsym)
        · split
          · have hx := fun sym => readExtra_endsInWindow s sym hsym
            split
            · exact (hx _).of_error ‹_›
            · have hextra := (hx _).of_ok ‹_›
              dsimp only
              split
              · exact hextra
              · exact (endsInWindow_prependBytes ..).mpr (ih _ _ hextra)
          · exact hsym

theorem decodeBlock_endsInWindow (s : State) (walk : Bool) (m : Nat) (h : ReaderInv s) :
    EndsInWindow s DecodedBlock.pos (s.decodeBlock walk m) := by
  have ht := readTree_endsInWindow s h
  unfold State.decodeBlock
  split
  · exact ht.of_error ‹_›
  · have hl := fun node lut => decodeLoop_endsInWindow s node lut walk m m _ (ht.of_ok ‹_›)
    split
    · exact (hl _ _).of_error ‹_›
    · split <;> exact (hl _ _).of_ok ‹_›

/-! ## How much a block decode gives -/

theorem prependBytes_eq_ok {bs out : List Byte} {r : Except StreamFault (List Byte × Nat)} {pos : Nat}
    (h : prependBytes bs r = .ok (out, pos)) : ∃ rest, r = .ok (rest, pos) ∧ out = bs ++ rest := by
  cases r with
  | error f => cases h
  | ok p => cases h; exact ⟨p.1, rfl, rfl⟩

/-- The symbol loop never gives more bytes than there is room for (42_huffman.md R175). -/
theorem decodeLoop_length_le (s : State) (node : Vector TreeNode 521) (lut : Vector LutEntry 256) (walk : Bool)
    (fuel : Nat) : ∀ (room pos : Nat) (out : List Byte) (pos' : Nat),
      s.decodeLoop node lut walk fuel room pos = .ok (out, pos') → out.length ≤ room := by
  induction fuel with
  | zero => intro room pos out pos' h; cases h; exact Nat.zero_le _
  | succ fuel ih =>
    intro room pos out pos' h
    unfold State.decodeLoop at h
    split at h
    · cases h; exact Nat.zero_le _
    · split at h
      · cases h
      · split at h
        · obtain ⟨rest, hr, rfl⟩ := prependBytes_eq_ok h
          have := ih _ _ _ _ hr
          simp only [List.length_append, List.length_cons, List.length_nil]
          omega
        · split at h
          · split at h
            · cases h
            · dsimp only at h
              split at h
              · cases h
              · obtain ⟨rest, hr, rfl⟩ := prependBytes_eq_ok h
                have := ih _ _ _ _ hr
                simp only [List.length_append, List.length_replicate]
                omega
          · cases h

/-- What a decoded block is made of: the tree that ReadTree gives, and no more bytes than the output holds. -/
theorem decodeBlock_eq_ok {s : State} {walk : Bool} {m : Nat} {d : DecodedBlock} (h : s.decodeBlock walk m = .ok d) :
    s.readTree = .ok d.tree ∧ d.bytes.length ≤ m := by
  unfold State.decodeBlock at h
  split at h
  · cases h
  · split at h
    · cases h
    · split at h
      · cases h
        exact ⟨‹_›, decodeLoop_length_le _ _ _ _ _ _ _ _ _ ‹_›⟩
      · cases h

/-! ## What a sequence of WrBits writes -/

/-- A sequence of WrBits that succeeds wrote all its bits, and they fit the region from a position inside it. -/
theorem wrChunksAt_eq_ok (cs : List Bits) : ∀ (s t : State) (pos : Nat), s.wrChunksAt pos cs = .ok t →
    t = s.wrAll cs.flatten ∧ (pos ≤ s.regionBits → pos + cs.flatten.length ≤ s.regionBits) := by
  induction cs with
  | nil => intro s t pos h; cases h; exact ⟨rfl, id⟩
  | cons c cs ih =>
    intro s t pos h
    have hr : (s.wrAll c).regionBits = s.regionBits := by simp only [State.regionBits, wrAll_bwCap]
    unfold State.wrChunksAt at h
    split at h
    · cases h
    · obtain ⟨rfl, hf⟩ := ih _ _ _ h
      rw [List.flatten_cons, wrAll_append, List.length_append]
      exact ⟨rfl, by omega⟩

/-- HENC's own range lies in memory where its region does (42_huffman.md R171, 60_exceptions.md R310). -/
theorem hencRange_fits (s : State) (clash : Bool) (h : WriterInv s) :
    FitsMemory s (s.hencRange clash).1 (s.hencRange clash).2 := by
  obtain ⟨hp, hm⟩ := h
  cases clash <;> simp only [State.hencRange, FitsMemory, Bool.false_eq_true, if_false, if_true] <;> omega

/-- Drawing for an open tree changes the count of draws alone. -/
theorem drewTree_eq (s : State) : s.drewTree = { s with draws := s.drewTree.draws } := by
  unfold State.drewTree
  split <;> rfl

/-! ## The plane that SETDIM sets -/

/-- The reserved bits of the PCFG that SETDIM writes are 0 (10_state.md R51, R52). -/
theorem pcfg_reserved_zero : ∀ (u : BitVec 1) (k : BitVec 3),
    (0#23 ++ u ++ 0#5 ++ k) &&& 0xFFFFFEF8#32 = 0#32 := by decide

/-- The plane that SETDIM sets is legal where its W, H and k are (45_plane.md R253). -/
theorem planeInv_of_fields (s : State) {h w : BitVec 16} {k : BitVec 3} (u : BitVec 1) (hw : w ≠ 0) (hh : h ≠ 0)
    (hk : 1 ≤ k.toNat) (hk' : k.toNat ≤ 4) :
    PlaneInv { s with dim := h ++ w, pcfg := 0#23 ++ u ++ 0#5 ++ k } := by
  have ew : (h ++ w).extractLsb' 0 16 = w := BitVec.extractLsb'_append_eq_right
  have eh : (h ++ w).extractLsb' 16 16 = h := BitVec.extractLsb'_append_eq_left
  have ek : (0#23 ++ u ++ 0#5 ++ k).extractLsb' 0 3 = k := BitVec.extractLsb'_append_eq_right
  have hw0 : w.toNat ≠ 0 := fun e => hw (BitVec.eq_of_toNat_eq e)
  have hh0 : h.toNat ≠ 0 := fun e => hh (BitVec.eq_of_toNat_eq e)
  refine .inr ⟨?_, ?_, ?_, ?_, pcfg_reserved_zero u k⟩
  · rw [State.planeW, ew]; omega
  · rw [State.planeH, eh]; omega
  · rw [State.scaleLog, ek]; exact hk
  · rw [State.scaleLog, ek]; exact hk'

/-! ## Values that a command stores or draws -/

/-- The free NNODES of a failed tree read is in its range (10_state.md R46). -/
theorem nnodes_free_le (draw : Nat) : Config.freeCount draw % 522 ≤ 521 :=
  Nat.le_of_lt_succ (Nat.mod_lt _ (by decide))

theorem tableBytes_length (T : MapTable) : (tableBytes T).length = 256 := by simp [tableBytes, halvesBytes_length]

/-- The reference curve gives a valid table for every quality (43_mapping.md R213). -/
theorem referenceCurve_valid (q : Nat) : TableValid (referenceCurve q) := by
  have h := referenceCurve_toNat q
  refine ⟨fun i => ?_, ?_⟩
  · rw [h, h]
    have hq : i.val * i.val * (100 - q) ≤ (i.val + 1) * (i.val + 1) * (100 - q) :=
      Nat.mul_le_mul_right _ (Nat.mul_le_mul (by omega) (by omega))
    have := Nat.div_le_div_right (c := 1600) hq
    simp only [Fin.val_castSucc, Fin.val_succ]
    omega
  · have e : (referenceCurve q)[127] = (referenceCurve q)[(127 : Fin 128)] := rfl
    have hv : (127 : Fin 128).val = 127 := rfl
    rw [e, h, hv]
    omega

theorem qualityTable_valid (curve : QualityCurve) (q : Nat) : TableValid (qualityTable curve q) := by
  cases curve with
  | reference => exact referenceCurve_valid q
  | own =>
    simp only [qualityTable]
    split
    · exact (tableFault_eq_none_iff _).mp ‹_›
    · exact referenceCurve_valid q

/-! ## The effects of a command -/

/-- What a command can leave: one constructor per way to change the state, with what the command has checked. -/
inductive Effect (s : State) : State → Prop
  /-- A fault that changes no unit (60_exceptions.md R310). -/
  | raised (c : Cause) (info : Word) : Effect s (s.raise c info)
  /-- A data fault of a reading command. -/
  | streamFault (f : StreamFault) (hf : ReaderInv s → f.pos ≤ s.windowBits) : Effect s (s.raiseStream f)
  /-- A data fault of HTREE: NODE, LUT and NNODES hold any values, and there is no tree. -/
  | treeFault (f : StreamFault) (node : Vector TreeNode 521) (lut : Vector LutEntry 256) (nnodes draws : Nat)
      (hn : nnodes ≤ 521) (hf : ReaderInv s → f.pos ≤ s.windowBits) :
      Effect s ({ s with
        node := node, lut := lut, nnodes := nnodes, treeValid := false, draws := draws }.raiseStream f)
  /-- A data fault of HDEC: as for HTREE, and the destination holds any values. -/
  | blockFault (f : StreamFault) (node : Vector TreeNode 521) (lut : Vector LutEntry 256) (nnodes draws a n : Nat)
      (hn : nnodes ≤ 521) (hr : FitsMemory s a n) (hf : ReaderInv s → f.pos ≤ s.windowBits) :
      Effect s ({ s.scramble a n with
        node := node, lut := lut, nnodes := nnodes, treeValid := false, draws := draws }.raiseStream f)
  /-- The WRITE_OVERFLOW of HENC. -/
  | encodeFault (draws a n : Nat) (info : Word) (hr : WriterInv s → FitsMemory s a n) :
      Effect s ((({ s with draws := draws }.scramble a n).scrambleBwPos).raise .writeOverflow info)
  | halted : Effect s { s.complete with engine := .done }
  | completed : Effect s s.complete
  | wroteReg (rd : RegIx) (v : Word) : Effect s (s.setReg rd v).complete
  | readBits (rd : RegIx) (v : Word) (pos : Nat) (hp : ReaderInv s → pos ≤ s.windowBits) :
      Effect s ((s.setReg rd v).setBcPos pos).complete
  | advanced (pos : Nat) (hp : ReaderInv s → pos ≤ s.windowBits) : Effect s (s.setBcPos pos).complete
  | openedWindow (base len : Word) (hr : FitsMemory s base.toNat len.toNat) :
      Effect s { s with bcBase := base, bcLen := len, bcPos := 0#32 }.complete
  | openedRegion (base cap : Word) (hr : FitsMemory s base.toNat cap.toNat) :
      Effect s { s with bwBase := base, bwCap := cap, bwPos := 0#32 }.complete
  | wroteBits (draws : Nat) (bs : Bits) (hb : WriterInv s → s.bwPos.toNat + bs.length ≤ s.regionBits) :
      Effect s { s.wrAll bs with draws := draws }.complete
  /-- HENC whose source overlaps its region. -/
  | encodedOverSource (draws : Nat) (pos : Word) (hp : WriterInv s → pos.toNat ≤ s.regionBits) :
      Effect s { { s with draws := draws }.scramble s.bwBase.toNat s.bwCap.toNat with bwPos := pos }.complete
  | stored (clash : Bool) (a : Nat) (bs : List Byte) (hr : FitsMemory s a bs.length) :
      Effect s (s.storeOrScramble clash a bs).complete
  | decoded (clash : Bool) (a : Nat) (bs : List Byte) (tree : TreeBuild) (pos : Nat) (hr : FitsMemory s a bs.length)
      (ht : s.readTree = .ok tree) (hp : ReaderInv s → pos ≤ s.windowBits) :
      Effect s (((s.storeOrScramble clash a bs).withTree tree).setBcPos pos).complete
  | tookTree (tree : TreeBuild) (ht : s.readTree = .ok tree) : Effect s (s.withTree tree).complete
  | setTable (t : TableIx) (T : MapTable) (hT : TableValid T) : Effect s (s.setTable t T).complete
  | setStep (q : StepIx) (v : Half) (hv : 1 ≤ v.toNat) : Effect s { s with qstep := s.qstep.set q v }.complete
  | setPlane (dim pcfg : Word) (hp : PlaneInv { s with dim := dim, pcfg := pcfg }) :
      Effect s { s with dim := dim, pcfg := pcfg }.complete

/-- A meaning gives a next state, with one of the effects. -/
def HasEffect (s : State) (r : Result) : Prop := ∃ t, r = .next t ∧ Effect s t

theorem Effect.hasEffect {s t : State} (h : Effect s t) : HasEffect s (.next t) := ⟨t, rfl, h⟩

section
variable {s : State} {body : Result}

theorem withRanges_hasEffect (rs : List (Word × Nat))
    (h : (∀ r ∈ rs, FitsMemory s r.1.toNat r.2) → HasEffect s body) : HasEffect s (s.withRanges rs body) := by
  rcases withRanges_cases s rs body with ⟨a, -, e⟩ | ⟨hf, e⟩ <;> rw [e]
  · exact (Effect.raised _ _).hasEffect
  · exact h hf

theorem withTable_hasEffect (t : TableIx) (h : HasEffect s body) : HasEffect s (s.withTable t body) := by
  unfold State.withTable
  split
  · exact h
  · exact (Effect.raised _ _).hasEffect

theorem withTreeValid_hasEffect (h : HasEffect s body) : HasEffect s (s.withTreeValid body) := by
  unfold State.withTreeValid
  split
  · exact h
  · exact (Effect.raised _ _).hasEffect

theorem withPlane_hasEffect (h : HasEffect s body) : HasEffect s (s.withPlane body) := by
  unfold State.withPlane
  split
  · exact (Effect.raised _ _).hasEffect
  · exact h

end

section
variable (s : State)

theorem readInto_hasEffect (rd : RegIx) (r : Except StreamFault (Word × Nat))
    (h : ReaderInv s → EndsInWindow s Prod.snd r) : HasEffect s (s.readInto rd r) := by
  cases r with
  | error f => exact (Effect.streamFault f h).hasEffect
  | ok r => exact (Effect.readBits rd r.1 r.2 h).hasEffect

/-- A destination that is the first range a command checks, stored with as many bytes as the range has. -/
theorem rangedStore_hasEffect (clash : Bool) (a : Word) (n : Nat) (rs : List (Word × Nat)) (bs : List Byte)
    (hn : bs.length = n) :
    HasEffect s (s.withRanges ((a, n) :: rs) (.next (s.storeOrScramble clash a.toNat bs).complete)) :=
  withRanges_hasEffect _ fun hr => (Effect.stored clash _ bs (hn ▸ hr (a, n) (by simp))).hasEffect

theorem mapSamples_hasEffect (f : Int → Int) (ra rb rc : RegIx) : HasEffect s (s.mapSamples f ra rb rc) :=
  rangedStore_hasEffect s _ _ _ _ _ (by simp [halvesBytes_length])

/-! ## One lemma per family of commands -/

theorem execBrinit_hasEffect (ra rb : RegIx) : HasEffect s (execBrinit ra rb s) :=
  withRanges_hasEffect _ fun hr => (Effect.openedWindow _ _ (hr (s.reg ra, s.regNat rb) (by simp))).hasEffect

theorem execBrbit_hasEffect (rd : RegIx) : HasEffect s (execBrbit rd s) :=
  readInto_hasEffect s rd _ fun h => (endsInWindow_map ..).mpr (rdBit_endsInWindow s h.1)

theorem execBrbits_hasEffect (rd : RegIx) (n : Nat) : HasEffect s (execBrbits rd n s) :=
  readInto_hasEffect s rd _ fun h => (endsInWindow_map ..).mpr (rdBits_endsInWindow s h.1 n)

theorem execHsym_hasEffect (rd : RegIx) (walk : Bool) : HasEffect s (execHsym rd walk s) :=
  withTreeValid_hasEffect
    (readInto_hasEffect s rd _ fun h => (endsInWindow_map ..).mpr (decodeSym_endsInWindow s _ _ walk h.1))

theorem execBradv_hasEffect (ra : RegIx) : HasEffect s (execBradv ra s) := by
  have ha := fun h : ReaderInv s => advance_endsInWindow s h.1 (s.regNat ra)
  unfold execBradv
  split
  · exact (Effect.streamFault _ fun h => (ha h).of_error ‹_›).hasEffect
  · exact (Effect.advanced _ fun h => (ha h).of_ok ‹_›).hasEffect

theorem execBwinit_hasEffect (ra rb : RegIx) : HasEffect s (execBwinit ra rb s) :=
  withRanges_hasEffect _ fun hr => (Effect.openedRegion _ _ (hr (s.reg ra, s.regNat rb) (by simp))).hasEffect

theorem execBwbits_hasEffect (ra : RegIx) (n : Nat) : HasEffect s (execBwbits ra n s) := by
  unfold execBwbits
  rcases wrBits_cases s (bitsOfNat n (s.regNat ra)) with ⟨hb, e⟩ | ⟨-, e⟩ <;> rw [e]
  · exact (Effect.wroteBits (s.wrAll _).draws _ fun _ => hb).hasEffect
  · exact (Effect.raised _ _).hasEffect

theorem execHenc_hasEffect (ra rb : RegIx) : HasEffect s (execHenc ra rb s) := by
  refine withRanges_hasEffect _ fun _ => ?_
  rw [drewTree_eq s]
  split
  · exact (Effect.encodeFault _ _ _ _ (hencRange_fits s _)).hasEffect
  · rename_i s' e
    obtain ⟨rfl, hb⟩ := wrChunksAt_eq_ok _ _ _ _ e
    split
    · refine (Effect.encodedOverSource _ _ fun h => ?_).hasEffect
      have := hb h.1
      rw [wrAll_bwPos, BitVec.toNat_add, BitVec.toNat_ofNat]
      omega
    · rw [drewTree_eq (s.wrAll _)]
      exact (Effect.wroteBits _ _ fun h => hb h.1).hasEffect

theorem execHdec_hasEffect (ra rb : RegIx) (walk : Bool) : HasEffect s (execHdec ra rb walk s) := by
  refine withRanges_hasEffect _ fun hr => ?_
  have hf : FitsMemory s (s.regNat ra) (s.regNat rb) := hr (s.reg ra, s.regNat rb) (by simp)
  have hd := fun h => decodeBlock_endsInWindow s walk (s.regNat rb) h
  split
  · exact (Effect.blockFault _ _ _ _ _ _ _ (nnodes_free_le _) hf fun h => (hd h).of_error ‹_›).hasEffect
  · obtain ⟨ht, hl⟩ := decodeBlock_eq_ok ‹_›
    exact (Effect.decoded _ _ _ _ _ (by unfold FitsMemory at hf ⊢; omega) ht fun h => (hd h).of_ok ‹_›).hasEffect

theorem execHtree_hasEffect : HasEffect s (execHtree s) := by
  have ht := readTree_endsInWindow s
  unfold execHtree
  split
  · exact (Effect.treeFault _ _ _ _ _ (nnodes_free_le _) fun h => (ht h).of_error ‹_›).hasEffect
  · exact (Effect.tookTree _ ‹_›).hasEffect

theorem execMload_hasEffect (t : TableIx) (ra : RegIx) : HasEffect s (execMload t ra s) := by
  refine withRanges_hasEffect _ fun _ => ?_
  split
  · exact (Effect.raised _ _).hasEffect
  · exact (Effect.setTable _ _ ((tableFault_eq_none_iff _).mp ‹_›)).hasEffect

theorem execMstore_hasEffect (t : TableIx) (ra : RegIx) : HasEffect s (execMstore t ra s) :=
  withTable_hasEffect t (rangedStore_hasEffect s false _ _ _ _ (tableBytes_length _))

theorem execMqinit_hasEffect (t : TableIx) (ra : RegIx) : HasEffect s (execMqinit t ra s) :=
  have hT := qualityTable_valid s.cfg.curve (min (s.regNat ra) 100)
  (Effect.setTable t (qualityTable s.cfg.curve (min (s.regNat ra) 100)) hT).hasEffect

theorem execMmapv_hasEffect (t : TableIx) (ra rb rc : RegIx) : HasEffect s (execMmapv t ra rb rc s) :=
  withTable_hasEffect t (rangedStore_hasEffect s _ _ _ _ _ (by simp))

theorem execMunmapv_hasEffect (t : TableIx) (ra rb rc : RegIx) : HasEffect s (execMunmapv t ra rb rc s) :=
  withTable_hasEffect t (rangedStore_hasEffect s _ _ _ _ _ (by simp [halvesBytes_length]))

theorem execSetq_hasEffect (q : StepIx) (ra : RegIx) : HasEffect s (execSetq q ra s) := by
  unfold execSetq
  split
  · exact (Effect.raised _ _).hasEffect
  · refine (Effect.setStep _ _ ?_).hasEffect
    rw [BitVec.toNat_ofNat, Nat.mod_eq_of_lt] <;> omega

theorem execSetdim_hasEffect (ra rb : RegIx) : HasEffect s (execSetdim ra rb s) := by
  unfold execSetdim
  dsimp only
  split
  · exact (Effect.raised _ _).hasEffect
  · rename_i h
    push Not at h
    obtain ⟨hw, hh, hk, hk'⟩ := h
    exact (Effect.setPlane _ _ (planeInv_of_fields s _ hw hh hk hk')).hasEffect

theorem execDsamp_hasEffect (ra rb : RegIx) : HasEffect s (execDsamp ra rb s) :=
  withPlane_hasEffect (rangedStore_hasEffect s _ _ _ _ _ (by simp [halvesBytes_length]))

theorem execUsamp_hasEffect (ra rb : RegIx) : HasEffect s (execUsamp ra rb s) :=
  withPlane_hasEffect (rangedStore_hasEffect s _ _ _ _ _ (by simp [halvesBytes_length]))

theorem execResid_hasEffect (ra rb rc : RegIx) : HasEffect s (execResid ra rb rc s) :=
  withPlane_hasEffect (rangedStore_hasEffect s _ _ _ _ _ (by simp [halvesBytes_length]))

theorem execRecon_hasEffect (ra rb rc : RegIx) : HasEffect s (execRecon ra rb rc s) :=
  withPlane_hasEffect (rangedStore_hasEffect s _ _ _ _ _ (by simp))

/-- Every command gives a next state, and that state has one of the effects. -/
theorem exec_hasEffect (i : Instr) : HasEffect s (exec i s) := by
  cases i with
  | halt => exact Effect.halted.hasEffect
  | nop => exact Effect.completed.hasEffect
  | li rd | lih rd | add rd | addi rd | brpeek rd | brend rd | brpos rd | bwsize rd | msize rd | quant rd
  | dequant rd => exact (Effect.wroteReg rd _).hasEffect
  | hlutrd rd => exact withTreeValid_hasEffect (Effect.wroteReg rd _).hasEffect
  | mmap rd _ t | munmap rd _ t => exact withTable_hasEffect t (Effect.wroteReg rd _).hasEffect
  | brinit ra rb => exact execBrinit_hasEffect s ra rb
  | brbit rd => exact execBrbit_hasEffect s rd
  | brbits rd n => exact execBrbits_hasEffect s rd n
  | bradv ra => exact execBradv_hasEffect s ra
  | bwinit ra rb => exact execBwinit_hasEffect s ra rb
  | bwbits ra n => exact execBwbits_hasEffect s ra n
  | henc ra rb => exact execHenc_hasEffect s ra rb
  | hdec ra rb walk => exact execHdec_hasEffect s ra rb walk
  | htree => exact execHtree_hasEffect s
  | hsym rd walk => exact execHsym_hasEffect s rd walk
  | mload t ra => exact execMload_hasEffect s t ra
  | mstore t ra => exact execMstore_hasEffect s t ra
  | mqinit t ra => exact execMqinit_hasEffect s t ra
  | mmapv t ra rb rc => exact execMmapv_hasEffect s t ra rb rc
  | munmapv t ra rb rc => exact execMunmapv_hasEffect s t ra rb rc
  | setq q ra => exact execSetq_hasEffect s q ra
  | quantv q ra rb rc => exact mapSamples_hasEffect s (fun v => quantize v (s.quantStep q)) ra rb rc
  | dequantv q ra rb rc => exact mapSamples_hasEffect s (fun v => dequantize v (s.quantStep q)) ra rb rc
  | setdim ra rb => exact execSetdim_hasEffect s ra rb
  | dsamp ra rb => exact execDsamp_hasEffect s ra rb
  | usamp ra rb => exact execUsamp_hasEffect s ra rb
  | resid ra rb rc => exact execResid_hasEffect s ra rb rc
  | recon ra rb rc => exact execRecon_hasEffect s ra rb rc

/-- A fetch and its command give a next state, with one of the effects. -/
theorem fetchAndExec_hasEffect : HasEffect s s.fetchAndExec := by
  rcases fetchAndExec_cases s with ⟨-, e⟩ | ⟨w, -, e⟩ | ⟨i, -, e⟩ <;> rw [e]
  · exact (Effect.raised _ _).hasEffect
  · exact (Effect.raised _ _).hasEffect
  · exact exec_hasEffect s i

end

end Sys2Proof.Machine

/-! What the host's transaction and the engine's turn can do, and how a property of the state is kept by every step. -/

namespace Sys2Proof.Machine

/-! ## The effects of a host transaction (10_state.md R56) -/

/-- One thing a host transaction can do to the state, with what it has checked. -/
inductive HostEffect (s : State) : State → Prop
  | read (value : Word) (draws : Nat) : HostEffect s { s with hostData := value, draws := draws }
  | reset : HostEffect s s.hardReset
  | softReset : HostEffect s s.softReset
  | tookIe (ie : Bool) : HostEffect s { s with ie := ie }
  | cleared (h : s.engine = .done ∨ s.engine = .failed) :
      HostEffect s { s with engine := .idle, err := 0#32, errcp := 0#32, errinfo := 0#32 }
  | started (h : s.engine = .idle) : HostEffect s { s with engine := .busy, cmdcnt := 0#32, loose := [] }
  | wroteCp (v : Word) : HostEffect s { s with cp := alignCp v }
  | wroteReg (r : RegIx) (v : Word) : HostEffect s (s.setReg r v)
  | wroteByte (a : Nat) (b : Byte) (h : a < s.cfg.memBytes) : HostEffect s (s.storeBytes a [b])
  | wroteLooseByte (a : Nat) (loose : List Piece) (h : a < s.cfg.memBytes) :
      HostEffect s { s.scramble a 1 with loose := loose }

/-- What a whole transaction does: some of these one after another, as IE, CLR and GO of one CTRL write, or none. -/
abbrev HostEffects : State → State → Prop := Relation.ReflTransGen HostEffect

theorem clear_hostEffects (s : State) : HostEffects s s.clear := by
  rcases clear_cases s with ⟨h, e⟩ | ⟨-, e⟩ <;> rw [e]
  exact .single (.cleared h)

theorem go_hostEffects (s : State) : HostEffects s s.go := by
  rcases go_cases s with ⟨h, e⟩ | ⟨-, e⟩ <;> rw [e]
  exact .single (.started h)

theorem ite_hostEffects {c : Prop} [Decidable c] {s t : State} (h : HostEffects s t) :
    HostEffects s (if c then t else s) := by
  split
  · exact h
  · exact .refl

theorem writeCtrl_hostEffects (s : State) (v : Word) : HostEffects s (s.writeCtrl v) := by
  unfold State.writeCtrl
  split
  · exact .single .softReset
  · exact .head (.tookIe _) ((ite_hostEffects (clear_hostEffects _)).trans (ite_hostEffects (go_hostEffects _)))

theorem regPortWrite_hostEffects (s : State) (reg : Fin 64) (v : Word) : HostEffects s (s.regPortWrite reg v) := by
  unfold State.regPortWrite
  split
  · exact writeCtrl_hostEffects s v
  · split
    · exact .refl
    · split
      · exact .single (.wroteCp v)
      · split
        · exact .single (.wroteReg _ v)
        · exact .refl

theorem regPortRead_hostEffects (s : State) (reg : Fin 64) : HostEffects s (s.regPortRead reg) := by
  unfold State.regPortRead
  split
  · exact .single (.read _ _)
  · exact .single (.read _ s.draws)

theorem memPortRead_hostEffects (s : State) (a : Word) : HostEffects s (s.memPortRead a) := by
  unfold State.memPortRead
  split
  · exact .single (.read _ _)
  · exact .single (.read _ s.draws)

theorem memPortWrite_hostEffects (s : State) (a : Word) (b : Byte) (h : a.toNat < s.cfg.memBytes) :
    HostEffects s (s.memPortWrite a b) := by
  unfold State.memPortWrite
  split
  · exact .single (.wroteLooseByte _ _ h)
  · exact .single (.wroteByte _ _ h)

/-- A host transaction that gives a next state is a sequence of effects. -/
theorem hostTurn_hostEffects {a : HostAction} {s t : State} (h : hostTurn a s = .next t) : HostEffects s t := by
  cases a with
  | regRead reg => cases h; exact regPortRead_hostEffects s reg
  | regWrite reg v => cases h; exact regPortWrite_hostEffects s reg v
  | memRead a =>
    simp only [hostTurn] at h
    split at h <;> cases h
    exact memPortRead_hostEffects s a
  | memWrite a b =>
    simp only [hostTurn] at h
    split at h <;> cases h
    exact memPortWrite_hostEffects s a b ‹_›
  | resetInput => cases h; exact .single .reset

/-! ## The engine's turn, with what is loose (20_memory.md R78) -/

/-- The engine's command is the one at CP where nothing is loose; else it is a variant's, with some pieces drawn. -/
theorem runNext_cases (s : State) :
    (∃ t, Effect s t ∧ s.runNext = .next t) ∨
      ∃ v ∈ s.variants, ∃ t ps, Effect v t ∧ s.runNext = .next (t.loosened ps) := by
  by_cases hl : s.loose = []
  · obtain ⟨t, ht, hE⟩ := fetchAndExec_hasEffect s
    exact .inl ⟨t, hE, (runNext_of_nothing s hl).trans ht⟩
  · obtain ⟨v, vs, hv, hn⟩ := runNext_of_loose s hl
    obtain ⟨t, ht, hE⟩ := fetchAndExec_hasEffect v
    exact .inr ⟨v, by simp [hv], t, _, hE, hn t ht⟩

/-! ## Properties that every step keeps -/

/-- A property that each thing a step is made of keeps: the model's own fields and IE, a draw of pieces, a command from
the BUSY engine, and a host transaction. -/
structure KeptByParts (P : State → Prop) : Prop where
  bookkeeping (s : State) (draws : Nat) (loose : List Piece) (inputs : List Turn) :
    P s → P { s with draws := draws, loose := loose, inputs := inputs }
  drawn (s : State) (ps : List Piece) (d : Nat) : P s → P (s.drawn ps d)
  effect {s t : State} : s.engine = .busy → Effect s t → P s → P t
  hostEffect {s t : State} : HostEffect s t → P s → P t

namespace KeptByParts

variable {P : State → Prop}

/-- A variant of a state is the state or a draw of it, so it keeps the property and the engine's state. -/
theorem variant (hP : KeptByParts P) {s v : State} (hv : v ∈ s.variants) (h : P s) : P v ∧ v.engine = s.engine := by
  unfold State.variants at hv
  split at hv
  · rw [List.mem_singleton.mp hv]
    exact ⟨h, rfl⟩
  · obtain ⟨k, -, rfl⟩ := List.mem_map.mp hv
    have hd := hP.drawn s s.loose (s.draws + 1 + k) h
    exact ⟨hP.bookkeeping _ _ (s.drawn _ _).loose (s.drawn _ _).inputs hd, (drawn_control _ _ _).2.1⟩

theorem loosened (hP : KeptByParts P) {t : State} (ps : List Piece) (h : P t) : P (t.loosened ps) :=
  hP.bookkeeping _ _ _ (t.drawn ps t.draws).inputs (hP.drawn t ps t.draws h)

theorem engineTurn (hP : KeptByParts P) {s t : State} (h : P s) (ht : engineTurn s = .next t) : P t := by
  rcases engineTurn_cases s with ⟨-, e⟩ | ⟨hb, e⟩ <;> rw [e] at ht
  · cases ht; exact h
  · rcases runNext_cases s with ⟨u, hE, e⟩ | ⟨v, hv, u, ps, hE, e⟩ <;> rw [e] at ht <;> cases ht
    · exact hP.effect hb hE h
    · obtain ⟨hPv, hbv⟩ := hP.variant hv h
      exact hP.loosened ps (hP.effect (hbv.trans hb) hE hPv)

theorem hostEffects (hP : KeptByParts P) {s t : State} (ht : HostEffects s t) (h : P s) : P t := by
  induction ht with
  | refl => exact h
  | tail _ he ih => exact hP.hostEffect he ih

/-- A property that the parts of a step keep is kept by every step, the host's included. -/
theorem step (hP : KeptByParts P) {s t : State} (h : P s) (ht : step s = .next t) : P t := by
  have hrest := fun rest => hP.bookkeeping s s.draws s.loose rest h
  rcases step_cases s with ⟨-, e⟩ | ⟨rest, -, e⟩ | ⟨a, rest, -, e⟩ <;> rw [e] at ht
  · exact hP.engineTurn h ht
  · exact hP.engineTurn (hrest rest) ht
  · exact hP.hostEffects (hostTurn_hostEffects ht) (hrest rest)

end KeptByParts

end Sys2Proof.Machine

/-! Every step keeps the parameters, CP aligned, the windows and positions of the reader and the writer, and memory in
canonical form inside MEM_BYTES. -/

namespace Sys2Proof.Machine

/-! ## Memory stays canonical and inside MEM_BYTES (20_memory.md R70) -/

section
variable {s : State} (h : MemoryInv s)
include h

theorem memoryInv_storeBytes {a : Nat} {bs : List Byte} (hr : FitsMemory s a bs.length) :
    MemoryInv (s.storeBytes a bs) := by
  refine ⟨storeBytes_wf s a bs h.1, fun c hc => ?_⟩
  rcases Memory.mem_putAll bs s.mem a c hc with hc | hc
  · simp only [FitsMemory, storeBytes_cfg] at hr ⊢; omega
  · exact h.2 c hc

theorem memoryInv_scramble {a n : Nat} (hr : FitsMemory s a n) : MemoryInv (s.scramble a n) :=
  memoryInv_storeBytes h (bs := (List.range n).map fun k => Config.freeByte s.draws (a + k)) (by simpa using hr)

theorem memoryInv_storeOrScramble (clash : Bool) {a : Nat} {bs : List Byte} (hr : FitsMemory s a bs.length) :
    MemoryInv (s.storeOrScramble clash a bs) := by
  cases clash
  · exact memoryInv_storeBytes h hr
  · exact memoryInv_scramble h hr

end

/-- A bit written inside the region keeps the memory and the region. -/
theorem wrBit_keeps {s : State} (b : Bool) (hw : WriterInv s) (hm : MemoryInv s) (hp : s.bwPos.toNat < s.regionBits) :
    WriterInv (s.wrBit b) ∧ MemoryInv (s.wrBit b) := by
  unfold State.regionBits at hp
  obtain ⟨-, hfit⟩ := hw
  refine ⟨⟨?_, hfit⟩, wrBit_wf s b hm.1, fun c hc => ?_⟩
  · rw [wrBit_bwPos, wrBit_bwCap, BitVec.toNat_add]
    have : (1#32).toNat = 1 := rfl
    omega
  · rcases Memory.mem_put s.mem _ _ c hc with rfl | hc
    · simp only [wrBit_cfg]; omega
    · exact hm.2 c hc

/-- Bits that fit the region keep the memory and the region. -/
theorem wrAll_keeps (bs : Bits) : ∀ {s : State}, WriterInv s → MemoryInv s → s.bwPos.toNat + bs.length ≤ s.regionBits →
    WriterInv (s.wrAll bs) ∧ MemoryInv (s.wrAll bs) := by
  induction bs with
  | nil => exact fun hw hm _ => ⟨hw, hm⟩
  | cons b bs ih =>
    intro s hw hm hp
    rw [List.length_cons] at hp
    obtain ⟨hw', hm'⟩ := wrBit_keeps b hw hm (by omega)
    refine ih hw' hm' ?_
    have hr : (s.wrBit b).regionBits = s.regionBits := rfl
    have : (1#32).toNat = 1 := rfl
    rw [hr, wrBit_bwPos, BitVec.toNat_add]
    omega

/-- The free BW_POS after a fault of HENC stands inside the region (60_exceptions.md R310). -/
theorem scrambleBwPos_bwPos_le {s : State} (h : s.bwPos.toNat ≤ s.regionBits) :
    s.scrambleBwPos.bwPos.toNat ≤ s.regionBits := by
  have e : s.scrambleBwPos.bwPos.toNat = (s.bwPos.toNat +
      Config.freeCount s.draws % (min s.regionBits 4294967295 - s.bwPos.toNat + 1)) % 2 ^ 32 := BitVec.toNat_ofNat ..
  have hlt := Nat.mod_lt (Config.freeCount s.draws) (show 0 < min s.regionBits 4294967295 - s.bwPos.toNat + 1 by omega)
  have hle := Nat.mod_le (s.bwPos.toNat +
    Config.freeCount s.draws % (min s.regionBits 4294967295 - s.bwPos.toNat + 1)) (2 ^ 32)
  omega

/-! ## What a command's effects keep -/

theorem Effect.cfg_eq {s t : State} (he : Effect s t) : t.cfg = s.cfg := by
  cases he with
  | wroteBits d bs => exact wrAll_cfg bs s
  | stored | decoded => simp
  | _ => rfl

theorem cp_add_four_mod (cp : Word) (h : cp.toNat % 4 = 0) : (cp + 4#32).toNat % 4 = 0 := by
  rw [BitVec.toNat_add]
  have : (4#32).toNat = 4 := rfl
  omega

/-- CP moves by 4 or not at all (46_control.md R281). -/
theorem Effect.cp_eq {s t : State} (he : Effect s t) : t.cp = s.cp ∨ t.cp = s.cp + 4#32 := by
  cases he with
  | raised | streamFault | treeFault | blockFault | encodeFault => exact .inl rfl
  | wroteBits d bs => exact .inr (congrArg (· + 4#32) (wrAll_cp bs s))
  | stored clash | decoded clash => exact .inr (congrArg (· + 4#32) (storeOrScramble_cp s clash _ _))
  | _ => exact .inr rfl

theorem Effect.cpInv {s t : State} (he : Effect s t) (h : CpInv s) : CpInv t := by
  rcases he.cp_eq with e | e <;> rw [CpInv, e]
  · exact h
  · exact cp_add_four_mod s.cp h

/-- A position inside the window still is in the 32 bits of BC_POS (assumption log 15). -/
theorem ofNat_toNat_le {pos n : Nat} (h : pos ≤ n) : (BitVec.ofNat 32 pos).toNat ≤ n := by
  rw [BitVec.toNat_ofNat]
  exact (Nat.mod_le _ _).trans h

/-- The window of a state, with a position inside it. -/
theorem readerInv_of_pos {s t : State} (h : ReaderInv s) (hc : t.cfg = s.cfg) (hb : t.bcBase = s.bcBase)
    (hl : t.bcLen = s.bcLen) {p : Word} (hp : t.bcPos = p) (hle : p.toNat ≤ s.windowBits) : ReaderInv t := by
  rw [ReaderInv, hc, hb, hl, hp]
  exact ⟨hle, h.2⟩

/-- The region of a state, with a position inside it. -/
theorem writerInv_of_pos {s t : State} (h : WriterInv s) (hc : t.cfg = s.cfg) (hb : t.bwBase = s.bwBase)
    (hl : t.bwCap = s.bwCap) {p : Word} (hp : t.bwPos = p) (hle : p.toNat ≤ s.regionBits) : WriterInv t := by
  rw [WriterInv, hc, hb, hl, hp]
  exact ⟨hle, h.2⟩

theorem memoryInv_of_mem {s t : State} (h : MemoryInv s) (hc : t.cfg = s.cfg) (hm : t.mem = s.mem) : MemoryInv t := by
  rwa [MemoryInv, hc, hm]

theorem Effect.readerInv {s t : State} (he : Effect s t) (h : ReaderInv s) : ReaderInv t := by
  have hc := he.cfg_eq
  cases he with
  | streamFault f hf | treeFault f _ _ _ _ _ hf | blockFault f _ _ _ _ _ _ _ _ hf =>
    exact readerInv_of_pos h hc rfl rfl rfl (ofNat_toNat_le (hf h))
  | readBits _ _ pos hp | advanced pos hp => exact readerInv_of_pos h hc rfl rfl rfl (ofNat_toNat_le (hp h))
  | openedWindow base len hr => exact ⟨Nat.zero_le _, fun hl => hr.resolve_left (Nat.pos_iff_ne_zero.mp hl)⟩
  | wroteBits d bs => exact readerInv_of_pos h hc (wrAll_bcBase bs s) (wrAll_bcLen bs s) (wrAll_bcPos bs s) h.1
  | stored => exact readerInv_of_pos h hc (by simp) (by simp) (by simp) h.1
  | decoded _ _ _ _ pos _ _ hp =>
    exact readerInv_of_pos h hc (by simp) (by simp) (by simp) (ofNat_toNat_le (hp h))
  | tookTree tree ht =>
    exact readerInv_of_pos h hc rfl rfl rfl (ofNat_toNat_le ((readTree_endsInWindow s h).of_ok ht))
  | _ => exact readerInv_of_pos h hc rfl rfl rfl h.1

theorem Effect.writerInv_and_memoryInv {s t : State} (he : Effect s t) (hw : WriterInv s) (hm : MemoryInv s) :
    WriterInv t ∧ MemoryInv t := by
  have hc := he.cfg_eq
  cases he with
  | blockFault f _ _ _ _ a n _ hr =>
    exact ⟨writerInv_of_pos hw hc rfl rfl rfl hw.1, memoryInv_of_mem (memoryInv_scramble hm hr) rfl rfl⟩
  | encodeFault d a n info hr =>
    have hs : MemoryInv ({ s with draws := d }.scramble a n) :=
      memoryInv_scramble (s := { s with draws := d }) hm (hr hw)
    have hp := scrambleBwPos_bwPos_le (s := { s with draws := d }.scramble a n) hw.1
    exact ⟨writerInv_of_pos hw hc rfl rfl rfl hp, memoryInv_of_mem hs rfl rfl⟩
  | openedRegion base cap hr =>
    exact ⟨⟨Nat.zero_le _, fun hl => hr.resolve_left (Nat.pos_iff_ne_zero.mp hl)⟩, memoryInv_of_mem hm rfl rfl⟩
  | wroteBits d bs hb =>
    obtain ⟨hw', hm'⟩ := wrAll_keeps bs hw hm (hb hw)
    exact ⟨writerInv_of_pos hw' rfl rfl rfl rfl hw'.1, memoryInv_of_mem hm' rfl rfl⟩
  | encodedOverSource d pos hp =>
    have hr : FitsMemory s s.bwBase.toNat s.bwCap.toNat := hencRange_fits s true hw
    have hs : MemoryInv ({ s with draws := d }.scramble s.bwBase.toNat s.bwCap.toNat) :=
      memoryInv_scramble (s := { s with draws := d }) hm hr
    exact ⟨writerInv_of_pos hw hc rfl rfl rfl (hp hw), memoryInv_of_mem hs rfl rfl⟩
  | stored clash a bs hr | decoded clash a bs _ _ hr =>
    have hs := memoryInv_storeOrScramble hm clash hr
    exact ⟨writerInv_of_pos hw hc (by simp) (by simp) (by simp) hw.1, memoryInv_of_mem hs (by simp) (by simp)⟩
  | _ => exact ⟨writerInv_of_pos hw hc rfl rfl rfl hw.1, memoryInv_of_mem hm rfl rfl⟩

/-! ## What a draw keeps -/

theorem redrawPiece_memoryInv {s : State} (d : Nat) (p : Piece) (h : MemoryInv s) : MemoryInv (s.redrawPiece d p) := by
  cases p with
  | byte a =>
    simp only [State.redrawPiece]
    split
    · exact memoryInv_storeBytes h (bs := [Config.freeByte d a]) (.inr ‹_›)
    · exact h
  | _ => exact h

theorem redrawPieces_memoryInv (d : Nat) (ps : List Piece) : ∀ {s : State}, MemoryInv s →
    MemoryInv (ps.foldl (State.redrawPiece d) s) := by
  induction ps with
  | nil => exact fun h => h
  | cons p ps ih => exact fun h => ih (redrawPiece_memoryInv d p h)

theorem drawn_memoryInv {s : State} (ps : List Piece) (d : Nat) (h : MemoryInv s) : MemoryInv (s.drawn ps d) :=
  redrawPieces_memoryInv d ps h

/-! ## What the host's effects keep -/

/-- Every variant of a state has its parameters. -/
theorem variant_cfg {s v : State} (hv : v ∈ s.variants) : v.cfg = s.cfg := by
  unfold State.variants at hv
  split at hv
  · rw [List.mem_singleton.mp hv]
  · obtain ⟨k, -, rfl⟩ := List.mem_map.mp hv
    exact (drawn_control s _ _).1

/-- The destination that a soft reset leaves free lies in memory (70_reset_and_hazards.md R341). -/
theorem destAtCp_fits (s : State) : FitsMemory s s.destAtCp.1 s.destAtCp.2 := by
  unfold State.destAtCp
  split
  · split
    · split
      · exact (inRange_iff ..).mp ‹_›
      · exact .inl rfl
    all_goals exact .inl rfl
  all_goals exact .inl rfl

theorem scrambles_keep (vs : List State) : ∀ {s : State}, (∀ v ∈ vs, v.cfg = s.cfg) → MemoryInv s →
    (vs.foldl (fun t v => t.scramble v.destAtCp.1 v.destAtCp.2) s).cfg = s.cfg ∧
      MemoryInv (vs.foldl (fun t v => t.scramble v.destAtCp.1 v.destAtCp.2) s) := by
  induction vs with
  | nil => exact fun _ hm => ⟨rfl, hm⟩
  | cons v vs ih =>
    intro s hv hm
    have hr : FitsMemory s v.destAtCp.1 v.destAtCp.2 := by
      have := destAtCp_fits v
      rwa [FitsMemory, hv v List.mem_cons_self] at this
    exact ih (s := s.scramble _ _) (fun w hw => hv w (List.mem_cons_of_mem _ hw)) (memoryInv_scramble hm hr)

theorem abandonCommand_keeps {s : State} (h : MemoryInv s) :
    s.abandonCommand.cfg = s.cfg ∧ MemoryInv s.abandonCommand :=
  scrambles_keep _ (fun _ hv => variant_cfg hv) h

/-- CP as the host writes it is the value with its low two bits dropped (10_state.md R32). -/
theorem alignCp_toNat (v : Word) : (alignCp v).toNat = v.toNat / 4 * 4 := by
  have hmask : ∀ i : Fin 32, (0xFFFFFFFC#32).getLsbD i.val = decide (2 ≤ i.val) := by decide
  have e : alignCp v = (v >>> 2) <<< 2 := by
    refine BitVec.eq_of_getLsbD_eq fun i hi => ?_
    have hi' := hmask ⟨i, hi⟩
    rw [alignCp, BitVec.getLsbD_and, hi', BitVec.getLsbD_shiftLeft, BitVec.getLsbD_ushiftRight]
    rcases Nat.lt_or_ge i 2 with h2 | h2
    · simp [h2, Nat.not_le.mpr h2]
    · simp [hi, h2, Nat.not_lt.mpr h2, Nat.add_sub_cancel' h2]
  rw [e, BitVec.toNat_shiftLeft, BitVec.toNat_ushiftRight, Nat.shiftRight_eq_div_pow, Nat.shiftLeft_eq]
  omega

/-- What the machine keeps of its parameters, CP, the two windows and memory. -/
def MemoryAndWindowsInv (cfg : Params) (s : State) : Prop :=
  s.cfg = cfg ∧ CpInv s ∧ ReaderInv s ∧ WriterInv s ∧ MemoryInv s

theorem HostEffect.memoryAndWindowsInv {cfg : Params} {s t : State} (he : HostEffect s t)
    (h : MemoryAndWindowsInv cfg s) : MemoryAndWindowsInv cfg t := by
  have ⟨hc, hcp, hr, hw, hm⟩ := h
  cases he with
  | reset =>
    refine ⟨hc, rfl, ⟨Nat.zero_le _, ?_⟩, ⟨Nat.zero_le _, ?_⟩, List.Pairwise.nil, ?_⟩ <;>
      simp [State.hardReset, State.afterReset]
  | softReset =>
    obtain ⟨hac, ham⟩ := abandonCommand_keeps hm
    exact ⟨hac.trans hc, rfl, ⟨Nat.zero_le _, nofun⟩, ⟨Nat.zero_le _, nofun⟩, ham⟩
  | wroteCp v =>
    have : CpInv { s with cp := alignCp v } := by rw [CpInv, alignCp_toNat]; omega
    exact ⟨hc, this, hr, hw, hm⟩
  | wroteByte a b ha => exact ⟨hc, hcp, hr, hw, memoryInv_storeBytes hm (.inr ha)⟩
  | wroteLooseByte a loose ha => exact ⟨hc, hcp, hr, hw, memoryInv_scramble hm (.inr ha)⟩
  | _ => exact h

theorem memoryAndWindows_keptByParts (cfg : Params) : KeptByParts (MemoryAndWindowsInv cfg) where
  bookkeeping _ _ _ _ h := h
  drawn s ps d h := by
    obtain ⟨hc, hcp, hr, hw, hm⟩ := h
    obtain ⟨dc, -, -, dcp, -⟩ := drawn_control s ps d
    refine ⟨dc.trans hc, ?_, ?_, ?_, drawn_memoryInv ps d hm⟩
    · rwa [CpInv, dcp]
    · exact (readerLegal_iff _).mp (readerLegal_drawn s ps d ((readerLegal_iff s).mpr hr))
    · exact (writerLegal_iff _).mp (writerLegal_drawn s ps d ((writerLegal_iff s).mpr hw))
  effect _ he h := by
    obtain ⟨hc, hcp, hr, hw, hm⟩ := h
    exact ⟨he.cfg_eq.trans hc, he.cpInv hcp, he.readerInv hr, he.writerInv_and_memoryInv hw hm⟩
  hostEffect he h := he.memoryAndWindowsInv h

/-- Settles O58: the parts of a step keep the parameters, CP, the windows and memory. -/
theorem stepKeepsMemoryAndWindows : Obligations.StepKeepsMemoryAndWindows := by
  intro s t _ hcp hr hw hm ht
  exact (memoryAndWindows_keptByParts s.cfg).step ⟨rfl, hcp, hr, hw, hm⟩ ht

end Sys2Proof.Machine

/-! Every step keeps an error recorded exactly in FAILED, present tables valid, steps at least 1 and the plane legal. -/

namespace Sys2Proof.Machine

/-! ## Errors (10_state.md R33, R36) -/

/-- The errors that FAILED can record are the ERR words of the thirteen faults. -/
theorem errInv_of_failed {s : State} {c : Cause} (he : s.engine = .failed) (h : s.err = c.errWord) : ErrInv s := by
  rw [ErrInv, if_pos he, h]
  cases c <;> decide

theorem errInv_of_clear {s : State} (he : s.engine ≠ .failed) (h : s.err = 0#32 ∧ s.errcp = 0#32 ∧ s.errinfo = 0#32) :
    ErrInv s := by
  rwa [ErrInv, if_neg he]

theorem ErrInv.clear_of_not_failed {s : State} (h : ErrInv s) (he : s.engine ≠ .failed) :
    s.err = 0#32 ∧ s.errcp = 0#32 ∧ s.errinfo = 0#32 := by
  rwa [ErrInv, if_neg he] at h

/-- A command takes a fault, with its ERR word and in FAILED, or leaves the errors alone and does not fail. -/
theorem Effect.failed_or_sameErr {s t : State} (he : Effect s t) :
    (∃ c : Cause, t.engine = .failed ∧ t.err = c.errWord) ∨
      ((t.engine = s.engine ∨ t.engine = .done) ∧ SameErr s t) := by
  cases he with
  | raised c => exact .inl ⟨c, rfl, rfl⟩
  | streamFault f | treeFault f | blockFault f => exact .inl ⟨f.cause, rfl, rfl⟩
  | encodeFault => exact .inl ⟨.writeOverflow, rfl, rfl⟩
  | halted => exact .inr ⟨.inr rfl, rfl, rfl, rfl⟩
  | wroteBits | stored | decoded => exact .inr ⟨.inl (by simp), by simp [SameErr]⟩
  | _ => exact .inr ⟨.inl rfl, rfl, rfl, rfl⟩

theorem Effect.errInv {s t : State} (he : Effect s t) (hb : s.engine = .busy) (h : ErrInv s) : ErrInv t := by
  rcases he.failed_or_sameErr with ⟨c, hf, hc⟩ | ⟨hn, h1, h2, h3⟩
  · exact errInv_of_failed hf hc
  · have hne : t.engine ≠ .failed := by rcases hn with e | e <;> simp [e, hb]
    refine errInv_of_clear hne ?_
    rw [h1, h2, h3]
    exact h.clear_of_not_failed (by simp [hb])

/-- Outside FAILED a draw leaves ERRINFO alone (10_state.md R38). -/
theorem drawn_errinfo {s : State} (ps : List Piece) (d : Nat) (h : s.engine ≠ .failed) :
    (s.drawn ps d).errinfo = s.errinfo := by
  obtain ⟨-, heng, -⟩ := redrawPieces_control d ps s
  exact if_neg (heng ▸ h)

theorem drawn_errInv {s : State} (ps : List Piece) (d : Nat) (h : ErrInv s) : ErrInv (s.drawn ps d) := by
  obtain ⟨-, heng, -, -, -, herr, hcp, -⟩ := drawn_control s ps d
  by_cases hf : s.engine = .failed
  · simpa only [ErrInv, heng, herr, if_pos hf] using h
  · refine errInv_of_clear (heng ▸ hf) ?_
    rw [herr, hcp, drawn_errinfo ps d hf]
    exact h.clear_of_not_failed hf

theorem HostEffect.errInv {s t : State} (he : HostEffect s t) (h : ErrInv s) : ErrInv t := by
  cases he with
  | reset | softReset | cleared => exact errInv_of_clear nofun ⟨rfl, rfl, rfl⟩
  | started hi => exact errInv_of_clear nofun (h.clear_of_not_failed (by simp [hi]))
  | _ => exact h

/-! ## Mapping tables (43_mapping.md R200) -/

/-- A command keeps the tables and their flags, or sets one valid table. -/
theorem Effect.tables {s t : State} (he : Effect s t) :
    (t.mt = s.mt ∧ t.tvalid = s.tvalid) ∨
      ∃ (k : TableIx) (T : MapTable), TableValid T ∧ t.mt = s.mt.set k T ∧ t.tvalid = s.tvalid.set k true := by
  cases he with
  | setTable k T hT => exact .inr ⟨k, T, hT, rfl, rfl⟩
  | wroteBits | stored | decoded => exact .inl (by simp)
  | _ => exact .inl ⟨rfl, rfl⟩

theorem Effect.tablesInv {s t : State} (he : Effect s t) (h : TablesInv s) : TablesInv t := by
  intro k hk
  rcases he.tables with ⟨hm, hv⟩ | ⟨k', T, hT, hm, hv⟩
  · rw [hm]
    exact h k (hv ▸ hk)
  · by_cases e : k = k'
    · subst e
      simpa [hm] using hT
    · have e' : k'.val ≠ k.val := fun e' => e (Fin.ext e'.symm)
      simp only [hv, Fin.getElem_fin, Vector.getElem_set_ne _ _ e'] at hk
      simpa [hm, Vector.getElem_set_ne _ _ e'] using h k hk

theorem tablesInv_of_none {s : State} (h : s.tvalid = Vector.replicate 2 false) : TablesInv s := by
  intro k hk
  simp [h] at hk

theorem HostEffect.tablesInv {s t : State} (he : HostEffect s t) (h : TablesInv s) : TablesInv t := by
  cases he with
  | reset | softReset => exact tablesInv_of_none rfl
  | _ => exact h

/-! ## Steps (10_state.md R45) -/

/-- A command keeps the steps, or sets one to at least 1. -/
theorem Effect.steps {s t : State} (he : Effect s t) :
    t.qstep = s.qstep ∨ ∃ (q : StepIx) (v : Half), 1 ≤ v.toNat ∧ t.qstep = s.qstep.set q v := by
  cases he with
  | setStep q v hv => exact .inr ⟨q, v, hv, rfl⟩
  | wroteBits | stored | decoded => exact .inl (by simp)
  | _ => exact .inl rfl

theorem Effect.stepsInv {s t : State} (he : Effect s t) (h : StepsInv s) : StepsInv t := by
  intro p
  rcases he.steps with e | ⟨q, v, hv, e⟩ <;> rw [e]
  · exact h p
  · simp only [Fin.getElem_fin, Vector.getElem_set]
    split
    · exact hv
    · exact h p

theorem stepsInv_of_reset {s : State} (h : s.qstep = Vector.replicate 4 1#16) : StepsInv s := by
  intro q
  simp [h]

theorem HostEffect.stepsInv {s t : State} (he : HostEffect s t) (h : StepsInv s) : StepsInv t := by
  cases he with
  | reset | softReset => exact stepsInv_of_reset rfl
  | _ => exact h

/-! ## The plane (45_plane.md R253) -/

theorem planeInv_congr {s t : State} (hd : t.dim = s.dim) (hp : t.pcfg = s.pcfg) (h : PlaneInv s) : PlaneInv t := by
  simpa only [PlaneInv, State.planeW, State.planeH, State.scaleLog, hd, hp] using h

theorem Effect.planeInv {s t : State} (he : Effect s t) (h : PlaneInv s) : PlaneInv t := by
  cases he with
  | setPlane dim pcfg hp => exact planeInv_congr rfl rfl hp
  | wroteBits | stored | decoded => exact planeInv_congr (by simp) (by simp) h
  | _ => exact planeInv_congr rfl rfl h

theorem HostEffect.planeInv {s t : State} (he : HostEffect s t) (h : PlaneInv s) : PlaneInv t := by
  cases he with
  | reset | softReset => exact .inl ⟨rfl, rfl⟩
  | _ => exact planeInv_congr rfl rfl h

/-! ## The statement -/

/-- What the machine keeps of its errors, tables, steps and plane. -/
def TablesStepsPlaneInv (s : State) : Prop := ErrInv s ∧ TablesInv s ∧ StepsInv s ∧ PlaneInv s

theorem tablesStepsPlane_keptByParts : KeptByParts TablesStepsPlaneInv where
  bookkeeping _ _ _ _ h := h
  drawn s ps d := by
    rintro ⟨he, ht, hs, hp⟩
    exact ⟨drawn_errInv ps d he, (tablesLegal_iff _).mp (tablesLegal_drawn s ps d ((tablesLegal_iff s).mpr ht)),
      (stepsLegal_iff _).mp (stepsLegal_drawn s ps d ((stepsLegal_iff s).mpr hs)),
      (planeLegal_iff _).mp (planeLegal_drawn s ps d ((planeLegal_iff s).mpr hp))⟩
  effect hb hE := fun ⟨he, ht, hs, hp⟩ => ⟨hE.errInv hb he, hE.tablesInv ht, hE.stepsInv hs, hE.planeInv hp⟩
  hostEffect hE := fun ⟨he, ht, hs, hp⟩ => ⟨hE.errInv he, hE.tablesInv ht, hE.stepsInv hs, hE.planeInv hp⟩

/-- Settles O59: the parts of a step keep the errors, the tables, the steps and the plane. -/
theorem stepKeepsTablesStepsAndPlane : Obligations.StepKeepsTablesStepsAndPlane :=
  fun _ _ he ht hs hp hst => tablesStepsPlane_keptByParts.step ⟨he, ht, hs, hp⟩ hst

end Sys2Proof.Machine

/-! Every step keeps the decoder tree. What a read of one node builds is stated for the part of the arena it fills: the
children stand after their parents, and the LUT entries of its keys lead to the nodes they name. -/

namespace Sys2Proof.Machine

/-! ## Parts of the arena -/

/-- The branches of the nodes lo ≤ n < hi have their children after them, and before hi. -/
def ForwardIn (node : Vector TreeNode 521) (lo hi : Nat) : Prop :=
  ∀ n x y : NodeIx, lo ≤ n.val → n.val < hi → node[n] = .branch x y →
    n.val < x.val ∧ x.val < hi ∧ n.val < y.val ∧ y.val < hi

/-- The nodes lo ≤ n < hi are the same in two arenas. -/
def SameNodes (lo hi : Nat) (node node' : Vector TreeNode 521) : Prop :=
  ∀ n : NodeIx, lo ≤ n.val → n.val < hi → node'[n] = node[n]

theorem forwardIn_congr {node node' : Vector TreeNode 521} {lo hi : Nat} (hs : SameNodes lo hi node node')
    (hf : ForwardIn node lo hi) : ForwardIn node' lo hi :=
  fun n x y hl hh e => hf n x y hl hh ((hs n hl hh).symm.trans e)

theorem forwardIn_append {node : Vector TreeNode 521} {lo mid hi : Nat} (hm : mid ≤ hi) (ha : ForwardIn node lo mid)
    (hb : ForwardIn node mid hi) : ForwardIn node lo hi := by
  intro n x y hl hh e
  rcases Nat.lt_or_ge n.val mid with h | h
  · have := ha n x y hl h e; omega
  · exact hb n x y h hh e

/-- A branch before its part of the arena, with both children in that part. -/
theorem forwardIn_cons {node : Vector TreeNode 521} {i a b : NodeIx} {hi : Nat} (e : node[i] = .branch a b)
    (ha : i.val < a.val ∧ a.val < hi) (hb : i.val < b.val ∧ b.val < hi) (hf : ForwardIn node (i.val + 1) hi) :
    ForwardIn node i.val hi := by
  intro n x y hl hh en
  rcases Nat.eq_or_lt_of_le hl with h | h
  · obtain rfl : i = n := Fin.ext h
    rw [e, TreeNode.branch.injEq] at en
    obtain ⟨rfl, rfl⟩ := en
    exact ⟨ha.1, ha.2, hb⟩
  · exact hf n x y h hh en

/-- A descent in a part of the arena that no branch leaves stays in it, and is the same in every arena that agrees. -/
theorem descend_congr {node node' : Vector TreeNode 521} {lo hi : Nat} (hs : SameNodes lo hi node node')
    (hf : ForwardIn node lo hi) (bs : Bits) : ∀ i n : NodeIx, lo ≤ i.val → i.val < hi → descend node i bs = some n →
      descend node' i bs = some n ∧ lo ≤ n.val ∧ n.val < hi := by
  induction bs with
  | nil => intro i n hl hh h; cases h; exact ⟨rfl, hl, hh⟩
  | cons c bs ih =>
    intro i n hl hh h
    unfold descend at h ⊢
    rw [hs i hl hh]
    cases e : node[i] with
    | leaf sym => simp [e] at h
    | branch x y =>
      simp only [e] at h ⊢
      obtain ⟨hx, hx', hy, hy'⟩ := hf i x y hl hh e
      cases c
      · exact ih x n (by omega) hx' h
      · exact ih y n (by omega) hy' h

/-! ## The entry of a key, from a node on -/

/-- How many bits of its key a LUT entry uses (10_state.md R47). -/
def entryBits : LutEntry → Nat
  | .terminal _ len => len.val
  | .nonTerminal _ => 8

/-- A LUT entry names this node: a terminal entry a leaf by its symbol, a non-terminal entry a branch by its index. -/
def EntryNames (node : Vector TreeNode 521) (n : NodeIx) : LutEntry → Prop
  | .terminal sym _ => node[n] = .leaf sym
  | .nonTerminal m => m = n ∧ ∃ x y, node[n] = .branch x y

/-- The bits of a key from `depth` on lead from node i to the node that the key's entry names. -/
def EntryBelow (node : Vector TreeNode 521) (i : NodeIx) (depth key : Nat) (e : LutEntry) : Prop :=
  depth ≤ entryBits e ∧
    ∃ n, descend node i (bitsOfNat (entryBits e - depth) (key / 2 ^ depth)) = some n ∧ EntryNames node n e

/-- From the root on, that is agreement with the tree (10_state.md R47). -/
theorem lutEntryOk_of_entryBelow_root {node : Vector TreeNode 521} {key : Fin 256} {e : LutEntry}
    (h : EntryBelow node 0 0 key.val e) : LutEntryOk node key e := by
  obtain ⟨-, n, hd, hn⟩ := h
  rw [pow_zero, Nat.div_one, Nat.sub_zero] at hd
  cases e with
  | terminal sym len => exact ⟨n, hd, hn⟩
  | nonTerminal m => obtain ⟨rfl, hxy⟩ := hn; exact ⟨hd, hxy⟩

/-- An entry that names node i itself. -/
theorem entryBelow_self {node : Vector TreeNode 521} {i : NodeIx} {depth key : Nat} {e : LutEntry}
    (hb : entryBits e = depth) (hn : EntryNames node i e) : EntryBelow node i depth key e := by
  refine ⟨hb.ge, i, ?_, hn⟩
  rw [hb, Nat.sub_self]
  rfl

/-- An entry below the child that bit `depth` of the key selects is an entry below the branch. -/
theorem entryBelow_of_child {node : Vector TreeNode 521} {i a b : NodeIx} {depth key : Nat} {e : LutEntry}
    (hi : node[i] = .branch a b)
    (h : EntryBelow node (if key / 2 ^ depth % 2 == 1 then b else a) (depth + 1) key e) :
    EntryBelow node i depth key e := by
  obtain ⟨hl, n, hd, hn⟩ := h
  refine ⟨Nat.le_of_succ_le hl, n, ?_, hn⟩
  have hlen : entryBits e - depth = (entryBits e - (depth + 1)) + 1 := by omega
  rw [hlen, bitsOfNat, descend, hi, Nat.div_div_eq_div_mul, ← Nat.pow_succ]
  exact hd

theorem entryBelow_congr {node node' : Vector TreeNode 521} {lo hi : Nat} (hs : SameNodes lo hi node node')
    (hf : ForwardIn node lo hi) {i : NodeIx} (hl : lo ≤ i.val) (hh : i.val < hi) {depth key : Nat} {e : LutEntry}
    (h : EntryBelow node i depth key e) : EntryBelow node' i depth key e := by
  obtain ⟨hb, n, hd, hn⟩ := h
  obtain ⟨hd', hnl, hnh⟩ := descend_congr hs hf _ i n hl hh hd
  refine ⟨hb, n, hd', ?_⟩
  cases e <;> simpa only [EntryNames, hs n hnl hnh] using hn

/-! ## What a read of one node builds (42_huffman.md R172) -/

/-- The key of a LUT entry starts with a code of this depth. -/
def KeyStarts (depth code : Nat) (key : Fin 256) : Prop := depth ≤ 8 ∧ key.val % 2 ^ depth = code

/-- What ReadNode adds to a build: the nodes from node i on, and the entries of the keys that start with its code. -/
structure NodeRead (b b' : TreeBuild) (i : NodeIx) (depth code : Nat) : Prop where
  index : i.val = b.nnodes
  grows : b.nnodes < b'.nnodes
  inArena : b'.nnodes ≤ 521
  earlier : SameNodes 0 b.nnodes b.node b'.node
  forward : ForwardIn b'.node b.nnodes b'.nnodes
  otherKeys : ∀ key : Fin 256, ¬ KeyStarts depth code key → b'.lut[key] = b.lut[key]
  itsKeys : ∀ key : Fin 256, KeyStarts depth code key → EntryBelow b'.node i depth key.val b'.lut[key]

/-- A ReadNode that succeeds read a leaf, or a branch with both its subtrees. -/
theorem readNode_eq_ok {s : State} {fuel depth code : Nat} {b b' : TreeBuild} {i : NodeIx}
    (h : s.readNode (fuel + 1) depth code b = .ok (i, b')) :
    i.val = b.nnodes ∧
      ((∃ pos sym, b' = ⟨pos, b.node.set i (.leaf sym), b.nnodes + 1, lutAfterLeaf b.lut depth code sym⟩) ∨
        ∃ pos x y b1 b2,
          s.readNode fuel (depth + 1) code ⟨pos, b.node, b.nnodes + 1, lutAfterBranch b.lut depth code i⟩ =
            .ok (x, b1) ∧
          s.readNode fuel (depth + 1) (code + 2 ^ depth) b1 = .ok (y, b2) ∧
          b' = ⟨b2.pos, b2.node.set i (.branch x y), b2.nnodes, b2.lut⟩) := by
  unfold State.readNode at h
  split at h
  · dsimp only at h
    split at h
    · cases h
    · split at h
      · cases h
      · cases h; exact ⟨rfl, .inl ⟨_, _, rfl⟩⟩
    · split at h
      · cases h
      · split at h
        · cases h
        · cases h; exact ⟨rfl, .inr ⟨_, _, _, _, _, ‹_›, ‹_›, rfl⟩⟩
  · cases h

theorem sameNodes_set (node : Vector TreeNode 521) (i : NodeIx) (v : TreeNode) {lo hi : Nat}
    (h : i.val < lo ∨ hi ≤ i.val) : SameNodes lo hi node (node.set i v) := by
  intro n hl hh
  exact Vector.getElem_set_ne _ _ (by omega)

theorem getElem_set_self_nodeIx (node : Vector TreeNode 521) (i : NodeIx) (v : TreeNode) : (node.set i v)[i] = v := by
  simp

/-- A leaf fills the entries of its keys (42_huffman.md R172). -/
theorem nodeRead_leaf {b : TreeBuild} {i : NodeIx} (hi : i.val = b.nnodes) (depth code pos : Nat) (sym : Sym) :
    NodeRead b ⟨pos, b.node.set i (.leaf sym), b.nnodes + 1, lutAfterLeaf b.lut depth code sym⟩ i depth code := by
  have hself := getElem_set_self_nodeIx b.node i (.leaf sym)
  have harena : b.nnodes + 1 ≤ 521 := hi ▸ i.isLt
  refine ⟨hi, Nat.lt_succ_self _, harena, sameNodes_set _ _ _ (.inr hi.ge), ?_, ?_, ?_⟩
  · intro n x y hl hh e
    obtain rfl : i = n := Fin.ext (by dsimp only at hh; omega)
    rw [hself] at e
    cases e
  · intro key hk
    dsimp only
    rcases Nat.lt_or_ge 8 depth with hd | hd
    · rw [lutAfterLeaf_of_gt _ _ _ _ hd]
    · rw [lutAfterLeaf_of_le _ _ _ _ hd, fillLut_getElem, if_neg fun e => hk ⟨hd, e⟩]
  · rintro key ⟨hd, hk⟩
    dsimp only
    rw [lutAfterLeaf_of_le _ _ _ _ hd, fillLut_getElem, if_pos hk]
    exact entryBelow_self rfl hself

/-- The keys of a branch are the keys of its child A and the keys of its child B, which differ in bit `depth`. -/
theorem keyStarts_succ {depth code : Nat} {key : Fin 256} (hd : depth < 8) (hc : code < 2 ^ depth) :
    (KeyStarts (depth + 1) code key ↔ KeyStarts depth code key ∧ key.val / 2 ^ depth % 2 = 0) ∧
      (KeyStarts (depth + 1) (code + 2 ^ depth) key ↔ KeyStarts depth code key ∧ key.val / 2 ^ depth % 2 = 1) := by
  have hm := Nat.mod_pow_succ (x := key.val) (b := 2) (k := depth)
  have hlt := Nat.mod_lt key.val (Nat.two_pow_pos depth)
  have hd' : depth + 1 ≤ 8 := hd
  simp only [KeyStarts, hd', hd.le, true_and, hm]
  generalize 2 ^ depth = p at *
  generalize key.val % p = m at *
  rcases Nat.mod_two_eq_zero_or_one (key.val / p) with h | h <;> rw [h] <;> omega

/-- Below depth 8 no key is left. -/
theorem not_keyStarts_of_gt {depth code : Nat} {key : Fin 256} (h : 8 < depth) : ¬ KeyStarts depth code key :=
  fun hk => absurd hk.1 (by omega)

section
variable {b b1 b2 : TreeBuild} {i x y : NodeIx} {depth code pos : Nat} (hi : i.val = b.nnodes)
  (hA : NodeRead ⟨pos, b.node, b.nnodes + 1, lutAfterBranch b.lut depth code i⟩ b1 x (depth + 1) code)
  (hB : NodeRead b1 b2 y (depth + 1) (code + 2 ^ depth))
include hi hA hB

omit hA in
/-- Below a branch, the final arena agrees with child A's on A's nodes. -/
theorem branch_keeps_childA : SameNodes (i.val + 1) b1.nnodes b1.node (b2.node.set i (.branch x y)) := fun n hl hh =>
  (sameNodes_set _ _ _ (.inl (Nat.lt_succ_self _)) n hl hh).trans (hB.earlier n (Nat.zero_le _) hh)

omit hB in
/-- Below a branch, the final arena agrees with child B's on B's nodes. -/
theorem branch_keeps_childB : SameNodes b1.nnodes b2.nnodes b2.node (b2.node.set i (.branch x y)) := by
  have hA' : b.nnodes + 1 < b1.nnodes := hA.grows
  exact sameNodes_set _ _ _ (.inl (by omega))

theorem branch_keeps_earlier : SameNodes 0 b.nnodes b.node (b2.node.set i (.branch x y)) := by
  have hA' : b.nnodes + 1 < b1.nnodes := hA.grows
  intro n hl hh
  have h1 := sameNodes_set b2.node i (.branch x y) (.inr (Nat.le_refl i.val)) n hl (hi ▸ hh)
  have h2 := hB.earlier n hl (by omega)
  have h3 := hA.earlier n hl (Nat.lt_succ_of_lt hh)
  exact h1.trans (h2.trans h3)

omit hB in
theorem branch_childA_forward : ForwardIn b1.node (i.val + 1) b1.nnodes := by
  rw [hi]
  exact hA.forward

theorem branch_forward : ForwardIn (b2.node.set i (.branch x y)) i.val b2.nnodes := by
  have hA' : b.nnodes + 1 < b1.nnodes := hA.grows
  have hB' := hB.grows
  have hx : x.val = b.nnodes + 1 := hA.index
  have hy := hB.index
  exact forwardIn_cons (getElem_set_self_nodeIx ..) (by omega) (by omega)
    (forwardIn_append hB'.le (forwardIn_congr (branch_keeps_childA hi hB) (branch_childA_forward hi hA))
      (forwardIn_congr (branch_keeps_childB hi hA) hB.forward))

omit hi in
theorem branch_otherKeys (hc : code < 2 ^ depth) {key : Fin 256} (hk : ¬ KeyStarts depth code key) :
    b2.lut[key] = b.lut[key] := by
  have hk' : ¬ KeyStarts (depth + 1) code key ∧ ¬ KeyStarts (depth + 1) (code + 2 ^ depth) key := by
    rcases Nat.lt_or_ge depth 8 with hd | hd
    · obtain ⟨ha, hb⟩ := keyStarts_succ hd hc (key := key)
      exact ⟨fun h => hk (ha.mp h).1, fun h => hk (hb.mp h).1⟩
    · exact ⟨not_keyStarts_of_gt (by omega), not_keyStarts_of_gt (by omega)⟩
  refine ((hB.otherKeys key hk'.2).trans (hA.otherKeys key hk'.1)).trans ?_
  by_cases hd : depth = 8
  · subst hd
    rw [lutAfterBranch_at_eight, fillLut_getElem, if_neg fun e => hk ⟨Nat.le_refl _, e⟩]
  · rw [lutAfterBranch_elsewhere _ _ _ _ hd]

/-- Above depth 8, bit `depth` of a key selects the child that has its entry. -/
theorem branch_itsKeys_above (hc : code < 2 ^ depth) (hd : depth < 8) {key : Fin 256} (hk : KeyStarts depth code key) :
    EntryBelow (b2.node.set i (.branch x y)) i depth key.val b2.lut[key] := by
  have hA' : b.nnodes + 1 < b1.nnodes := hA.grows
  have hx : x.val = b.nnodes + 1 := hA.index
  have hy := hB.index
  have hB' := hB.grows
  obtain ⟨ha, hb⟩ := keyStarts_succ hd hc (key := key)
  refine entryBelow_of_child (getElem_set_self_nodeIx ..) ?_
  rcases Nat.mod_two_eq_zero_or_one (key.val / 2 ^ depth) with hbit | hbit <;> rw [hbit]
  · have hnB : ¬ KeyStarts (depth + 1) (code + 2 ^ depth) key := fun h => absurd (hb.mp h).2 (by omega)
    have hbelow := hA.itsKeys key (ha.mpr ⟨hk, hbit⟩)
    rw [← hB.otherKeys key hnB] at hbelow
    exact entryBelow_congr (i := x) (branch_keeps_childA hi hB) (branch_childA_forward hi hA) (by omega) (by omega)
      hbelow
  · exact entryBelow_congr (i := y) (branch_keeps_childB hi hA) hB.forward hy.ge (by omega)
      (hB.itsKeys key (hb.mpr ⟨hk, hbit⟩))

/-- A branch at depth exactly 8 fills the entry of its one key; the subtrees below fill none (42_huffman.md R172). -/
theorem branch_itsKeys_at_eight (hd : depth = 8) {key : Fin 256} (hk : KeyStarts depth code key) :
    EntryBelow (b2.node.set i (.branch x y)) i depth key.val b2.lut[key] := by
  subst hd
  have hl : b2.lut[key] = .nonTerminal i := by
    rw [hB.otherKeys key (not_keyStarts_of_gt (Nat.lt_succ_self 8)),
      hA.otherKeys key (not_keyStarts_of_gt (Nat.lt_succ_self 8))]
    dsimp only
    rw [lutAfterBranch_at_eight, fillLut_getElem, if_pos hk.2]
  rw [hl]
  exact entryBelow_self rfl ⟨rfl, x, y, getElem_set_self_nodeIx ..⟩

/-- A branch over both its subtrees. -/
theorem nodeRead_branch (hc : code < 2 ^ depth) :
    NodeRead b ⟨b2.pos, b2.node.set i (.branch x y), b2.nnodes, b2.lut⟩ i depth code where
  index := hi
  grows := Nat.lt_trans (Nat.lt_of_succ_lt hA.grows) hB.grows
  inArena := hB.inArena
  earlier := branch_keeps_earlier hi hA hB
  forward := hi ▸ branch_forward hi hA hB
  otherKeys _ hk := branch_otherKeys hA hB hc hk
  itsKeys key hk := by
    rcases Nat.lt_or_eq_of_le hk.1 with hd | hd
    · exact branch_itsKeys_above hi hA hB hc hd hk
    · exact branch_itsKeys_at_eight hi hA hB hd hk

end

/-- What ReadNode adds to a build. -/
theorem readNode_nodeRead (s : State) (fuel : Nat) : ∀ (depth code : Nat) (b b' : TreeBuild) (i : NodeIx),
    code < 2 ^ depth → s.readNode fuel depth code b = .ok (i, b') → NodeRead b b' i depth code := by
  induction fuel with
  | zero => intro _ _ _ _ _ _ h; cases h
  | succ fuel ih =>
    intro depth code b b' i hc h
    have hc' : code < 2 ^ (depth + 1) ∧ code + 2 ^ depth < 2 ^ (depth + 1) := by rw [Nat.pow_succ]; omega
    obtain ⟨hi, ⟨pos, sym, rfl⟩ | ⟨pos, x, y, b1, b2, hA, hB, rfl⟩⟩ := readNode_eq_ok h
    · exact nodeRead_leaf hi depth code pos sym
    · exact nodeRead_branch hi (ih _ _ _ _ _ hc'.1 hA) (ih _ _ _ _ _ hc'.2 hB) hc

/-! ## The statement -/

/-- The tree of a complete tree read (10_state.md R46 to R48). -/
theorem readTree_treeOk {s : State} {b : TreeBuild} (h : s.readTree = .ok b) :
    1 ≤ b.nnodes ∧ b.nnodes ≤ 521 ∧ ForwardIn b.node 0 b.nnodes ∧ LutOk b.node b.lut := by
  unfold State.readTree at h
  split at h
  · cases h
  · cases h
    rename_i i e
    have hr := readNode_nodeRead s 521 0 0 _ _ i (by decide) e
    obtain rfl : i = 0 := Fin.ext hr.index
    exact ⟨hr.grows, hr.inArena, hr.forward, fun key =>
      lutEntryOk_of_entryBelow_root (hr.itsKeys key ⟨by decide, Nat.mod_one _⟩)⟩

theorem treeInv_of_readTree {s t : State} {b : TreeBuild} (h : s.readTree = .ok b) (hn : t.node = b.node)
    (hc : t.nnodes = b.nnodes) (hl : t.lut = b.lut) : TreeInv t := by
  obtain ⟨h1, h521, hf, hlut⟩ := readTree_treeOk h
  rw [TreeInv, hn, hc, hl]
  exact ⟨h521, fun _ => ⟨h1, fun n x y hh e => hf n x y (Nat.zero_le _) hh e, hlut⟩⟩

theorem treeInv_of_invalid {s : State} (h : s.treeValid = false) (hn : s.nnodes ≤ 521) : TreeInv s :=
  ⟨hn, fun ht => by simp [h] at ht⟩

theorem treeInv_congr {s t : State} (hn : t.node = s.node) (hc : t.nnodes = s.nnodes) (hl : t.lut = s.lut)
    (hv : t.treeValid = s.treeValid) (h : TreeInv s) : TreeInv t := by
  rwa [TreeInv, hn, hc, hl, hv]

theorem Effect.treeInv {s t : State} (he : Effect s t) (h : TreeInv s) : TreeInv t := by
  cases he with
  | treeFault _ _ _ _ _ hn | blockFault _ _ _ _ _ _ _ hn => exact treeInv_of_invalid rfl hn
  | tookTree _ ht | decoded _ _ _ _ _ _ ht => exact treeInv_of_readTree ht rfl rfl rfl
  | wroteBits | stored => exact treeInv_congr (by simp) (by simp) (by simp) (by simp) h
  | _ => exact treeInv_congr rfl rfl rfl rfl h

theorem HostEffect.treeInv {s t : State} (he : HostEffect s t) (h : TreeInv s) : TreeInv t := by
  cases he with
  | reset | softReset => exact treeInv_of_invalid rfl (Nat.zero_le _)
  | _ => exact treeInv_congr rfl rfl rfl rfl h

theorem tree_keptByParts : KeptByParts TreeInv where
  bookkeeping _ _ _ _ h := h
  drawn s ps d h := (treeLegal_iff _).mp (treeLegal_drawn s ps d ((treeLegal_iff s).mpr h))
  effect _ hE h := hE.treeInv h
  hostEffect hE h := hE.treeInv h

/-- Settles O60: the parts of a step keep the tree, which a tree read builds whole. -/
theorem stepKeepsTheTree : Obligations.StepKeepsTheTree :=
  fun _ _ h hst => tree_keptByParts.step h hst

end Sys2Proof.Machine

/-! The register port: what a read gives, what a write changes, and the actions of a CTRL write (10_state.md R34 to
R54). -/

namespace Sys2Proof.Machine

/-! ## Frames -/

/-- The engine-control registers and the model's own fields lie in no unit. -/
theorem sameBut_control (s : State) {engine : EngineState} {ie : Bool} {cp cmdcnt err errcp errinfo : Word}
    {draws : Nat} {loose : List Piece} {hostData : Word} {inputs : List Turn} (changed : List Part) :
    SameBut changed s { s with
      engine := engine, ie := ie, cp := cp, cmdcnt := cmdcnt, err := err, errcp := errcp, errinfo := errinfo,
      draws := draws, loose := loose, hostData := hostData, inputs := inputs } := by
  intro p _
  cases p with
  | regs | memory => exact fun _ => rfl
  | steps => rfl
  | tables | plane => exact ⟨rfl, rfl⟩
  | reader | writer => exact ⟨rfl, rfl, rfl⟩
  | tree => exact ⟨rfl, rfl, rfl, rfl⟩

/-- A write of R[r] changes the registers alone; the turns to come lie in no unit. -/
theorem sameBut_setReg (s : State) (inputs : List Turn) (r : RegIx) (v : Word) :
    SameBut [.regs] s ({ s with inputs := inputs }.setReg r v) := by
  intro p hp
  cases p with
  | regs => simp at hp
  | memory => exact fun _ => rfl
  | steps => rfl
  | tables | plane => exact ⟨rfl, rfl⟩
  | reader | writer => exact ⟨rfl, rfl, rfl⟩
  | tree => exact ⟨rfl, rfl, rfl, rfl⟩

/-! ## CTRL (10_state.md R34) -/

/-- CLR, where the write has it, acts in DONE and FAILED only. -/
theorem clearIf_eq (s : State) (b : Bool) :
    (b = true ∧ (s.engine = .done ∨ s.engine = .failed) →
        (if b then s.clear else s) = { s with engine := .idle, err := 0#32, errcp := 0#32, errinfo := 0#32 }) ∧
      (¬ (b = true ∧ (s.engine = .done ∨ s.engine = .failed)) → (if b then s.clear else s) = s) := by
  cases b
  · simp
  · rcases clear_cases s with ⟨h, e⟩ | ⟨h, e⟩
    · simp [h, e]
    · rcases h with h | h <;> simp [h, e]

/-- GO, where the write has it, acts in IDLE only. -/
theorem goIf_eq (s : State) (b : Bool) :
    (b = true ∧ s.engine = .idle →
        (if b then s.go else s) = { s with engine := .busy, cmdcnt := 0#32, loose := [] }) ∧
      (¬ (b = true ∧ s.engine = .idle) → (if b then s.go else s) = s) := by
  cases b
  · simp
  · rcases go_cases s with ⟨h, e⟩ | ⟨h, e⟩ <;> simp [h, e]

/-- What a CTRL write without SRST gives, in terms of whether its CLR and its GO act. -/
theorem writeCtrl_eq (s : State) (v : Word) (clr go : Prop) [Decidable clr] [Decidable go] (h : v.getLsbD 2 = false)
    (hclr : clr ↔ v.getLsbD 1 = true ∧ (s.engine = .done ∨ s.engine = .failed))
    (hgo : go ↔ v.getLsbD 0 = true ∧ (s.engine = .idle ∨ clr)) :
    s.writeCtrl v = { s with
      ie := v.getLsbD 8
      engine := if go then .busy else if clr then .idle else s.engine
      cmdcnt := if go then 0#32 else s.cmdcnt
      err := if clr then 0#32 else s.err
      errcp := if clr then 0#32 else s.errcp
      errinfo := if clr then 0#32 else s.errinfo
      loose := if go then [] else s.loose } := by
  have hc := clearIf_eq { s with ie := v.getLsbD 8 } (v.getLsbD 1)
  simp only [State.writeCtrl, h, Bool.false_eq_true, if_false]
  by_cases c : clr
  · rw [hc.1 (hclr.mp c)]
    have hg := goIf_eq
      { s with ie := v.getLsbD 8, engine := .idle, err := 0#32, errcp := 0#32, errinfo := 0#32 } (v.getLsbD 0)
    by_cases g : go
    · rw [hg.1 ⟨(hgo.mp g).1, rfl⟩]
      simp only [c, g, if_true]
    · rw [hg.2 fun hi => g (hgo.mpr ⟨hi.1, .inr c⟩)]
      simp only [c, g, if_true, if_false]
  · rw [hc.2 fun hi => c (hclr.mpr hi)]
    have hg := goIf_eq { s with ie := v.getLsbD 8 } (v.getLsbD 0)
    by_cases g : go
    · rw [hg.1 ⟨(hgo.mp g).1, (hgo.mp g).2.resolve_right c⟩]
      simp only [c, g, if_true, if_false]
    · rw [hg.2 fun hi => g (hgo.mpr ⟨hi.1, .inl hi.2⟩)]
      simp only [c, g, if_false]

theorem step_of_regWrite {s : State} {reg : Fin 64} {v : Word} {rest : List Turn}
    (h : s.inputs = .host (.regWrite reg v) :: rest) :
    step s = .next ({ s with inputs := rest }.regPortWrite reg v) := by
  simp only [step, h, hostTurn]

theorem step_of_regRead {s : State} {reg : Fin 64} {rest : List Turn}
    (h : s.inputs = .host (.regRead reg) :: rest) : step s = .next ({ s with inputs := rest }.regPortRead reg) := by
  simp only [step, h, hostTurn]

/-- Settles O48: the next state is the one of `writeCtrl_eq`, read field by field. -/
theorem ctrlWriteActions : Obligations.CtrlWriteActions := by
  classical
  intro s v rest clr go hin hsrst hclr hgo
  refine ⟨_, (step_of_regWrite hin).trans
    (congrArg _ (writeCtrl_eq { s with inputs := rest } v clr go hsrst hclr hgo)), rfl, ?_⟩
  refine ⟨fun g => ⟨if_pos g, if_pos g⟩, fun g => if_neg g, fun c => ⟨if_pos c, if_pos c, if_pos c⟩,
    fun c => ⟨if_neg c, if_neg c, if_neg c⟩, fun c g => ?_, fun c g => ?_, fun g => if_pos g, fun g => if_neg g,
    rfl, rfl, rfl, rfl, sameBut_control s _⟩
  · exact (if_neg g).trans (if_pos c)
  · exact (if_neg g).trans (if_neg c)

/-! ## What the registers read (10_state.md R35, R41, R53, R54) -/

theorem ctrlWord_toNat (s : State) : s.ctrlWord.toNat = if s.ie then 256 else 0 := by
  unfold State.ctrlWord
  cases s.ie <;> rfl

theorem statusWord_toNat (s : State) : s.statusWord.toNat =
    s.engine.number + (if s.ie = true ∧ (s.engine = .done ∨ s.engine = .failed) then 4 else 0) := by
  unfold State.statusWord State.irq
  cases s.ie <;> cases s.engine <;> rfl

theorem validWord_toNat (s : State) : s.validWord.toNat =
    (if s.tvalid[0] then 1 else 0) + (if s.tvalid[1] then 2 else 0) + (if s.treeValid then 4 else 0) := by
  unfold State.validWord
  cases s.tvalid[0] <;> cases s.tvalid[1] <;> cases s.treeValid <;> rfl

theorem regPortValue_reg (s : State) (reg : Fin 64) (r : RegIx) (h : reg.val = 8 + r.val) :
    s.regPortValue reg = s.reg r := by
  have hr := r.isLt
  rw [State.regPortValue, dif_pos (by omega)]
  congr 1
  exact Fin.ext (by dsimp only; omega)

theorem regPortValue_qstep (s : State) (reg : Fin 64) (q : StepIx) (h : reg.val = 24 + q.val) :
    (s.regPortValue reg).toNat = (s.qstep[q]).toNat := by
  have hlt : 24 + q.val < 64 := by omega
  obtain rfl : reg = ⟨24 + q.val, hlt⟩ := Fin.ext h
  have e : s.regPortValue ⟨24 + q.val, hlt⟩ = (s.qstep[q]).setWidth 32 := by fin_cases q <;> rfl
  rw [e, BitVec.toNat_setWidth, Nat.mod_eq_of_lt]
  have := (s.qstep[q]).isLt
  omega

theorem regPortValue_reserved (s : State) (reg : Fin 64) (h : reg = 19 ∨ reg = 23 ∨ 32 ≤ reg.val) :
    s.regPortValue reg = 0#32 := by
  rcases h with rfl | rfl | h
  · rfl
  · rfl
  · rw [State.regPortValue, dif_neg (by omega)]
    split <;> try omega
    rfl

/-- A register read changes nothing but the value read and the count of draws. Outside BUSY, or for a register that is
always readable, the value is the register's. -/
theorem regPortRead_eq (s : State) (reg : Fin 64) : ∃ (w : Word) (draws : Nat),
    s.regPortRead reg = { s with hostData := w, draws := draws } ∧
      (s.engine ≠ .busy ∨ alwaysReadable reg = true → w = s.regPortValue reg) := by
  unfold State.regPortRead
  split
  · rename_i h
    exact ⟨_, _, rfl, fun hr => hr.elim (absurd h.1) fun hr => by simp [h.2] at hr⟩
  · exact ⟨_, s.draws, rfl, fun _ => rfl⟩

/-- A write of a register but CTRL: ignored while BUSY and where the register is read-only or reserved, else it is CP
or R[i]. -/
theorem regPortWrite_cases (s : State) (reg : Fin 64) (v : Word) (h : reg ≠ 1) :
    ((s.engine = .busy ∨ (reg ≠ 6 ∧ ∀ r : RegIx, reg.val ≠ 8 + r.val)) ∧ s.regPortWrite reg v = s) ∨
      (s.engine ≠ .busy ∧ reg = 6 ∧ s.regPortWrite reg v = { s with cp := alignCp v }) ∨
      (s.engine ≠ .busy ∧ ∃ r : RegIx, reg.val = 8 + r.val ∧ s.regPortWrite reg v = s.setReg r v) := by
  unfold State.regPortWrite
  have h1 : reg.val ≠ 1 := fun e => h (Fin.ext e)
  rw [if_neg h1]
  split
  · exact .inl ⟨.inl ‹_›, rfl⟩
  · split
    · exact .inr (.inl ⟨‹_›, Fin.ext ‹_›, rfl⟩)
    · split
      · exact .inr (.inr ⟨‹_›, ⟨reg.val - 8, by omega⟩, by dsimp only; omega, rfl⟩)
      · refine .inl ⟨.inr ⟨fun e => ?_, fun r => ?_⟩, rfl⟩
        · subst e; contradiction
        · omega

/-- Settles O51: the read by the value of each register, the write by the three ways a register takes it. -/
theorem registerPortReadsAndWrites : Obligations.RegisterPortReadsAndWrites := by
  refine ⟨fun s reg rest hin => ?_, fun s reg v rest hin hreg => ?_⟩
  · obtain ⟨w, draws, e, hw⟩ := regPortRead_eq { s with inputs := rest } reg
    refine ⟨_, (step_of_regRead hin).trans (congrArg _ e), rfl, sameBut_control s _, ⟨rfl, rfl, rfl⟩, rfl, rfl, rfl, rfl,
      rfl, ?_, ?_, ?_, ?_, fun hb => ?_, fun hr => ?_⟩
    · rintro rfl; exact hw (.inr rfl)
    · rintro rfl; exact (congrArg BitVec.toNat (hw (.inr rfl))).trans (ctrlWord_toNat _)
    · rintro rfl
      refine (congrArg BitVec.toNat (hw (.inr rfl))).trans ((statusWord_toNat _).trans ?_)
      cases s.engine <;> rfl
    · rintro rfl; exact hw (.inr rfl)
    · have hv := hw (.inl hb)
      refine ⟨?_, ?_, ?_, ?_, ?_, fun r h => hv.trans (regPortValue_reg _ reg r h), ?_, ?_, ?_, ?_, ?_, ?_,
        fun q h => (congrArg BitVec.toNat hv).trans (regPortValue_qstep _ reg q h), ?_, ?_,
        by rintro rfl; exact (congrArg BitVec.toNat hv).trans (validWord_toNat _)⟩
      all_goals rintro rfl; exact hv
    · refine (hw (.inr ?_)).trans (regPortValue_reserved _ reg hr)
      rcases hr with rfl | rfl | hr
      · rfl
      · rfl
      · simp only [alwaysReadable, Bool.or_eq_true, decide_eq_true_eq]
        omega
  · rcases regPortWrite_cases { s with inputs := rest } reg v hreg with ⟨hi, e⟩ | ⟨hb, rfl, e⟩ | ⟨hb, r, hr, e⟩ <;>
      refine ⟨_, (step_of_regWrite hin).trans (congrArg _ e), rfl, ⟨rfl, rfl, rfl⟩, rfl, rfl, rfl, rfl, rfl, ?_⟩
    · refine ⟨sameBut_control s _, fun hb h6 => ?_, fun _ => rfl, fun r => ⟨fun ⟨hb, hr⟩ => ?_, fun _ => rfl⟩⟩
      · exact absurd h6 (hi.resolve_left hb).1
      · exact absurd hr ((hi.resolve_left hb).2 r)
    · refine ⟨sameBut_control s _, fun _ _ => alignCp_toNat v, fun h => ?_, fun r => ⟨fun ⟨_, hr⟩ => ?_, fun _ => rfl⟩⟩
      · exact absurd rfl (h.resolve_left hb)
      · simp at hr; omega
    · have hne : reg ≠ 6 := fun h6 => by subst h6; simp at hr; omega
      refine ⟨sameBut_setReg s rest r v, fun _ h6 => absurd h6 hne, fun _ => rfl, fun q => ⟨?_, ?_⟩⟩
      · rintro ⟨-, hq⟩
        obtain rfl : q = r := Fin.ext (by omega)
        exact reg_setReg_self ..
      · intro hq
        have hqr : q ≠ r := fun h => hq.elim hb fun hq => hq (h ▸ hr)
        exact reg_setReg_ne _ r v q hqr

end Sys2Proof.Machine

/-! Which parts of the state an operation changes, and the bytes that a sequence of written bits reaches. -/

namespace Sys2Proof.Machine

/-! ## Parts (10_state.md R42 to R52) -/

/-- Two states agree on every part whose fields they share; memory is MEM with its power-on content. -/
theorem sameBut_of_fields {changed : List Part} {s t : State}
    (regs : .regs ∉ changed → t.regs = s.regs := by exact fun _ => rfl)
    (reader : .reader ∉ changed → t.bcBase = s.bcBase ∧ t.bcLen = s.bcLen ∧ t.bcPos = s.bcPos
      := by exact fun _ => ⟨rfl, rfl, rfl⟩)
    (writer : .writer ∉ changed → t.bwBase = s.bwBase ∧ t.bwCap = s.bwCap ∧ t.bwPos = s.bwPos
      := by exact fun _ => ⟨rfl, rfl, rfl⟩)
    (tables : .tables ∉ changed → t.mt = s.mt ∧ t.tvalid = s.tvalid := by exact fun _ => ⟨rfl, rfl⟩)
    (steps : .steps ∉ changed → t.qstep = s.qstep := by exact fun _ => rfl)
    (tree : .tree ∉ changed → t.node = s.node ∧ t.nnodes = s.nnodes ∧ t.lut = s.lut ∧ t.treeValid = s.treeValid
      := by exact fun _ => ⟨rfl, rfl, rfl, rfl⟩)
    (plane : .plane ∉ changed → t.dim = s.dim ∧ t.pcfg = s.pcfg := by exact fun _ => ⟨rfl, rfl⟩)
    (memory : .memory ∉ changed → t.mem = s.mem ∧ t.memEpoch = s.memEpoch := by exact fun _ => ⟨rfl, rfl⟩) :
    SameBut changed s t := by
  intro p hp
  cases p with
  | regs => exact reg_congr (regs hp)
  | reader => exact reader hp
  | writer => exact writer hp
  | tables => exact tables hp
  | steps => exact steps hp
  | tree => exact tree hp
  | plane => exact plane hp
  | memory => exact readByte_congr (memory hp).1 (memory hp).2

/-- Completing a command changes no part. -/
theorem SameBut.complete {changed : List Part} {s t : State} (h : SameBut changed s t) :
    SameBut changed s t.complete := by
  intro p hp
  have := h p hp
  cases p <;> exact this

/-- Taking a fault changes no part (60_exceptions.md R310). -/
theorem SameBut.raise {changed : List Part} {s t : State} (h : SameBut changed s t) (c : Cause) (info : Word) :
    SameBut changed s (t.raise c info) := by
  intro p hp
  have := h p hp
  cases p <;> exact this

/-- A store, overlapping a source or not, changes the memory alone. -/
theorem sameBut_storeOrScramble (s : State) (clash : Bool) (a : Nat) (bs : List Byte) :
    SameBut [.memory] s (s.storeOrScramble clash a bs) := by
  cases clash <;> exact sameBut_of_fields (memory := by simp)

/-- Written bits change the writer and the memory alone. -/
theorem sameBut_wrAll (s : State) (bs : Bits) (draws : Nat) :
    SameBut [.writer, .memory] s { s.wrAll bs with draws := draws } :=
  sameBut_of_fields (regs := by simp) (reader := by simp) (writer := by simp) (tables := by simp) (steps := by simp)
    (tree := by simp) (plane := by simp) (memory := by simp)

/-- A region left with any bytes, and BW_POS moved, change the writer and the memory alone. -/
theorem sameBut_region (s : State) (mem : Memory) (pos : Word) (draws : Nat) :
    SameBut [.writer, .memory] s { s with mem := mem, bwPos := pos, draws := draws } :=
  sameBut_of_fields (writer := by simp) (memory := by simp)

/-- A failed tree read leaves some nodes, LUT and count, and no tree (60_exceptions.md R310). -/
theorem scrambleTree_eq (s : State) : ∃ (node : Vector TreeNode 521) (lut : Vector LutEntry 256) (nnodes draws : Nat),
    s.scrambleTree = { s with node := node, lut := lut, nnodes := nnodes, treeValid := false, draws := draws } :=
  ⟨_, _, _, _, rfl⟩

/-- A tree read, complete or not, changes the tree and BC_POS; HDEC stores bytes with it. -/
theorem sameBut_tree (s : State) (changed : List Part) (mem : Memory) (node : Vector TreeNode 521)
    (lut : Vector LutEntry 256) (nnodes draws : Nat) (treeValid : Bool) (pos : Word) (ht : .tree ∈ changed)
    (hr : .reader ∈ changed) (hm : .memory ∉ changed → mem = s.mem) :
    SameBut changed s { s with
      mem := mem, node := node, lut := lut, nnodes := nnodes, treeValid := treeValid, draws := draws, bcPos := pos } :=
  sameBut_of_fields (reader := fun h => absurd hr h) (tree := fun h => absurd ht h) (memory := fun h => ⟨hm h, rfl⟩)

/-! ## Bytes of memory -/

/-- Written bits change no byte before the one BW_POS stands in, nor one from the end of the last byte on
(41_bitstream.md R135). -/
theorem readByte_wrAll_outside (bs : Bits) : ∀ (s : State) (x : Nat), s.bwPos.toNat + bs.length ≤ 2 ^ 32 →
    (x < s.bwBase.toNat + s.bwPos.toNat / 8 ∨ s.bwBase.toNat + (s.bwPos.toNat + bs.length + 7) / 8 ≤ x) →
    (s.wrAll bs).readByte x = s.readByte x := by
  induction bs with
  | nil => exact fun _ _ _ _ => rfl
  | cons b bs ih =>
    intro s x hp hx
    rw [List.length_cons] at hp hx
    have hpos : (s.wrBit b).bwPos.toNat = (s.bwPos.toNat + 1) % 2 ^ 32 := by rw [wrBit_bwPos, BitVec.toNat_add]; rfl
    rw [State.wrAll, ih (s.wrBit b) x (by omega) (by rw [wrBit_bwBase]; omega), readByte_wrBit, if_neg (by omega)]

end Sys2Proof.Machine

/-! What each command may change: the parts that the spec names for it, and in memory its destination range
(20_memory.md R80, R85). -/

namespace Sys2Proof.Machine

/-! ## The parts a command may change -/

/-- The parts that the spec names for a command (20_memory.md R85, 10_state.md R42 to R52). -/
def changedParts : Instr → List Part
  | .halt | .nop => []
  | .li _ _ | .lih _ _ | .add _ _ _ | .addi _ _ _ | .brpeek _ | .brend _ | .brpos _ | .bwsize _ | .hlutrd _ _
  | .msize _ | .mmap _ _ _ | .munmap _ _ _ | .quant _ _ _ | .dequant _ _ _ => [.regs]
  | .brinit _ _ | .bradv _ => [.reader]
  | .brbit _ | .brbits _ _ | .hsym _ _ => [.regs, .reader]
  | .bwinit _ _ => [.writer]
  | .bwbits _ _ | .henc _ _ => [.writer, .memory]
  | .htree => [.tree, .reader]
  | .hdec _ _ _ => [.tree, .reader, .memory]
  | .mload _ _ | .mqinit _ _ => [.tables]
  | .setq _ _ => [.steps]
  | .setdim _ _ => [.plane]
  | .mstore _ _ | .mmapv _ _ _ _ | .munmapv _ _ _ _ | .quantv _ _ _ _ | .dequantv _ _ _ _ | .dsamp _ _ | .usamp _ _
  | .resid _ _ _ | .recon _ _ _ => [.memory]

/-- What a command may change: its parts, and no byte outside its destination range. The premises on the writer are what
keeps BW_POS from wrapping inside a command (assumption log 15). -/
structure Framed (i : Instr) (s t : State) : Prop where
  parts : SameBut (changedParts i) s t
  bytes : s.bwCap.toNat ≤ 536870912 → s.bwPos.toNat ≤ 8 * s.bwCap.toNat →
    SameBytesOutside (s.destRange i).1 (s.destRange i).2 s t

/-- Every next state that a meaning gives is framed. -/
def GivesFramed (i : Instr) (s : State) (r : Result) : Prop := ∀ t, r = .next t → Framed i s t

section
variable {i : Instr} {s : State} {body : Result}

theorem gives_of_framed {t : State} (h : Framed i s t) : GivesFramed i s (.next t) := by
  rintro u ⟨⟩
  exact h

/-- A command that keeps the memory is framed by the parts it changes. -/
theorem framed_of_parts {t : State} (changed : List Part) (hi : changedParts i = changed) (hm : .memory ∉ changed)
    (h : SameBut changed s t) : GivesFramed i s (.next t) :=
  gives_of_framed ⟨hi ▸ h, fun _ _ x _ => h .memory hm x⟩

/-- A fault that changes no unit (60_exceptions.md R310). -/
theorem raise_framed (c : Cause) (info : Word) : GivesFramed i s (.next (s.raise c info)) :=
  gives_of_framed ⟨sameBut_control s _, fun _ _ _ _ => rfl⟩

/-! ## Checks -/

theorem withRanges_framed (rs : List (Word × Nat)) (h : GivesFramed i s body) :
    GivesFramed i s (s.withRanges rs body) := by
  rcases withRanges_cases s rs body with ⟨a, -, e⟩ | ⟨-, e⟩ <;> rw [e]
  · exact raise_framed _ _
  · exact h

theorem withTable_framed (t : TableIx) (h : GivesFramed i s body) : GivesFramed i s (s.withTable t body) := by
  unfold State.withTable
  split
  · exact h
  · exact raise_framed _ _

theorem withTreeValid_framed (h : GivesFramed i s body) : GivesFramed i s (s.withTreeValid body) := by
  unfold State.withTreeValid
  split
  · exact h
  · exact raise_framed _ _

theorem withPlane_framed (h : GivesFramed i s body) : GivesFramed i s (s.withPlane body) := by
  unfold State.withPlane
  split
  · exact raise_framed _ _
  · exact h

/-! ## Results and data faults -/

/-- A command that writes R[rd] and completes. -/
theorem setReg_framed (rd : RegIx) (v : Word) (hi : changedParts i = [.regs]) :
    GivesFramed i s (.next (s.setReg rd v).complete) :=
  framed_of_parts [.regs] hi (by simp) (sameBut_of_fields (regs := by simp))

/-- A data fault of a reading command moves BC_POS. -/
theorem raiseStream_framed (f : StreamFault) (changed : List Part)
    (hi : changedParts i = changed) (hr : .reader ∈ changed) (hm : .memory ∉ changed) :
    GivesFramed i s (.next (s.raiseStream f)) :=
  framed_of_parts changed hi hm (sameBut_of_fields (reader := fun h => absurd hr h))

/-- A reading command that writes R[rd]. -/
theorem readInto_framed (rd : RegIx) (r : Except StreamFault (Word × Nat)) (hi : changedParts i = [.regs, .reader]) :
    GivesFramed i s (s.readInto rd r) := by
  cases r with
  | error f => exact raiseStream_framed f _ hi (by simp) (by simp)
  | ok r =>
    exact framed_of_parts _ hi (by simp) (sameBut_of_fields (regs := by simp) (reader := by simp))

/-- A destination range stored with as many bytes as it has, once the ranges are checked. -/
theorem rangedStore_framed (rs : List (Word × Nat)) (clash : Bool) (a : Nat) (bs : List Byte)
    (hi : changedParts i = [.memory]) (hd : s.destRange i = (a, bs.length)) :
    GivesFramed i s (s.withRanges rs (.next (s.storeOrScramble clash a bs).complete)) := by
  have hparts := (sameBut_storeOrScramble s clash a bs).complete
  refine withRanges_framed rs (gives_of_framed ⟨hi ▸ hparts, fun _ _ x hx => ?_⟩)
  rw [hd] at hx
  exact readByte_storeOrScramble_outside s clash a bs x hx

/-- Bits written from BW_POS on, with a destination range that reaches from its byte past the last bit. -/
theorem wroteBits_framed (bs : Bits) (draws : Nat) (hi : changedParts i = [.writer, .memory])
    (hb : s.bwPos.toNat ≤ s.regionBits → s.bwPos.toNat + bs.length ≤ s.regionBits)
    (hstart : (s.destRange i).1 = s.bwBase.toNat + s.bwPos.toNat / 8)
    (hlen : s.bwPos.toNat ≤ s.regionBits →
      (s.bwPos.toNat + bs.length + 7) / 8 ≤ s.bwPos.toNat / 8 + (s.destRange i).2) :
    GivesFramed i s (.next { s.wrAll bs with draws := draws }.complete) := by
  refine gives_of_framed ⟨hi ▸ (sameBut_wrAll s bs draws).complete, fun hc hp x hx => ?_⟩
  have hfit := hb hp
  have hend := hlen hp
  unfold State.regionBits at hfit
  exact readByte_wrAll_outside bs s x (by omega) (by omega)

end

section
variable (s : State)

/-! ## One lemma per family of commands -/

theorem execBradv_framed (ra : RegIx) : GivesFramed (.bradv ra) s (execBradv ra s) := by
  unfold execBradv
  split
  · exact raiseStream_framed _ [.reader] rfl (by simp) (by simp)
  · exact framed_of_parts [.reader] rfl (by simp) (sameBut_of_fields (reader := by simp))

theorem execBrinit_framed (ra rb : RegIx) : GivesFramed (.brinit ra rb) s (execBrinit ra rb s) :=
  withRanges_framed _
    (framed_of_parts [.reader] rfl (by simp) (sameBut_of_fields (reader := by simp)))

theorem execBwinit_framed (ra rb : RegIx) : GivesFramed (.bwinit ra rb) s (execBwinit ra rb s) :=
  withRanges_framed _
    (framed_of_parts [.writer] rfl (by simp) (sameBut_of_fields (writer := by simp)))

theorem execBwbits_framed (ra : RegIx) (n : Nat) : GivesFramed (.bwbits ra n) s (execBwbits ra n s) := by
  unfold execBwbits
  rcases wrBits_cases s (bitsOfNat n (s.regNat ra)) with ⟨hb, e⟩ | ⟨-, e⟩ <;> rw [e]
  · rw [bitsOfNat_length] at hb
    refine wroteBits_framed _ (s.wrAll _).draws rfl (fun _ => by rwa [bitsOfNat_length]) ?_ ?_ <;>
      rw [State.destRange, if_neg (by omega)]
    simp only [bitsOfNat_length]
    omega
  · exact raise_framed _ _

theorem execHenc_framed (ra rb : RegIx) : GivesFramed (.henc ra rb) s (execHenc ra rb s) := by
  refine withRanges_framed _ ?_
  rw [drewTree_eq s]
  generalize s.drewTree.draws = d
  split
  · exact gives_of_framed ⟨(sameBut_region s _ _ _).raise _ _,
      fun _ _ x hx => readByte_scramble_outside { s with draws := d } _ _ x hx⟩
  · rename_i s' e
    obtain ⟨rfl, hb⟩ := wrChunksAt_eq_ok _ _ _ _ e
    split
    · rename_i hclash
      refine gives_of_framed ⟨(sameBut_region s _ _ _).complete, fun _ _ x hx => ?_⟩
      rw [State.destRange, hclash] at hx
      exact readByte_scramble_outside { s with draws := d } _ _ x hx
    · rename_i hclash
      rw [drewTree_eq (s.wrAll _)]
      refine wroteBits_framed _ _ rfl hb ?_ ?_ <;> rw [State.destRange, Bool.eq_false_of_not_eq_true hclash]
      · rfl
      · simp only [State.hencRange, Bool.false_eq_true, if_false, State.regionBits] at hb ⊢
        omega

theorem execHdec_framed (ra rb : RegIx) (walk : Bool) : GivesFramed (.hdec ra rb walk) s (execHdec ra rb walk s) := by
  refine withRanges_framed _ ?_
  split
  · obtain ⟨node, lut, nnodes, draws, e⟩ := scrambleTree_eq (s.scramble (s.regNat ra) (s.regNat rb))
    rw [e]
    exact gives_of_framed
      ⟨(sameBut_tree s [.tree, .reader, .memory] _ _ _ _ _ _ _ (by simp) (by simp) (by simp)).raise _ _,
      fun _ _ x hx => readByte_scramble_outside s _ _ x hx⟩
  · rename_i d e
    obtain ⟨-, hl⟩ := decodeBlock_eq_ok e
    generalize overlaps (s.regNat ra) (s.regNat rb) s.bcBase.toNat s.bcLen.toNat = clash
    refine gives_of_framed ⟨?_, fun _ _ x hx => ?_⟩
    · cases clash <;>
        exact (sameBut_tree s [.tree, .reader, .memory] _ _ _ _ _ _ _ (by simp) (by simp) (by simp)).complete
    · simp only [State.destRange] at hx
      exact readByte_storeOrScramble_outside s clash _ d.bytes x (by omega)

theorem execHtree_framed : GivesFramed .htree s (execHtree s) := by
  unfold execHtree
  split <;> refine framed_of_parts [.tree, .reader] rfl (by simp) ?_
  · obtain ⟨node, lut, nnodes, draws, e⟩ := scrambleTree_eq s
    rw [e]
    exact (sameBut_tree s _ s.mem _ _ _ _ _ _ (by simp) (by simp) fun _ => rfl).raise _ _
  · exact (sameBut_tree s _ s.mem _ _ _ s.draws _ _ (by simp) (by simp) fun _ => rfl).complete

theorem execMload_framed (t : TableIx) (ra : RegIx) : GivesFramed (.mload t ra) s (execMload t ra s) := by
  refine withRanges_framed _ ?_
  split
  · exact raise_framed _ _
  · exact framed_of_parts [.tables] rfl (by simp) (sameBut_of_fields (tables := by simp))

theorem execMqinit_framed (t : TableIx) (ra : RegIx) : GivesFramed (.mqinit t ra) s (execMqinit t ra s) :=
  framed_of_parts [.tables] rfl (by simp) (sameBut_of_fields (tables := by simp))

theorem execSetq_framed (q : StepIx) (ra : RegIx) : GivesFramed (.setq q ra) s (execSetq q ra s) := by
  unfold execSetq
  split
  · exact raise_framed _ _
  · exact framed_of_parts [.steps] rfl (by simp) (sameBut_of_fields (steps := by simp))

theorem execSetdim_framed (ra rb : RegIx) : GivesFramed (.setdim ra rb) s (execSetdim ra rb s) := by
  unfold execSetdim
  dsimp only
  split
  · exact raise_framed _ _
  · exact framed_of_parts [.plane] rfl (by simp) (sameBut_of_fields (plane := by simp))

/-- No command changes a part that the spec does not name for it, nor a byte outside its destination range. -/
theorem exec_framed (i : Instr) : GivesFramed i s (exec i s) := by
  cases i with
  | halt | nop => exact framed_of_parts [] rfl (by simp) (sameBut_control s _)
  | li rd | lih rd | add rd | addi rd | brpeek rd | brend rd | brpos rd | bwsize rd | msize rd | quant rd
  | dequant rd => exact setReg_framed rd _ rfl
  | hlutrd rd => exact withTreeValid_framed (setReg_framed rd _ rfl)
  | mmap rd _ t | munmap rd _ t => exact withTable_framed t (setReg_framed rd _ rfl)
  | brinit ra rb => exact execBrinit_framed s ra rb
  | brbit rd | brbits rd => exact readInto_framed rd _ rfl
  | hsym rd => exact withTreeValid_framed (readInto_framed rd _ rfl)
  | bradv ra => exact execBradv_framed s ra
  | bwinit ra rb => exact execBwinit_framed s ra rb
  | bwbits ra n => exact execBwbits_framed s ra n
  | henc ra rb => exact execHenc_framed s ra rb
  | hdec ra rb walk => exact execHdec_framed s ra rb walk
  | htree => exact execHtree_framed s
  | mload t ra => exact execMload_framed s t ra
  | mqinit t ra => exact execMqinit_framed s t ra
  | setq q ra => exact execSetq_framed s q ra
  | setdim ra rb => exact execSetdim_framed s ra rb
  | mstore t ra =>
    exact withTable_framed t (rangedStore_framed _ false _ _ rfl (by simp [State.destRange, tableBytes_length]))
  | mmapv t | munmapv t =>
    exact withTable_framed t (rangedStore_framed _ _ _ _ rfl (by simp [State.destRange, halvesBytes_length]))
  | quantv | dequantv => exact rangedStore_framed _ _ _ _ rfl (by simp [State.destRange, halvesBytes_length])
  | dsamp | usamp | resid | recon =>
    exact withPlane_framed (rangedStore_framed _ _ _ _ rfl (by simp [State.destRange, halvesBytes_length]))

end

/-! ## The statements -/

/-- Settles O55: the frame of every command bounds the bytes it changes. -/
theorem storesStayInTheDestination : Obligations.StoresStayInTheDestination :=
  fun i s t hc hp h => (exec_framed s i t h).bytes hc hp

/-- Settles O54: a command that is not among those named for a part does not have the part in its frame. -/
theorem onlyTheNamedCommandsChangeAUnit : Obligations.OnlyTheNamedCommandsChangeAUnit := by
  intro i s t ht
  have hs := (exec_framed s i t ht).parts
  refine ⟨fun h => hs .tables ?_, fun h => hs .tree ?_, fun h => hs .steps ?_, fun h => hs .plane ?_,
    fun h => hs .reader ?_, fun h => hs .writer ?_, fun h => hs .memory ?_⟩
  all_goals cases i <;> simp [changedParts] at h ⊢

end Sys2Proof.Machine

/-! The memory port: a host transaction at an address of local memory, and at one that does not exist (20_memory.md
R78). -/

namespace Sys2Proof.Machine

/-! ## What an access changes -/

/-- The memory port reads an address of local memory: the true byte while the engine is not BUSY. -/
theorem memPortRead_eq (s : State) (a : Word) : ∃ (v : Word) (d : Nat),
    s.memPortRead a = { s with hostData := v, draws := d } ∧
      (s.engine ≠ .busy → v.toNat = (s.readByte a.toNat).toNat) := by
  unfold State.memPortRead
  split
  · exact ⟨_, _, rfl, fun h => absurd ‹_› h⟩
  · have hlt := (s.readByte a.toNat).isLt
    exact ⟨_, s.draws, rfl, fun _ => by rw [BitVec.toNat_setWidth, Nat.mod_eq_of_lt (by omega)]⟩

/-- The memory port writes a byte of local memory: the host's value, or while BUSY a free one that is loose. -/
theorem memPortWrite_eq (s : State) (a : Word) (b : Byte) : ∃ (x : Byte) (d : Nat) (l : List Piece),
    s.memPortWrite a b = { s.storeBytes a.toNat [x] with draws := d, loose := l } ∧
      (s.engine ≠ .busy → x = b ∧ l = s.loose) ∧ (s.engine = .busy → l = .byte a.toNat :: s.loose) := by
  unfold State.memPortWrite
  split
  · exact ⟨Config.freeByte s.draws (a.toNat + 0), _, _, rfl, fun h => absurd ‹_› h, fun _ => rfl⟩
  · exact ⟨b, s.draws, s.loose, rfl, fun _ => ⟨rfl, rfl⟩, fun h => absurd h ‹_›⟩

/-! ## The step of each transaction -/

theorem step_memRead {s : State} {a : Word} {rest : List Turn} (hi : s.inputs = .host (.memRead a) :: rest)
    (ha : a.toNat < s.cfg.memBytes) : step s = .next ({ s with inputs := rest }.memPortRead a) := by
  simp only [step, hi, hostTurn, if_pos ha]

theorem step_memWrite {s : State} {a : Word} {b : Byte} {rest : List Turn}
    (hi : s.inputs = .host (.memWrite a b) :: rest) (ha : a.toNat < s.cfg.memBytes) :
    step s = .next ({ s with inputs := rest }.memPortWrite a b) := by
  simp only [step, hi, hostTurn, if_pos ha]

/-- An address at or above MEM_BYTES does not exist (assumption log 14). -/
theorem step_memPort_absent {s : State} {a : Word} {b : Byte} {rest : List Turn}
    (hi : s.inputs = .host (.memRead a) :: rest ∨ s.inputs = .host (.memWrite a b) :: rest)
    (ha : s.cfg.memBytes ≤ a.toNat) : step s = .fault (.hostAddress a) := by
  rcases hi with hi | hi <;> simp only [step, hi, hostTurn, if_neg (Nat.not_lt.mpr ha)]

/-- Settles O52: the two accesses change the byte and the host's side alone, and an absent address stops the model. -/
theorem memoryPortReadsAndWrites : Obligations.MemoryPortReadsAndWrites := by
  refine fun s a b rest => ⟨fun hi ha => ?_, fun hi ha => ?_, step_memPort_absent⟩
  · obtain ⟨v, d, e, hv⟩ := memPortRead_eq { s with inputs := rest } a
    refine ⟨_, step_memRead hi ha, ?_⟩
    rw [e]
    exact ⟨rfl, sameBut_control s [], ⟨rfl, rfl, rfl⟩, rfl, rfl, rfl, rfl, rfl, hv⟩
  · obtain ⟨x, d, l, e, hx, hl⟩ := memPortWrite_eq { s with inputs := rest } a b
    refine ⟨_, step_memWrite hi ha, ?_⟩
    rw [e]
    refine ⟨rfl, sameBut_of_fields (memory := by simp), ⟨rfl, rfl, rfl⟩, rfl, rfl, rfl, rfl, rfl, rfl, fun y hy => ?_,
      fun hb => ⟨?_, (hx hb).2⟩, hl⟩
    · exact readByte_storeBytes_outside s a.toNat [x] y hy
    · exact (readByte_storeBytes_inside s a.toNat [x] 0 Nat.one_pos).trans (hx hb).1

end Sys2Proof.Machine

/-! The engine's turn in a run in which the host wrote memory: the variants of the state, what a command keeps of the
host's side, and the values that what is loose takes (20_memory.md R78, assumption log 12). -/

namespace Sys2Proof.Machine

/-! ## What a command keeps -/

/-- No command touches the parameters, IE, or the host's side. -/
theorem Effect.sameHostSide {s t : State} (he : Effect s t) : SameHostSide s t := by
  cases he with
  | wroteBits | stored | decoded => simp [SameHostSide]
  | _ => exact ⟨rfl, rfl, rfl, rfl, rfl⟩

/-- No command changes what the bytes read that nothing has written. -/
theorem Effect.memEpoch_eq {s t : State} (he : Effect s t) : t.memEpoch = s.memEpoch := by
  cases he with
  | wroteBits | stored | decoded => simp
  | _ => rfl

theorem effect_of_fetchAndExec {s t : State} (h : s.fetchAndExec = .next t) : Effect s t := by
  obtain ⟨u, hu, he⟩ := fetchAndExec_hasEffect s
  cases hu.symm.trans h
  exact he

/-! ## The variants -/

/-- Where something is loose, a variant is a draw of it, with the count of draws moved past all variants' draws. -/
theorem mem_variants_of_loose {s v : State} (hl : s.loose ≠ []) (hv : v ∈ s.variants) :
    ∃ d, v = { s.drawn s.loose d with draws := s.draws + Config.freeCount s.draws + 2 } := by
  unfold State.variants at hv
  split at hv
  · exact absurd ‹_› hl
  · obtain ⟨k, -, rfl⟩ := List.mem_map.mp hv
    exact ⟨_, rfl⟩

section
variable {s v : State} (hl : s.loose ≠ []) (hv : v ∈ s.variants)
include hl hv

theorem variant_draws : v.draws = s.draws + Config.freeCount s.draws + 2 := by
  obtain ⟨d, rfl⟩ := mem_variants_of_loose hl hv
  rfl

theorem variant_legal (h : Legal s) : Legal v := by
  obtain ⟨d, rfl⟩ := mem_variants_of_loose hl hv
  exact legal_drawn s s.loose d h

theorem variant_variesLoose : VariesLoose s v := by
  have hp := agrees_variant s v hv
  obtain ⟨d, rfl⟩ := mem_variants_of_loose hl hv
  obtain ⟨hcfg, heng, hie, hcp, hcnt, herr, hecp, hepoch, -, hloose, hdata, hin⟩ := drawn_control s s.loose d
  exact ⟨⟨hcfg, hie, hloose, hdata, hin⟩, ⟨herr, hecp, rfl⟩, heng, hcp, hcnt, hepoch, hp⟩

end

/-! ## The value of a drawn piece -/

/-- A piece that is drawn holds what its draw gives it, whatever is drawn beside it. -/
theorem agrees_redrawPieces_of_mem (d : Nat) (p : Piece) (ps : List Piece) (hp : p ∈ ps) : ∀ s : State,
    ∃ s' : State, s'.cfg = s.cfg ∧ p.agrees (s'.redrawPiece d p) (ps.foldl (State.redrawPiece d) s) = true := by
  induction ps with
  | nil => simp at hp
  | cons q ps ih =>
    intro s
    by_cases hmem : p ∈ ps
    · obtain ⟨s', hc, h⟩ := ih hmem (s.redrawPiece d q)
      exact ⟨s', hc.trans (redrawPiece_control d s q).1, h⟩
    · obtain rfl : p = q := (List.mem_cons.mp hp).resolve_right hmem
      exact ⟨s, rfl, agrees_redrawPieces d p ps hmem _⟩

/-- A drawn register holds any value: none is illegal. -/
theorem reg_drawn {ps : List Piece} {r : RegIx} (h : .reg r ∈ ps) (s : State) (d : Nat) :
    (s.drawn ps d).reg r = Config.freeReg d r := by
  obtain ⟨s', -, ha⟩ := agrees_redrawPieces_of_mem d _ ps h s
  exact (beq_iff_eq.mp ha).symm.trans (reg_setReg_self s' r _)

/-- A drawn byte of local memory holds any value: none is illegal. -/
theorem readByte_drawn {ps : List Piece} {a : Nat} (h : .byte a ∈ ps) (s : State) (d : Nat) (ha : a < s.cfg.memBytes) :
    (s.drawn ps d).readByte a = Config.freeByte d a := by
  obtain ⟨s', hc, hb⟩ := agrees_redrawPieces_of_mem d _ ps h s
  rw [State.redrawPiece, if_pos (hc ▸ ha)] at hb
  exact (beq_iff_eq.mp hb).symm.trans (readByte_storeBytes_inside s' a [Config.freeByte d a] 0 Nat.one_pos)

/-! ## What is loose after the command -/

/-- The pieces that become loose are those that the command from some variant leaves with another value. -/
theorem mem_loose_iff {s v t : State} {vs : List State} (hl : s.loose ≠ []) (hvs : s.variants = v :: vs)
    (ht : v.fetchAndExec = .next t) (p : Piece) : p ∈ t.looseAgainst vs ↔
      ∃ v' ∈ s.variants, ∃ t', v'.fetchAndExec = .next t' ∧ p.agrees t t' = false := by
  have hepoch : ∀ {w u}, w ∈ s.variants → w.fetchAndExec = .next u → u.memEpoch = s.memEpoch := fun hw hu => by
    obtain ⟨-, -, -, -, -, he, -⟩ := variant_variesLoose hl hw
    exact (effect_of_fetchAndExec hu).memEpoch_eq.trans he
  have hsame : ∀ {w u}, w ∈ s.variants → w.fetchAndExec = .next u → u.memEpoch = t.memEpoch := fun hw hu =>
    (hepoch hw hu).trans (hepoch (by simp [hvs]) ht).symm
  rw [mem_looseAgainst]
  constructor
  · rintro ⟨w, hw, u, hu, hp⟩
    have hw' : w ∈ s.variants := hvs ▸ List.mem_cons_of_mem v hw
    exact ⟨w, hw', u, hu, (mem_differing (hsame hw' hu) p).mp hp⟩
  · rintro ⟨w, hw, u, hu, hp⟩
    refine ⟨w, ?_, u, hu, (mem_differing (hsame hw hu) p).mpr hp⟩
    rcases List.mem_cons.mp (hvs ▸ hw) with rfl | hw'
    · cases ht.symm.trans hu
      simp at hp
    · exact hw'

/-- The model's own bookkeeping holds no piece. -/
theorem agrees_loosened (t : State) (ps : List Piece) (p : Piece) :
    p.agrees (t.drawn ps t.draws) (t.loosened ps) = true := by
  have h := agrees_refl (t.drawn ps t.draws) p
  cases p <;> exact h

/-- Settles O53: the step is the first variant's command, with what another variant changes drawn anew. -/
theorem looseBytesFreeTheResults : Obligations.LooseBytesFreeTheResults := by
  intro s hin hbusy hl hlegal
  obtain ⟨v, vs, hvs, hrun⟩ := runNext_of_loose s hl
  obtain ⟨t, ht, he⟩ := fetchAndExec_hasEffect v
  have hv : v ∈ s.variants := by simp [hvs]
  have hstep : step s = .next (t.loosened (t.looseAgainst vs)) := by
    simp only [step, hin, engineTurn, hbusy, hrun t ht]
  obtain ⟨⟨hcfg, hie, -, hdata, hinp⟩, -⟩ := variant_variesLoose hl hv
  obtain ⟨hcfg', hie', -, hdata', hinp'⟩ := he.sameHostSide
  obtain ⟨dcfg, deng, die, dcp, dcnt, derr, decp, -, -, -, ddata, dinp⟩ :=
    drawn_control t (t.looseAgainst vs) t.draws
  have hmem := mem_loose_iff hl hvs ht
  generalize t.looseAgainst vs = ps at *
  have hts : t.cfg = s.cfg := hcfg'.trans hcfg
  refine ⟨v, t, t.loosened ps, hv, variant_variesLoose hl hv, variant_legal hl hv hlegal, ht, hstep, dcp, dcnt, deng,
    derr, decp, dcfg.trans hts, die.trans (hie'.trans hie), ddata.trans (hdata'.trans hdata),
    dinp.trans (hinp'.trans (hinp.trans hin)), rfl, hmem, fun p hp => ?_, fun p hfix hp => ?_, agrees_loosened t ps,
    fun r hr => reg_drawn hr t t.draws, fun a ha hb => readByte_drawn hb t t.draws (hts ▸ ha)⟩
  · exact agrees_trans (agrees_drawn t _ t.draws p hp) (agrees_loosened t _ p)
  · obtain ⟨w, hw, u, hu, hdiff⟩ := (hmem p).mp hp
    have hsame := hfix w u (variant_variesLoose hl hw) (variant_legal hl hw hlegal)
      ((variant_draws hl hw).trans (variant_draws hl hv).symm) hu
    exact Bool.false_ne_true (hdiff.symm.trans hsame)

end Sys2Proof.Machine

/-! The fields of a word: what they determine of it, which bits of it they are, and the immediates they carry
(30_encoding.md R101, R104). -/

namespace Sys2Proof

/-! ## A word from its fields (30_encoding.md R101) -/

/-- A word is its opcode and the 26 bits below it. -/
theorem word_eq_iff (v w : Word) : v = w ↔ opField v = opField w ∧ bodyField v = bodyField w := by
  simp only [← BitVec.toNat_inj, opField, bodyField, BitVec.extractLsb'_toNat, Nat.shiftRight_eq_div_pow]
  omega

/-- The fields of format R hold every bit of a word. -/
theorem eq_of_fieldsR {v w : Word} (hop : opField v = opField w) (hrd : rdField v = rdField w)
    (hra : raField v = raField w) (hrb : rbField v = rbField w) (hrc : rcField v = rcField w)
    (himm : imm14Field v = imm14Field w) : v = w := by
  simp only [← BitVec.toNat_inj, opField, rdField, raField, rbField, rcField, imm14Field, BitVec.extractLsb'_toNat,
    Nat.shiftRight_eq_div_pow] at *
  omega

/-- The fields of format I16, with the gap between them, hold every bit of a word. -/
theorem eq_of_fieldsI16 {v w : Word} (hop : opField v = opField w) (hrd : rdField v = rdField w)
    (hgap : gapField v = gapField w) (himm : imm16Field v = imm16Field w) : v = w := by
  simp only [← BitVec.toNat_inj, opField, rdField, gapField, imm16Field, BitVec.extractLsb'_toNat,
    Nat.shiftRight_eq_div_pow] at *
  omega

theorem wordR_eq_iff (op : BitVec 6) (rd ra rb rc : BitVec 3) (imm : BitVec 14) (w : Word) :
    wordR op rd ra rb rc imm = w ↔ opField w = op ∧ rdField w = rd ∧ raField w = ra ∧ rbField w = rb ∧
      rcField w = rc ∧ imm14Field w = imm := by
  constructor
  · rintro rfl
    simp
  · rintro ⟨rfl, rfl, rfl, rfl, rfl, rfl⟩
    apply eq_of_fieldsR <;> simp

theorem wordI16_eq_iff (op : BitVec 6) (rd : BitVec 3) (imm : BitVec 16) (w : Word) :
    wordI16 op rd imm = w ↔ opField w = op ∧ rdField w = rd ∧ gapField w = 0#7 ∧ imm16Field w = imm := by
  constructor
  · rintro rfl
    simp
  · rintro ⟨rfl, rfl, hgap, rfl⟩
    apply eq_of_fieldsI16 <;> simp [hgap]

theorem wordN_eq_iff (op : BitVec 6) (w : Word) : wordN op = w ↔ opField w = op ∧ bodyField w = 0#26 := by
  simp [word_eq_iff, eq_comm]

/-! ## Fields of constants, and of masked words -/

theorem opField_ofNat (n : Nat) : opField (BitVec.ofNat 32 n) = BitVec.ofNat 6 (n / 2 ^ 26) := by
  apply BitVec.eq_of_toNat_eq
  simp only [opField, BitVec.extractLsb'_toNat, BitVec.toNat_ofNat, Nat.shiftRight_eq_div_pow]
  omega

theorem bodyField_ofNat (n : Nat) : bodyField (BitVec.ofNat 32 n) = BitVec.ofNat 26 n := by
  apply BitVec.eq_of_toNat_eq
  simp only [bodyField, BitVec.extractLsb'_toNat, BitVec.toNat_ofNat, Nat.shiftRight_zero]
  omega

theorem opField_and (v w : Word) : opField (v &&& w) = opField v &&& opField w := BitVec.extractLsb'_and

theorem bodyField_and (v w : Word) : bodyField (v &&& w) = bodyField v &&& bodyField w := BitVec.extractLsb'_and

/-- A mask of ones, written as a number. -/
theorem and_ofNat_ones {n k : Nat} (h : k = 2 ^ n - 1) (x : BitVec n) : x &&& BitVec.ofNat n k = x := by
  subst h
  simp [← BitVec.toNat_inj]

/-- A mask of all the bits from `k` on leaves nothing of exactly the numbers below `2 ^ k`. -/
theorem and_allOnes_shiftLeft_eq_zero_iff {n : Nat} (x : BitVec n) (k : Nat) :
    x &&& BitVec.allOnes n <<< k = 0#n ↔ x.toNat < 2 ^ k := by
  constructor
  · intro h
    refine Nat.lt_pow_two_of_testBit _ fun i hi => ?_
    change x.getLsbD i = false
    rcases Nat.lt_or_ge i n with hn | hn
    · have hbit := congrArg (BitVec.getLsbD · i) h
      simpa [hn, Nat.not_lt.mpr hi, show i - k < n by omega, -BitVec.getLsbD_eq_getElem] using hbit
    · exact BitVec.getLsbD_of_ge x i hn
  · intro h
    refine BitVec.eq_of_getLsbD_eq fun i _ => ?_
    rcases Nat.lt_or_ge i k with hk | hk
    · simp [hk]
    · have hbit : x.getLsbD i = false :=
        Nat.testBit_lt_two_pow (h.trans_le (Nat.pow_le_pow_right Nat.two_pos hk))
      simp [hbit]

theorem body_eq_zero_iff (b : BitVec 26) : b = 0#26 ↔ b.extractLsb' 23 3 = 0#3 ∧ b.extractLsb' 20 3 = 0#3 ∧
    b.extractLsb' 17 3 = 0#3 ∧ b.extractLsb' 14 3 = 0#3 ∧ b.extractLsb' 0 14 = 0#14 := by
  simp only [← BitVec.toNat_inj, BitVec.extractLsb'_toNat, BitVec.toNat_ofNat, Nat.shiftRight_eq_div_pow]
  omega

/-- A mask of the 26 bits below the opcode masks each field of format R. -/
theorem bodyField_and_eq_zero_iff (w : Word) (m : BitVec 26) : bodyField w &&& m = 0#26 ↔
    rdField w &&& m.extractLsb' 23 3 = 0#3 ∧ raField w &&& m.extractLsb' 20 3 = 0#3 ∧
      rbField w &&& m.extractLsb' 17 3 = 0#3 ∧ rcField w &&& m.extractLsb' 14 3 = 0#3 ∧
      imm14Field w &&& m.extractLsb' 0 14 = 0#14 := by
  rw [body_eq_zero_iff]
  simp [BitVec.extractLsb'_and, BitVec.extractLsb'_extractLsb'_of_le, bodyField, rdField, raField, rbField, rcField,
    imm14Field]

/-- Bits 22:16 are ra, rb and the highest bit of rc. -/
theorem gapField_eq_zero_iff (w : Word) :
    gapField w = 0#7 ↔ raField w = 0#3 ∧ rbField w = 0#3 ∧ rcField w &&& 4#3 = 0#3 := by
  have hand : ∀ f : BitVec 3, f &&& 4#3 = 0#3 ↔ f.toNat < 4 := by decide
  simp only [hand, ← BitVec.toNat_inj, gapField, raField, rbField, rcField, BitVec.extractLsb'_toNat,
    BitVec.toNat_ofNat, Nat.shiftRight_eq_div_pow]
  omega

/-! ## The unused bits of an immediate (30_encoding.md R104) -/

theorem above0_iff_lt (imm : BitVec 14) : above0 imm = true ↔ imm.toNat < 2 := by
  simp only [above0, beq_iff_eq, ← BitVec.toNat_inj, BitVec.extractLsb'_toNat, BitVec.toNat_ofNat,
    Nat.shiftRight_eq_div_pow]
  omega

theorem above1_iff_lt (imm : BitVec 14) : above1 imm = true ↔ imm.toNat < 4 := by
  simp only [above1, beq_iff_eq, ← BitVec.toNat_inj, BitVec.extractLsb'_toNat, BitVec.toNat_ofNat,
    Nat.shiftRight_eq_div_pow]
  omega

theorem above4_iff_lt (imm : BitVec 14) : above4 imm = true ↔ imm.toNat < 32 := by
  simp only [above4, beq_iff_eq, ← BitVec.toNat_inj, BitVec.extractLsb'_toNat, BitVec.toNat_ofNat,
    Nat.shiftRight_eq_div_pow]
  omega

theorem above0_iff_and (imm : BitVec 14) : above0 imm = true ↔ imm &&& 0x3FFE#14 = 0#14 :=
  (above0_iff_lt imm).trans (and_allOnes_shiftLeft_eq_zero_iff imm 1).symm

theorem above1_iff_and (imm : BitVec 14) : above1 imm = true ↔ imm &&& 0x3FFC#14 = 0#14 :=
  (above1_iff_lt imm).trans (and_allOnes_shiftLeft_eq_zero_iff imm 2).symm

theorem above4_iff_and (imm : BitVec 14) : above4 imm = true ↔ imm &&& 0x3FE0#14 = 0#14 :=
  (above4_iff_lt imm).trans (and_allOnes_shiftLeft_eq_zero_iff imm 5).symm

/-! ## Encoding what a field was read as (30_encoding.md R104) -/

@[simp] theorem regBits_regOf (f : BitVec 3) : regBits (regOf f) = f := by revert f; decide

theorem eq_zero_or_one_of_above0 {imm : BitVec 14} (h : above0 imm = true) : imm = 0#14 ∨ imm = 1#14 := by
  have hlt := (above0_iff_lt imm).mp h
  simp only [← BitVec.toNat_inj, BitVec.toNat_ofNat]
  omega

theorem tableBits_tableOf {imm : BitVec 14} (h : above0 imm = true) : tableBits (tableOf imm) = imm := by
  obtain rfl | rfl := eq_zero_or_one_of_above0 h <;> decide

theorem walkBits_walkOf {imm : BitVec 14} (h : above0 imm = true) : walkBits (walkOf imm) = imm := by
  obtain rfl | rfl := eq_zero_or_one_of_above0 h <;> decide

theorem stepBits_stepOf {imm : BitVec 14} (h : above1 imm = true) : stepBits (stepOf imm) = imm := by
  have hlt := (above1_iff_lt imm).mp h
  apply BitVec.eq_of_toNat_eq
  simp only [stepBits, stepOf, BitVec.toNat_ofNat, BitVec.extractLsb'_toNat, Nat.shiftRight_zero]
  omega

theorem countBits_countOf {imm : BitVec 14} (h : above4 imm = true) : countBits (countOf imm) = imm := by
  have hlt := (above4_iff_lt imm).mp h
  apply BitVec.eq_of_toNat_eq
  simp only [countBits, countOf, BitVec.toNat_ofNat, BitVec.extractLsb'_toNat, Nat.shiftRight_zero]
  omega

@[simp] theorem bitCountOk_countOf (imm : BitVec 14) : bitCountOk (countOf imm) = true := by
  have hle := Nat.succ_le_of_lt (imm.extractLsb' 0 5).isLt
  simpa [bitCountOk, countOf] using hle

end Sys2Proof

/-! The decoder against the encoder and the opcode map (30_encoding.md R102, R103, R105, R109). -/

namespace Sys2Proof

/-! ## Decoding an encoded command (30_encoding.md R109) -/

/-- Each field of an encoded word reads as the operand put there, and the fields the command does not use are 0. -/
theorem decodeWord_encode (i : Instr) (h : i.wellFormed = true) : decodeWord (encode i) = .ok i := by
  cases i with
  | brbits rd n | bwbits ra n => simp [encode, decodeWord, ifUnusedZero, countOf_countBits n h]
  | _ => simp [encode, decodeWord, ifUnusedZero]

theorem decodeBytes_encodeBytes_append (i : Instr) (h : i.wellFormed = true) (rest : List Byte) :
    decodeBytes (encodeBytes i ++ rest) = .ok (i, rest) := by
  simp [encodeBytes, bytesOfWord, decodeBytes, wordOfBytes_bytesOfWord, decodeWord_encode i h]

/-- Settles O1: the word decodes by its fields, and its four bytes are the word. -/
theorem decodeOfEncodeIsTheCommand : Obligations.DecodeOfEncodeIsTheCommand :=
  fun i h => ⟨decodeWord_encode i h, decodeBytes_encodeBytes_append i h⟩

/-! ## The rows of the opcode map (30_encoding.md R105) -/

theorem opcodeTable_opcodes_nodup : (opcodeTable.map fun row => opField row.matchBits).Nodup := by decide

/-- Every mask takes the whole opcode, and a match has no bit below it. -/
theorem opField_mask_and_bodyField_matchBits :
    ∀ row ∈ opcodeTable, opField row.mask = 0x3F#6 ∧ bodyField row.matchBits = 0#26 := by decide

/-- A word matches a row when it has the row's opcode and no other bit under the mask. -/
theorem matches_iff {row : OpcodeRow} (hrow : row ∈ opcodeTable) (w : Word) : w &&& row.mask = row.matchBits ↔
    opField w = opField row.matchBits ∧ bodyField w &&& bodyField row.mask = 0#26 := by
  obtain ⟨hmask, hmatch⟩ := opField_mask_and_bodyField_matchBits row hrow
  rw [word_eq_iff, opField_and, bodyField_and, hmask, hmatch, and_ofNat_ones (by decide)]

/-- No two rows have one opcode, so a word matches at most one row. -/
theorem length_filter_matches_le_one (w : Word) :
    (opcodeTable.filter fun row => w &&& row.mask == row.matchBits).length ≤ 1 := by
  have hop : ∀ row ∈ opcodeTable, (w &&& row.mask == row.matchBits) = true →
      (opField row.matchBits == opField w) = true := fun row hrow hm =>
    beq_iff_eq.mpr ((matches_iff hrow w).mp (beq_iff_eq.mp hm)).1.symm
  calc (opcodeTable.filter fun row => w &&& row.mask == row.matchBits).length
      = opcodeTable.countP fun row => w &&& row.mask == row.matchBits := List.countP_eq_length_filter.symm
    _ ≤ opcodeTable.countP fun row => opField row.matchBits == opField w := List.countP_mono_left hop
    _ = (opcodeTable.map fun row => opField row.matchBits).count (opField w) := by
        rw [List.count, List.countP_map]
        rfl
    _ ≤ 1 := List.nodup_iff_count_le_one.mp opcodeTable_opcodes_nodup _

/-! ## The decoder's arms -/

theorem ifUnusedZero_eq_ok_iff (unusedZero : Bool) (i j : Instr) :
    ifUnusedZero unusedZero i = .ok j ↔ unusedZero = true ∧ i = j := by
  cases unusedZero <;> simp [ifUnusedZero]

theorem eq_ofNat_of_toNat_eq {n k : Nat} {x : BitVec n} (h : x.toNat = k) : x = BitVec.ofNat n k := by simp [← h]

/-- The opcode of a word that decodes is that of a row: every other one is reserved. -/
theorem exists_row_of_decodeWord {w : Word} {i : Instr} (h : decodeWord w = .ok i) :
    ∃ row ∈ opcodeTable, opField w = opField row.matchBits := by
  unfold decodeWord at h
  split at h
  case h_40 => contradiction -- the reserved opcodes
  all_goals
    rename_i hop
    rw [eq_ofNat_of_toNat_eq hop]
    decide

/-- The arm of the decoder for a row's opcode: it answers a command with the row's mnemonic, the bits it checks are
those under the row's mask, and where these are 0 the word is the command's own. -/
theorem decodeWord_arm {row : OpcodeRow} (hrow : row ∈ opcodeTable) {w : Word}
    (hop : opField w = opField row.matchBits) :
    ∃ unusedZero i, decodeWord w = ifUnusedZero unusedZero i ∧ i.mnemonic = row.mnemonic ∧
      (unusedZero = true ↔ bodyField w &&& bodyField row.mask = 0#26) ∧
      (unusedZero = true → encode i = w ∧ i.wellFormed = true) := by
  fin_cases hrow
  all_goals
    simp only [opField_ofNat] at hop
    refine ⟨_, _, by unfold decodeWord; rw [hop]; rfl, rfl, ?_, fun hzero => ?_⟩
    · simp [bodyField_ofNat, bodyField_and_eq_zero_iff, and_ofNat_ones, gapField_eq_zero_iff, above0_iff_and,
        above1_iff_and, above4_iff_and, and_assoc]
    · simp only [Bool.and_eq_true, beq_iff_eq] at hzero
      simp [encode, Instr.wellFormed, wordR_eq_iff, wordI16_eq_iff, wordN_eq_iff, hop, hzero, tableBits_tableOf,
        walkBits_walkOf, stepBits_stepOf, countBits_countOf]

/-- A word with a row's opcode decodes exactly when it matches the row, to the command whose word it is. -/
theorem decodeWord_of_opField {row : OpcodeRow} (hrow : row ∈ opcodeTable) {w : Word}
    (hop : opField w = opField row.matchBits) :
    ∃ i, i.mnemonic = row.mnemonic ∧ (∀ j, decodeWord w = .ok j ↔ w &&& row.mask = row.matchBits ∧ i = j) ∧
      (w &&& row.mask = row.matchBits → encode i = w ∧ i.wellFormed = true) := by
  obtain ⟨unusedZero, i, hdecode, hname, hzero, hencode⟩ := decodeWord_arm hrow hop
  have hmatch : w &&& row.mask = row.matchBits ↔ unusedZero = true := by simp [matches_iff hrow, hop, hzero]
  exact ⟨i, hname, fun j => by rw [hdecode, ifUnusedZero_eq_ok_iff, hmatch], fun h => hencode (hmatch.mp h)⟩

/-! ## The statements -/

/-- Settles O2: the word that decodes matches the row of its opcode, and is the word of the command of that row. -/
theorem encodeOfDecodeIsTheWord : Obligations.EncodeOfDecodeIsTheWord := by
  intro w i h
  obtain ⟨row, hrow, hop⟩ := exists_row_of_decodeWord h
  obtain ⟨j, -, hdecode, hencode⟩ := decodeWord_of_opField hrow hop
  obtain ⟨hmatch, rfl⟩ := (hdecode i).mp h
  exact hencode hmatch

/-- Settles O3: the opcode picks the row, and the bits the decoder checks are the row's mask. -/
theorem decodeFollowsTheOpcodeMap : Obligations.DecodeFollowsTheOpcodeMap := by
  intro w
  refine ⟨fun i h => ?_, fun row hrow hmatch => ?_, length_filter_matches_le_one w⟩
  · obtain ⟨row, hrow, hop⟩ := exists_row_of_decodeWord h
    obtain ⟨j, hname, hdecode, -⟩ := decodeWord_of_opField hrow hop
    obtain ⟨hmatch, rfl⟩ := (hdecode i).mp h
    exact ⟨row, hrow, hname.symm, hmatch⟩
  · obtain ⟨hop, -⟩ := (matches_iff hrow w).mp hmatch
    obtain ⟨i, hname, hdecode, -⟩ := decodeWord_of_opField hrow hop
    exact ⟨i, (hdecode i).mpr ⟨hmatch, rfl⟩, hname⟩

/-- Settles O4: each word is evaluated. -/
theorem sampleWordsDecode : Obligations.SampleWordsDecode := by
  unfold Obligations.SampleWordsDecode
  decide

end Sys2Proof

/-! What a command that completes or faults leaves, and the numbers that bit strings stand for: the facts about results
that every family of commands needs. -/

namespace Sys2Proof.Machine

/-! ## Completing (46_control.md R281) -/

@[simp] theorem reg_complete (s : State) (r : RegIx) : s.complete.reg r = s.reg r := rfl

@[simp] theorem reg_setBcPos (s : State) (pos : Nat) (r : RegIx) : (s.setBcPos pos).reg r = s.reg r := rfl

/-- A command completes whose effect leaves the engine-control registers and the host's side alone. -/
theorem completed_complete {s t : State} (cp : t.cp = s.cp := by rfl) (cmdcnt : t.cmdcnt = s.cmdcnt := by rfl)
    (engine : t.engine = s.engine := by rfl) (err : SameErr s t := by exact ⟨rfl, rfl, rfl⟩)
    (host : SameHostSide s t := by exact ⟨rfl, rfl, rfl, rfl, rfl⟩) : Completed s t.complete :=
  ⟨by rw [complete_cp, cp], by rw [complete_cmdcnt, cmdcnt], engine, err, host⟩

theorem sameRegsBut_setReg (s : State) (rd : RegIx) (v : Word) : SameRegsBut rd s (s.setReg rd v).complete :=
  fun r hr => reg_setReg_ne s rd v r hr

/-- What a command leaves that writes R[rd] and completes. -/
theorem exec_writes_reg {i : Instr} {s : State} {rd : RegIx} {v : Word}
    (h : exec i s = .next (s.setReg rd v).complete) :
    ∃ t, exec i s = .next t ∧ Completed s t ∧ t.reg rd = v ∧ SameRegsBut rd s t ∧ SameBut [.regs] s t :=
  ⟨_, h, completed_complete, reg_setReg_self s rd v, sameRegsBut_setReg s rd v,
    (sameBut_setReg s s.inputs rd v).complete⟩

/-! ## Faults (60_exceptions.md R310) -/

theorem raisedClean_raise (s : State) (c : Cause) (info : Word) : RaisedClean c info s (s.raise c info) :=
  ⟨⟨rfl, rfl, rfl, rfl, rfl, rfl, fun _ => rfl, rfl, rfl, rfl, rfl, rfl⟩, sameBut_control s []⟩

/-- A read that is TRUNCATED where the reader stands leaves BC_POS there. -/
theorem raiseStream_truncatedAt_bcPos (s : State) :
    s.raiseStream (truncatedAt s.bcPos.toNat) = s.raise .truncated s.bcPos := by
  simp only [State.raiseStream, truncatedAt, State.setBcPos, BitVec.ofNat_toNat, BitVec.setWidth_eq]

/-- One range is checked: the body runs where it fits, and else MEM_RANGE names its start. -/
theorem withRanges_one (s : State) (a : Word) (n : Nat) (body : Result) :
    (FitsMemory s a.toNat n → s.withRanges [(a, n)] body = body) ∧
      (¬ FitsMemory s a.toNat n → s.withRanges [(a, n)] body = .next (s.raise .memRange a)) := by
  by_cases h : s.inRange a.toNat n = true <;> simp [State.withRanges, State.badRange, ← inRange_iff, h]

/-! ## Bits of a number -/

/-- Bit k of a number given bit by bit. -/
theorem testBit_natOfBits_range (f : Nat → Bool) (n k : Nat) :
    (natOfBits ((List.range n).map f)).testBit k = (decide (k < n) && f k) := by
  rw [testBit_natOfBits]
  by_cases h : k < n <;> simp [h]

theorem bitWord_toNat (b : Bool) : (bitWord b).toNat = if b then 1 else 0 := by cases b <;> rfl

end Sys2Proof.Machine

/-! The bit reader: what its commands give in the registers, where they leave the position, and where they are
TRUNCATED (41_bitstream.md R130 to R146). -/

namespace Sys2Proof.Machine

/-! ## Reading bits -/

/-- BRBIT is BRBITS of one bit (41_bitstream.md R131, R132). -/
theorem execBrbit_eq_execBrbits (rd : RegIx) (s : State) : execBrbit rd s = execBrbits rd 1 s := by
  have hword : bitWord (s.sbit s.bcPos.toNat) = BitVec.ofNat 32 (natOfBits (s.sbits s.bcPos.toNat 1)) := by
    cases h : s.sbit s.bcPos.toNat <;> simp [State.sbits, natOfBits, bitWord, h]
  unfold execBrbit execBrbits State.rdBit State.rdBits
  split
  · rfl
  · exact congrArg (fun v => s.readInto rd (.ok (v, s.bcPos.toNat + 1))) hword

/-- Bit k of what RdBits gives is the k-th bit read (41_bitstream.md R132). -/
theorem getLsbD_rdBits_word (s : State) (pos n k : Nat) (hk : k < 32) :
    (BitVec.ofNat 32 (natOfBits (s.sbits pos n))).getLsbD k = (decide (k < n) && s.sbit (pos + k)) := by
  rw [BitVec.getLsbD_ofNat, State.sbits, testBit_natOfBits_range, decide_eq_true hk, Bool.true_and]

/-- Bit k of PeekByte is the k-th pending bit, where the window has it (41_bitstream.md R133). -/
theorem getLsbD_peekByte (s : State) (pos k : Nat) :
    (s.peekByte pos).getLsbD k = (decide (k < 8) && (decide (pos + k < s.windowBits) && s.sbit (pos + k))) := by
  rw [State.peekByte, BitVec.getLsbD_ofNat, testBit_natOfBits_range, ← Bool.and_assoc, Bool.and_self]

/-- BRBITS takes n bits of the window, or is TRUNCATED where it stands (41_bitstream.md R142). -/
theorem execBrbits_cases (rd : RegIx) (n : Nat) (s : State) :
    (s.bcPos.toNat + n ≤ s.windowBits ∧ execBrbits rd n s =
        .next ((s.setReg rd (BitVec.ofNat 32 (natOfBits (s.sbits s.bcPos.toNat n)))).setBcPos
          (s.bcPos.toNat + n)).complete) ∨
      (s.windowBits < s.bcPos.toNat + n ∧ execBrbits rd n s = .next (s.raise .truncated s.bcPos)) := by
  unfold execBrbits
  refine (rdBits_cases s n s.bcPos.toNat).imp (fun ⟨hfit, e⟩ => ⟨hfit, ?_⟩) (fun ⟨hover, e⟩ => ⟨hover, ?_⟩) <;> rw [e]
  · rfl
  · exact congrArg _ (raiseStream_truncatedAt_bcPos s)

/-- BRADV moves inside the window, or is TRUNCATED where it stands (41_bitstream.md R144). -/
theorem execBradv_cases (ra : RegIx) (s : State) :
    (s.bcPos.toNat + s.regNat ra ≤ s.windowBits ∧
        execBradv ra s = .next (s.setBcPos (s.bcPos.toNat + s.regNat ra)).complete) ∨
      (s.windowBits < s.bcPos.toNat + s.regNat ra ∧ execBradv ra s = .next (s.raise .truncated s.bcPos)) := by
  unfold execBradv
  refine (advance_cases s (s.regNat ra) s.bcPos.toNat).imp
    (fun ⟨hfit, e⟩ => ⟨hfit, ?_⟩) (fun ⟨hover, e⟩ => ⟨hover, ?_⟩) <;> rw [e]
  exact congrArg _ (raiseStream_truncatedAt_bcPos s)

/-- BC_POS holds the moved position modulo 2^32 (assumption log 15). -/
theorem ofNat_bcPos_add (s : State) (n : Nat) :
    BitVec.ofNat 32 (s.bcPos.toNat + n) = s.bcPos + BitVec.ofNat 32 n := by
  rw [← BitVec.ofNat_add_ofNat, BitVec.ofNat_toNat, BitVec.setWidth_eq]

/-- At most 7 bits remain, as a statement about integers (41_bitstream.md R137). -/
theorem atEnd_iff (s : State) (pos : Nat) : s.atEnd pos = true ↔ (8 * s.bcLen.toNat : Int) - pos ≤ 7 := by
  rw [State.atEnd, decide_eq_true_iff, State.windowBits]
  omega

/-! ## The statements -/

/-- Settles O14: BRBIT is BRBITS of one bit, and BRBITS takes its bits or faults where it stands. -/
theorem bitReadsTakeTheNextBits : Obligations.BitReadsTakeTheNextBits := by
  intro i rd n s hi
  have hexec : exec i s = execBrbits rd n s := by
    rcases hi with ⟨rfl, rfl⟩ | ⟨rfl, -⟩
    · exact execBrbit_eq_execBrbits rd s
    · rfl
  rw [hexec]
  have hcases := execBrbits_cases rd n s
  unfold State.windowBits at hcases
  refine ⟨fun hfit => ?_, fun hover => ?_⟩
  · obtain ⟨-, e⟩ := hcases.resolve_right (by omega)
    refine ⟨_, e, completed_complete, fun k hk => ?_, ofNat_bcPos_add s n, rfl, rfl, sameRegsBut_setReg s rd _,
      (sameBut_of_fields (regs := by simp) (reader := by simp)).complete⟩
    rw [reg_complete, reg_setBcPos, reg_setReg_self, getLsbD_rdBits_word s _ n k hk, State.sbit]
  · obtain ⟨-, e⟩ := hcases.resolve_left (by omega)
    exact ⟨_, e, raisedClean_raise s _ _⟩

/-- Settles O15: the byte that PeekByte gives, bit by bit. -/
theorem brpeekPadsWithZeros : Obligations.BrpeekPadsWithZeros := by
  intro rd s
  obtain ⟨t, e, hcomplete, hvalue, hframe⟩ := exec_writes_reg (i := .brpeek rd) (s := s) rfl
  refine ⟨t, e, hcomplete, fun k hk => ?_, hframe⟩
  rw [hvalue, BitVec.getLsbD_setWidth, decide_eq_true hk, Bool.true_and, getLsbD_peekByte, State.windowBits, State.sbit]

/-- Settles O16: Advance moves or faults where it stands. -/
theorem bradvMovesOrTruncates : Obligations.BradvMovesOrTruncates := by
  intro ra s
  have hcases := execBradv_cases ra s
  unfold State.windowBits at hcases
  refine ⟨fun hfit => ?_, fun hover => ?_⟩
  · obtain ⟨-, e⟩ := hcases.resolve_right (by omega)
    refine ⟨_, e, completed_complete, ?_, rfl, rfl, (sameBut_of_fields (reader := by simp)).complete⟩
    rw [complete_bcPos, setBcPos_bcPos, ofNat_bcPos_add, State.regNat, BitVec.ofNat_toNat, BitVec.setWidth_eq]
  · obtain ⟨-, e⟩ := hcases.resolve_left (by omega)
    exact ⟨_, e, raisedClean_raise s _ _⟩

/-- Settles O17: each of the four writes its value to R[rd]. -/
theorem positionAndSizeReads : Obligations.PositionAndSizeReads := by
  intro rd s
  refine ⟨?_, exec_writes_reg (i := .brpos rd) rfl, ?_, ?_⟩
  · obtain ⟨t, e, hcomplete, hvalue, hframe⟩ := exec_writes_reg (i := .brend rd) (s := s) rfl
    refine ⟨t, e, hcomplete, ?_, hframe⟩
    rw [hvalue, bitWord_toNat]
    exact if_congr (atEnd_iff s _) rfl rfl
  · obtain ⟨t, e, hcomplete, hvalue, hframe⟩ := exec_writes_reg (i := .bwsize rd) (s := s) rfl
    refine ⟨t, e, hcomplete, ?_, hframe⟩
    have hpos := s.bwPos.isLt
    rw [hvalue, BitVec.toNat_ofNat, State.sizeBytes]
    omega
  · obtain ⟨t, e, hcomplete, hvalue, hframe⟩ := exec_writes_reg (i := .msize rd) (s := s) rfl
    exact ⟨t, e, hcomplete, by rw [hvalue]; rfl, hframe⟩

/-- Settles O13: both commands check their one range and then set three registers. -/
theorem brinitAndBwinitCheckTheRange : Obligations.BrinitAndBwinitCheckTheRange := by
  intro ra rb s
  have hrange := fun body => withRanges_one s (s.reg ra) (s.regNat rb) body
  refine ⟨fun hfits => ⟨?_, ?_⟩, fun hout => ⟨?_, ?_⟩⟩
  · exact ⟨_, (hrange _).1 hfits, completed_complete, rfl, rfl, rfl,
      (sameBut_of_fields (reader := by simp)).complete⟩
  · exact ⟨_, (hrange _).1 hfits, completed_complete, rfl, rfl, rfl,
      (sameBut_of_fields (writer := by simp)).complete⟩
  · exact ⟨_, (hrange _).2 hout, raisedClean_raise s _ _⟩
  · exact ⟨_, (hrange _).2 hout, raisedClean_raise s _ _⟩

end Sys2Proof.Machine

/-! The bit writer: every bit of the region after a sequence of written bits, BWBITS, and the fields that a reader gets
back (41_bitstream.md R135, R136, R148, R150). -/

namespace Sys2Proof.Machine

/-! ## Bits of the region (41_bitstream.md R135) -/

@[simp] theorem regionBit_complete (s : State) (p : Nat) : s.complete.regionBit p = s.regionBit p := rfl

/-- One written bit: its own bit, zeros in the rest of a byte it starts, and every other bit as before. -/
theorem regionBit_wrBit (s : State) (b : Bool) (p : Nat) : (s.wrBit b).regionBit p =
    if p = s.bwPos.toNat then b
    else if p / 8 = s.bwPos.toNat / 8 ∧ s.bwPos.toNat % 8 = 0 then false else s.regionBit p := by
  rw [State.regionBit, wrBit_bwBase, readByte_wrBit, State.regionBit]
  by_cases hbyte : p / 8 = s.bwPos.toNat / 8
  · have hself : p % 8 = s.bwPos.toNat % 8 ↔ p = s.bwPos.toNat := by omega
    rw [if_pos (by rw [hbyte]), withBit_getLsbD _ _ _ _ (Nat.mod_lt _ (by decide)), if_congr hself rfl rfl]
    by_cases hstart : s.bwPos.toNat % 8 = 0 <;> simp [hbyte, hstart]
  · rw [if_neg (by omega), if_neg (fun e => hbyte (by rw [e])), if_neg (fun e => hbyte e.1)]

/-- BW_POS as a number, while the 32-bit register holds it. -/
theorem wrAll_bwPos_toNat (s : State) (bs : Bits) (h : s.bwPos.toNat + bs.length < 2 ^ 32) :
    (s.wrAll bs).bwPos.toNat = s.bwPos.toNat + bs.length := by
  rw [wrAll_bwPos, BitVec.toNat_add, BitVec.toNat_ofNat, Nat.add_mod_mod, Nat.mod_eq_of_lt h]

/-- Bits written from BW_POS on: the bits themselves, zeros in the rest of every byte they start, and every other bit
as before. The induction adds the last bit, so that BW_POS can wrap only after it. -/
theorem regionBit_wrAll (s : State) (p : Nat) (bs : Bits) : s.bwPos.toNat + bs.length ≤ 2 ^ 32 →
    (s.wrAll bs).regionBit p =
      if s.bwPos.toNat ≤ p ∧ p < s.bwPos.toNat + bs.length then bs[p - s.bwPos.toNat]?.getD false
      else if s.bwPos.toNat ≤ 8 * (p / 8) ∧ 8 * (p / 8) < s.bwPos.toNat + bs.length then false
      else s.regionBit p := by
  induction bs using List.reverseRecOn with
  | nil =>
    intro _
    rw [List.length_nil, if_neg (by omega), if_neg (by omega)]
    rfl
  | append_singleton bs b ih =>
    intro h
    rw [List.length_append, List.length_singleton] at h ⊢
    have hstep : (s.wrAll (bs ++ [b])).regionBit p = ((s.wrAll bs).wrBit b).regionBit p := by
      rw [wrAll_append]; rfl
    rw [hstep, regionBit_wrBit, wrAll_bwPos_toNat s bs (by omega), ih (by omega)]
    have hafter : s.bwPos.toNat ≤ s.bwPos.toNat + bs.length := Nat.le_add_right ..
    generalize hend : s.bwPos.toNat + bs.length = stop at hafter
    rw [← Nat.add_assoc, hend]
    by_cases hlast : p = stop
    · subst hlast
      rw [if_pos rfl, if_pos ⟨hafter, Nat.lt_succ_self p⟩, ← hend, Nat.add_sub_cancel_left, List.getElem?_concat_length,
        Option.getD_some]
    · rw [if_neg hlast]
      by_cases hin : s.bwPos.toNat ≤ p ∧ p < stop
      · rw [if_pos hin, if_neg (by omega), if_pos ⟨hin.1, Nat.lt_succ_of_lt hin.2⟩,
          List.getElem?_append_left (by omega)]
      · have hzero : (s.bwPos.toNat ≤ 8 * (p / 8) ∧ 8 * (p / 8) < stop + 1) ↔
            (p / 8 = stop / 8 ∧ stop % 8 = 0) ∨ (s.bwPos.toNat ≤ 8 * (p / 8) ∧ 8 * (p / 8) < stop) := by omega
        rw [if_neg hin, if_neg (show ¬ (s.bwPos.toNat ≤ p ∧ p < stop + 1) by omega), if_congr hzero rfl rfl,
          ite_or]

section
variable (s : State) (bs : Bits) (h : s.bwPos.toNat + bs.length ≤ 2 ^ 32)
include h

/-- The k-th bit written stands at the k-th position from BW_POS on. -/
theorem regionBit_wrAll_written (k : Nat) (hk : k < bs.length) :
    (s.wrAll bs).regionBit (s.bwPos.toNat + k) = bs[k] := by
  rw [regionBit_wrAll s _ bs h, if_pos (by omega), Nat.add_sub_cancel_left, List.getElem?_eq_getElem hk,
    Option.getD_some]

/-- The bits before BW_POS stand. -/
theorem regionBit_wrAll_before (p : Nat) (hp : p < s.bwPos.toNat) : (s.wrAll bs).regionBit p = s.regionBit p := by
  rw [regionBit_wrAll s _ bs h, if_neg (by omega), if_neg (by omega)]

/-- Above the last bit, its byte is zero where the write started it, and as before where the write continued it. -/
theorem regionBit_wrAll_lastByte (p : Nat) (hp : s.bwPos.toNat + bs.length ≤ p)
    (hlast : p / 8 = (s.bwPos.toNat + bs.length - 1) / 8) (hne : 1 ≤ bs.length) :
    (s.wrAll bs).regionBit p = (decide (8 * (p / 8) < s.bwPos.toNat) && s.regionBit p) := by
  rw [regionBit_wrAll s _ bs h, if_neg (by omega)]
  by_cases hstart : 8 * (p / 8) < s.bwPos.toNat
  · rw [if_neg (by omega), decide_eq_true hstart, Bool.true_and]
  · rw [if_pos (by omega), decide_eq_false hstart, Bool.false_and]

end

/-! ## BWBITS (41_bitstream.md R148) -/

/-- BWBITS writes the low n bits of R[ra], or takes WRITE_OVERFLOW before the first. -/
theorem execBwbits_cases (ra : RegIx) (n : Nat) (s : State) :
    (s.bwPos.toNat + n ≤ s.regionBits ∧
        execBwbits ra n s = .next (s.wrAll (bitsOfNat n (s.regNat ra))).complete) ∨
      (s.regionBits < s.bwPos.toNat + n ∧ execBwbits ra n s = .next (s.raise .writeOverflow s.bwPos)) := by
  unfold execBwbits
  have hcases := wrBits_cases s (bitsOfNat n (s.regNat ra))
  rw [bitsOfNat_length] at hcases
  refine hcases.imp (fun ⟨hfit, e⟩ => ⟨hfit, ?_⟩) (fun ⟨hover, e⟩ => ⟨hover, ?_⟩) <;> rw [e]

/-- A command completes that writes bits. -/
theorem completed_wrAll (s : State) (bs : Bits) : Completed s (s.wrAll bs).complete :=
  completed_complete (by simp) (by simp) (by simp) (by simp [SameErr]) (by simp [SameHostSide])

/-- Settles O18: the bits of the region after the low n bits of R[ra] are written. -/
theorem bwbitsAppendsBits : Obligations.BwbitsAppendsBits := by
  intro ra n s hn _ hcap
  have hcases := execBwbits_cases ra n s
  unfold State.regionBits at hcases
  refine ⟨fun hfit => ?_, fun hover => ?_⟩
  · obtain ⟨-, e⟩ := hcases.resolve_right (by omega)
    have hlen : (bitsOfNat n (s.regNat ra)).length = n := bitsOfNat_length ..
    have hbit (k : Nat) (hk : k < (bitsOfNat n (s.regNat ra)).length) :
        (bitsOfNat n (s.regNat ra))[k] = (s.reg ra).getLsbD k := by
      rw [bitsOfNat_getElem, State.regNat, BitVec.testBit_toNat]
    generalize bitsOfNat n (s.regNat ra) = bs at e hlen hbit
    subst hlen
    have hpos : s.bwPos.toNat + bs.length ≤ 2 ^ 32 := by omega
    refine ⟨_, e, completed_wrAll s bs, wrAll_bwPos bs s, wrAll_bwBase bs s, wrAll_bwCap bs s, fun k hk => ?_,
      regionBit_wrAll_before s bs hpos, fun p hp hlast => regionBit_wrAll_lastByte s bs hpos p hp hlast hn,
      fun x hx => readByte_wrAll_outside bs s x hpos (by omega), (sameBut_wrAll s bs _).complete⟩
    rw [regionBit_complete, regionBit_wrAll_written s bs hpos k hk, hbit k hk]
  · obtain ⟨-, e⟩ := hcases.resolve_left (by omega)
    exact ⟨_, e, raisedClean_raise s _ _⟩

/-! ## Fields (41_bitstream.md R150) -/

theorem sbits_add (s : State) (pos m n : Nat) : s.sbits pos (m + n) = s.sbits pos m ++ s.sbits (pos + m) n := by
  simp [State.sbits, List.range_add, Nat.add_assoc]

/-- The bits of the fields one after another. -/
def fieldBits (fields : List (Nat × Nat)) : Bits := (fields.map (fun f => bitsOfNat f.2 f.1)).flatten

theorem fieldBits_cons (f : Nat × Nat) (fields : List (Nat × Nat)) :
    fieldBits (f :: fields) = bitsOfNat f.2 f.1 ++ fieldBits fields := rfl

theorem fieldBits_length (fields : List (Nat × Nat)) : (fieldBits fields).length = (fields.map (fun f => f.2)).sum := by
  simp [fieldBits, Function.comp_def]

/-- A window whose bits from a position on are those of the fields gives the fields back. -/
theorem readFields_of_fieldBits (u : State) (fields : List (Nat × Nat)) : ∀ pos : Nat,
    pos + (fieldBits fields).length ≤ u.windowBits → u.sbits pos (fieldBits fields).length = fieldBits fields →
      u.readFields pos (fields.map (fun f => f.2)) =
        some (fields.map (fun f => f.1 % 2 ^ f.2), pos + (fieldBits fields).length) := by
  induction fields with
  | nil => exact fun _ _ _ => rfl
  | cons f fields ih =>
    intro pos hwindow hbits
    rw [fieldBits_cons, List.length_append, bitsOfNat_length] at hwindow hbits
    rw [sbits_add] at hbits
    obtain ⟨hfield, hrest⟩ := List.append_inj hbits (by simp)
    obtain ⟨-, hread⟩ := (rdBits_cases u f.2 pos).resolve_right (by omega)
    rw [hfield, natOfBits_bitsOfNat] at hread
    simp [State.readFields, hread, ih (pos + f.2) (by omega) hrest, fieldBits_cons, Nat.add_assoc]

/-- Settles O19: the window's bits are the region's, and those are the bits of the fields. -/
theorem bitFieldsRoundTrip : Obligations.BitFieldsRoundTrip := by
  intro s t u fields _ hstart hsum hwrite hmem hbase hlen
  obtain ⟨ht, -⟩ := wrChunksAt_eq_ok _ s t _ hwrite
  change t = s.wrAll (fieldBits fields) at ht
  subst ht
  have hstart : s.bwPos.toNat = 0 := by rw [hstart]; rfl
  rw [← fieldBits_length] at hsum
  have hend : (s.wrAll (fieldBits fields)).bwPos.toNat = (fieldBits fields).length := by
    rw [wrAll_bwPos_toNat s _ (by omega), hstart, Nat.zero_add]
  rw [State.sizeBytes, hend] at hlen
  have hbits : u.sbits 0 (fieldBits fields).length = fieldBits fields := by
    refine List.ext_getElem (sbits_length ..) fun k _ hk => ?_
    have hwritten := regionBit_wrAll_written s (fieldBits fields) (by omega) k hk
    rw [sbits_getElem, ← hwritten, hstart, State.sbit, hbase, hmem, State.regionBit]
  have hread := readFields_of_fieldBits u fields 0 (by rw [State.windowBits]; omega) hbits
  rw [Nat.zero_add] at hread
  rw [hend, atEnd_iff]
  exact ⟨hread, by omega⟩

end Sys2Proof.Machine

/-! The run tokens: the tokens of one maximal run, the tokens of a block, and what they expand to (42_huffman.md R160 to
R163). -/

namespace Sys2Proof.Machine

/-! ## One run token (42_huffman.md R160) -/

/-- The bucket of a run length: its symbol, base and extra bits are a row of R160's table, and it holds the length. -/
theorem runSymbol_bucket {len : Nat} (h2 : 2 ≤ len) (hmax : len ≤ maxRun) :
    (runSymbol len, runBase (runSymbol len), runExtraBits (runSymbol len)) ∈
        [(256, 2, 0), (257, 3, 2), (258, 7, 4), (259, 23, 8), (260, 279, 14)] ∧
      runBase (runSymbol len) ≤ len ∧ len < runBase (runSymbol len) + 2 ^ runExtraBits (runSymbol len) := by
  unfold maxRun at hmax
  unfold runSymbol
  split_ifs <;> simp [runBase, runExtraBits] <;> omega

theorem runSymbol_bounds (len : Nat) : 256 ≤ runSymbol len ∧ runSymbol len ≤ 260 := by
  unfold runSymbol
  split_ifs <;> omega

theorem runToken_sym_toNat (len : Nat) : (runToken len).sym.toNat = runSymbol len := by
  have := runSymbol_bounds len
  rw [runToken, BitVec.toNat_ofNat, Nat.mod_eq_of_lt (by omega)]

theorem literalToken_sym_toNat (b : Byte) : (literalToken b).sym.toNat = b.toNat := by
  have := b.isLt
  rw [literalToken, BitVec.toNat_setWidth, Nat.mod_eq_of_lt (by omega)]

theorem expandToken_literalToken (b : Byte) : expandToken (literalToken b) = [b] := by
  have := b.isLt
  rw [expandToken, literalToken_sym_toNat, if_pos (by omega), BitVec.ofNat_toNat, BitVec.setWidth_eq]

theorem expandToken_runToken {len : Nat} (h2 : 2 ≤ len) (hmax : len ≤ maxRun) :
    expandToken (runToken len) = List.replicate len 0#8 := by
  have hsym := runSymbol_bounds len
  obtain ⟨-, hbase, -⟩ := runSymbol_bucket h2 hmax
  rw [expandToken, runToken_sym_toNat, if_neg (by omega)]
  exact congrArg (List.replicate · 0#8) (Nat.add_sub_cancel' hbase)

theorem tokenOk_literalToken (b : Byte) : TokenOk (literalToken b) := by
  have := b.isLt
  rw [TokenOk, literalToken_sym_toNat]
  exact ⟨by omega, fun _ => ⟨rfl, rfl⟩, by omega⟩

theorem tokenOk_runToken {len : Nat} (h2 : 2 ≤ len) (hmax : len ≤ maxRun) : TokenOk (runToken len) := by
  have hsym := runSymbol_bounds len
  obtain ⟨-, -, hextra⟩ := runSymbol_bucket h2 hmax
  rw [TokenOk, runToken_sym_toNat]
  refine ⟨hsym.2, by omega, fun _ => ⟨rfl, ?_⟩⟩
  have := Nat.two_pow_pos (runExtraBits (runSymbol len))
  show len - runBase (runSymbol len) < 2 ^ runExtraBits (runSymbol len)
  omega

/-! ## The tokens of a maximal run (42_huffman.md R162) -/

/-- A run longer than the longest token splits off a full token. -/
theorem runTokens_add_maxRun (len : Nat) : runTokens (len + maxRun) = runToken maxRun :: runTokens len := by
  rw [runTokens, Nat.add_div_right len (by decide), Nat.add_mod_right, List.replicate_succ]
  rfl

theorem runTokens_zero : runTokens 0 = [] := by rw [runTokens]; rfl

theorem runTokens_one : runTokens 1 = [literalToken 0#8] := by rw [runTokens]; rfl

theorem runTokens_of_bucket {len : Nat} (h2 : 2 ≤ len) (hmax : len ≤ maxRun) : runTokens len = [runToken len] := by
  rcases Nat.eq_or_lt_of_le hmax with rfl | hlt
  · have hfull := runTokens_add_maxRun 0
    rwa [runTokens_zero, Nat.zero_add] at hfull
  · rw [runTokens, Nat.div_eq_of_lt hlt, Nat.mod_eq_of_lt hlt, if_neg (by omega), if_neg (by omega)]
    rfl

/-- Where every property of a run's tokens comes from: no zeros, an isolated zero, one bucket, or a full token more. -/
theorem run_induction {P : Nat → Prop} (zero : P 0) (one : P 1) (bucket : ∀ len, 2 ≤ len → len ≤ maxRun → P len)
    (full : ∀ len, P len → P (len + maxRun)) : ∀ len, P len := by
  intro len
  induction len using Nat.strongRecOn with
  | ind len ih =>
    by_cases hmax : len ≤ maxRun
    · match len, hmax with
      | 0, _ => exact zero
      | 1, _ => exact one
      | k + 2, hmax => exact bucket _ (by omega) hmax
    · have hpos : 0 < maxRun := by decide
      obtain ⟨rest, rfl⟩ : ∃ rest, len = rest + maxRun := ⟨len - maxRun, by omega⟩
      exact full rest (ih rest (by omega))

theorem expand_runTokens (len : Nat) : (runTokens len).flatMap expandToken = List.replicate len 0#8 := by
  induction len using run_induction with
  | zero => rw [runTokens_zero]; rfl
  | one => rw [runTokens_one, List.flatMap_singleton, expandToken_literalToken]; rfl
  | bucket len h2 hmax => rw [runTokens_of_bucket h2 hmax, List.flatMap_singleton, expandToken_runToken h2 hmax]
  | full len ih =>
    rw [runTokens_add_maxRun, List.flatMap_cons, ih, expandToken_runToken (by decide) (Nat.le_refl _),
      List.replicate_append_replicate, Nat.add_comm]

theorem tokenOk_of_mem_runTokens (len : Nat) : ∀ tok ∈ runTokens len, TokenOk tok := by
  induction len using run_induction with
  | zero => rw [runTokens_zero]; simp
  | one => rw [runTokens_one]; simpa using tokenOk_literalToken 0#8
  | bucket len h2 hmax => rw [runTokens_of_bucket h2 hmax]; simpa using tokenOk_runToken h2 hmax
  | full len ih =>
    rw [runTokens_add_maxRun]
    exact List.forall_mem_cons.mpr ⟨tokenOk_runToken (by decide) (Nat.le_refl _), ih⟩

/-! ## The tokens of a block (42_huffman.md R162) -/

/-- Zeros lengthen the run that stands before the rest of the block. -/
theorem tokenizeFrom_replicate (len : Nat) (rest : List Byte) : ∀ run : Nat,
    tokenizeFrom run (List.replicate len 0#8 ++ rest) = tokenizeFrom (run + len) rest := by
  induction len with
  | zero => exact fun _ => rfl
  | succ len ih =>
    intro run
    rw [List.replicate_succ, List.cons_append, tokenizeFrom, if_pos rfl, ih, Nat.add_right_comm, Nat.add_assoc]

theorem expand_tokenizeFrom (block : List Byte) : ∀ run : Nat,
    (tokenizeFrom run block).flatMap expandToken = List.replicate run 0#8 ++ block := by
  induction block with
  | nil => intro run; rw [tokenizeFrom, expand_runTokens, List.append_nil]
  | cons b bs ih =>
    intro run
    rw [tokenizeFrom]
    split
    · rename_i hzero
      rw [ih, hzero, List.replicate_succ', List.append_assoc]
      rfl
    · rw [List.flatMap_append, expand_runTokens, List.flatMap_cons, expandToken_literalToken, ih]
      rfl

theorem tokenOk_of_mem_tokenizeFrom (block : List Byte) : ∀ run : Nat, ∀ tok ∈ tokenizeFrom run block, TokenOk tok := by
  induction block with
  | nil => exact fun run => tokenOk_of_mem_runTokens run
  | cons b bs ih =>
    intro run
    rw [tokenizeFrom]
    split
    · exact ih (run + 1)
    · exact List.forall_mem_append.mpr ⟨tokenOk_of_mem_runTokens run,
        List.forall_mem_cons.mpr ⟨tokenOk_literalToken b, ih 0⟩⟩

/-! ## The statements -/

/-- Settles O20: the tokens of a run by its length, and the zeros before a literal as one run. -/
theorem tokenizeSplitsRuns : Obligations.TokenizeSplitsRuns := by
  refine ⟨fun len b rest hb => ?_, fun len => ?_, runTokens_zero, runTokens_one, fun len h2 hmax => ?_,
    fun len hlong => ?_⟩
  · rw [tokenize, tokenizeFrom_replicate, tokenizeFrom, if_neg hb, Nat.zero_add]
    rfl
  · have hrun := tokenizeFrom_replicate len [] 0
    rwa [List.append_nil, Nat.zero_add] at hrun
  · obtain ⟨hrow, hbase, hextra⟩ := runSymbol_bucket h2 hmax
    exact ⟨_, _, _, hrow, hbase, hextra, runTokens_of_bucket h2 hmax⟩
  · have hfull := runTokens_add_maxRun (len - 16662)
    rwa [maxRun, Nat.sub_add_cancel hlong.le] at hfull

/-- Settles O21: Tokenize from an empty run. -/
theorem tokensExpandToTheBlock : Obligations.TokensExpandToTheBlock :=
  fun block => ⟨expand_tokenizeFrom block 0, tokenOk_of_mem_tokenizeFrom block 0⟩

end Sys2Proof.Machine

/-! The encoder's tree: the codes of a tree, the active nodes in key order, and the merge under both policies
(42_huffman.md R164 to R168, R181). -/

namespace Sys2Proof.Machine

/-! ## The leaves of a tree and their codes (42_huffman.md R168) -/

/-- The symbols of a tree's leaves, from left to right. -/
def HuffTree.symbols : HuffTree → List Sym
  | .leaf s => [s]
  | .branch a b => a.symbols ++ b.symbols

theorem symbols_length (T : HuffTree) : T.symbols.length = T.leaves := by
  induction T with
  | leaf s => rfl
  | branch a b iha ihb => rw [HuffTree.symbols, List.length_append, iha, ihb, HuffTree.leaves]

theorem leaves_pos (T : HuffTree) : 1 ≤ T.leaves := by
  induction T with
  | leaf s => exact Nat.le_refl _
  | branch a b iha ihb => exact Nat.le_trans iha (Nat.le_add_right _ _)

/-- A code is the path to a leaf of its symbol, and shorter than the tree has leaves. -/
theorem codeOf_path {T : HuffTree} {x : Sym} : ∀ {c : Bits}, codeOf T x = some c →
    T.leafAt c = some x ∧ c.length < T.leaves := by
  induction T with
  | leaf s =>
    intro c h
    unfold codeOf at h
    split at h
    · rename_i hs
      cases h
      exact ⟨congrArg some hs, Nat.one_pos⟩
    · cases h
  | branch a b iha ihb =>
    intro c h
    have ha := leaves_pos a
    have hb := leaves_pos b
    unfold codeOf at h
    split at h
    · rename_i d hd
      cases h
      obtain ⟨hleaf, hlen⟩ := iha hd
      exact ⟨hleaf, by simp only [List.length_cons, HuffTree.leaves]; omega⟩
    · obtain ⟨d, hd, rfl⟩ := Option.map_eq_some_iff.mp h
      obtain ⟨hleaf, hlen⟩ := ihb hd
      exact ⟨hleaf, by simp only [List.length_cons, HuffTree.leaves]; omega⟩

/-- Every symbol of a tree has a code. -/
theorem codeOf_of_mem_symbols {T : HuffTree} {x : Sym} (hx : x ∈ T.symbols) : ∃ c, codeOf T x = some c := by
  induction T with
  | leaf s => exact ⟨[], if_pos (List.mem_singleton.mp hx).symm⟩
  | branch a b iha ihb =>
    unfold codeOf
    cases hcode : codeOf a x with
    | some c => exact ⟨_, rfl⟩
    | none =>
      have hxb : x ∈ b.symbols := by
        refine (List.mem_append.mp hx).resolve_left fun hxa => ?_
        obtain ⟨c, hc⟩ := iha hxa
        rw [hcode] at hc
        cases hc
      obtain ⟨c, hc⟩ := ihb hxb
      exact ⟨true :: c, by rw [hc]; rfl⟩

/-- The root of a tree of two or more leaves is a branch, so no leaf stands at the empty path. -/
theorem leafAt_ne_nil {T : HuffTree} {c : Bits} {x : Sym} (h2 : 2 ≤ T.leaves) (h : T.leafAt c = some x) :
    1 ≤ c.length := by
  cases T with
  | leaf s => exact absurd h2 (Nat.not_succ_le_self 1)
  | branch a b =>
    cases c with
    | nil => cases h
    | cons bit c => exact Nat.le_add_left _ _

/-! ## The active nodes in key order (42_huffman.md R167) -/

/-- The key order (freq, id), as a relation. -/
def ActiveNode.KeyLt (x y : ActiveNode) : Prop := x.freq < y.freq ∨ (x.freq = y.freq ∧ x.id < y.id)

theorem before_iff (x y : ActiveNode) : x.before y = true ↔ x.KeyLt y := by
  simp [ActiveNode.before, ActiveNode.KeyLt]

theorem ActiveNode.KeyLt.trans {x y z : ActiveNode} (hxy : x.KeyLt y) (hyz : y.KeyLt z) : x.KeyLt z := by
  unfold ActiveNode.KeyLt at *
  omega

theorem ActiveNode.KeyLt.freq_le {x y : ActiveNode} (h : x.KeyLt y) : x.freq ≤ y.freq := by
  unfold ActiveNode.KeyLt at h
  omega

theorem insertActive_perm (x : ActiveNode) (l : List ActiveNode) : (insertActive x l).Perm (x :: l) := by
  induction l with
  | nil => exact List.Perm.refl _
  | cons y ys ih =>
    unfold insertActive
    split
    · exact List.Perm.refl _
    · exact (ih.cons y).trans (List.Perm.swap x y ys)

/-- A node with an id of its own is inserted in its place. -/
theorem insertActive_sorted {x : ActiveNode} {l : List ActiveNode} (hs : l.Pairwise ActiveNode.KeyLt)
    (hid : ∀ y ∈ l, y.id ≠ x.id) : (insertActive x l).Pairwise ActiveNode.KeyLt := by
  induction l with
  | nil => exact List.pairwise_singleton _ _
  | cons y ys ih =>
    obtain ⟨hy, hys⟩ := List.pairwise_cons.mp hs
    unfold insertActive
    split
    · have hxy := (before_iff x y).mp ‹_›
      exact List.pairwise_cons.mpr ⟨List.forall_mem_cons.mpr ⟨hxy, fun z hz => hxy.trans (hy z hz)⟩, hs⟩
    · have hyx : y.KeyLt x := by
        have hnot : ¬ x.KeyLt y := fun h => absurd ((before_iff x y).mpr h) ‹_›
        have hne := hid y List.mem_cons_self
        unfold ActiveNode.KeyLt at hnot ⊢
        omega
      refine List.pairwise_cons.mpr ⟨fun z hz => ?_, ih hys fun z hz => hid z (List.mem_cons_of_mem _ hz)⟩
      rcases List.mem_cons.mp ((insertActive_perm x ys).subset hz) with rfl | hz
      · exact hyx
      · exact hy z hz

/-- The active leaf of a symbol. -/
def symbolNode (count : Nat → Nat) (k : Nat) : ActiveNode := ⟨count k, k, .leaf (BitVec.ofNat 9 k)⟩

/-- The active leaves of symbols, put in one by one: the same nodes, in key order. -/
theorem foldr_insertActive (count : Nat → Nat) (ks : List Nat) (hnd : ks.Nodup) :
    (ks.foldr (fun k acc => insertActive (symbolNode count k) acc) []).Perm (ks.map (symbolNode count)) ∧
      (ks.foldr (fun k acc => insertActive (symbolNode count k) acc) []).Pairwise ActiveNode.KeyLt := by
  induction ks with
  | nil => exact ⟨List.Perm.refl _, List.Pairwise.nil⟩
  | cons k ks ih =>
    obtain ⟨hk, hks⟩ := List.nodup_cons.mp hnd
    obtain ⟨hperm, hsorted⟩ := ih hks
    refine ⟨(insertActive_perm _ _).trans (hperm.cons _), insertActive_sorted hsorted fun y hy hid => ?_⟩
    obtain ⟨j, hj, rfl⟩ := List.mem_map.mp (hperm.subset hy)
    obtain rfl : j = k := hid
    exact hk hj

/-! ## Extracting a node of least key or frequency (42_huffman.md R165, R167) -/

/-- x is a node that the policy may remove before the rest. -/
def LeastOf (policy : TreePolicy) (x : ActiveNode) (rest : List ActiveNode) : Prop :=
  match policy with
  | .reference => ∀ z ∈ rest, x.KeyLt z
  | .any => ∀ z ∈ rest, x.freq ≤ z.freq

/-- In key order, the nodes of least frequency stand first. -/
theorem freq_of_lt_countP (m : Nat) (l : List ActiveNode) (hs : l.Pairwise ActiveNode.KeyLt)
    (hm : ∀ z ∈ l, m ≤ z.freq) : ∀ (i : Nat) (h : i < l.length), i < l.countP (fun y => y.freq == m) →
      (l[i]).freq = m := by
  induction l with
  | nil => intro i h; cases h
  | cons y ys ih =>
    obtain ⟨hy, hys⟩ := List.pairwise_cons.mp hs
    intro i h hcount
    by_cases hfreq : y.freq = m
    · cases i with
      | zero => exact hfreq
      | succ i =>
        rw [List.countP_cons_of_pos (by simpa using hfreq)] at hcount
        exact ih hys (fun z hz => hm z (List.mem_cons_of_mem _ hz)) i _ (by omega)
    · have hlarge : ∀ z ∈ y :: ys, ¬ (z.freq == m) = true := by
        have hlt : m < y.freq := Nat.lt_of_le_of_ne (hm y List.mem_cons_self) (Ne.symm hfreq)
        refine List.forall_mem_cons.mpr ⟨by simpa using hfreq, fun z hz => ?_⟩
        have := (hy z hz).freq_le
        simp only [beq_iff_eq]
        omega
      rw [List.countP_eq_zero.mpr hlarge] at hcount
      exact absurd hcount (Nat.not_lt_zero i)

section
variable (policy : TreePolicy) (draw extraction : Nat) {active : List ActiveNode} (hne : active ≠ [])
include hne

theorem extractIndex_lt_leastCount : extractIndex policy draw extraction active < leastCount active := by
  obtain ⟨x, xs, rfl⟩ := List.exists_cons_of_ne_nil hne
  have hpos : 0 < leastCount (x :: xs) := List.countP_pos_iff.mpr ⟨x, List.mem_cons_self, by simp⟩
  cases policy with
  | reference => exact hpos
  | any => exact Nat.mod_lt _ hpos

theorem extractIndex_lt_length : extractIndex policy draw extraction active < active.length := by
  refine Nat.lt_of_lt_of_le (extractIndex_lt_leastCount policy draw extraction hne) ?_
  obtain ⟨x, xs, rfl⟩ := List.exists_cons_of_ne_nil hne
  exact List.countP_le_length

/-- An extraction takes a node that the policy may remove before the others, and leaves those in key order. -/
theorem extract_least (default : ActiveNode) (hs : active.Pairwise ActiveNode.KeyLt) : ∃ x others,
    active.getD (extractIndex policy draw extraction active) default = x ∧
      active.eraseIdx (extractIndex policy draw extraction active) = others ∧
      active.Perm (x :: others) ∧ others.Pairwise ActiveNode.KeyLt ∧ LeastOf policy x others := by
  have hleast := extractIndex_lt_leastCount policy draw extraction hne
  have hlt := extractIndex_lt_length policy draw extraction hne
  refine ⟨_, _, List.getD_eq_getElem _ _ hlt, rfl, (List.getElem_cons_eraseIdx_perm hlt).symm,
    hs.sublist (List.eraseIdx_sublist _ _), ?_⟩
  obtain ⟨x, xs, rfl⟩ := List.exists_cons_of_ne_nil hne
  obtain ⟨hx, -⟩ := List.pairwise_cons.mp hs
  cases policy with
  | reference => exact hx
  | any =>
    have hmin : ∀ z ∈ x :: xs, x.freq ≤ z.freq :=
      List.forall_mem_cons.mpr ⟨Nat.le_refl _, fun z hz => (hx z hz).freq_le⟩
    intro z hz
    rw [freq_of_lt_countP x.freq (x :: xs) hs hmin _ hlt hleast]
    exact hmin z ((List.eraseIdx_sublist _ _).subset hz)

end

/-! ## The merge (42_huffman.md R165, R167) -/

/-- Two extractions in turn remove the two nodes of R165. -/
theorem leastTwo_of_leastOf {policy : TreePolicy} {x y : ActiveNode} {others rest : List ActiveNode}
    (hx : LeastOf policy x others) (hy : LeastOf policy y rest) (hmem : y ∈ others) : LeastTwo policy x y rest := by
  cases policy with
  | reference => exact ⟨hx y hmem, hy⟩
  | any => exact ⟨hx y hmem, hy⟩

theorem joinPair_joins (policy : TreePolicy) (draw extraction : Nat) (x y : HuffTree) :
    Joins policy x y (joinPair policy draw extraction x y) := by
  cases policy with
  | reference => exact rfl
  | any =>
    simp only [joinPair, Joins]
    split
    · exact .inr rfl
    · exact .inl rfl

/-- The order in which the active nodes are listed makes no difference to the merge. -/
theorem Merges.of_perm {policy : TreePolicy} {nextId : Nat} {active listed : List ActiveNode} {T : HuffTree}
    (h : Merges policy nextId active T) (hp : listed.Perm active) : Merges policy nextId listed T := by
  cases h with
  | root => rw [List.perm_singleton.mp hp]; exact .root nextId _
  | join _ _ rest x y joined _ hactive hleast hjoins hrest =>
    exact .join nextId listed rest x y joined T (hp.trans hactive) hleast hjoins hrest

/-- One step of the merge: the two nodes it removes, and the node it puts in. -/
theorem mergeAll_step (policy : TreePolicy) (draw fuel nextId : Nat) {x0 y0 : ActiveNode} {tail : List ActiveNode}
    (hs : (x0 :: y0 :: tail).Pairwise ActiveNode.KeyLt) :
    ∃ x y rest joined, (x0 :: y0 :: tail).Perm (x :: y :: rest) ∧ rest.Pairwise ActiveNode.KeyLt ∧
      LeastTwo policy x y rest ∧ Joins policy x.tree y.tree joined ∧
      mergeAll policy draw (fuel + 1) nextId (x0 :: y0 :: tail) =
        mergeAll policy draw fuel (nextId + 1) (insertActive ⟨x.freq + y.freq, nextId, joined⟩ rest) := by
  obtain ⟨x, others, hx, hothers, hperm, hsorted, hleast⟩ :=
    extract_least policy draw (2 * nextId) (List.cons_ne_nil x0 (y0 :: tail)) x0 hs
  have hne : others ≠ [] := by
    rintro rfl
    exact absurd hperm.length_eq (by simp)
  obtain ⟨y, rest, hy, hrest, hperm', hsorted', hleast'⟩ :=
    extract_least policy draw (2 * nextId + 1) hne y0 hsorted
  refine ⟨x, y, rest, joinPair policy draw nextId x.tree y.tree, hperm.trans (hperm'.cons x), hsorted',
    leastTwo_of_leastOf hleast hleast' (hperm'.symm.subset List.mem_cons_self), joinPair_joins .., ?_⟩
  rw [mergeAll, hx, hothers, hy, hrest]

/-- The merge ends in a tree that R165 allows. -/
theorem mergeAll_merges (policy : TreePolicy) (draw fuel : Nat) : ∀ (nextId : Nat) (active : List ActiveNode),
    active.length = fuel → active ≠ [] → active.Pairwise ActiveNode.KeyLt → (∀ x ∈ active, x.id < nextId) →
      ∃ T, mergeAll policy draw fuel nextId active = some T ∧ Merges policy nextId active T := by
  induction fuel with
  | zero => exact fun _ _ hlen hne => absurd (List.eq_nil_of_length_eq_zero hlen) hne
  | succ fuel ih =>
    intro nextId active hlen hne hs hid
    match active with
    | [] => exact absurd rfl hne
    | [x] => exact ⟨x.tree, rfl, .root nextId x⟩
    | x0 :: y0 :: tail =>
      obtain ⟨x, y, rest, joined, hperm, hrest, hleast, hjoins, hstep⟩ := mergeAll_step policy draw fuel nextId hs
      have hold : ∀ z ∈ rest, z.id < nextId := fun z hz => hid z (hperm.symm.subset (by simp [hz]))
      have hinsert := insertActive_perm ⟨x.freq + y.freq, nextId, joined⟩ rest
      have hlen' := hinsert.length_eq
      have hpermlen := hperm.length_eq
      simp only [List.length_cons] at hlen hlen' hpermlen
      obtain ⟨T, hT, hmerges⟩ := ih (nextId + 1) (insertActive ⟨x.freq + y.freq, nextId, joined⟩ rest) (by omega)
        (fun e => by simp [e] at hlen') (insertActive_sorted hrest fun z hz => (hold z hz).ne)
        (fun z hz => by
          rcases List.mem_cons.mp (hinsert.subset hz) with rfl | hz
          · exact Nat.lt_succ_self nextId
          · exact Nat.lt_succ_of_lt (hold z hz))
      exact ⟨T, hstep.trans hT, .join nextId _ rest x y joined T hperm hleast hjoins (hmerges.of_perm hinsert.symm)⟩

/-- The merged tree has the leaves of the active nodes' trees. -/
theorem Merges.symbols_perm {policy : TreePolicy} {nextId : Nat} {active : List ActiveNode} {T : HuffTree}
    (h : Merges policy nextId active T) : T.symbols.Perm (active.flatMap fun x => x.tree.symbols) := by
  induction h with
  | root nextId x => rw [List.flatMap_singleton]
  | join nextId active rest x y joined tree hactive _ hjoins _ ih =>
    have hjoined : joined.symbols.Perm (x.tree.symbols ++ y.tree.symbols) := by
      cases policy with
      | reference => rw [show joined = .branch x.tree y.tree from hjoins]; rfl
      | any =>
        rcases hjoins with rfl | rfl
        · exact List.Perm.refl _
        · exact List.perm_append_comm
    have hmerged := ih.trans (hjoined.append_right _)
    rw [List.append_assoc] at hmerged
    have hlisted := hactive.flatMap_right fun x => x.tree.symbols
    rw [List.flatMap_cons, List.flatMap_cons] at hlisted
    exact hmerged.trans hlisted.symm

/-! ## The encoder's tree (42_huffman.md R164 to R166) -/

/-- The symbols that the tokens use, in rising order. -/
def usedSymbols (ts : List Token) : List Nat := (List.range 261).filter (fun k => 0 < freq ts k)

theorem activeLeaves_perm_and_sorted (ts : List Token) :
    (activeLeaves ts).Perm ((usedSymbols ts).map (symbolNode (freq ts))) ∧
      (activeLeaves ts).Pairwise ActiveNode.KeyLt :=
  foldr_insertActive (freq ts) (usedSymbols ts) (List.nodup_range.filter _)

theorem lt_of_mem_usedSymbols {ts : List Token} {k : Nat} (h : k ∈ usedSymbols ts) : k < 261 :=
  List.mem_range.mp (List.mem_filter.mp h).1

theorem usedSymbols_length_le (ts : List Token) : (usedSymbols ts).length ≤ 261 := by
  have hle := List.length_filter_le (fun k => decide (0 < freq ts k)) (List.range 261)
  rwa [List.length_range] at hle

section
variable (policy : TreePolicy) (draw : Nat) (ts : List Token)

theorem encoderTree_of_no_symbol (h : usedSymbols ts = []) :
    encoderTree policy draw ts = .branch (.leaf 0#9) (.leaf 1#9) := by
  have hperm := (activeLeaves_perm_and_sorted ts).1
  rw [h] at hperm
  rw [encoderTree, List.perm_nil.mp hperm]

theorem encoderTree_of_one_symbol {k : Nat} (h : usedSymbols ts = [k]) :
    encoderTree policy draw ts = .branch (.leaf (BitVec.ofNat 9 k)) (.leaf (if k = 0 then 1#9 else 0#9)) := by
  have hperm := (activeLeaves_perm_and_sorted ts).1
  rw [h] at hperm
  rw [encoderTree, List.perm_singleton.mp hperm]
  rfl

theorem encoderTree_merges (h : 2 ≤ (usedSymbols ts).length) :
    Merges policy 261 ((usedSymbols ts).map (symbolNode (freq ts))) (encoderTree policy draw ts) := by
  obtain ⟨hperm, hsorted⟩ := activeLeaves_perm_and_sorted ts
  have hlen := hperm.length_eq
  rw [List.length_map] at hlen
  have hid : ∀ x ∈ activeLeaves ts, x.id < 261 := fun x hx => by
    obtain ⟨k, hk, rfl⟩ := List.mem_map.mp (hperm.subset hx)
    exact lt_of_mem_usedSymbols hk
  obtain ⟨T, hT, hmerges⟩ := mergeAll_merges policy draw _ 261 (activeLeaves ts) rfl
    (List.ne_nil_of_length_pos (by omega)) hsorted hid
  have htree : encoderTree policy draw ts = T := by
    unfold encoderTree
    split
    · rename_i e; rw [e] at hlen; simp at hlen; omega
    · rename_i e; rw [e] at hlen; simp at hlen; omega
    · rename_i x y rest e
      rw [e] at hT
      rw [show rest.length + 2 = (x :: y :: rest).length from rfl, hT]
      rfl
  rw [htree]
  exact hmerges.of_perm hperm.symm

/-- The leaves of the encoder's tree: the symbols used, and in the degenerate cases more, up to two. -/
theorem encoderTree_symbols : (encoderTree policy draw ts).leaves = max 2 (usedSymbols ts).length ∧
    ∀ k ∈ usedSymbols ts, BitVec.ofNat 9 k ∈ (encoderTree policy draw ts).symbols := by
  match hused : usedSymbols ts with
  | [] => exact ⟨by rw [encoderTree_of_no_symbol policy draw ts hused]; rfl, by simp⟩
  | [k] =>
    rw [encoderTree_of_one_symbol policy draw ts hused]
    exact ⟨rfl, by simp [HuffTree.symbols]⟩
  | k :: l :: rest =>
    have hlen : 2 ≤ (usedSymbols ts).length := by rw [hused]; simp
    have hperm := (encoderTree_merges policy draw ts hlen).symbols_perm
    have hsyms : ((usedSymbols ts).map (symbolNode (freq ts))).flatMap (fun x => x.tree.symbols) =
        (usedSymbols ts).map (BitVec.ofNat 9) := by
      rw [List.flatMap_map, List.map_eq_flatMap]
      rfl
    rw [hsyms] at hperm
    rw [← hused]
    refine ⟨?_, fun k hk => hperm.symm.subset (List.mem_map_of_mem hk)⟩
    rw [← symbols_length, hperm.length_eq, List.length_map]
    omega

theorem encoderTree_leaves_le : (encoderTree policy draw ts).leaves ≤ 261 := by
  have := usedSymbols_length_le ts
  rw [(encoderTree_symbols policy draw ts).1]
  omega

/-- Every token whose symbol is in the alphabet has a code in the encoder's tree. -/
theorem codeOf_encoderTree {tok : Token} (hmem : tok ∈ ts) (hsym : tok.sym.toNat ≤ 260) :
    ∃ c, codeOf (encoderTree policy draw ts) tok.sym = some c ∧
      (encoderTree policy draw ts).leafAt c = some tok.sym ∧ 1 ≤ c.length ∧ c.length ≤ 260 := by
  obtain ⟨hleaves, hsymbols⟩ := encoderTree_symbols policy draw ts
  have hle := encoderTree_leaves_le policy draw ts
  have hfreq : 0 < freq ts tok.sym.toNat := List.countP_pos_iff.mpr ⟨tok, hmem, by simp⟩
  have hused : tok.sym.toNat ∈ usedSymbols ts :=
    List.mem_filter.mpr ⟨List.mem_range.mpr (by omega), by simpa using hfreq⟩
  have hin := hsymbols _ hused
  rw [BitVec.ofNat_toNat, BitVec.setWidth_eq] at hin
  obtain ⟨c, hc⟩ := codeOf_of_mem_symbols hin
  obtain ⟨hpath, hlen⟩ := codeOf_path hc
  exact ⟨c, hc, hpath, leafAt_ne_nil (by omega) hpath, by omega⟩

end

/-- Settles O22: the tree by the number of symbols used, and the codes of its leaves. -/
theorem encoderTreeCodesEverySymbol : Obligations.EncoderTreeCodesEverySymbol := by
  rintro policy draw block toks T count used rfl rfl hcount rfl
  obtain rfl : count = freq (tokenize block) := by
    funext k
    rw [hcount, freq, List.countP_eq_length_filter]
    rfl
  have hok := (tokensExpandToTheBlock block).2
  refine ⟨encoderTree_of_no_symbol policy draw _, fun k => encoderTree_of_one_symbol policy draw _,
    encoderTree_merges policy draw _, (encoderTree_symbols policy draw _).1, encoderTree_leaves_le policy draw _,
    fun tok hmem => codeOf_encoderTree policy draw _ hmem (hok tok hmem).1⟩

end Sys2Proof.Machine

/-! HENC: the bits of an encoded block, a sequence of WrBits that does not fit, and the region after the block
(42_huffman.md R169 to R171). -/

namespace Sys2Proof.Machine

/-! ## The bits of an encoded block (42_huffman.md R169, R170) -/

/-- A serialized tree of L leaves takes 11·L − 1 bits. -/
theorem serChunks_flatten_length (T : HuffTree) : (serChunks T).flatten.length = 11 * T.leaves - 1 := by
  induction T with
  | leaf s => simp [serChunks, HuffTree.leaves]
  | branch a b iha ihb =>
    have ha := leaves_pos a
    have hb := leaves_pos b
    rw [serChunks, List.flatten_cons, List.flatten_append, List.length_append, List.length_append, iha, ihb,
      HuffTree.leaves]
    simp only [List.length_cons, List.length_nil]
    omega

theorem tokenChunks_flatten (T : HuffTree) (tok : Token) :
    (tokenChunks T tok).flatten = (codeOf T tok.sym).getD [] ++ bitsOfNat tok.nb tok.extra := by
  unfold tokenChunks
  split
  · simp
  · obtain hnb : tok.nb = 0 := by omega
    simp [hnb, bitsOfNat]

/-- Tokens with the codes that a tree gives their symbols. -/
def codedIn (T : HuffTree) (ts : List Token) : List (Bits × Token) :=
  ts.map fun tok => ((codeOf T tok.sym).getD [], tok)

/-- HENC writes the serialized tree of its block's tokens, then the coded tokens. -/
theorem encodeChunks_flatten (policy : TreePolicy) (draw : Nat) (block : List Byte) :
    (encodeChunks policy draw block).flatten =
      (serChunks (encoderTree policy draw (tokenize block))).flatten ++
        codedBits (codedIn (encoderTree policy draw (tokenize block)) (tokenize block)) := by
  have htokens (T : HuffTree) (ts : List Token) :
      (ts.flatMap (tokenChunks T)).flatten = codedBits (codedIn T ts) := by
    induction ts with
    | nil => rfl
    | cons tok ts ih => rw [List.flatMap_cons, List.flatten_append, ih, tokenChunks_flatten]; rfl
  rw [encodeChunks, List.flatten_append, htokens]

/-- The tree alone takes more than a byte, as it has two leaves at least (42_huffman.md R166). -/
theorem encodeChunks_flatten_length_ge (policy : TreePolicy) (draw : Nat) (block : List Byte) :
    21 ≤ (encodeChunks policy draw block).flatten.length := by
  have hleaves := (encoderTree_symbols policy draw (tokenize block)).1
  rw [encodeChunks_flatten, List.length_append, serChunks_flatten_length]
  omega

/-! ## A sequence of WrBits that does not fit (41_bitstream.md R136) -/

/-- The first WrBits that passes the capacity raises WRITE_OVERFLOW where it starts. -/
theorem wrChunksAt_of_overflow (cs : List Bits) : ∀ (s : State) (pos : Nat), pos ≤ s.regionBits →
    s.regionBits < pos + cs.flatten.length → ∃ pre c post, cs = pre ++ c :: post ∧
      pos + pre.flatten.length ≤ s.regionBits ∧ s.regionBits < pos + pre.flatten.length + c.length ∧
      s.wrChunksAt pos cs = .error (BitVec.ofNat 32 (pos + pre.flatten.length)) := by
  induction cs with
  | nil => intro s pos hpos hover; exact absurd hover (Nat.not_lt.mpr hpos)
  | cons c cs ih =>
    intro s pos hpos hover
    rw [List.flatten_cons, List.length_append] at hover
    rw [State.wrChunksAt]
    by_cases hfit : pos + c.length > s.regionBits
    · rw [if_pos hfit]
      exact ⟨[], c, cs, rfl, hpos, hfit, rfl⟩
    · have hr : (s.wrAll c).regionBits = s.regionBits := by simp only [State.regionBits, wrAll_bwCap]
      obtain ⟨pre, d, post, rfl, hpre, hd, e⟩ := ih (s.wrAll c) (pos + c.length) (by omega) (by omega)
      rw [hr] at hpre hd
      rw [if_neg hfit, e]
      refine ⟨c :: pre, d, post, rfl, ?_⟩
      rw [List.flatten_cons, List.length_append, ← Nat.add_assoc]
      exact ⟨hpre, hd, rfl⟩

/-! ## HENC (42_huffman.md R171) -/

theorem readByte_drewTree (s : State) (x : Nat) : s.drewTree.readByte x = s.readByte x := by rw [drewTree_eq]; rfl

theorem regionBit_drewTree (s : State) (p : Nat) : s.drewTree.regionBit p = s.regionBit p := by rw [drewTree_eq]; rfl

section
variable {s : State} {ra rb : RegIx} (hfits : FitsMemory s (s.regNat ra) (s.regNat rb))
include hfits

/-- HENC of a block whose bits fit, where the source is clear of the region. -/
theorem execHenc_of_fits (hfit : s.bwPos.toNat + (s.hencChunks ra rb).flatten.length ≤ s.regionBits)
    (hclear : s.hencClash ra rb = false) :
    execHenc ra rb s = .next (s.wrAll (s.hencChunks ra rb).flatten).drewTree.complete := by
  rw [execHenc, (withRanges_one s _ _ _).1 hfits, State.wrChunks, wrChunksAt_of_fits _ s _ hfit, hclear]
  rfl

/-- HENC of a block whose bits fit, where the source overlaps the region. -/
theorem execHenc_of_clash (hfit : s.bwPos.toNat + (s.hencChunks ra rb).flatten.length ≤ s.regionBits)
    (hclash : s.hencClash ra rb = true) : ∃ mem draws, execHenc ra rb s = .next { s with
      mem := mem, draws := draws, bwPos := (s.wrAll (s.hencChunks ra rb).flatten).bwPos }.complete := by
  rw [execHenc, (withRanges_one s _ _ _).1 hfits, State.wrChunks, wrChunksAt_of_fits _ s _ hfit, hclash, drewTree_eq]
  exact ⟨_, _, rfl⟩

/-- HENC of a block whose bits do not fit. -/
theorem execHenc_of_overflow {info : Word} (h : s.wrChunks (s.hencChunks ra rb) = .error info) :
    ∃ t, execHenc ra rb s = .next t ∧ Raised .writeOverflow info s t := by
  obtain ⟨mem, draws, pos, e⟩ : ∃ mem draws pos, execHenc ra rb s =
      .next ({ s with mem := mem, draws := draws, bwPos := pos }.raise .writeOverflow info) := by
    rw [execHenc, (withRanges_one s _ _ _).1 hfits, h, drewTree_eq]
    exact ⟨_, _, _, rfl⟩
  exact ⟨_, e, rfl, rfl, rfl, rfl, rfl, rfl, fun _ => rfl, rfl, rfl, rfl, rfl, rfl⟩

/-- HENC of a block whose bits fit completes and moves BW_POS past them; clear of the source, it writes them. -/
theorem execHenc_completes (hfit : s.bwPos.toNat + (s.hencChunks ra rb).flatten.length ≤ s.regionBits) :
    ∃ t, execHenc ra rb s = .next t ∧ Completed s t ∧
      t.bwPos = s.bwPos + BitVec.ofNat 32 (s.hencChunks ra rb).flatten.length ∧ t.bwBase = s.bwBase ∧
      t.bwCap = s.bwCap ∧
      (DisjointRanges (s.regNat ra) (s.regNat rb) s.bwBase.toNat s.bwCap.toNat →
        t = (s.wrAll (s.hencChunks ra rb).flatten).drewTree.complete) := by
  cases hclash : s.hencClash ra rb with
  | true =>
    obtain ⟨mem, draws, e⟩ := execHenc_of_clash hfits hfit hclash
    generalize (s.hencChunks ra rb).flatten = bits at e ⊢
    refine ⟨_, e, completed_complete, wrAll_bwPos bits s, rfl, rfl, fun hd => ?_⟩
    rw [State.hencClash, (overlaps_eq_false_iff ..).mpr hd] at hclash
    cases hclash
  | false =>
    have e := execHenc_of_fits hfits hfit hclash
    generalize (s.hencChunks ra rb).flatten = bits at e ⊢
    refine ⟨_, e, ?_, ?_, ?_, ?_, fun _ => rfl⟩ <;> rw [drewTree_eq]
    · exact completed_wrAll s bits
    · exact wrAll_bwPos bits s
    · exact wrAll_bwBase bits s
    · exact wrAll_bwCap bits s

end

/-- Settles O23: the written bits are those of a WrBits of the whole encoding, which is longer than one byte. -/
theorem hencAppendsTheEncoding : Obligations.HencAppendsTheEncoding := by
  rintro ra rb s chunks bits hcap hchunks rfl
  have hge : 21 ≤ chunks.flatten.length := hchunks ▸ encodeChunks_flatten_length_ge ..
  change chunks = s.hencChunks ra rb at hchunks
  subst hchunks
  have hregion : s.regionBits = 8 * s.bwCap.toNat := rfl
  rw [← hregion]
  refine ⟨fun hout => ⟨_, (withRanges_one s (s.reg ra) (s.regNat rb) _).2 hout, raisedClean_raise s _ _⟩,
    fun hfits hfit => ?_, fun hfits hover hpos => ?_⟩
  · obtain ⟨t, e, hcomplete, hpos, hbase, hcap', hclear⟩ := execHenc_completes hfits hfit
    refine ⟨t, e, hcomplete, hpos, hbase, hcap', (exec_framed s (.henc ra rb) t e).parts, fun hd => ?_⟩
    rw [hclear hd]
    generalize (s.hencChunks ra rb).flatten = bits at hfit hge
    have hwrap : s.bwPos.toNat + bits.length ≤ 2 ^ 32 := by omega
    simp only [regionBit_complete, regionBit_drewTree]
    refine ⟨regionBit_wrAll_written s bits hwrap, regionBit_wrAll_before s bits hwrap, fun p hp hlast => ?_,
      fun x hx => ?_⟩
    · rw [regionBit_wrAll_lastByte s bits hwrap p hp hlast (by omega), decide_eq_false (by omega), Bool.false_and]
    · exact (readByte_drewTree _ x).trans (readByte_wrAll_outside bits s x hwrap (by omega))
  · obtain ⟨pre, c, post, hsplit, hpre, hc, e⟩ := wrChunksAt_of_overflow (s.hencChunks ra rb) s _ hpos hover
    obtain ⟨t, he, hraised⟩ := execHenc_of_overflow hfits e
    have hinfo : BitVec.ofNat 32 (s.bwPos.toNat + pre.flatten.length) =
        s.bwPos + BitVec.ofNat 32 pre.flatten.length := by
      rw [← BitVec.ofNat_add_ofNat, BitVec.ofNat_toNat, BitVec.setWidth_eq]
    exact ⟨t, pre, c, post, he, hsplit, hpre, hc, hinfo ▸ hraised⟩

end Sys2Proof.Machine

/-! Decoding one symbol: the descent along the pending bits, by the walk and by the LUT, and the commands HSYM and
HLUTRD (42_huffman.md R173, R177 to R179). -/

namespace Sys2Proof.Machine

/-! ## Bit strings -/

theorem sbits_succ (s : State) (pos n : Nat) : s.sbits pos (n + 1) = s.sbit pos :: s.sbits (pos + 1) n := by
  rw [Nat.add_comm n 1, sbits_add]
  rfl

/-- The bits from a position that start with a string are that string. -/
theorem sbits_split {s : State} {pos n : Nat} {c d : Bits} (h : s.sbits pos n = c ++ d) :
    s.sbits pos c.length = c ∧ s.sbits (pos + c.length) d.length = d := by
  have hlen := congrArg List.length h
  rw [sbits_length, List.length_append] at hlen
  rw [hlen, sbits_add] at h
  exact List.append_inj h (sbits_length ..)

theorem bitsOfNat_add (m n v : Nat) : bitsOfNat (m + n) v = bitsOfNat m v ++ bitsOfNat n (v / 2 ^ m) := by
  refine List.ext_getElem (by simp) fun k _ _ => ?_
  rw [bitsOfNat_getElem, List.getElem_append]
  split
  · rw [bitsOfNat_getElem]
  · rename_i hk
    rw [bitsOfNat_length] at hk
    rw [bitsOfNat_getElem, bitsOfNat_length, Nat.testBit_div_two_pow, Nat.sub_add_cancel (by omega)]

/-- The low bits of PeekByte are the pending bits, where the window has them (41_bitstream.md R133). -/
theorem bitsOfNat_peekByte (s : State) {pos n : Nat} (h8 : n ≤ 8) (hw : pos + n ≤ s.windowBits) :
    bitsOfNat n (s.peekByte pos).toNat = s.sbits pos n := by
  refine List.ext_getElem (by simp) fun k hk _ => ?_
  rw [bitsOfNat_length] at hk
  rw [bitsOfNat_getElem, BitVec.testBit_toNat, getLsbD_peekByte, sbits_getElem, decide_eq_true (by omega),
    decide_eq_true (by omega), Bool.true_and, Bool.true_and]

/-! ## Descents in the arena (10_state.md R46) -/

theorem descend_append (node : Vector TreeNode 521) (c d : Bits) : ∀ n : NodeIx,
    descend node n (c ++ d) = (descend node n c).bind fun m => descend node m d := by
  induction c with
  | nil => exact fun _ => rfl
  | cons b c ih =>
    intro n
    rw [List.cons_append, descend, descend]
    split
    · exact ih _
    · rfl

/-- No descent leaves a leaf. -/
theorem descend_of_leaf {node : Vector TreeNode 521} {n m : NodeIx} {sym : Sym} {c : Bits} (hn : node[n] = .leaf sym)
    (h : descend node n c = some m) : c = [] ∧ n = m := by
  cases c with
  | nil => exact ⟨rfl, Option.some.inj h⟩
  | cons b c => rw [descend, hn] at h; cases h

/-- Along any bits, a descent ends in a leaf at some of them, or in a branch after all of them. -/
theorem descend_leaf_or_branch (node : Vector TreeNode 521) (bs : Bits) : ∀ n : NodeIx,
    (∃ c d m sym, bs = c ++ d ∧ descend node n c = some m ∧ node[m] = .leaf sym) ∨
      (∃ m x y, descend node n bs = some m ∧ node[m] = .branch x y) := by
  induction bs with
  | nil =>
    intro n
    cases hn : node[n] with
    | leaf sym => exact .inl ⟨[], [], n, sym, rfl, rfl, hn⟩
    | branch x y => exact .inr ⟨n, x, y, rfl, hn⟩
  | cons b bs ih =>
    intro n
    cases hn : node[n] with
    | leaf sym => exact .inl ⟨[], b :: bs, n, sym, rfl, rfl, hn⟩
    | branch x y =>
      have hdown (c : Bits) : descend node n (b :: c) = descend node (if b then y else x) c := by rw [descend, hn]
      rcases ih (if b then y else x) with ⟨c, d, m, sym, rfl, hd, hm⟩ | ⟨m, hd⟩
      · exact .inl ⟨b :: c, d, m, sym, rfl, (hdown c).trans hd, hm⟩
      · exact .inr ⟨m, by rwa [hdown]⟩

/-! ## The walk (42_huffman.md R173) -/

section
variable (s : State) {node : Vector TreeNode 521} {n : NodeIx} {pos : Nat}

theorem walkFrom_of_leaf {sym : Sym} (hn : node[n] = .leaf sym) : s.walkFrom node n pos = .ok (sym, pos) := by
  rw [State.walkFrom]
  cases s.windowBits - pos <;> rw [State.walk, hn]

theorem walkFrom_of_branch {x y : NodeIx} (hn : node[n] = .branch x y) (hw : pos < s.windowBits) :
    s.walkFrom node n pos = s.walkFrom node (if s.sbit pos then y else x) (pos + 1) := by
  obtain ⟨-, hbit⟩ := (rdBit_cases s pos).resolve_right (by omega)
  rw [State.walkFrom, State.walkFrom, show s.windowBits - pos = s.windowBits - (pos + 1) + 1 by omega, State.walk, hn,
    hbit]

theorem walkFrom_of_branch_at_end {x y : NodeIx} (hn : node[n] = .branch x y) (hw : pos = s.windowBits) :
    s.walkFrom node n pos = .error (truncatedAt pos) := by
  rw [State.walkFrom, hw, Nat.sub_self, State.walk, hn]

end

/-- The walk goes down along the pending bits. -/
theorem walkFrom_of_descend (s : State) {node : Vector TreeNode 521} {m : NodeIx} (c : Bits) : ∀ (n : NodeIx)
    (pos : Nat), descend node n c = some m → pos + c.length ≤ s.windowBits → s.sbits pos c.length = c →
      s.walkFrom node n pos = s.walkFrom node m (pos + c.length) := by
  induction c with
  | nil => intro n pos hd _ _; cases hd; rfl
  | cons b c ih =>
    intro n pos hd hw hbits
    rw [List.length_cons] at hw hbits ⊢
    rw [sbits_succ] at hbits
    obtain ⟨hb, hrest⟩ := List.cons.inj hbits
    rw [descend] at hd
    split at hd
    · rename_i x y hn
      rw [walkFrom_of_branch s hn (by omega), hb, ih _ _ hd (by omega) hrest, Nat.add_right_comm, Nat.add_assoc]
    · cases hd

/-! ## The LUT (42_huffman.md R172, R173) -/

theorem entryBits_le (e : LutEntry) : entryBits e ≤ 8 := by
  cases e with
  | terminal sym len => exact Nat.le_of_lt_succ len.isLt
  | nonTerminal n => exact Nat.le_refl 8

/-- The entry of a key names the node that its bits of the key lead to. -/
theorem entryNames_of_lutEntryOk {node : Vector TreeNode 521} {key : Fin 256} {e : LutEntry}
    (h : LutEntryOk node key e) :
    ∃ m, descend node 0 (bitsOfNat (entryBits e) key.val) = some m ∧ EntryNames node m e := by
  cases e with
  | terminal sym len => exact h
  | nonTerminal n => exact ⟨n, h.1, rfl, h.2⟩

/-- Decoding by LUT advances by the bits of the entry, and goes on from the node that it names. -/
theorem decodeSym_lut (s : State) {node : Vector TreeNode 521} {lut : Vector LutEntry 256} {pos : Nat} {m : NodeIx}
    {e : LutEntry} (he : lut[(s.peekByte pos).toFin] = e) (hm : EntryNames node m e) :
    s.decodeSym node lut false pos =
      if pos + entryBits e ≤ s.windowBits then s.walkFrom node m (pos + entryBits e)
      else .error (truncatedAt pos) := by
  cases e with
  | terminal sym len =>
    have hleaf : node[m] = .leaf sym := hm
    simp only [State.decodeSym, he, walkFrom_of_leaf s hleaf, entryBits, Bool.false_eq_true, if_false]
    rcases advance_cases s len.val pos with ⟨hfit, e⟩ | ⟨hover, e⟩ <;> rw [e]
    · exact (if_pos hfit).symm
    · exact (if_neg (Nat.not_le.mpr hover)).symm
  | nonTerminal n =>
    obtain ⟨rfl, -⟩ := hm
    simp only [State.decodeSym, he, entryBits, Bool.false_eq_true, if_false]
    rcases advance_cases s 8 pos with ⟨hfit, e⟩ | ⟨hover, e⟩ <;> rw [e]
    · exact (if_pos hfit).symm
    · exact (if_neg (Nat.not_le.mpr hover)).symm

/-- How the node that the entry of the pending bits names stands to a node that pending bits lead to: it leads there by
the rest of the bits, or they stop at a branch before it. -/
theorem entry_above_or_below {s : State} {node : Vector TreeNode 521} {pos : Nat} {c : Bits} {n m : NodeIx}
    {e : LutEntry} (hw : pos + c.length ≤ s.windowBits) (hbits : s.sbits pos c.length = c)
    (hn : descend node 0 c = some n)
    (hm : descend node 0 (bitsOfNat (entryBits e) (s.peekByte pos).toNat) = some m) :
    (∃ d, c.length = entryBits e + d.length ∧ s.sbits (pos + entryBits e) d.length = d ∧
        descend node m d = some n) ∨
      (c.length < entryBits e ∧ ∃ x y, node[n] = .branch x y) := by
  have h8 := entryBits_le e
  rcases Nat.lt_or_ge c.length (entryBits e) with hlt | hle
  · obtain ⟨k, hk⟩ := Nat.exists_eq_add_of_lt hlt
    rw [hk, Nat.add_assoc, bitsOfNat_add, bitsOfNat_peekByte s (by omega) hw, hbits, descend_append, hn] at hm
    refine .inr ⟨hlt, ?_⟩
    cases hnode : node[n] with
    | leaf sym => exact absurd (descend_of_leaf hnode hm).1 (by simp [bitsOfNat])
    | branch x y => exact ⟨x, y, rfl⟩
  · have htake : (c.take (entryBits e)).length = entryBits e := List.length_take_of_le hle
    obtain ⟨hfirst, hrest⟩ := sbits_split (hbits.trans (List.take_append_drop (entryBits e) c).symm)
    rw [htake] at hfirst hrest
    rw [bitsOfNat_peekByte s h8 (by omega), hfirst] at hm
    rw [← List.take_append_drop (entryBits e) c, descend_append, hm] at hn
    exact .inl ⟨c.drop (entryBits e), by rw [List.length_drop]; omega, hrest, hn⟩

/-! ## One symbol (42_huffman.md R173) -/

section
variable {s : State} {node : Vector TreeNode 521} {lut : Vector LutEntry 256} (hlut : LutOk node lut) (walk : Bool)
  {pos : Nat} {c : Bits} {n : NodeIx} (hw : pos + c.length ≤ s.windowBits) (hbits : s.sbits pos c.length = c)
  (hn : descend node 0 c = some n)
include hlut hw hbits hn

/-- Pending bits that lead to a leaf: its symbol, and the position after them, by the LUT as by the walk. -/
theorem decodeSym_of_leaf {sym : Sym} (hleaf : node[n] = .leaf sym) :
    s.decodeSym node lut walk pos = .ok (sym, pos + c.length) := by
  cases walk with
  | true => exact (walkFrom_of_descend s c 0 pos hn hw hbits).trans (walkFrom_of_leaf s hleaf)
  | false =>
    obtain ⟨m, hm, hnames⟩ := entryNames_of_lutEntryOk (hlut (s.peekByte pos).toFin)
    rw [decodeSym_lut s rfl hnames]
    rcases entry_above_or_below hw hbits hn hm with ⟨d, hlen, hrest, hd⟩ | ⟨-, x, y, hbranch⟩
    · rw [if_pos (by omega), walkFrom_of_descend s d m _ hd (by omega) hrest, walkFrom_of_leaf s hleaf, hlen,
        Nat.add_assoc]
    · rw [hleaf] at hbranch
      cases hbranch

/-- All the bits left lead only to a branch: TRUNCATED, where the read that passes the window starts. -/
theorem decodeSym_of_branch_at_end {x y : NodeIx} (hbranch : node[n] = .branch x y)
    (hend : pos + c.length = s.windowBits) : s.decodeSym node lut walk pos =
      .error (truncatedAt (if walk = true ∨ 8 ≤ c.length then s.windowBits else pos)) := by
  have hwalk := walkFrom_of_branch_at_end s hbranch hend
  rw [hend] at hwalk
  cases walk with
  | true => rw [if_pos (.inl rfl), ← hwalk, ← hend]; exact walkFrom_of_descend s c 0 pos hn hw hbits
  | false =>
    obtain ⟨m, hm, hnames⟩ := entryNames_of_lutEntryOk (hlut (s.peekByte pos).toFin)
    rw [decodeSym_lut s rfl hnames]
    generalize lut[(s.peekByte pos).toFin] = e at hm hnames
    rcases entry_above_or_below hw hbits hn hm with ⟨d, hlen, hrest, hd⟩ | ⟨hlt, -⟩
    · have hnonterminal : entryBits e = 8 := by
        cases e with
        | nonTerminal _ => rfl
        | terminal sym len =>
          obtain ⟨-, rfl⟩ := descend_of_leaf hnames hd
          rw [show node[m] = .leaf sym from hnames] at hbranch
          cases hbranch
      rw [if_pos (by omega), if_pos (.inr (by omega)), walkFrom_of_descend s d m _ hd (by omega) hrest, ← hwalk]
      congr 1
      omega
    · have h8 := entryBits_le e
      rw [if_neg (by omega), if_neg (by simp; omega)]

end

/-! ## HSYM and HLUTRD (42_huffman.md R177, R178) -/

section
variable {s : State} (hv : s.treeValid = true) (rd : RegIx) (walk : Bool)
include hv

theorem execHsym_of_ok {sym : Sym} {pos : Nat} (h : s.decodeSym s.node s.lut walk s.bcPos.toNat = .ok (sym, pos)) :
    execHsym rd walk s = .next ((s.setReg rd (sym.setWidth 32)).setBcPos pos).complete := by
  rw [execHsym, withTreeValid_of_valid s _ hv, h]
  rfl

theorem execHsym_of_error {f : StreamFault} (h : s.decodeSym s.node s.lut walk s.bcPos.toNat = .error f) :
    execHsym rd walk s = .next (s.raiseStream f) := by
  rw [execHsym, withTreeValid_of_valid s _ hv, h]
  rfl

end

theorem raised_raiseStream (s : State) (f : StreamFault) : Raised f.cause f.info s (s.raiseStream f) :=
  ⟨rfl, rfl, rfl, rfl, rfl, rfl, fun _ => rfl, rfl, rfl, rfl, rfl, rfl⟩

theorem completed_readInto (s : State) (rd : RegIx) (v : Word) (pos : Nat) :
    Completed s ((s.setReg rd v).setBcPos pos).complete := completed_complete

theorem lutWord_terminal_toNat (sym : Sym) (len : Fin 9) :
    (lutWord (.terminal sym len)).toNat = 2147483648 + len.val * 65536 + sym.toNat := by
  have := sym.isLt
  rw [lutWord, BitVec.toNat_ofNat, Nat.mod_eq_of_lt (by omega)]
  omega

theorem lutWord_nonTerminal_toNat (n : NodeIx) : (lutWord (.nonTerminal n)).toNat = n.val := by
  rw [lutWord, BitVec.toNat_ofNat, Nat.mod_eq_of_lt (by omega)]

/-! ## The statements -/

/-- Settles O26: the entry is the word that HLUTRD writes, and both commands check TREE_VALID. -/
theorem hlutrdReadsAnEntry : Obligations.HlutrdReadsAnEntry := by
  intro rd ra walk s key hkey
  obtain rfl : (s.regByte ra).toFin = key := Fin.ext (Eq.trans (by simp [State.regByte]) hkey.symm)
  refine ⟨fun hv => ?_, fun hv => ⟨?_, ?_⟩⟩
  · obtain ⟨t, e, hcomplete, hvalue, hregs, hframe⟩ :=
      exec_writes_reg (i := .hlutrd rd ra) (withTreeValid_of_valid s _ hv)
    refine ⟨t, e, hcomplete, fun sym len h => ?_, fun n h => ?_, hregs, hframe⟩ <;> rw [hvalue, h]
    · exact lutWord_terminal_toNat sym len
    · exact lutWord_nonTerminal_toNat n
  · exact ⟨_, withTreeValid_of_absent s _ hv, raisedClean_raise s _ _⟩
  · exact ⟨_, withTreeValid_of_absent s _ hv, raisedClean_raise s _ _⟩

/-- Settles O25: the symbol or the fault of DecodeSym, as HSYM leaves it. -/
theorem hsymDecodesACode : Obligations.HsymDecodesACode := by
  intro rd walk s c n hv hlut hw hbits hn
  refine ⟨fun x y q hbranch hend hq => ?_, fun sym hleaf => ?_⟩
  · have hsym := decodeSym_of_branch_at_end hlut walk hw hbits hn hbranch hend
    rw [show s.windowBits = 8 * s.bcLen.toNat from rfl, ← hq] at hsym
    exact ⟨_, execHsym_of_error hv rd walk hsym, raised_raiseStream s _, rfl⟩
  · have hsym := decodeSym_of_leaf hlut walk hw hbits hn hleaf
    refine ⟨_, execHsym_of_ok hv rd walk hsym, completed_readInto s rd _ _, ?_, ofNat_bcPos_add s _, rfl, rfl,
      sameRegsBut_setReg s rd _, (sameBut_of_fields (regs := by simp) (reader := by simp)).complete⟩
    have := sym.isLt
    rw [reg_complete, reg_setBcPos, reg_setReg_self, BitVec.toNat_setWidth, Nat.mod_eq_of_lt (by omega)]

/-- Settles O27: all the bits left in the window lead to a leaf on their way, or only to a branch. -/
theorem lutAndWalkAgree : Obligations.LutAndWalkAgree := by
  intro rd s hv hlut hpos
  have hwindow : s.bcPos.toNat + (s.windowBits - s.bcPos.toNat) = s.windowBits := Nat.add_sub_cancel' hpos
  rcases descend_leaf_or_branch s.node (s.sbits s.bcPos.toNat (s.windowBits - s.bcPos.toNat)) 0 with
    ⟨c, d, m, sym, hsplit, hd, hleaf⟩ | ⟨m, x, y, hd, hbranch⟩
  · have hlen := congrArg List.length hsplit
    rw [sbits_length, List.length_append] at hlen
    have hsym (walk : Bool) := decodeSym_of_leaf hlut walk (by omega) (sbits_split hsplit).1 hd hleaf
    exact .inl ⟨_, execHsym_of_ok hv rd false (hsym false), execHsym_of_ok hv rd true (hsym true),
      completed_readInto s rd _ _⟩
  · have hlen : s.bcPos.toNat + (s.sbits s.bcPos.toNat (s.windowBits - s.bcPos.toNat)).length = s.windowBits := by
      rw [sbits_length, hwindow]
    have hsym (walk : Bool) :=
      decodeSym_of_branch_at_end hlut walk hlen.le (by rw [sbits_length]) hd hbranch hlen
    exact .inr ⟨_, _, _, _, execHsym_of_error hv rd false (hsym false), execHsym_of_error hv rd true (hsym true),
      raised_raiseStream s _, raised_raiseStream s _⟩

end Sys2Proof.Machine

/-! Reading a tree: the nodes of a serialized tree in read order, a read of the nodes ahead in the stream, and HTREE
(42_huffman.md R169, R172, R176). -/

namespace Sys2Proof.Machine

/-! ## Nodes in read order (42_huffman.md R169) -/

/-- The nodes of a tree in read order: a leaf by its symbol, a branch by none. -/
def HuffTree.nodes : HuffTree → List (Option Sym)
  | .leaf sym => [some sym]
  | .branch a b => none :: (a.nodes ++ b.nodes)

theorem nodeBits_append (xs ys : List (Option Sym)) : nodeBits (xs ++ ys) = nodeBits xs ++ nodeBits ys :=
  List.flatMap_append

theorem nodeBits_none_cons (items : List (Option Sym)) : nodeBits (none :: items) = false :: nodeBits items := rfl

/-- Serializing a tree writes its nodes in read order. -/
theorem nodeBits_nodes (T : HuffTree) : nodeBits T.nodes = (serChunks T).flatten := by
  induction T with
  | leaf sym => rfl
  | branch a b iha ihb =>
    rw [HuffTree.nodes, nodeBits_none_cons, nodeBits_append, iha, ihb, serChunks, List.flatten_cons,
      List.flatten_append]
    rfl

/-- A tree has one leaf more than it has branches. -/
theorem nodes_counts (T : HuffTree) : T.nodes.length + 1 = 2 * T.leaves ∧
    T.nodes.countP Option.isSome = T.nodes.countP Option.isNone + 1 := by
  induction T with
  | leaf sym => exact ⟨rfl, rfl⟩
  | branch a b iha ihb =>
    simp only [HuffTree.nodes, HuffTree.leaves, List.length_cons, List.length_append, List.countP_cons,
      List.countP_append, Option.isSome_none, Option.isNone_none, if_true, Bool.false_eq_true, if_false]
    omega

/-- Nodes in read order after which a tree still needs one: none yet, or a branch that stands inside its first child, or
inside its second child after the whole first. -/
inductive Unfinished : List (Option Sym) → Prop
  | start : Unfinished []
  | inFirst {items : List (Option Sym)} (h : Unfinished items) : Unfinished (none :: items)
  | inSecond (a : HuffTree) {items : List (Option Sym)} (h : Unfinished items) : Unfinished (none :: (a.nodes ++ items))

/-- Nodes in read order either start with a whole tree or leave one unfinished. -/
theorem unfinished_or_starts_with_tree (items : List (Option Sym)) :
    Unfinished items ∨ ∃ (T : HuffTree) (rest : List (Option Sym)), items = T.nodes ++ rest := by
  induction hlen : items.length using Nat.strongRecOn generalizing items with
  | ind n ih =>
    subst hlen
    match items with
    | [] => exact .inl .start
    | some sym :: rest => exact .inr ⟨.leaf sym, rest, rfl⟩
    | none :: rest =>
      rcases ih rest.length (Nat.lt_succ_self _) rest rfl with h | ⟨a, rest, rfl⟩
      · exact .inl (.inFirst h)
      · have hshorter : rest.length < (none :: (a.nodes ++ rest)).length := by simp
        rcases ih rest.length hshorter rest rfl with h | ⟨b, rest, rfl⟩
        · exact .inl (.inSecond a h)
        · exact .inr ⟨.branch a b, rest, by rw [HuffTree.nodes, List.cons_append, List.append_assoc]⟩

/-- Where no first nodes have more leaves than branches, no whole tree stands at the start. -/
theorem unfinished_of_treeGoesOn {items : List (Option Sym)} (h : TreeGoesOn items) : Unfinished items := by
  refine (unfinished_or_starts_with_tree items).resolve_right ?_
  rintro ⟨T, rest, rfl⟩
  have hcount := h T.nodes.length (by simp)
  rw [List.take_left, (nodes_counts T).2] at hcount
  exact absurd hcount (Nat.not_succ_le_self _)

/-! ## Nodes ahead in the stream -/

/-- The stream has these nodes from where a build stands, inside the window, and the arena has room for them. -/
structure Ahead (s : State) (b : TreeBuild) (items : List (Option Sym)) : Prop where
  fits : b.pos + (nodeBits items).length ≤ s.windowBits
  bits : s.sbits b.pos (nodeBits items).length = nodeBits items
  room : b.nnodes + items.length ≤ 521

/-- A build that has read these nodes of another. -/
def HasRead (items : List (Option Sym)) (b b' : TreeBuild) : Prop :=
  b'.pos = b.pos + (nodeBits items).length ∧ b'.nnodes = b.nnodes + items.length

theorem Ahead.append {s : State} {b : TreeBuild} {xs ys : List (Option Sym)} (h : Ahead s b (xs ++ ys)) :
    Ahead s b xs ∧ ∀ b', HasRead xs b b' → Ahead s b' ys := by
  obtain ⟨hfits, hbits, hroom⟩ := h
  rw [nodeBits_append] at hfits hbits
  obtain ⟨hxs, hys⟩ := sbits_split hbits
  rw [List.length_append] at hfits hroom
  refine ⟨⟨by omega, hxs, by omega⟩, fun b' ⟨hpos, hnodes⟩ => ⟨?_, ?_, ?_⟩⟩
  · rw [hpos]; omega
  · rw [hpos]; exact hys
  · rw [hnodes]; omega

/-- The build after a branch has been read at a depth, before its children (42_huffman.md R172). -/
def afterBranch (b : TreeBuild) (h : b.nnodes < 521) (depth code : Nat) : TreeBuild :=
  ⟨b.pos + 1, b.node, b.nnodes + 1, lutAfterBranch b.lut depth code ⟨b.nnodes, h⟩⟩

theorem Ahead.branch {s : State} {b : TreeBuild} {items : List (Option Sym)} (h : Ahead s b (none :: items)) :
    s.rdBit b.pos = .ok (false, b.pos + 1) ∧
      ∃ hn : b.nnodes < 521, ∀ depth code, Ahead s (afterBranch b hn depth code) items := by
  obtain ⟨hfits, hbits, hroom⟩ := h
  rw [nodeBits_none_cons, List.length_cons] at hfits hbits
  rw [sbits_succ] at hbits
  obtain ⟨hbit, hrest⟩ := List.cons.inj hbits
  rw [List.length_cons] at hroom
  obtain ⟨-, hread⟩ := (rdBit_cases s b.pos).resolve_right (by omega)
  rw [hbit] at hread
  exact ⟨hread, by omega, fun _ _ => ⟨by simp only [afterBranch]; omega, hrest, by simp only [afterBranch]; omega⟩⟩

theorem Ahead.leaf {s : State} {b : TreeBuild} {sym : Sym} (h : Ahead s b [some sym]) :
    s.rdBit b.pos = .ok (true, b.pos + 1) ∧ s.rdBits 9 (b.pos + 1) = .ok (sym.toNat, b.pos + 10) ∧ b.nnodes < 521 := by
  have hnode : nodeBits [some sym] = true :: bitsOfNat 9 sym.toNat := by simp [nodeBits]
  obtain ⟨hfits, hbits, hroom⟩ := h
  rw [hnode, List.length_cons, bitsOfNat_length] at hfits hbits
  rw [sbits_succ] at hbits
  obtain ⟨hbit, hrest⟩ := List.cons.inj hbits
  obtain ⟨-, hread⟩ := (rdBit_cases s b.pos).resolve_right (by omega)
  obtain ⟨-, hsym⟩ := (rdBits_cases s 9 (b.pos + 1)).resolve_right (by omega)
  rw [hbit] at hread
  rw [hrest, natOfBits_bitsOfNat, Nat.mod_eq_of_lt sym.isLt] at hsym
  exact ⟨hread, hsym, hroom⟩

/-! ## One node (42_huffman.md R172) -/

section
variable {s : State} {b : TreeBuild} (hn : b.nnodes < 521) (fuel depth code : Nat)

theorem readNode_leaf {sym : Sym} (h : Ahead s b [some sym]) :
    s.readNode (fuel + 1) depth code b = .ok (⟨b.nnodes, hn⟩,
      ⟨b.pos + 10, b.node.set b.nnodes (.leaf sym), b.nnodes + 1, lutAfterLeaf b.lut depth code sym⟩) := by
  obtain ⟨hbit, hsym, -⟩ := h.leaf
  simp [State.readNode, hn, hbit, hsym]

variable (hbit : s.rdBit b.pos = .ok (false, b.pos + 1))
include hbit

theorem readNode_of_error_first {f : StreamFault}
    (hf : s.readNode fuel (depth + 1) code (afterBranch b hn depth code) = .error f) :
    s.readNode (fuel + 1) depth code b = .error f := by
  unfold afterBranch at hf
  simp [State.readNode, hn, hbit, hf]

variable {x : NodeIx} {b1 : TreeBuild}
  (hx : s.readNode fuel (depth + 1) code (afterBranch b hn depth code) = .ok (x, b1))
include hx

theorem readNode_of_error_second {f : StreamFault}
    (hf : s.readNode fuel (depth + 1) (code + 2 ^ depth) b1 = .error f) :
    s.readNode (fuel + 1) depth code b = .error f := by
  unfold afterBranch at hx
  simp [State.readNode, hn, hbit, hx, hf]

theorem readNode_of_children {y : NodeIx} {b2 : TreeBuild}
    (hy : s.readNode fuel (depth + 1) (code + 2 ^ depth) b1 = .ok (y, b2)) :
    s.readNode (fuel + 1) depth code b =
      .ok (⟨b.nnodes, hn⟩, ⟨b2.pos, b2.node.set b.nnodes (.branch x y), b2.nnodes, b2.lut⟩) := by
  unfold afterBranch at hx
  simp [State.readNode, hn, hbit, hx, hy]

end

/-! ## A whole tree (42_huffman.md R169, R172) -/

/-- The tree that an arena holds from a node on lies in the nodes that the tree has. -/
theorem arenaHolds_congr {node node' : Vector TreeNode 521} {lo hi : Nat} (hs : SameNodes lo hi node node')
    (T : HuffTree) : ∀ n, lo ≤ n → n + T.nodes.length ≤ hi → ArenaHolds node T n → ArenaHolds node' T n := by
  have hget (n : Nat) (v : TreeNode) (hl : lo ≤ n) (hh : n < hi) (h : node[n]? = some v) : node'[n]? = some v := by
    obtain ⟨hlt, hv⟩ := Vector.getElem?_eq_some_iff.mp h
    exact Vector.getElem?_eq_some_iff.mpr ⟨hlt, (hs ⟨n, hlt⟩ hl hh).trans hv⟩
  induction T with
  | leaf sym => exact fun n hl hh h => hget n _ hl hh h
  | branch a b iha ihb =>
    rintro n hl hh ⟨x, y, hnode, hx, hy, ha, hb⟩
    have hcounts := (nodes_counts a).1
    simp only [HuffTree.nodes, List.length_cons, List.length_append] at hh
    exact ⟨x, y, hget n _ hl (by omega) hnode, hx, hy, iha _ (by omega) (by omega) ha, ihb _ (by omega) (by omega) hb⟩

/-- Where ReadNode stands: its fuel counts the depths left, and the nodes above it are in the arena. -/
def ReadsAt (fuel depth code : Nat) (b : TreeBuild) : Prop :=
  fuel + depth = 521 ∧ depth ≤ b.nnodes ∧ code < 2 ^ depth

/-- While the arena has room there is fuel left, and both children of a branch are read one depth below. -/
theorem ReadsAt.children {fuel depth code : Nat} {b : TreeBuild} (h : ReadsAt fuel depth code b) (hn : b.nnodes < 521) :
    ∃ k, fuel = k + 1 ∧ ∀ b' : TreeBuild, b.nnodes < b'.nnodes →
      ReadsAt k (depth + 1) code b' ∧ ReadsAt k (depth + 1) (code + 2 ^ depth) b' := by
  obtain ⟨hfuel, hdepth, hcode⟩ := h
  refine ⟨fuel - 1, by omega, fun b' hb' => ?_⟩
  unfold ReadsAt
  rw [Nat.pow_succ]
  omega

/-- ReadNode on a serialized tree reads its nodes, and the arena then holds the tree. -/
theorem readNode_of_tree (s : State) (T : HuffTree) : ∀ (fuel depth code : Nat) (b : TreeBuild),
    ReadsAt fuel depth code b → Ahead s b T.nodes → ∃ i b', s.readNode fuel depth code b = .ok (i, b') ∧
      i.val = b.nnodes ∧ HasRead T.nodes b b' ∧ ArenaHolds b'.node T b.nnodes := by
  induction T with
  | leaf sym =>
    intro fuel depth code b hat hahead
    have hn := hahead.leaf.2.2
    obtain ⟨k, rfl, -⟩ := hat.children hn
    refine ⟨_, _, readNode_leaf hn k depth code hahead, rfl, ⟨?_, rfl⟩, ?_⟩
    · simp [nodeBits, HuffTree.nodes]
    · simp [ArenaHolds]
  | branch a c iha ihc =>
    intro fuel depth code b hat hahead
    obtain ⟨hbit, hn, hchildren⟩ := hahead.branch
    obtain ⟨k, rfl, hbelow⟩ := hat.children hn
    obtain ⟨haheadA, haheadC⟩ := (hchildren depth code).append
    have hatA := (hbelow (afterBranch b hn depth code) (Nat.lt_succ_self _)).1
    obtain ⟨x, b1, hx, hxi, hreadA, hholdsA⟩ := iha k _ code _ hatA haheadA
    have hb1 : b1.nnodes = b.nnodes + 1 + a.nodes.length := hreadA.2
    have hatC := (hbelow b1 (by omega)).2
    obtain ⟨y, b2, hy, hyi, hreadC, hholdsC⟩ := ihc k _ _ b1 hatC (haheadC b1 hreadA)
    have hb2 := hreadC.2
    have hold := (readNode_nodeRead s k _ _ b1 b2 y hatC.2.2 hy).earlier
    have hset {lo hi : Nat} (h : b.nnodes < lo) :
        SameNodes lo hi b2.node (b2.node.set b.nnodes (.branch x y)) :=
      sameNodes_set b2.node ⟨b.nnodes, hn⟩ _ (.inl h)
    have hcounts := (nodes_counts a).1
    refine ⟨_, _, readNode_of_children hn k depth code hbit hx hy, rfl, ⟨?_, ?_⟩, x, y, ?_, hxi, ?_, ?_, ?_⟩
    · have hposA : b1.pos = b.pos + 1 + (nodeBits a.nodes).length := hreadA.1
      have hposC := hreadC.1
      simp only [HuffTree.nodes, nodeBits_none_cons, nodeBits_append, List.length_cons, List.length_append]
      omega
    · simp only [HuffTree.nodes, List.length_cons, List.length_append]
      omega
    · simp
    · omega
    · have hA : ArenaHolds b2.node a (b.nnodes + 1) :=
        arenaHolds_congr hold a _ (Nat.zero_le _) hb1.ge hholdsA
      rw [hxi]
      exact arenaHolds_congr (hset (Nat.lt_succ_self _)) a _ (Nat.le_refl _) (Nat.le_refl _) hA
    · rw [hyi]
      exact arenaHolds_congr (hset (by omega)) c b1.nnodes (Nat.le_refl _) (Nat.le_refl _) hholdsC

/-! ## An unfinished tree (60_exceptions.md R300) -/

/-- A read of the next node takes this fault, wherever it stands below the root. -/
def NextNodeFaults (s : State) (pos nnodes : Nat) (f : StreamFault) : Prop :=
  ∀ (fuel depth code : Nat) (b : TreeBuild), ReadsAt fuel depth code b → b.pos = pos → b.nnodes = nnodes →
    s.readNode fuel depth code b = .error f

/-- A tree that is unfinished after the nodes ahead takes the fault of the next node. -/
theorem readNode_of_unfinished (s : State) {f : StreamFault} {items : List (Option Sym)} (h : Unfinished items) :
    ∀ (fuel depth code : Nat) (b : TreeBuild), ReadsAt fuel depth code b → Ahead s b items →
      NextNodeFaults s (b.pos + (nodeBits items).length) (b.nnodes + items.length) f →
      s.readNode fuel depth code b = .error f := by
  induction h with
  | start => exact fun fuel depth code b hat _ hnext => hnext fuel depth code b hat rfl rfl
  | @inFirst items _ ih =>
    intro fuel depth code b hat hahead hnext
    obtain ⟨hbit, hn, hchild⟩ := hahead.branch
    obtain ⟨k, rfl, hbelow⟩ := hat.children hn
    refine readNode_of_error_first hn k depth code hbit
      (ih k _ code _ (hbelow _ (Nat.lt_succ_self _)).1 (hchild depth code) ?_)
    rw [nodeBits_none_cons, List.length_cons, List.length_cons] at hnext
    simpa only [afterBranch, Nat.add_assoc, Nat.add_comm 1] using hnext
  | @inSecond a items _ ih =>
    intro fuel depth code b hat hahead hnext
    obtain ⟨hbit, hn, hchildren⟩ := hahead.branch
    obtain ⟨k, rfl, hbelow⟩ := hat.children hn
    obtain ⟨haheadA, hahead'⟩ := (hchildren depth code).append
    have hatA := (hbelow (afterBranch b hn depth code) (Nat.lt_succ_self _)).1
    obtain ⟨x, b1, hx, -, hread, -⟩ := readNode_of_tree s a k _ code _ hatA haheadA
    have hb1 : b1.nnodes = b.nnodes + 1 + a.nodes.length := hread.2
    have hpos1 : b1.pos = b.pos + 1 + (nodeBits a.nodes).length := hread.1
    refine readNode_of_error_second hn k depth code hbit hx
      (ih k _ _ b1 (hbelow b1 (by omega)).2 (hahead' b1 hread) ?_)
    rw [nodeBits_none_cons, nodeBits_append, List.length_cons, List.length_cons, List.length_append,
      List.length_append] at hnext
    rw [hb1, hpos1]
    convert hnext using 1 <;> omega

/-- The 522nd node: CORRUPT_TREE. -/
theorem nextNodeFaults_full (s : State) {pos nnodes : Nat} (hfull : nnodes = 521) :
    NextNodeFaults s pos nnodes (corruptTreeAt pos) := by
  rintro fuel depth code b - rfl rfl
  cases fuel with
  | zero => rfl
  | succ fuel => rw [State.readNode, dif_neg (by omega)]

/-- A node past the window: TRUNCATED. -/
theorem nextNodeFaults_at_end (s : State) {pos nnodes : Nat} (hn : nnodes < 521) (hend : pos = s.windowBits) :
    NextNodeFaults s pos nnodes (truncatedAt pos) := by
  rintro fuel depth code b hat rfl rfl
  obtain ⟨k, rfl, -⟩ := hat.children hn
  obtain ⟨-, hbit⟩ := (rdBit_cases s b.pos).resolve_left (by omega)
  simp [State.readNode, hn, hbit]

/-- A leaf whose symbol passes the window: TRUNCATED. -/
theorem nextNodeFaults_in_symbol (s : State) {pos nnodes : Nat} (hn : nnodes < 521) (hpos : pos < s.windowBits)
    (hend : s.windowBits < pos + 10) (hleaf : s.sbits pos 1 = [true]) :
    NextNodeFaults s pos nnodes (truncatedAt (pos + 1)) := by
  rintro fuel depth code b hat rfl rfl
  obtain ⟨k, rfl, -⟩ := hat.children hn
  obtain ⟨-, hbit⟩ := (rdBit_cases s b.pos).resolve_right (by omega)
  obtain ⟨-, hsym⟩ := (rdBits_cases s 9 (b.pos + 1)).resolve_left (by omega)
  rw [sbits_succ] at hleaf
  rw [(List.cons.inj hleaf).1] at hbit
  simp [State.readNode, hn, hbit, hsym]

/-! ## ReadTree (42_huffman.md R172) -/

/-- Where a tree read starts. -/
def State.treeStart (s : State) : TreeBuild := ⟨s.bcPos.toNat, s.node, 0, s.lut⟩

@[simp] theorem treeStart_nnodes (s : State) : s.treeStart.nnodes = 0 := rfl

theorem treeStart_readsAt (s : State) : ReadsAt 521 0 0 s.treeStart := ⟨rfl, Nat.le_refl _, Nat.one_pos⟩

/-- A serialized tree of at most 261 leaves is read whole. -/
theorem readTree_of_tree {s : State} {T : HuffTree} (hleaves : T.leaves ≤ 261)
    (hfits : s.bcPos.toNat + (serChunks T).flatten.length ≤ s.windowBits)
    (hbits : s.sbits s.bcPos.toNat (serChunks T).flatten.length = (serChunks T).flatten) :
    ∃ b, s.readTree = .ok b ∧ b.pos = s.bcPos.toNat + (serChunks T).flatten.length ∧
      b.nnodes = 2 * T.leaves - 1 ∧ ArenaHolds b.node T 0 ∧ LutOk b.node b.lut := by
  have hcounts := (nodes_counts T).1
  rw [← nodeBits_nodes] at hfits hbits ⊢
  have hahead : Ahead s s.treeStart T.nodes := ⟨hfits, hbits, by rw [treeStart_nnodes]; omega⟩
  obtain ⟨i, b, hread, -, ⟨hpos, hnnodes⟩, hholds⟩ :=
    readNode_of_tree s T 521 0 0 s.treeStart (treeStart_readsAt s) hahead
  have htree : s.readTree = .ok b := by
    rw [State.readTree, ← State.treeStart, hread]
  obtain ⟨-, -, -, hlut⟩ := readTree_treeOk htree
  exact ⟨b, htree, hpos, by rw [hnnodes, treeStart_nnodes]; omega, hholds, hlut⟩

/-- A tree that goes on after the nodes in the stream takes the fault of the next node. -/
theorem readTree_of_treeGoesOn {s : State} {items : List (Option Sym)} {f : StreamFault} (hgoes : TreeGoesOn items)
    (hahead : Ahead s s.treeStart items)
    (hnext : NextNodeFaults s (s.bcPos.toNat + (nodeBits items).length) items.length f) : s.readTree = .error f := by
  have hroot := readNode_of_unfinished s (unfinished_of_treeGoesOn hgoes) 521 0 0 s.treeStart (treeStart_readsAt s)
    hahead (by rwa [treeStart_nnodes, Nat.zero_add])
  rw [State.readTree, ← State.treeStart, hroot]

/-! ## HTREE, and the tree read of HDEC (42_huffman.md R175, R176) -/

section
variable {s : State} {c : Cause} {info pos : Nat}

/-- A data fault of HTREE, or of HDEC with its destination in memory (60_exceptions.md R310). -/
theorem faultsAt_of_raise {i : Instr} {mem : Memory} {node : Vector TreeNode 521} {lut : Vector LutEntry 256}
    {nnodes draws : Nat} (h : exec i s = .next ({ s with
      mem := mem, node := node, lut := lut, nnodes := nnodes, treeValid := false, draws := draws }.raiseStream
        ⟨c, BitVec.ofNat 32 info, pos⟩)) : FaultsAt i s c info pos :=
  ⟨_, h, ⟨rfl, rfl, rfl, rfl, rfl, rfl, fun _ => rfl, rfl, rfl, rfl, rfl, rfl⟩, rfl⟩

theorem htree_faultsAt (h : s.readTree = .error ⟨c, BitVec.ofNat 32 info, pos⟩) : FaultsAt .htree s c info pos := by
  have hexec : exec .htree s = .next (s.scrambleTree.raiseStream ⟨c, BitVec.ofNat 32 info, pos⟩) := by
    change execHtree s = _
    rw [execHtree, h]
  obtain ⟨node, lut, nnodes, draws, e⟩ := scrambleTree_eq s
  rw [e] at hexec
  exact faultsAt_of_raise (mem := s.mem) hexec

variable {ra rb : RegIx} {walk : Bool}

theorem hdec_faultsAt (hfits : FitsMemory s (s.regNat ra) (s.regNat rb))
    (h : s.decodeBlock walk (s.regNat rb) = .error ⟨c, BitVec.ofNat 32 info, pos⟩) :
    FaultsAt (.hdec ra rb walk) s c info pos := by
  have hexec : exec (.hdec ra rb walk) s = .next
      ((s.scramble (s.regNat ra) (s.regNat rb)).scrambleTree.raiseStream ⟨c, BitVec.ofNat 32 info, pos⟩) := by
    change execHdec ra rb walk s = _
    rw [execHdec, (withRanges_one s _ _ _).1 hfits, h]
  obtain ⟨node, lut, nnodes, draws, e⟩ := scrambleTree_eq (s.scramble (s.regNat ra) (s.regNat rb))
  rw [e] at hexec
  exact faultsAt_of_raise hexec

/-- A fault of the tree read is HTREE's, and HDEC's where its destination lies in memory. -/
theorem faultsAt_of_readTree {i : Instr}
    (hi : i = .htree ∨ (i = .hdec ra rb walk ∧ FitsMemory s (s.regNat ra) (s.regNat rb)))
    (h : s.readTree = .error ⟨c, BitVec.ofNat 32 info, pos⟩) : FaultsAt i s c info pos := by
  rcases hi with rfl | ⟨rfl, hfits⟩
  · exact htree_faultsAt h
  · exact hdec_faultsAt hfits (by rw [State.decodeBlock, h])

end

theorem SameBut.mono {changed more : List Part} {s t : State} (h : SameBut changed s t) (hsub : changed ⊆ more) :
    SameBut more s t := fun p hp => h p fun hin => hp (hsub hin)

/-- Settles O24: the fault of the node after an unfinished tree, and the read of a whole one. -/
theorem htreeReadsASerializedTree : Obligations.HtreeReadsASerializedTree := by
  refine ⟨?_, fun T s hleaves hfits hbits => ⟨serChunks_flatten_length T, ?_⟩⟩
  · rintro i ra rb walk s items p hi hgoes rfl hp hbits
    have hfault {f : StreamFault} (hroom : items.length ≤ 521) := readTree_of_treeGoesOn (f := f) hgoes
      ⟨hp, hbits, by rwa [treeStart_nnodes, Nat.zero_add]⟩
    refine ⟨fun hfull => ?_, fun hn hend => ?_, fun hn hlt hend hleaf => ?_⟩
    · exact faultsAt_of_readTree hi (hfault hfull.le (nextNodeFaults_full s hfull))
    · exact faultsAt_of_readTree hi (hfault hn.le (nextNodeFaults_at_end s hn hend))
    · exact faultsAt_of_readTree hi (hfault hn.le (nextNodeFaults_in_symbol s hn hlt hend hleaf))
  · obtain ⟨b, htree, hpos, hnnodes, hholds, hlut⟩ := readTree_of_tree hleaves hfits hbits
    have hexec : exec .htree s = .next (s.withTree b).complete := by
      change execHtree s = _
      rw [execHtree, htree]
    refine ⟨_, hexec, completed_complete, rfl, hnnodes, hholds, hlut, ?_, rfl, rfl,
      (exec_framed s .htree _ hexec).parts.mono (by simp [changedParts])⟩
    rw [← ofNat_bcPos_add, ← serChunks_flatten_length, ← hpos]
    rfl

end Sys2Proof.Machine

/-! Decoding a block: the tree in the arena, the symbol loop over coded tokens and its faults, and HDEC (42_huffman.md
R163, R172 to R175). -/

namespace Sys2Proof.Machine

/-! ## Descents in the arena of a tree (42_huffman.md R168) -/

theorem getElem_of_getElem? {node : Vector TreeNode 521} {i : NodeIx} {v : TreeNode} (h : node[i.val]? = some v) :
    node[i] = v := (Vector.getElem?_eq_some_iff.mp h).2

/-- The path to a leaf of the tree is a path to that leaf in the arena. -/
theorem descend_of_leafAt {node : Vector TreeNode 521} {T : HuffTree} {sym : Sym} : ∀ {c : Bits} {i : NodeIx},
    ArenaHolds node T i.val → T.leafAt c = some sym → ∃ m, descend node i c = some m ∧ node[m] = .leaf sym := by
  induction T with
  | leaf s =>
    intro c i hholds hc
    cases c with
    | nil => cases hc; exact ⟨i, rfl, getElem_of_getElem? hholds⟩
    | cons b c => cases hc
  | branch l r ihl ihr =>
    rintro c i ⟨x, y, hnode, -, -, hl, hr⟩ hc
    cases c with
    | nil => cases hc
    | cons b c =>
      rw [descend, getElem_of_getElem? hnode]
      cases b
      · exact ihl hl hc
      · exact ihr hr hc

/-- Bits that stop inside the tree lead to a branch in the arena. -/
theorem descend_of_stopsInside {node : Vector TreeNode 521} {T : HuffTree} : ∀ {c : Bits} {i : NodeIx},
    ArenaHolds node T i.val → T.stopsInside c = true → ∃ m x y, descend node i c = some m ∧ node[m] = .branch x y := by
  induction T with
  | leaf s => intro c i _ hc; cases hc
  | branch l r ihl ihr =>
    rintro c i ⟨x, y, hnode, -, -, hl, hr⟩ hc
    cases c with
    | nil => exact ⟨i, x, y, rfl, getElem_of_getElem? hnode⟩
    | cons b c =>
      rw [descend, getElem_of_getElem? hnode]
      cases b
      · exact ihl hl hc
      · exact ihr hr hc

/-! ## The extra bits of a run (42_huffman.md R163) -/

theorem readExtra_of_fits {s : State} {sym pos : Nat} (h : pos + runExtraBits sym ≤ s.windowBits) :
    s.readExtra sym pos = .ok (natOfBits (s.sbits pos (runExtraBits sym)), pos + runExtraBits sym) := by
  unfold State.readExtra
  split
  · exact ((rdBits_cases s _ pos).resolve_right (by omega)).2
  · rw [show runExtraBits sym = 0 by omega]
    rfl

theorem readExtra_of_over {s : State} {sym pos : Nat} (hpos : pos ≤ s.windowBits)
    (h : s.windowBits < pos + runExtraBits sym) : s.readExtra sym pos = .error (truncatedAt pos) := by
  rw [State.readExtra, if_pos (by omega)]
  exact ((rdBits_cases s _ pos).resolve_left (by omega)).2

/-! ## One turn of the symbol loop (42_huffman.md R175) -/

theorem prependBytes_nil (r : Except StreamFault (List Byte × Nat)) : prependBytes [] r = r := by cases r <;> rfl

theorem prependBytes_append (xs ys : List Byte) (r : Except StreamFault (List Byte × Nat)) :
    prependBytes (xs ++ ys) r = prependBytes xs (prependBytes ys r) := by
  cases r with
  | error f => rfl
  | ok p => simp [prependBytes]

section
variable (s : State) (node : Vector TreeNode 521) (lut : Vector LutEntry 256) (walk : Bool) (fuel : Nat)
  {room pos : Nat}

theorem decodeLoop_no_room : s.decodeLoop node lut walk fuel 0 pos = .ok ([], pos) := by
  cases fuel <;> rfl

variable {node lut walk} (hroom : 0 < room)
include hroom

theorem decodeLoop_of_error {f : StreamFault} (h : s.decodeSym node lut walk pos = .error f) :
    s.decodeLoop node lut walk (fuel + 1) room pos = .error f := by
  rw [State.decodeLoop, if_neg hroom.ne', h]

variable {sym : Sym} {q : Nat} (h : s.decodeSym node lut walk pos = .ok (sym, q))
include h

theorem decodeLoop_literal (hsym : sym.toNat ≤ 255) : s.decodeLoop node lut walk (fuel + 1) room pos =
    prependBytes [BitVec.ofNat 8 sym.toNat] (s.decodeLoop node lut walk fuel (room - 1) q) := by
  simp [State.decodeLoop, hroom.ne', h, hsym]

theorem decodeLoop_corruptSymbol (hsym : 261 ≤ sym.toNat) : s.decodeLoop node lut walk (fuel + 1) room pos =
    .error ⟨.corruptSymbol, BitVec.ofNat 32 sym.toNat, q⟩ := by
  simp [State.decodeLoop, hroom.ne', h, show ¬ sym.toNat ≤ 255 by omega, show ¬ sym.toNat ≤ 260 by omega]

variable (h256 : 256 ≤ sym.toNat) (h260 : sym.toNat ≤ 260)
include h256 h260

theorem decodeLoop_of_extra_error {f : StreamFault} (hextra : s.readExtra sym.toNat q = .error f) :
    s.decodeLoop node lut walk (fuel + 1) room pos = .error f := by
  simp [State.decodeLoop, hroom.ne', h, show ¬ sym.toNat ≤ 255 by omega, h260, hextra]

variable {extra q' : Nat} (hextra : s.readExtra sym.toNat q = .ok (extra, q'))
include hextra

theorem decodeLoop_run (hlen : runBase sym.toNat + extra ≤ room) : s.decodeLoop node lut walk (fuel + 1) room pos =
    prependBytes (List.replicate (runBase sym.toNat + extra) 0#8)
      (s.decodeLoop node lut walk fuel (room - (runBase sym.toNat + extra)) q') := by
  simp [State.decodeLoop, hroom.ne', h, show ¬ sym.toNat ≤ 255 by omega, h260, hextra, Nat.not_lt.mpr hlen]

theorem decodeLoop_corruptRun (hlen : room < runBase sym.toNat + extra) :
    s.decodeLoop node lut walk (fuel + 1) room pos =
      .error ⟨.corruptRun, BitVec.ofNat 32 (runBase sym.toNat + extra), q'⟩ := by
  simp [State.decodeLoop, hroom.ne', h, show ¬ sym.toNat ≤ 255 by omega, h260, hextra, hlen]

end

/-! ## Coded tokens (42_huffman.md R163, R170) -/

theorem runBase_pos (sym : Nat) : 1 ≤ runBase sym := by
  unfold runBase
  split_ifs <;> omega

/-- Every token stands for a byte at least. -/
theorem expandToken_length_pos (tok : Token) : 1 ≤ (expandToken tok).length := by
  have := runBase_pos tok.sym.toNat
  unfold expandToken
  split
  · exact Nat.le_refl _
  · rw [List.length_replicate]; omega

theorem codedBits_cons (ct : Bits × Token) (cts : List (Bits × Token)) :
    codedBits (ct :: cts) = (ct.1 ++ bitsOfNat ct.2.nb ct.2.extra) ++ codedBits cts := rfl

theorem codedBytes_cons (ct : Bits × Token) (cts : List (Bits × Token)) :
    codedBytes (ct :: cts) = expandToken ct.2 ++ codedBytes cts := rfl

/-- The stream bits from a position are these, inside the window. -/
def BitsAt (s : State) (pos : Nat) (bits : Bits) : Prop :=
  pos + bits.length ≤ s.windowBits ∧ s.sbits pos bits.length = bits

theorem BitsAt.append {s : State} {pos : Nat} {c d : Bits} (h : BitsAt s pos (c ++ d)) :
    BitsAt s pos c ∧ BitsAt s (pos + c.length) d := by
  obtain ⟨hfits, hbits⟩ := h
  obtain ⟨hc, hd⟩ := sbits_split hbits
  rw [List.length_append] at hfits
  exact ⟨⟨by omega, hc⟩, ⟨by omega, hd⟩⟩

/-- An arena and a LUT that hold a tree: what a tree read of it leaves (42_huffman.md R172). -/
structure HoldsTree (node : Vector TreeNode 521) (lut : Vector LutEntry 256) (T : HuffTree) : Prop where
  arena : ArenaHolds node T 0
  lut : LutOk node lut

section
variable {s : State} {node : Vector TreeNode 521} {lut : Vector LutEntry 256} {T : HuffTree}
  (hT : HoldsTree node lut T) (walk : Bool)
include hT

/-- A code in the stream decodes to its symbol. -/
theorem decodeSym_of_leafAt {pos : Nat} {c : Bits} {sym : Sym} (hc : T.leafAt c = some sym) (hbits : BitsAt s pos c) :
    s.decodeSym node lut walk pos = .ok (sym, pos + c.length) := by
  obtain ⟨m, hd, hleaf⟩ := descend_of_leafAt (i := 0) hT.arena hc
  exact decodeSym_of_leaf hT.lut walk hbits.1 hbits.2 hd hleaf

/-- The rest of the window stops inside the tree: TRUNCATED. -/
theorem decodeSym_of_stopsInside {pos q : Nat} (hpos : pos ≤ s.windowBits)
    (hstop : T.stopsInside (s.sbits pos (s.windowBits - pos)) = true)
    (hq : q = if walk = true ∨ pos + 8 ≤ s.windowBits then s.windowBits else pos) :
    s.decodeSym node lut walk pos = .error (truncatedAt q) := by
  have hend : pos + (s.sbits pos (s.windowBits - pos)).length = s.windowBits := by
    rw [sbits_length, Nat.add_sub_cancel' hpos]
  obtain ⟨m, x, y, hd, hbranch⟩ := descend_of_stopsInside (i := 0) hT.arena hstop
  have hsym := decodeSym_of_branch_at_end hT.lut walk hend.le (by rw [sbits_length]) hd hbranch hend
  have h8 : 8 ≤ s.windowBits - pos ↔ pos + 8 ≤ s.windowBits := by omega
  simp only [hsym, hq, sbits_length, h8]

/-- One coded token gives its bytes. -/
theorem decodeLoop_token {ct : Bits × Token} {pos : Nat} (hc : T.leafAt ct.1 = some ct.2.sym) (hok : TokenOk ct.2)
    (hbits : BitsAt s pos (ct.1 ++ bitsOfNat ct.2.nb ct.2.extra)) (fuel room : Nat) :
    s.decodeLoop node lut walk (fuel + 1) ((expandToken ct.2).length + room) pos =
      prependBytes (expandToken ct.2)
        (s.decodeLoop node lut walk fuel room (pos + (ct.1 ++ bitsOfNat ct.2.nb ct.2.extra).length)) := by
  obtain ⟨h260, hliteral, hrun⟩ := hok
  obtain ⟨hcode, hextra⟩ := hbits.append
  have hroom : 0 < (expandToken ct.2).length + room := Nat.add_pos_left (expandToken_length_pos ct.2) room
  have hsym := decodeSym_of_leafAt hT walk hc hcode
  rw [List.length_append, bitsOfNat_length, ← Nat.add_assoc]
  by_cases h255 : ct.2.sym.toNat ≤ 255
  · rw [decodeLoop_literal s fuel hroom hsym h255, (hliteral h255).1, expandToken, if_pos h255]
    simp
  · obtain ⟨hnb, hlt⟩ := hrun (by omega)
    obtain ⟨hfits, hvalue⟩ := hextra
    rw [bitsOfNat_length, hnb] at hfits hvalue
    have hread := readExtra_of_fits hfits
    rw [hvalue, natOfBits_bitsOfNat, ← hnb, Nat.mod_eq_of_lt hlt] at hread
    have hbytes : expandToken ct.2 = List.replicate (runBase ct.2.sym.toNat + ct.2.extra) 0#8 := by
      rw [expandToken, if_neg h255]
    rw [hbytes, List.length_replicate] at hroom ⊢
    rw [decodeLoop_run s fuel hroom hsym (by omega) h260 hread (by omega), Nat.add_sub_cancel_left]

/-- Coded tokens give their bytes, and the loop goes on after them, with fuel for the room left. -/
theorem decodeLoop_of_coded (cts : List (Bits × Token)) : ∀ fuel room pos : Nat, Coded T cts →
    BitsAt s pos (codedBits cts) → (codedBytes cts).length + room ≤ fuel → ∃ k, room ≤ k ∧
      s.decodeLoop node lut walk fuel ((codedBytes cts).length + room) pos =
        prependBytes (codedBytes cts) (s.decodeLoop node lut walk k room (pos + (codedBits cts).length)) := by
  induction cts with
  | nil =>
    intro fuel room pos _ _ hfuel
    refine ⟨fuel, Nat.le_trans (Nat.le_add_left _ _) hfuel, ?_⟩
    rw [show codedBytes [] = [] from rfl, prependBytes_nil, List.length_nil, Nat.zero_add]
    rfl
  | cons ct cts ih =>
    intro fuel room pos hcoded hbits hfuel
    obtain ⟨⟨hc, hok⟩, hrest⟩ := List.forall_mem_cons.mp hcoded
    have hpos := expandToken_length_pos ct.2
    rw [codedBits_cons] at hbits ⊢
    obtain ⟨hfirst, hbits⟩ := hbits.append
    rw [codedBytes_cons, List.length_append] at hfuel ⊢
    obtain ⟨j, rfl⟩ : ∃ j, fuel = j + 1 := ⟨fuel - 1, by omega⟩
    obtain ⟨k, hk, hloop⟩ := ih j room _ hrest hbits (by omega)
    refine ⟨k, hk, ?_⟩
    rw [Nat.add_assoc, decodeLoop_token hT walk hc hok hfirst, hloop, prependBytes_append,
      List.length_append (bs := codedBits cts), Nat.add_assoc]

end

/-! ## A block (42_huffman.md R175) -/

section
variable {s : State} {walk : Bool} {m : Nat} {b : TreeBuild} (htree : s.readTree = .ok b)
include htree

theorem decodeBlock_of_loop_error {f : StreamFault} (h : s.decodeLoop b.node b.lut walk m m b.pos = .error f) :
    s.decodeBlock walk m = .error f := by
  rw [State.decodeBlock, htree]
  dsimp only
  rw [h]

variable {out : List Byte} {pos : Nat} (h : s.decodeLoop b.node b.lut walk m m b.pos = .ok (out, pos))
include h

theorem decodeBlock_of_end (hend : s.windowBits ≤ pos + 7) : s.decodeBlock walk m = .ok ⟨b, out, pos⟩ := by
  have hatEnd : s.atEnd pos = true := decide_eq_true (by omega)
  simp [State.decodeBlock, htree, h, hatEnd]

theorem decodeBlock_of_trailing (hend : pos + 8 ≤ s.windowBits) :
    s.decodeBlock walk m = .error ⟨.corruptTrailing, BitVec.ofNat 32 (s.windowBits - pos), pos⟩ := by
  have hatEnd : s.atEnd pos = false := decide_eq_false (by omega)
  simp [State.decodeBlock, htree, h, hatEnd]

end

/-- A serialized tree and coded tokens of it: the tree is read, and the symbol loop gives the tokens' bytes and goes on
after them, with fuel for the room left. -/
theorem decodeLoop_of_encoding {s : State} {T : HuffTree} {cts : List (Bits × Token)} {p : Nat} (walk : Bool)
    (room : Nat) (hleaves : T.leaves ≤ 261) (hcoded : Coded T cts)
    (hbits : BitsAt s s.bcPos.toNat ((serChunks T).flatten ++ codedBits cts))
    (hp : p = s.bcPos.toNat + ((serChunks T).flatten ++ codedBits cts).length) :
    ∃ b k, s.readTree = .ok b ∧ HoldsTree b.node b.lut T ∧ room ≤ k ∧
      s.decodeLoop b.node b.lut walk ((codedBytes cts).length + room) ((codedBytes cts).length + room) b.pos =
        prependBytes (codedBytes cts) (s.decodeLoop b.node b.lut walk k room p) := by
  obtain ⟨htreebits, htokens⟩ := hbits.append
  obtain ⟨b, htree, hpos, -, harena, hlut⟩ := readTree_of_tree hleaves htreebits.1 htreebits.2
  rw [← hpos] at htokens
  obtain ⟨k, hk, hloop⟩ := decodeLoop_of_coded ⟨harena, hlut⟩ walk cts _ room _ hcoded htokens (Nat.le_refl _)
  refine ⟨b, k, htree, ⟨harena, hlut⟩, hk, ?_⟩
  rw [hloop, hp, List.length_append, ← Nat.add_assoc, ← hpos]

/-! ## HDEC (42_huffman.md R175) -/

/-- HDEC of a block that fills its destination. -/
theorem hdec_completes {s : State} {ra rb : RegIx} {walk : Bool} {d : DecodedBlock}
    (hfits : FitsMemory s (s.regNat ra) (s.regNat rb)) (h : s.decodeBlock walk (s.regNat rb) = .ok d)
    (hlen : d.bytes.length = s.regNat rb) :
    ∃ t, exec (.hdec ra rb walk) s = .next t ∧ Completed s t ∧
      (DisjointRanges (s.regNat ra) (s.regNat rb) s.bcBase.toNat s.bcLen.toNat →
        t.readBytes (s.regNat ra) (s.regNat rb) = d.bytes) ∧
      SameBytesOutside (s.regNat ra) (s.regNat rb) s t ∧
      t.bcPos = BitVec.ofNat 32 d.pos ∧ t.bcBase = s.bcBase ∧ t.bcLen = s.bcLen ∧
      t.treeValid = true ∧ t.node = d.tree.node ∧ t.lut = d.tree.lut ∧ SameBut [.reader, .tree, .memory] s t := by
  have hexec : exec (.hdec ra rb walk) s = .next (((s.storeOrScramble
      (overlaps (s.regNat ra) (s.regNat rb) s.bcBase.toNat s.bcLen.toNat) (s.regNat ra)
      d.bytes).withTree d.tree).setBcPos d.pos).complete := by
    change execHdec ra rb walk s = _
    rw [execHdec, (withRanges_one s _ _ _).1 hfits, h]
  have hparts := (exec_framed s (.hdec ra rb walk) _ hexec).parts
  generalize hclash : overlaps (s.regNat ra) (s.regNat rb) s.bcBase.toNat s.bcLen.toNat = clash at hexec hparts
  refine ⟨_, hexec, ?_, fun hdisjoint => ?_, fun x hx => ?_, rfl, ?_, ?_, rfl, rfl, rfl,
    hparts.mono (by simp [changedParts])⟩
  · exact completed_complete (by simp) (by simp) (by simp) (by simp [SameErr]) (by simp [SameHostSide])
  · obtain rfl : false = clash := ((overlaps_eq_false_iff ..).mpr hdisjoint).symm.trans hclash
    refine List.ext_getElem (by simp [State.readBytes, hlen]) fun k _ hk => ?_
    simp only [State.readBytes, List.getElem_map, List.getElem_range]
    exact readByte_storeOrScramble_inside s (s.regNat ra) d.bytes k hk
  · exact readByte_storeOrScramble_outside s _ (s.regNat ra) d.bytes x (hlen ▸ hx)
  · simp
  · simp

/-- Settles O28: the tree read, the tokens of the symbol loop, then the end of the block or the fault of the next
symbol. -/
theorem hdecDecodesAnEncodedBlock : Obligations.HdecDecodesAnEncodedBlock := by
  intro ra rb walk s T cts bits p room
  refine ⟨fun hout => ⟨_, (withRanges_one s (s.reg ra) (s.regNat rb) _).2 hout, raisedClean_raise s _ _⟩, ?_⟩
  rintro hfits hleaves hcoded rfl hp hwindow hbits hroom
  obtain ⟨b, k, htree, hT, hk, hloop⟩ :=
    decodeLoop_of_encoding walk room hleaves hcoded ⟨hp ▸ hwindow, hbits⟩ hp
  rw [← hroom] at hloop
  clear hbits hcoded
  have hfull (h0 : room = 0) : s.decodeLoop b.node b.lut walk (s.regNat rb) (s.regNat rb) b.pos =
      .ok (codedBytes cts, p) := by
    rw [hloop, h0, decodeLoop_no_room, prependBytes, List.append_nil]
  have hfault {c : Cause} {info pos : Nat} (h : s.decodeLoop b.node b.lut walk k room p =
      .error ⟨c, BitVec.ofNat 32 info, pos⟩) : FaultsAt (.hdec ra rb walk) s c info pos :=
    hdec_faultsAt hfits (decodeBlock_of_loop_error htree (by rw [hloop, h]; rfl))
  have hfuel (h0 : 0 < room) : ∃ j, k = j + 1 := ⟨k - 1, by omega⟩
  refine ⟨fun h0 hend => ?_, fun h0 htrailing => ?_, fun h0 q hstop hq => ?_,
    fun h0 c sym q hc hq hqw hcbits => ?_⟩
  · obtain ⟨t, e, hcomplete, hbytes, hout, hpos, hbase, hlen, hvalid, hnode, hlut, hframe⟩ :=
      hdec_completes hfits (decodeBlock_of_end htree (hfull h0) hend) (by rw [hroom, h0]; rfl)
    exact ⟨t, e, hcomplete, hbytes, hout, hpos, hbase, hlen, hvalid, hnode ▸ hT.arena, hnode ▸ hlut ▸ hT.lut, hframe⟩
  · exact hdec_faultsAt hfits (decodeBlock_of_trailing htree (hfull h0) htrailing)
  · obtain ⟨j, rfl⟩ := hfuel h0
    exact hfault (decodeLoop_of_error s j h0 (decodeSym_of_stopsInside hT walk hwindow hstop hq))
  · obtain ⟨j, rfl⟩ := hfuel h0
    have hsym := decodeSym_of_leafAt hT walk hc ⟨hq ▸ hqw, hcbits⟩
    rw [← hq] at hsym
    refine ⟨fun h261 => ?_, fun h256 h260 hover => ?_, ?_⟩
    · exact hfault (decodeLoop_corruptSymbol s j h0 hsym h261)
    · exact hfault (decodeLoop_of_extra_error s j h0 hsym h256 h260 (readExtra_of_over hqw hover))
    · rintro h256 h260 hextra len rfl hlong
      exact hfault (decodeLoop_corruptRun s j h0 hsym h256 h260 (readExtra_of_fits hextra) hlong)

end Sys2Proof.Machine

/-! The round trip: HDEC of what HENC wrote (42_huffman.md R180). -/

namespace Sys2Proof.Machine

/-! ## What HENC writes (42_huffman.md R170, R171) -/

/-- A block's tokens, in the codes of the tree that HENC builds for them. -/
def encodedTokens (policy : TreePolicy) (draw : Nat) (block : List Byte) : List (Bits × Token) :=
  codedIn (encoderTree policy draw (tokenize block)) (tokenize block)

theorem encodedTokens_coded (policy : TreePolicy) (draw : Nat) (block : List Byte) :
    Coded (encoderTree policy draw (tokenize block)) (encodedTokens policy draw block) := by
  intro ct hct
  obtain ⟨tok, hmem, rfl⟩ := List.mem_map.mp hct
  have hok := (tokensExpandToTheBlock block).2 tok hmem
  obtain ⟨c, hc, hleaf, -⟩ := codeOf_encoderTree policy draw _ hmem hok.1
  exact ⟨by rw [hc]; exact hleaf, hok⟩

theorem codedBytes_encodedTokens (policy : TreePolicy) (draw : Nat) (block : List Byte) :
    codedBytes (encodedTokens policy draw block) = block := by
  rw [encodedTokens, codedBytes, codedIn, List.flatMap_map]
  exact (tokensExpandToTheBlock block).1

/-- An empty block is written as its tree alone, the degenerate one (42_huffman.md R166). -/
theorem encodeChunks_nil_length (policy : TreePolicy) (draw : Nat) :
    (encodeChunks policy draw []).flatten.length = 21 := by
  have hnone : tokenize [] = [] := runTokens_zero
  have hused : usedSymbols (tokenize []) = [] := by rw [hnone]; simp [usedSymbols, freq]
  rw [encodeChunks_flatten, encoderTree_of_no_symbol _ _ _ hused, hnone]
  rfl

/-! ## What a completed HENC has done -/

/-- A command that takes a fault does not complete: CP stands. -/
theorem Raised.not_completed {c : Cause} {info : Word} {s t : State} (h : Raised c info s t) : ¬ Completed s t := by
  obtain ⟨-, -, -, -, hcp, -⟩ := h
  rintro ⟨hcp', -⟩
  rw [hcp] at hcp'
  bv_omega

/-- A HENC that completes had its source in memory, and its bits fit the region. -/
theorem henc_fits_of_completed {ra rb : RegIx} {s t : State} (hcap : s.bwCap.toNat ≤ 536870912)
    (hpos : s.bwPos.toNat ≤ 8 * s.bwCap.toNat) (hexec : exec (.henc ra rb) s = .next t) (hcomplete : Completed s t) :
    FitsMemory s (s.regNat ra) (s.regNat rb) ∧
      s.bwPos.toNat + (s.hencChunks ra rb).flatten.length ≤ 8 * s.bwCap.toNat := by
  obtain ⟨hout, -, hover⟩ := hencAppendsTheEncoding ra rb s _ _ hcap rfl rfl
  by_cases hfits : FitsMemory s (s.regNat ra) (s.regNat rb)
  · refine ⟨hfits, Nat.le_of_not_lt fun hlt => ?_⟩
    obtain ⟨t', _, _, _, hexec', -, -, -, hraised⟩ := hover hfits hlt hpos
    obtain rfl := Host.Outcome.next.inj (hexec.symm.trans hexec')
    exact hraised.not_completed hcomplete
  · obtain ⟨t', hexec', hraised, -⟩ := hout hfits
    obtain rfl := Host.Outcome.next.inj (hexec.symm.trans hexec')
    exact absurd hcomplete hraised.not_completed

/-- From BW_POS = 0, HENC of a source clear of the region never fills all 2^32 bits of a full memory: the source would
then be empty (assumption log 15). -/
theorem henc_length_lt {ra rb : RegIx} {s : State} (hcfg : s.cfg.Valid) (hw : WriterInv s)
    (hfits : FitsMemory s (s.regNat ra) (s.regNat rb))
    (hdisjoint : DisjointRanges (s.regNat ra) (s.regNat rb) s.bwBase.toNat s.bwCap.toNat)
    (hfit : (s.hencChunks ra rb).flatten.length ≤ 8 * s.bwCap.toNat) :
    (s.hencChunks ra rb).flatten.length < 2 ^ 32 := by
  obtain ⟨-, hmem, -⟩ := hcfg
  obtain ⟨-, hregion⟩ := hw
  by_cases hempty : s.regNat rb = 0
  · rw [State.hencChunks, hempty, show s.readBytes (s.regNat ra) 0 = [] from rfl, encodeChunks_nil_length]
    decide
  · unfold FitsMemory at hfits
    unfold DisjointRanges at hdisjoint
    omega

/-- What a HENC that completes from BW_POS = 0 leaves: BW_POS after its bits, and the bits in the region. -/
theorem henc_wrote {ra rb : RegIx} {s t : State} (hcfg : s.cfg.Valid) (hw : WriterInv s) (hstart : s.bwPos = 0#32)
    (hdisjoint : DisjointRanges (s.regNat ra) (s.regNat rb) s.bwBase.toNat s.bwCap.toNat)
    (hexec : exec (.henc ra rb) s = .next t) (hcomplete : Completed s t) :
    t.bwPos.toNat = (s.hencChunks ra rb).flatten.length ∧
      ∀ k (h : k < (s.hencChunks ra rb).flatten.length), t.regionBit k = (s.hencChunks ra rb).flatten[k] := by
  have hzero : s.bwPos.toNat = 0 := by rw [hstart]; rfl
  have hcap : s.bwCap.toNat ≤ 536870912 := by
    obtain ⟨-, hmemBytes, -⟩ := hcfg
    obtain ⟨-, hregion⟩ := hw
    omega
  obtain ⟨hsource, hfit⟩ := henc_fits_of_completed hcap hw.1 hexec hcomplete
  obtain ⟨t', hexec', -, hend, -, -, hclear⟩ := execHenc_completes hsource hfit
  obtain rfl := Host.Outcome.next.inj (hexec.symm.trans hexec')
  have hlt := henc_length_lt hcfg hw hsource hdisjoint (by omega)
  refine ⟨by rw [hend, hstart, BitVec.zero_add, BitVec.toNat_ofNat, Nat.mod_eq_of_lt hlt], fun k hk => ?_⟩
  have hbit := regionBit_wrAll_written s _ (by omega) k hk
  rwa [hzero, Nat.zero_add, ← regionBit_drewTree, ← regionBit_complete, ← hclear hdisjoint] at hbit

/-- A window on the writer's base reads the bits of the region. -/
theorem sbits_of_region {t u : State} {bits : Bits} (hmem : ∀ a, u.readByte a = t.readByte a)
    (hbase : u.bcBase = t.bwBase) (hbits : ∀ k (h : k < bits.length), t.regionBit k = bits[k]) :
    u.sbits 0 bits.length = bits := by
  refine List.ext_getElem (sbits_length ..) fun k _ hk => ?_
  rw [sbits_getElem, ← hbits k hk, Nat.zero_add, State.sbit, State.regionBit, hmem, hbase]

/-- Settles O29: the window has the bits that HENC wrote, and HDEC decodes them as an encoded block. -/
theorem huffmanRoundTrip : Obligations.HuffmanRoundTrip := by
  intro ra rb rc rd walk s t u hcfg hw hstart hdisjoint hexec hcomplete hmem hbase hlen hpos hsize hfits hclear
  obtain ⟨hend, hbits⟩ := henc_wrote hcfg hw hstart hdisjoint hexec hcomplete
  have hstream := sbits_of_region hmem hbase hbits
  rw [State.sizeBytes, hend] at hlen
  have hblock : u.regNat rd = (codedBytes (encodedTokens s.cfg.treePolicy s.draws
      (s.readBytes (s.regNat ra) (s.regNat rb)))).length + 0 := by
    rw [codedBytes_encodedTokens, hsize]
    simp [State.readBytes]
  have hpos0 : u.bcPos.toNat = 0 := by rw [hpos]; rfl
  have hchunks : (s.hencChunks ra rb).flatten = _ ++ codedBits (encodedTokens ..) := encodeChunks_flatten ..
  obtain ⟨-, hdecodes⟩ := hdecDecodesAnEncodedBlock rc rd walk u _ _ _ _ 0
  obtain ⟨hcompletes, -⟩ := hdecodes hfits (encoderTree_leaves_le ..) (encodedTokens_coded _ _ _) hchunks rfl (by omega)
    (by rw [hpos0]; exact hstream) hblock
  obtain ⟨v, hv, hcompleted, hbytes, -⟩ := hcompletes rfl (by omega)
  exact ⟨v, hv, hcompleted, (hbytes hclear).trans (codedBytes_encodedTokens ..)⟩

end Sys2Proof.Machine

/-! What a command leaves that stores its destination, sets a table, or is refused by a check of its ranges
(20_memory.md R75, R80, 60_exceptions.md R310). -/

namespace Sys2Proof.Machine

/-! ## Taking a fault, and checking two ranges -/

theorem exec_raises {i : Instr} {s : State} {c : Cause} {info : Word} (h : exec i s = .next (s.raise c info)) :
    ∃ u, exec i s = .next u ∧ RaisedClean c info s u := ⟨_, h, raisedClean_raise s c info⟩

/-- Two ranges are checked in their order: MEM_RANGE names the start of the first that does not fit. -/
theorem withRanges_two (s : State) (a : Word) (n : Nat) (b : Word) (m : Nat) (body : Result) :
    (¬ FitsMemory s a.toNat n → s.withRanges [(a, n), (b, m)] body = .next (s.raise .memRange a)) ∧
      (FitsMemory s a.toNat n → ¬ FitsMemory s b.toNat m →
        s.withRanges [(a, n), (b, m)] body = .next (s.raise .memRange b)) ∧
      (FitsMemory s a.toNat n → FitsMemory s b.toNat m → s.withRanges [(a, n), (b, m)] body = body) := by
  simp only [← inRange_iff]
  exact ⟨fun ha => by simp [State.withRanges, State.badRange, ha],
    fun ha hb => by simp [State.withRanges, State.badRange, ha, hb],
    fun ha hb => by simp [State.withRanges, State.badRange, ha, hb]⟩

/-! ## Storing a destination (20_memory.md R80) -/

@[simp] theorem readByte_complete (s : State) (a : Nat) : s.complete.readByte a = s.readByte a := rfl

@[simp] theorem readHalf_complete (s : State) (a : Nat) : s.complete.readHalf a = s.readHalf a := rfl

/-- What a command leaves that stores its destination and completes; without an overlap, the bytes it computes. -/
theorem exec_stores {i : Instr} {s : State} {clash : Bool} {a : Nat} {bs : List Byte}
    (h : exec i s = .next (s.storeOrScramble clash a bs).complete) :
    ∃ u, exec i s = .next u ∧ Completed s u ∧ SameBytesOutside a bs.length s u ∧ SameBut [.memory] s u ∧
      (clash = false → u = (s.storeBytes a bs).complete) := by
  refine ⟨_, h, ?_, fun x hx => readByte_storeOrScramble_outside s clash a bs x hx,
    (sameBut_storeOrScramble s clash a bs).complete, ?_⟩
  · cases clash <;> exact completed_complete
  · rintro rfl
    rfl

/-- A command that checks its destination and one source, and then stores as many bytes as the destination has. -/
theorem exec_stores_of_ranges {i : Instr} {s : State} {a b : Word} {la lb : Nat} {clash : Bool} {bs : List Byte}
    (h : exec i s = s.withRanges [(a, la), (b, lb)] (.next (s.storeOrScramble clash a.toNat bs).complete))
    (hlen : bs.length = la) :
    (¬ FitsMemory s a.toNat la → ∃ u, exec i s = .next u ∧ RaisedClean .memRange a s u) ∧
    (FitsMemory s a.toNat la → ¬ FitsMemory s b.toNat lb → ∃ u, exec i s = .next u ∧ RaisedClean .memRange b s u) ∧
    (FitsMemory s a.toNat la → FitsMemory s b.toNat lb → ∃ u, exec i s = .next u ∧ Completed s u ∧
      SameBytesOutside a.toNat la s u ∧ SameBut [.memory] s u ∧
      (clash = false → u = (s.storeBytes a.toNat bs).complete)) := by
  obtain ⟨hdst, hsrc, hbody⟩ :=
    withRanges_two s a la b lb (.next (s.storeOrScramble clash a.toNat bs).complete)
  exact ⟨fun ha => exec_raises (h.trans (hdst ha)), fun ha hb => exec_raises (h.trans (hsrc ha hb)),
    fun ha hb => hlen ▸ exec_stores (h.trans (hbody ha hb))⟩

/-! ## Setting a table (10_state.md R44) -/

/-- What a command leaves that sets MT[t] and completes. -/
theorem exec_sets_table {i : Instr} {s : State} {t : TableIx} {T : MapTable}
    (h : exec i s = .next (s.setTable t T).complete) :
    ∃ u, exec i s = .next u ∧ Completed s u ∧ u.mt[t] = T ∧ u.tvalid[t] = true ∧
      (∀ t' : TableIx, t' ≠ t → u.mt[t'] = s.mt[t'] ∧ u.tvalid[t'] = s.tvalid[t']) ∧ SameBut [.tables] s u := by
  refine ⟨_, h, completed_complete, by simp, by simp, fun t' ht => ?_,
    (sameBut_of_fields (tables := by simp)).complete⟩
  have hne : t.val ≠ t'.val := fun e => ht (Fin.ext e.symm)
  simp only [complete_mt, setTable_mt, complete_tvalid, setTable_tvalid, Fin.getElem_fin,
    Vector.getElem_set_ne _ _ hne, and_self]

end Sys2Proof.Machine

/-! Map and Unmap: the nearest entry of a table, the codes as signed indices, and their properties (43_mapping.md R202
to R205). -/

namespace Sys2Proof.Machine

/-! ## The nearest entry (43_mapping.md R204) -/

theorem distance_eq_natAbs (e : Half) (m : Nat) : distance e m = ((e.toNat : Int) - m).natAbs := by
  unfold distance
  omega

/-- The scan keeps `best` where no entry is nearer, and else gives the first of the nearest entries. -/
theorem scanNearest_cases (m : Nat) (l : List Half) : ∀ i best d,
    (scanNearest m l i best d = best ∧ ∀ e ∈ l, d ≤ distance e m) ∨
      ∃ k, ∃ hk : k < l.length, scanNearest m l i best d = i + k ∧ distance l[k] m < d ∧
        (∀ e ∈ l, distance l[k] m ≤ distance e m) ∧ ∀ e ∈ l.take k, distance l[k] m < distance e m := by
  induction l with
  | nil => exact fun _ _ _ => .inl ⟨rfl, nofun⟩
  | cons x l ih =>
    intro i best d
    by_cases hx : distance x m < d
    · rw [scanNearest, if_pos hx]
      rcases ih (i + 1) i (distance x m) with ⟨hscan, hmin⟩ | ⟨k, hk, hscan, hlt, hmin, hfirst⟩
      · exact .inr ⟨0, Nat.zero_lt_succ _, hscan, hx, List.forall_mem_cons.mpr ⟨le_rfl, hmin⟩, nofun⟩
      · exact .inr ⟨k + 1, Nat.succ_lt_succ hk, by omega, hlt.trans hx, List.forall_mem_cons.mpr ⟨hlt.le, hmin⟩,
          List.forall_mem_cons.mpr ⟨hlt, hfirst⟩⟩
    · rw [scanNearest, if_neg hx]
      have hd : d ≤ distance x m := Nat.le_of_not_lt hx
      rcases ih (i + 1) best d with ⟨hscan, hmin⟩ | ⟨k, hk, hscan, hlt, hmin, hfirst⟩
      · exact .inl ⟨hscan, List.forall_mem_cons.mpr ⟨hd, hmin⟩⟩
      · exact .inr ⟨k + 1, Nat.succ_lt_succ hk, by omega, hlt, List.forall_mem_cons.mpr ⟨hlt.le.trans hd, hmin⟩,
          List.forall_mem_cons.mpr ⟨hlt.trans_le hd, hfirst⟩⟩

/-- The least index of an entry nearest a magnitude (43_mapping.md R204). -/
structure IsNearest (T : MapTable) (m : Nat) (i : Fin 128) : Prop where
  least : ∀ j : Fin 128, distance T[i] m ≤ distance T[j] m
  first : ∀ j : Fin 128, j < i → distance T[i] m < distance T[j] m

theorem IsNearest.unique {T : MapTable} {m : Nat} {i j : Fin 128} (hi : IsNearest T m i) (hj : IsNearest T m j) :
    i = j := by
  rcases lt_trichotomy i j with h | h | h
  · exact absurd (hj.first i h) (not_lt.mpr (hi.least j))
  · exact h
  · exact absurd (hi.first j h) (not_lt.mpr (hj.least i))

theorem exists_isNearest (T : MapTable) (m : Nat) : ∃ i : Fin 128, nearestIndex T m = i.val ∧ IsNearest T m i := by
  have hmem : ∀ j : Fin 128, T[j] ∈ T.toList := fun j => Vector.mem_toList_iff.mpr (Vector.getElem_mem j.isLt)
  rcases scanNearest_cases m T.toList 0 0 (distance T[0] m) with ⟨hscan, hmin⟩ | ⟨k, hk, hscan, -, hmin, hfirst⟩
  · exact ⟨0, hscan, fun j => hmin _ (hmem j), fun j hj => absurd hj (Fin.not_lt_zero j)⟩
  · refine ⟨⟨k, by simpa using hk⟩, hscan.trans (Nat.zero_add k), fun j => hmin _ (hmem j), fun j hj => hfirst _ ?_⟩
    exact List.mem_take_iff_getElem.mpr ⟨j.val, lt_min hj (by simp), Vector.getElem_toList _⟩

theorem nearestIndex_eq {T : MapTable} {m : Nat} {i : Fin 128} (h : IsNearest T m i) : nearestIndex T m = i.val := by
  obtain ⟨j, hj, hnearest⟩ := exists_isNearest T m
  rw [hj, hnearest.unique h]

/-! ## Codes as signed indices (43_mapping.md R202) -/

/-- Map gives the code i, or 256 − i modulo 256 for a negative value (43_mapping.md R204). -/
theorem mapCode_toNat (T : MapTable) (v : Int) {i : Fin 128} (h : IsNearest T v.natAbs i) :
    (mapCode T v).toNat = if 0 ≤ v then i.val else (256 - i.val) % 256 := by
  simp only [mapCode, nearestIndex_eq h]
  split <;> rw [BitVec.toNat_ofNat] <;> omega

/-- The code that Map gives is the index with the value's sign. -/
theorem mapCode_toInt (T : MapTable) (v : Int) {i : Fin 128} (h : IsNearest T v.natAbs i) :
    (mapCode T v).toInt = if 0 ≤ v then (i.val : Int) else -(i.val : Int) := by
  rw [BitVec.toInt_eq_toNat_cond, mapCode_toNat T v h]
  split <;> split <;> omega

theorem entryOf_val (T : MapTable) (i : Fin 128) : entryOf T i.val = (T[i]).toNat := by
  have hmin : min i.val 127 = i.val := by omega
  simp only [entryOf, hmin]
  rfl

/-- A code of 0..127 selects its entry (43_mapping.md R202). -/
theorem unmapCode_of_toInt (T : MapTable) {c : Byte} {i : Fin 128} (h : c.toInt = i.val) :
    unmapCode T c = (T[i]).toNat := by
  simp only [unmapCode, h, Int.natCast_nonneg, if_true, Int.toNat_natCast, entryOf_val]

/-- A code of 0x81..0xFF selects the entry of its magnitude with a minus sign (43_mapping.md R202). -/
theorem unmapCode_of_toInt_neg (T : MapTable) {c : Byte} {i : Fin 128} (hpos : 0 < i.val)
    (h : c.toInt = -(i.val : Int)) : unmapCode T c = -((T[i]).toNat : Int) := by
  simp only [unmapCode, h]
  rw [if_neg (by omega), if_pos (by omega), Int.neg_neg, Int.toNat_natCast, entryOf_val]

/-- The code 0x80 stands for minus the last entry (43_mapping.md R202). -/
theorem unmapCode_0x80 (T : MapTable) : unmapCode T 0x80#8 = -((T[127]).toNat : Int) := rfl

/-- Every code but 0x80 is an index with a sign (43_mapping.md R202). -/
theorem code_cases (c : Byte) :
    (∃ i : Fin 128, c.toInt = i.val) ∨ (∃ i : Fin 128, 0 < i.val ∧ c.toInt = -(i.val : Int)) ∨ c = 0x80#8 := by
  have hlow := BitVec.le_toInt c
  have hhigh := BitVec.toInt_lt (x := c)
  by_cases hsign : 0 ≤ c.toInt
  · exact .inl ⟨⟨c.toInt.toNat, by omega⟩, by simp [hsign]⟩
  · by_cases hlast : c.toInt = -128
    · exact .inr (.inr (BitVec.eq_of_toInt_eq hlast))
    · exact .inr (.inl ⟨⟨c.toInt.natAbs, by omega⟩, by simp only; omega, by simp only; omega⟩)

/-! ## Valid tables (43_mapping.md R200) -/

theorem TableValid.mono {T : MapTable} (hT : TableValid T) {i j : Fin 128} (h : i ≤ j) :
    (T[i]).toNat ≤ (T[j]).toNat :=
  (Fin.monotone_iff_le_succ (f := fun k : Fin 128 => (T[k]).toNat)).mpr hT.1 h

theorem TableValid.entry_le {T : MapTable} (hT : TableValid T) (i : Fin 128) : (T[i]).toNat ≤ 32767 :=
  (hT.mono (j := 127) (Fin.le_last i)).trans hT.2

/-- Unmap of a valid table gives signed 16-bit values (43_mapping.md R200). -/
theorem unmapCode_bounds {T : MapTable} (hT : TableValid T) (c : Byte) :
    -32767 ≤ unmapCode T c ∧ unmapCode T c ≤ 32767 := by
  rcases code_cases c with ⟨i, h⟩ | ⟨i, hpos, h⟩ | rfl
  · have := hT.entry_le i
    rw [unmapCode_of_toInt T h]
    omega
  · have := hT.entry_le i
    rw [unmapCode_of_toInt_neg T hpos h]
    omega
  · have := hT.2
    rw [unmapCode_0x80]
    omega

/-- A greater magnitude has no lesser nearest index. -/
theorem IsNearest.mono {T : MapTable} (hT : TableValid T) {m n : Nat} {i j : Fin 128} (hi : IsNearest T m i)
    (hj : IsNearest T n j) (h : m ≤ n) : i ≤ j := by
  by_contra hlt
  have hfirst := hi.first j (not_le.mp hlt)
  have hleast := hj.least i
  have hentries := hT.mono (not_le.mp hlt).le
  unfold distance at hfirst hleast
  omega

/-- An entry of a strictly increasing table is the one nearest its own value. -/
theorem isNearest_entry {T : MapTable} (hT : ∀ i : Fin 127, (T[i.castSucc]).toNat < (T[i.succ]).toNat) (i : Fin 128) :
    IsNearest T (T[i]).toNat i := by
  have hstrict : StrictMono fun k : Fin 128 => (T[k]).toNat := Fin.strictMono_iff_lt_succ.mpr hT
  have hzero : distance T[i] (T[i]).toNat = 0 := by simp [distance]
  refine ⟨fun j => hzero ▸ Nat.zero_le _, fun j hj => ?_⟩
  have hlt : (T[j]).toNat < (T[i]).toNat := hstrict hj
  rw [hzero, distance]
  omega

/-! ## The properties (43_mapping.md R205) -/

/-- Unmap gives back a value's nearest entry with its sign, which is lost at index 0 (90_conflicts.md C11). -/
theorem unmapCode_mapCode (T : MapTable) (v : Int) {i : Fin 128} (h : IsNearest T v.natAbs i) :
    unmapCode T (mapCode T v) = if 0 ≤ v ∨ i = 0 then ((T[i]).toNat : Int) else -((T[i]).toNat : Int) := by
  have hcode := mapCode_toInt T v h
  by_cases hsign : 0 ≤ v
  · rw [if_pos hsign] at hcode
    rw [unmapCode_of_toInt T hcode, if_pos (.inl hsign)]
  · rw [if_neg hsign] at hcode
    by_cases hi : i = 0
    · subst hi
      rw [unmapCode_of_toInt T (i := 0) hcode, if_pos (.inr rfl)]
    · rw [unmapCode_of_toInt_neg T (Nat.pos_of_ne_zero fun e => hi (Fin.ext e)) hcode, if_neg (by tauto)]

/-- A negative value maps to code 0 exactly where its nearest index is 0. -/
theorem mapCode_eq_zero_iff (T : MapTable) {v : Int} {i : Fin 128} (h : IsNearest T v.natAbs i) :
    mapCode T v = 0#8 ↔ i = 0 := by
  have hcode := mapCode_toInt T v h
  rw [← BitVec.toInt_inj, hcode, Fin.ext_iff, BitVec.toInt_zero, Fin.val_zero]
  split <;> omega

theorem mapCode_mono {T : MapTable} (hT : TableValid T) {v w : Int} (h : v ≤ w) :
    (mapCode T v).toInt ≤ (mapCode T w).toInt := by
  obtain ⟨i, -, hi⟩ := exists_isNearest T v.natAbs
  obtain ⟨j, -, hj⟩ := exists_isNearest T w.natAbs
  rw [mapCode_toInt T v hi, mapCode_toInt T w hj]
  rcases le_or_gt 0 v with hv | hv
  · have hij : i ≤ j := hi.mono hT hj (by omega)
    rw [if_pos hv, if_pos (hv.trans h)]
    exact_mod_cast hij
  · rw [if_neg (not_le.mpr hv)]
    rcases le_or_gt 0 w with hw | hw
    · rw [if_pos hw]
      omega
    · have hji : j ≤ i := hj.mono hT hi (by omega)
      rw [if_neg (not_le.mpr hw)]
      exact neg_le_neg (by exact_mod_cast hji)

section
variable {T : MapTable} (hT : ∀ i : Fin 127, (T[i.castSucc]).toNat < (T[i.succ]).toNat)
include hT

/-- Map gives the index of an entry of a strictly increasing table. -/
theorem mapCode_entry (i : Fin 128) : (mapCode T (T[i]).toNat).toInt = i.val := by
  rw [mapCode_toInt T _ (i := i) (by simpa using isNearest_entry hT i), if_pos (Int.natCast_nonneg _)]

/-- Map gives the negated index of a negated entry: only the first can be 0. -/
theorem mapCode_neg_entry {i : Fin 128} (hi : 0 < i.val) :
    (mapCode T (-((T[i]).toNat : Int))).toInt = -(i.val : Int) := by
  have hstrict : StrictMono fun k : Fin 128 => (T[k]).toNat := Fin.strictMono_iff_lt_succ.mpr hT
  have hlt : (T[(0 : Fin 128)]).toNat < (T[i]).toNat := hstrict hi
  rw [mapCode_toInt T _ (i := i) (by simpa using isNearest_entry hT i), if_neg (by omega)]

theorem mapCode_unmapCode {c : Byte} (hc : c ≠ 0x80#8) : mapCode T (unmapCode T c) = c := by
  refine BitVec.eq_of_toInt_eq ?_
  rcases code_cases c with ⟨i, h⟩ | ⟨i, hpos, h⟩ | h
  · rw [unmapCode_of_toInt T h, mapCode_entry hT, h]
  · rw [unmapCode_of_toInt_neg T hpos h, mapCode_neg_entry hT hpos, h]
  · exact absurd h hc

end

/-- Map and Unmap give back the nearest entry with the value's sign, but for the exception (43_mapping.md R205). -/
theorem roundTrip_nearest (T : MapTable) {v : Int} (h : ¬ (v < 0 ∧ 0 < (T[0]).toNat ∧ mapCode T v = 0#8)) :
    ∃ i : Fin 128, (unmapCode T (mapCode T v) - v).natAbs = distance T[i] v.natAbs ∧
      ∀ j : Fin 128, distance T[i] v.natAbs ≤ distance T[j] v.natAbs := by
  obtain ⟨i, -, hi⟩ := exists_isNearest T v.natAbs
  refine ⟨i, ?_, hi.least⟩
  rw [unmapCode_mapCode T v hi, distance_eq_natAbs]
  rw [mapCode_eq_zero_iff T hi] at h
  by_cases hzero : i = 0
  · subst hzero
    have hentry : (T[(0 : Fin 128)]).toNat = (T[0]).toNat := rfl
    rw [if_pos (.inr rfl)]
    omega
  · simp only [hzero, or_false]
    split <;> omega

/-- In the exception the sign is lost (90_conflicts.md C11). -/
theorem unmapCode_of_mapCode_zero (T : MapTable) {v : Int} (h : mapCode T v = 0#8) :
    unmapCode T (mapCode T v) = (T[0]).toNat := by
  rw [h]
  rfl

/-- Of the entries 4 + 2·i, the first is nearest to −5: the tie goes to the lower index. -/
theorem isNearest_five {T : MapTable} (hT : ∀ i : Fin 128, (T[i]).toNat = 4 + 2 * i.val) :
    IsNearest T (-5 : Int).natAbs 0 := by
  refine ⟨fun j => ?_, fun j hj => absurd hj (Fin.not_lt_zero j)⟩
  rw [distance_eq_natAbs, distance_eq_natAbs, hT, hT, Fin.val_zero]
  omega

/-- Settles O37: each property from the nearest index, which keeps the order and finds an entry's own index. -/
theorem mapAndUnmapProperties : Obligations.MapAndUnmapProperties := by
  intro T hT
  refine ⟨fun v _ _ => ?_, fun v w _ h _ => mapCode_mono hT h, fun hstrict => ⟨fun c => mapCode_unmapCode hstrict,
    BitVec.eq_of_toInt_eq (mapCode_neg_entry hstrict (i := 127) (by decide))⟩, fun hfour => ⟨?_, ?_⟩, fun q => ?_⟩
  · split
    · exact unmapCode_of_mapCode_zero T (by tauto)
    · simpa only [distance_eq_natAbs] using roundTrip_nearest T ‹_›
  · exact (mapCode_eq_zero_iff T (isNearest_five hfour)).mpr rfl
  · rw [unmapCode_of_toInt T (i := 0) rfl, hfour]
    rfl
  · exact BitVec.eq_of_toNat_eq ((referenceCurve_toNat q 0).trans (by simp))

end Sys2Proof.Machine

/-! The mapping commands: the values they write, the tables they set and the arrays they store (43_mapping.md R212 to
R220). -/

namespace Sys2Proof.Machine

/-! ## Validation (43_mapping.md R212) -/

theorem tableFault_of_firstDrop {T : MapTable} {i : Nat} (h : firstDrop T.toList 0 = some i) :
    tableFault T = some i := by rw [tableFault, h]

/-- The fault names the first entry that is followed by a lower one. -/
theorem tableFault_of_drop {T : MapTable} (i : Nat) (hi : i < 127) (hdrop : (T[i + 1]).toNat < (T[i]).toNat)
    (hbefore : ∀ j (hj : j < i), (T[j]).toNat ≤ (T[j + 1]).toNat) : tableFault T = some i := by
  cases hscan : firstDrop T.toList 0 with
  | none =>
    have hle := (firstDrop_eq_none_iff _ 0).mp hscan i (by rw [Vector.length_toList]; omega)
    simp only [Vector.getElem_toList] at hle
    omega
  | some k =>
    rw [tableFault_of_firstDrop hscan]
    obtain ⟨n, rfl, hn, hlt, hle⟩ := firstDrop_eq_some _ 0 k hscan
    simp only [Vector.getElem_toList, Vector.length_toList] at hn hlt hle
    rw [Nat.zero_add]
    rcases Nat.lt_trichotomy n i with h | h | h
    · exact absurd hlt (not_lt.mpr (hbefore n h))
    · rw [h]
    · exact absurd hdrop (not_lt.mpr (hle i h))

/-- A non-decreasing table that ends past 32767 faults at its last entry. -/
theorem tableFault_of_large_end {T : MapTable} (hle : ∀ i (hi : i < 127), (T[i]).toNat ≤ (T[i + 1]).toNat)
    (hend : 32767 < (T[127]).toNat) : tableFault T = some 127 := by
  have hscan : firstDrop T.toList 0 = none := by
    refine (firstDrop_eq_none_iff _ 0).mpr fun i hi => ?_
    rw [Vector.length_toList] at hi
    simp only [Vector.getElem_toList]
    exact hle i (by omega)
  have hlast : entryOf T 127 = (T[127]).toNat := rfl
  rw [tableFault, hscan, hlast, if_pos hend]

/-- MLOAD of a source in memory faults or sets the table, as the table's check says. -/
theorem execMload_of_fits {t : TableIx} {ra : RegIx} {s : State} (h : FitsMemory s (s.regNat ra) 256) :
    (∀ i, tableFault (s.readTable (s.regNat ra)) = some i →
      exec (.mload t ra) s = .next (s.raise .corruptMap (BitVec.ofNat 32 i))) ∧
    (tableFault (s.readTable (s.regNat ra)) = none →
      exec (.mload t ra) s = .next (s.setTable t (s.readTable (s.regNat ra))).complete) := by
  have hexec : exec (.mload t ra) s = execMload t ra s := rfl
  rw [hexec, execMload, (withRanges_one s (s.reg ra) 256 _).1 h]
  exact ⟨fun i hi => by rw [hi], fun hnone => by rw [hnone]⟩

/-- Settles O31: the source is checked first, then the table read from it, which alone is set. -/
theorem mloadValidatesBeforeCommit : Obligations.MloadValidatesBeforeCommit := by
  intro t ra s T hT
  have hentry : ∀ i (hi : i < 128), ((s.readTable (s.regNat ra))[i]).toNat = T i := fun i hi => by
    rw [hT]
    exact congrArg BitVec.toNat (readTable_getElem s _ ⟨i, hi⟩)
  refine ⟨fun hout => ?_, fun hfits => ?_⟩
  · exact exec_raises ((withRanges_one s (s.reg ra) 256 _).2 (by unfold State.regNat at hout; omega))
  obtain ⟨hfault, hvalid⟩ := execMload_of_fits (t := t) (.inr hfits)
  refine ⟨fun i hi hdrop hbefore => ?_, fun hle hend => ?_, fun hle hend => ?_⟩
  · refine exec_raises (hfault i (tableFault_of_drop i hi ?_ fun j hj => ?_))
    · rwa [hentry, hentry]
    · rw [hentry, hentry]
      exact hbefore j hj
  · refine exec_raises (hfault 127 (tableFault_of_large_end (fun i hi => ?_) ?_))
    · rw [hentry, hentry]
      exact hle i hi
    · rwa [hentry]
  · have htable : TableValid (s.readTable (s.regNat ra)) :=
      ⟨fun i => (hentry i.val (by omega)).trans_le ((hle i.val i.isLt).trans_eq (hentry (i.val + 1) (by omega)).symm),
        (hentry 127 (by decide)).trans_le hend⟩
    obtain ⟨u, hu, hcomplete, hset, hpresent, hother, hframe⟩ :=
      exec_sets_table (hvalid ((tableFault_eq_none_iff _).mpr htable))
    exact ⟨u, hu, hcomplete, fun i => hset ▸ hentry i.val i.isLt, hpresent, hother, hframe⟩

/-- Settles O33: MQINIT sets the table of its curve, which is valid. -/
theorem mqinitTakesTheCurve : Obligations.MqinitTakesTheCurve := by
  intro t ra s
  obtain ⟨u, hu, hcomplete, hset, hpresent, hother, hframe⟩ := exec_sets_table (i := .mqinit t ra) (s := s) rfl
  refine ⟨u, hu, hcomplete, fun hcurve i => ?_, hset ▸ qualityTable_valid _ _, hpresent, hother, hframe⟩
  rw [hset, hcurve]
  exact referenceCurve_toNat _ i

/-! ## Absent tables (43_mapping.md R201) -/

/-- A command that needs a table raises NO_TABLE before any other check. -/
theorem exec_raises_noTable {i : Instr} {s : State} {t : TableIx} {body : Result} (h : exec i s = s.withTable t body)
    (habsent : s.tvalid[t] = false) :
    ∃ u, exec i s = .next u ∧ RaisedClean .noTable (BitVec.ofNat 32 t.val) s u :=
  exec_raises (h.trans (withTable_of_absent s t body habsent))

/-- Settles O32: the stored bytes are those of the table's entries, read back one by one. -/
theorem mstoreSerializes : Obligations.MstoreSerializes := by
  intro t ra s
  have hbody := withTable_of_valid s t (s.withRanges [(s.reg ra, 256)]
    (.next (s.storeOrScramble false (s.regNat ra) (tableBytes s.mt[t])).complete))
  have hrange := withRanges_one s (s.reg ra) 256
    (.next (s.storeOrScramble false (s.regNat ra) (tableBytes s.mt[t])).complete)
  refine ⟨exec_raises_noTable rfl, fun hvalid hout => ?_, fun hvalid hfits => ?_⟩
  · exact exec_raises ((hbody hvalid).trans (hrange.2 (by unfold State.regNat at hout; omega)))
  · obtain ⟨u, hu, hcomplete, hbytes, hframe, hstored⟩ :=
      exec_stores (i := .mstore t ra) ((hbody hvalid).trans (hrange.1 (.inr hfits)))
    rw [tableBytes_length] at hbytes
    refine ⟨u, hu, hcomplete, fun i => ?_, hbytes, hframe⟩
    rw [hstored rfl, readHalf_complete, tableBytes, readHalf_storeBytes_halvesBytes _ _ _ _ (by simp)]
    exact Vector.getElem_toList _

/-! ## One value (43_mapping.md R217, R218) -/

/-- Settles O34: the nearest index of the magnitude, with the value's sign in the code. -/
theorem mmapFindsTheNearestEntry : Obligations.MmapFindsTheNearestEntry := by
  rintro rd ra t s v m hv rfl
  obtain rfl : v = s.regInt16 ra := hv
  refine ⟨exec_raises_noTable rfl, fun hvalid => ?_⟩
  obtain ⟨u, hu, hcomplete, hvalue, hregs, hframe⟩ :=
    exec_writes_reg (i := .mmap rd ra t) (withTable_of_valid s t _ hvalid)
  obtain ⟨i, -, hi⟩ := exists_isNearest s.mt[t] (s.regInt16 ra).natAbs
  refine ⟨u, hu, hcomplete, ⟨i, fun j => ?_, fun j hj => ?_, ?_⟩, hregs, hframe⟩
  · simpa only [distance_eq_natAbs] using hi.least j
  · simpa only [distance_eq_natAbs] using hi.first j hj
  · rw [hvalue, BitVec.toNat_setWidth_of_le (by decide), mapCode_toNat _ _ hi]

/-- A signed 16-bit value is kept by u16 (00_scope.md R12). -/
theorem toInt_u16 {v : Int} (hlow : -32768 ≤ v) (hhigh : v ≤ 32767) : (u16 v).toInt = v := by
  rw [u16, BitVec.toInt_ofInt_eq_self (by decide)] <;> omega

theorem toInt_sextInt16 {v : Int} (hlow : -32768 ≤ v) (hhigh : v ≤ 32767) : (sextInt16 v).toInt = v := by
  rw [sextInt16, BitVec.toInt_signExtend_of_le (by decide), toInt_u16 hlow hhigh]

/-- A code of a register, as an unsigned number. -/
theorem regByte_toNat (s : State) (r : RegIx) : (s.regByte r).toNat = (s.reg r).toNat % 256 := by
  simp [State.regByte]

/-- Settles O35: the code's signed index selects the entry and its sign. -/
theorem munmapReadsSignAndMagnitude : Obligations.MunmapReadsSignAndMagnitude := by
  rintro rd ra t s code rfl
  refine ⟨exec_raises_noTable rfl, fun hvalid htable => ?_⟩
  obtain ⟨u, hu, hcomplete, hvalue, hregs, hframe⟩ :=
    exec_writes_reg (i := .munmap rd ra t) (withTable_of_valid s t _ hvalid)
  have hbounds := unmapCode_bounds htable (s.regByte ra)
  have hresult : (u.reg rd).toInt = unmapCode s.mt[t] (s.regByte ra) := by
    rw [hvalue, toInt_sextInt16 (by omega) (by omega)]
  have hsigned := BitVec.toInt_eq_toNat_cond (s.regByte ra)
  rw [regByte_toNat] at hsigned
  refine ⟨u, hu, hcomplete, ?_⟩
  rw [hresult]
  refine ⟨fun i hi => ?_, fun i hpos hi => ?_, fun hlast => ?_, hregs, hframe⟩
  · exact unmapCode_of_toInt _ (by omega)
  · exact unmapCode_of_toInt_neg _ hpos (by omega)
  · rw [BitVec.eq_of_toNat_eq ((regByte_toNat s ra).trans hlast : _ = (0x80#8).toNat), unmapCode_0x80]

/-! ## Arrays (43_mapping.md R219, R220) -/

/-- Settles O36: both commands check the table and then two ranges, and store one element per count. -/
theorem mmapvAndMunmapvMapEachElement : Obligations.MmapvAndMunmapvMapEachElement := by
  rintro t ra rb rc s dst src n rfl rfl rfl
  refine ⟨fun habsent => ⟨exec_raises_noTable rfl habsent, exec_raises_noTable rfl habsent⟩, fun hvalid => ?_⟩
  obtain ⟨hdst, hsrc, hmapped⟩ :=
    exec_stores_of_ranges (i := .mmapv t ra rb rc) (withTable_of_valid s t _ hvalid) (by simp)
  obtain ⟨hdst', hsrc', hunmapped⟩ :=
    exec_stores_of_ranges (i := .munmapv t ra rb rc) (withTable_of_valid s t _ hvalid) (by simp [halvesBytes_length])
  refine ⟨hdst, hsrc, fun ha hb => ?_, hdst', hsrc', fun ha hb => ?_⟩
  · obtain ⟨u, hu, hcomplete, hbytes, hframe, hstored⟩ := hmapped ha hb
    refine ⟨u, hu, hcomplete, hbytes, hframe, fun hdisjoint k hk => ?_⟩
    rw [hstored ((overlaps_eq_false_iff ..).mpr hdisjoint), readByte_complete]
    exact (readByte_storeBytes_inside _ _ _ k (by simpa using hk)).trans (by simp [State.readInt16])
  · obtain ⟨u, hu, hcomplete, hbytes, hframe, hstored⟩ := hunmapped ha hb
    refine ⟨u, hu, hcomplete, hbytes, hframe, fun hdisjoint htable k hk => ?_⟩
    have hbounds := unmapCode_bounds htable (s.readByte (s.regNat rb + k))
    rw [hstored ((overlaps_eq_false_iff ..).mpr hdisjoint), readHalf_complete]
    refine (congrArg BitVec.toInt (readHalf_storeBytes_halvesBytes _ _ _ k (by simpa using hk))).trans ?_
    rw [List.getElem_map, List.getElem_range, toInt_u16 (by omega) (by omega)]

end Sys2Proof.Machine

/-! The scalar quantizer: the index of a magnitude, its error, and the commands SETQ, QUANT, DEQUANT, QUANTV and DEQUANTV
(44_quant.md R230 to R239). -/

namespace Sys2Proof.Machine

/-! ## The index of a magnitude (44_quant.md R231) -/

/-- The nearest index of a magnitude, half up, at most the last whose multiple does not pass the limit: what Quantize
does on either side of 0 (`quantize_of_nonneg`, `quantize_of_neg`). -/
def clampedIndex (limit a step : Nat) : Nat := min ((2 * a + step) / (2 * step)) (limit / step)

theorem clampedIndex_le (limit a step : Nat) : clampedIndex limit a step ≤ limit :=
  (Nat.min_le_right _ _).trans (Nat.div_le_self _ _)

theorem clampedIndex_mul_le (limit a step : Nat) : clampedIndex limit a step * step ≤ limit :=
  (Nat.mul_le_mul_right _ (Nat.min_le_right _ _)).trans (Nat.div_mul_le_self _ _)

theorem clampedIndex_step_one {limit a : Nat} (ha : a ≤ limit) : clampedIndex limit a 1 = a := by
  rw [clampedIndex, Nat.div_one]
  omega

section
variable {limit a step : Nat} (hstep : 1 ≤ step)
include hstep

/-- The clamp fires exactly where the nearest multiple passes the limit. -/
theorem clampedIndex_eq_ite : clampedIndex limit a step =
    if limit < (2 * a + step) / (2 * step) * step then limit / step else (2 * a + step) / (2 * step) := by
  rw [clampedIndex, Nat.min_comm, Nat.min_def]
  have hfires : limit / step < (2 * a + step) / (2 * step) ↔ limit < (2 * a + step) / (2 * step) * step :=
    Nat.div_lt_iff_lt_mul hstep
  split <;> split <;> omega

/-- The nearest multiple is within half a step, on both sides. -/
theorem nearest_multiple_bounds :
    2 * ((2 * a + step) / (2 * step) * step) ≤ 2 * a + step ∧
      2 * a < 2 * ((2 * a + step) / (2 * step) * step) + step := by
  have hmul : (2 * a + step) / (2 * step) * (2 * step) = 2 * ((2 * a + step) / (2 * step) * step) := Nat.mul_left_comm ..
  have hle := Nat.div_mul_le_self (2 * a + step) (2 * step)
  have hlt := Nat.lt_div_mul_add (a := 2 * a + step) (b := 2 * step) (by omega)
  omega

theorem clampedIndex_error_of_le (hle : (2 * a + step) / (2 * step) * step ≤ limit) :
    ((clampedIndex limit a step * step : Nat) - (a : Int)).natAbs ≤ step / 2 := by
  obtain ⟨hlow, hhigh⟩ := nearest_multiple_bounds (a := a) hstep
  rw [clampedIndex_eq_ite hstep, if_neg (by omega)]
  omega

/-- Where the clamp fires, the multiple is less than a step below the magnitude. -/
theorem clampedIndex_error_of_lt (ha : a ≤ limit) (hlt : limit < (2 * a + step) / (2 * step) * step) :
    clampedIndex limit a step * step ≤ a ∧ a < clampedIndex limit a step * step + step := by
  obtain ⟨hlow, -⟩ := nearest_multiple_bounds (a := a) hstep
  have hnext : (limit / step + 1) * step ≤ (2 * a + step) / (2 * step) * step :=
    Nat.mul_le_mul_right _ ((Nat.div_lt_iff_lt_mul hstep).mpr hlt)
  have hlast := Nat.lt_div_mul_add (a := limit) hstep
  rw [clampedIndex_eq_ite hstep, if_pos hlt]
  rw [Nat.succ_mul] at hnext
  omega

end

/-! ## Quantize and Dequantize (44_quant.md R231, R232) -/

theorem roundIndex_mul_of_nonneg {v : Int} (hv : 0 ≤ v) (step : Nat) :
    roundIndex v step * step = (((2 * v.natAbs + step) / (2 * step) * step : Nat) : Int) := by
  rw [roundIndex, if_pos hv, Nat.cast_mul]

theorem roundIndex_mul_of_neg {v : Int} (hv : v < 0) (step : Nat) :
    roundIndex v step * step = -(((2 * v.natAbs + step) / (2 * step) * step : Nat) : Int) := by
  rw [roundIndex, if_neg (by omega), Nat.cast_mul, Int.neg_mul]

section
variable {v : Int} {step : Nat} (hstep : 1 ≤ step)
include hstep

theorem quantize_of_nonneg (hv : 0 ≤ v) : quantize v step = clampedIndex 32767 v.natAbs step := by
  rw [quantize, roundIndex_mul_of_nonneg hv, clampedIndex_eq_ite hstep]
  split
  · rw [if_pos (by omega)]
  · rw [if_neg (by omega), if_neg (by omega), roundIndex, if_pos hv]

theorem quantize_of_neg (hv : v < 0) : quantize v step = -(clampedIndex 32768 v.natAbs step : Int) := by
  rw [quantize, roundIndex_mul_of_neg hv, clampedIndex_eq_ite hstep, if_neg (by omega)]
  split
  · rw [if_pos (by omega)]
  · rw [if_neg (by omega), roundIndex, if_neg (by omega)]

/-- An index is an int16, like its multiple. -/
theorem quantize_bounds (v : Int) : -32768 ≤ quantize v step ∧ quantize v step ≤ 32767 := by
  rcases lt_or_ge v 0 with hv | hv
  · have := clampedIndex_le 32768 v.natAbs step
    rw [quantize_of_neg hstep hv]
    omega
  · have := clampedIndex_le 32767 v.natAbs step
    rw [quantize_of_nonneg hstep hv]
    omega

theorem dequantize_quantize_of_nonneg (hv : 0 ≤ v) :
    dequantize (quantize v step) step = (clampedIndex 32767 v.natAbs step * step : Nat) := by
  have := clampedIndex_mul_le 32767 v.natAbs step
  rw [dequantize, quantize_of_nonneg hstep hv, clampInt, ← Nat.cast_mul]
  omega

theorem dequantize_quantize_of_neg (hv : v < 0) :
    dequantize (quantize v step) step = -((clampedIndex 32768 v.natAbs step * step : Nat) : Int) := by
  have := clampedIndex_mul_le 32768 v.natAbs step
  rw [dequantize, quantize_of_neg hstep hv, clampInt, Int.neg_mul, ← Nat.cast_mul]
  omega

end

theorem clampInt_eq_max_min {v lo hi : Int} (h : lo ≤ hi) : clampInt v lo hi = max lo (min hi v) := by
  rw [clampInt]
  omega

theorem dequantize_bounds (idx : Int) (step : Nat) : -32768 ≤ dequantize idx step ∧ dequantize idx step ≤ 32767 := by
  rw [dequantize, clampInt]
  omega

theorem quantize_step_one {v : Int} (hlow : -32768 ≤ v) (hhigh : v ≤ 32767) : quantize v 1 = v := by
  rcases lt_or_ge v 0 with hv | hv
  · rw [quantize_of_neg le_rfl hv, clampedIndex_step_one (by omega)]
    omega
  · rw [quantize_of_nonneg le_rfl hv, clampedIndex_step_one (by omega)]
    omega

theorem dequantize_step_one {v : Int} (hlow : -32768 ≤ v) (hhigh : v ≤ 32767) : dequantize v 1 = v := by
  rw [dequantize, clampInt]
  omega

/-- Settles O42: on either side of 0 the error is that of the magnitude, towards 0 where the clamp fires. -/
theorem quantizerErrorBound : Obligations.QuantizerErrorBound := by
  intro v step hlow hhigh hstep _
  have hunit := And.intro (quantize_step_one hlow hhigh) (dequantize_step_one hlow hhigh)
  rcases lt_or_ge v 0 with hv | hv
  · have hhalf := clampedIndex_error_of_le (limit := 32768) (a := v.natAbs) hstep
    have hclamped := clampedIndex_error_of_lt (limit := 32768) (a := v.natAbs) hstep (by omega)
    rw [dequantize_quantize_of_neg hstep hv, roundIndex_mul_of_neg hv]
    omega
  · have hhalf := clampedIndex_error_of_le (limit := 32767) (a := v.natAbs) hstep
    have hclamped := clampedIndex_error_of_lt (limit := 32767) (a := v.natAbs) hstep (by omega)
    rw [dequantize_quantize_of_nonneg hstep hv, roundIndex_mul_of_nonneg hv]
    omega

/-! ## One value (44_quant.md R234 to R236) -/

/-- Settles O38: SETQ checks the value and then writes QSTEP[q] alone. -/
theorem setqStoresAStep : Obligations.SetqStoresAStep := by
  intro q ra s
  have hexec : exec (.setq q ra) s = execSetq q ra s := rfl
  refine ⟨fun hmin hmax => ⟨{ s with qstep := s.qstep.set q (BitVec.ofNat 16 (s.regNat ra)) }.complete, ?_,
    completed_complete, ?_, fun q' hq => ?_, (sameBut_of_fields (steps := by simp)).complete⟩,
    fun hbad => exec_raises (info := s.reg ra) ?_⟩
  · rw [hexec, execSetq, if_neg (by omega)]
  · simp
    omega
  · exact Vector.getElem_set_ne q.isLt q'.isLt fun e => hq (Fin.ext e.symm)
  · rw [hexec, execSetq, if_pos hbad]

/-- Settles O39: the index of the value's magnitude, with its sign, which a register holds. -/
theorem quantRoundsHalfAway : Obligations.QuantRoundsHalfAway := by
  intro rd ra q s v step hv hq hstep
  obtain rfl : v = s.regInt16 ra := hv
  obtain rfl : step = s.quantStep q := hq
  obtain ⟨t, ht, hcomplete, hvalue, hframe⟩ := exec_writes_reg (i := .quant rd ra q) (s := s) rfl
  obtain ⟨hlow, hhigh⟩ := quantize_bounds hstep (s.regInt16 ra)
  refine ⟨t, ht, hcomplete, ?_, hframe⟩
  rw [hvalue, toInt_sextInt16 hlow hhigh]
  split
  · exact quantize_of_nonneg hstep ‹_›
  · exact quantize_of_neg hstep (by omega)

/-- Settles O40: the saturated product, which a register holds. -/
theorem dequantSaturates : Obligations.DequantSaturates := by
  intro rd ra q s
  obtain ⟨t, ht, hcomplete, hvalue, hframe⟩ := exec_writes_reg (i := .dequant rd ra q) (s := s) rfl
  obtain ⟨hlow, hhigh⟩ := dequantize_bounds (s.regInt16 ra) (s.quantStep q)
  refine ⟨t, ht, hcomplete, ?_, hframe⟩
  rw [hvalue, toInt_sextInt16 hlow hhigh]
  exact clampInt_eq_max_min (by decide)

/-! ## Arrays (44_quant.md R237, R238) -/

/-- A command that stores a function of each element: it is exact in place, and where the arrays share no byte. -/
theorem exec_maps_samples {i : Instr} {s : State} {f : Int → Int} {ra rb rc : RegIx}
    (h : exec i s = s.mapSamples f ra rb rc) (hf : ∀ v, -32768 ≤ f v ∧ f v ≤ 32767) :
    (¬ FitsMemory s (s.regNat ra) (2 * s.regNat rc) → ∃ t, exec i s = .next t ∧ RaisedClean .memRange (s.reg ra) s t) ∧
    (FitsMemory s (s.regNat ra) (2 * s.regNat rc) → ¬ FitsMemory s (s.regNat rb) (2 * s.regNat rc) →
      ∃ t, exec i s = .next t ∧ RaisedClean .memRange (s.reg rb) s t) ∧
    (FitsMemory s (s.regNat ra) (2 * s.regNat rc) → FitsMemory s (s.regNat rb) (2 * s.regNat rc) →
      ∃ t, exec i s = .next t ∧ Completed s t ∧ SameBytesOutside (s.regNat ra) (2 * s.regNat rc) s t ∧
        SameBut [.memory] s t ∧
        ((s.regNat ra = s.regNat rb ∨
            DisjointRanges (s.regNat ra) (2 * s.regNat rc) (s.regNat rb) (2 * s.regNat rc)) →
          ∀ k, k < s.regNat rc →
            (t.readHalf (s.regNat ra + 2 * k)).toInt = f (s.readHalf (s.regNat rb + 2 * k)).toInt)) := by
  obtain ⟨hdst, hsrc, hstores⟩ := exec_stores_of_ranges h (by simp [halvesBytes_length])
  refine ⟨hdst, hsrc, fun ha hb => ?_⟩
  obtain ⟨t, ht, hcomplete, hbytes, hframe, hstored⟩ := hstores ha hb
  refine ⟨t, ht, hcomplete, hbytes, hframe, fun hexact k hk => ?_⟩
  have hclash : (s.regNat ra != s.regNat rb &&
      overlaps (s.regNat ra) (2 * s.regNat rc) (s.regNat rb) (2 * s.regNat rc)) = false := by
    rw [Bool.and_eq_false_iff, overlaps_eq_false_iff]
    exact hexact.imp_left fun hsame => by simp [hsame]
  rw [hstored hclash, readHalf_complete]
  refine (congrArg BitVec.toInt (readHalf_storeBytes_halvesBytes _ _ _ k (by simpa using hk))).trans ?_
  rw [List.getElem_map, List.getElem_range, toInt_u16 (hf _).1 (hf _).2, State.readInt16]

/-- Settles O41: both commands store a function of each element whose values are int16. -/
theorem quantvAndDequantvAreExactInPlace : Obligations.QuantvAndDequantvAreExactInPlace := by
  rintro q ra rb rc s dst src n step rfl rfl rfl hq hstep
  obtain rfl : step = s.quantStep q := hq
  obtain ⟨hdst, hsrc, hquantized⟩ :=
    exec_maps_samples (i := .quantv q ra rb rc) (f := (quantize · (s.quantStep q))) rfl (quantize_bounds hstep)
  obtain ⟨hdst', hsrc', hdequantized⟩ :=
    exec_maps_samples (i := .dequantv q ra rb rc) (f := (dequantize · (s.quantStep q))) rfl (dequantize_bounds · _)
  exact ⟨fun ha => ⟨hdst ha, hdst' ha⟩, fun ha hb => ⟨hsrc ha hb, hsrc' ha hb⟩,
    fun ha hb => ⟨hquantized ha hb, hdequantized ha hb⟩⟩

end Sys2Proof.Machine

/-! The plane commands: the geometry that SETDIM sets, the box mean, the two interpolation kernels, the residual and the
reconstruction (45_plane.md R250 to R260). -/

namespace Sys2Proof.Machine

/-! ## Geometry (45_plane.md R250 to R253) -/

theorem planeW_eq_mod (s : State) : s.planeW = s.dim.toNat % 65536 := by simp [State.planeW]

theorem planeH_eq_div (s : State) : s.planeH = s.dim.toNat / 65536 := by
  have := s.dim.isLt
  rw [State.planeH, BitVec.extractLsb'_toNat, Nat.shiftRight_eq_div_pow]
  omega

theorem scaleLog_eq_mod (s : State) : s.scaleLog = s.pcfg.toNat % 8 := by simp [State.scaleLog]

theorem scale_pos (s : State) : 0 < s.scale := Nat.two_pow_pos _

theorem lowW_pos {s : State} (hw : 1 ≤ s.planeW) : 1 ≤ s.lowW := by
  have := scale_pos s
  exact Nat.div_pos (by omega) this

theorem lowH_pos {s : State} (hh : 1 ≤ s.planeH) : 1 ≤ s.lowH := by
  have := scale_pos s
  exact Nat.div_pos (by omega) this

/-- The geometry as the statements read it off DIM and PCFG (10_state.md R50, R51, 45_plane.md R252). -/
theorem plane_geometry {s : State} {w h S lw lh : Nat} (hw : w = s.dim.toNat % 65536) (hh : h = s.dim.toNat / 65536)
    (hS : S = 2 ^ (s.pcfg.toNat % 8)) (hlw : lw = (w + S - 1) / S) (hlh : lh = (h + S - 1) / S) :
    w = s.planeW ∧ h = s.planeH ∧ S = s.scale ∧ lw = s.lowW ∧ lh = s.lowH := by
  rw [← planeW_eq_mod] at hw
  rw [← planeH_eq_div] at hh
  rw [← scaleLog_eq_mod] at hS
  subst hw hh hS
  exact ⟨rfl, rfl, rfl, hlw, hlh⟩

/-- The check of 45_plane.md R250 passes a configured plane to the command. -/
theorem withPlane_eq_body {s : State} (hw : 1 ≤ s.planeW) (hh : 1 ≤ s.planeH) (hk : 1 ≤ s.pcfg.toNat % 8)
    (body : Result) : s.withPlane body = body := by
  rw [← scaleLog_eq_mod] at hk
  exact withPlane_of_configured s body (by omega) (by omega) (by omega)

/-- Sample (x, y) of a plane in row-major order stands in the plane, and its index gives back x and y (45_plane.md
R251). -/
theorem rowMajor_index {x y w h : Nat} (hx : x < w) (hy : y < h) :
    y * w + x < w * h ∧ (y * w + x) % w = x ∧ (y * w + x) / w = y := by
  refine ⟨?_, Nat.mul_add_mod_of_lt hx, ?_⟩
  · calc y * w + x < (y + 1) * w := by rw [Nat.succ_mul]; omega
      _ ≤ h * w := Nat.mul_le_mul_right w hy
      _ = w * h := Nat.mul_comm h w
  · rw [Nat.mul_comm, Nat.mul_add_div (by omega), Nat.div_eq_of_lt hx, Nat.add_zero]

/-- The PCFG that SETDIM writes holds k and UPK in their fields, and 0 elsewhere (10_state.md R51, R52). -/
theorem pcfg_toNat : ∀ (u : BitVec 1) (k : BitVec 3),
    (0#23 ++ u ++ 0#5 ++ k).toNat = k.toNat + 256 * u.toNat := by decide

/-- SETDIM's check of its fields, as one of the numbers that the fields hold (45_plane.md R253). -/
theorem setdim_check_iff (size scale : Word) :
    (size.extractLsb' 0 16 = 0 ∨ size.extractLsb' 16 16 = 0 ∨ (scale.extractLsb' 0 3).toNat < 1 ∨
        (scale.extractLsb' 0 3).toNat > 4) ↔
      (size.toNat % 65536 = 0 ∨ size.toNat / 65536 = 0 ∨ scale.toNat % 8 = 0 ∨ 4 < scale.toNat % 8) := by
  have hsize := size.isLt
  have hw : size.extractLsb' 0 16 = 0 ↔ size.toNat % 65536 = 0 := by simp [← BitVec.toNat_inj]
  have hh : size.extractLsb' 16 16 = 0 ↔ size.toNat / 65536 = 0 := by
    rw [← BitVec.toNat_inj, BitVec.extractLsb'_toNat, Nat.shiftRight_eq_div_pow, Nat.mod_eq_of_lt (by omega)]
    rfl
  have hk : (scale.extractLsb' 0 3).toNat = scale.toNat % 8 := by simp
  rw [hw, hh, hk]
  omega

/-- Settles O43: SETDIM checks W, H and k, and else sets DIM and PCFG alone. -/
theorem setdimConfiguresThePlane : Obligations.SetdimConfiguresThePlane := by
  rintro ra rb s w h k u rfl rfl rfl rfl
  have hexec : exec (.setdim ra rb) s = execSetdim ra rb s := rfl
  rw [hexec, execSetdim]
  simp only [setdim_check_iff, State.regNat]
  refine ⟨fun hw hh hk hk' => ?_, fun hrejected => ?_⟩
  · rw [if_neg (by omega)]
    refine ⟨_, rfl, completed_complete, ?_, ?_, (sameBut_of_fields (plane := by simp)).complete⟩
    · exact (BitVec.extractLsb'_append_extractLsb'_eq_extractLsb' rfl).trans BitVec.extractLsb'_eq_self
    · simp only [complete_pcfg, pcfg_toNat, BitVec.extractLsb'_toNat, Nat.shiftRight_eq_div_pow]
      omega
  · rw [if_pos hrejected]
    exact ⟨_, rfl, raisedClean_raise s _ _⟩

/-- Settles O44: the plane check comes before everything else that the four commands do. -/
theorem planeCommandsNeedSetdim : Obligations.PlaneCommandsNeedSetdim := by
  intro i ra rb rc s hi hunset
  rw [← planeW_eq_mod, ← planeH_eq_div, ← scaleLog_eq_mod] at hunset
  have hcheck : ∃ body, exec i s = s.withPlane body := by
    rcases hi with rfl | rfl | rfl | rfl <;> exact ⟨_, rfl⟩
  obtain ⟨body, hexec⟩ := hcheck
  exact exec_raises (hexec.trans (withPlane_of_unset s body hunset))

/-! ## Stored samples (45_plane.md R251) -/

/-- A computed array of 16-bit values is read back element by element. -/
theorem readHalf_stored_samples (s : State) (a n : Nat) (f : Nat → Int) {k : Nat} (hk : k < n) :
    (s.storeBytes a (halvesBytes ((List.range n).map fun e => u16 (f e)))).complete.readHalf (a + 2 * k) =
      u16 (f k) := by
  rw [readHalf_complete, readHalf_storeBytes_halvesBytes _ _ _ k (by simpa using hk), List.getElem_map,
    List.getElem_range]

theorem toNat_u16_natCast {n : Nat} (h : n < 65536) : (u16 n).toNat = n := by
  rw [u16, BitVec.ofInt_natCast, BitVec.toNat_ofNat, Nat.mod_eq_of_lt h]

/-! ## The downsampler (45_plane.md R254, R255) -/

theorem blockRange_eq_map (n scale len : Nat) :
    blockRange n scale len = (List.range (min (n * scale + scale) len - n * scale)).map (n * scale + ·) :=
  List.range'_eq_map_range

/-- The block of low-resolution sample (X, Y) has as many pixels as its clipped sides say. -/
theorem blockPixels_length (s : State) (src X Y : Nat) :
    (s.blockPixels src X Y).length = (min (X * s.scale + s.scale) s.planeW - X * s.scale) *
      (min (Y * s.scale + s.scale) s.planeH - Y * s.scale) := by
  simp [State.blockPixels, blockRange_eq_map, List.length_flatMap, Function.comp_def, Nat.mul_comm]

theorem blockPixels_sum (s : State) (src X Y : Nat) :
    (s.blockPixels src X Y).sum =
      ∑ y ∈ Finset.range (min (Y * s.scale + s.scale) s.planeH - Y * s.scale),
        ∑ x ∈ Finset.range (min (X * s.scale + s.scale) s.planeW - X * s.scale),
          (s.readByte (src + (Y * s.scale + y) * s.planeW + (X * s.scale + x))).toNat := by
  rw [State.blockPixels, List.flatMap_def, List.sum_flatten, blockRange_eq_map, blockRange_eq_map]
  simp only [List.map_map]
  rfl

/-- A mean of pixels is a pixel value. -/
theorem down_le (s : State) (src X Y : Nat) : s.down src X Y ≤ 255 := by
  have hpixel : ∀ p ∈ s.blockPixels src X Y, p ≤ 255 := by
    intro p hp
    obtain ⟨y, -, hp⟩ := List.mem_flatMap.mp hp
    obtain ⟨x, -, rfl⟩ := List.mem_map.mp hp
    exact Nat.le_of_lt_succ (BitVec.isLt _)
  have hsum := List.sum_le_card_nsmul _ 255 hpixel
  rw [smul_eq_mul] at hsum
  unfold State.down
  rcases Nat.eq_zero_or_pos (s.blockPixels src X Y).length with hempty | hpos
  · simp [hempty]
  · exact Nat.le_of_lt_succ (Nat.div_lt_of_lt_mul (by omega))

/-- Settles O45: the ranges are checked, and each stored sample is the mean of its block. -/
theorem dsampTakesTheBoxMean : Obligations.DsampTakesTheBoxMean := by
  rintro ra rb s dst src w h S lw lh rfl rfl hw hh hw1 hh1 hk1 hS hlw hlh
  obtain ⟨rfl, rfl, rfl, rfl, rfl⟩ := plane_geometry hw hh hS hlw hlh
  obtain ⟨hdst, hsrc, hstores⟩ := exec_stores_of_ranges (i := .dsamp ra rb)
    (withPlane_eq_body hw1 hh1 hk1 _) (by simp [halvesBytes_length])
  refine ⟨hdst, hsrc, fun ha hb => ?_⟩
  obtain ⟨t, ht, hcomplete, hbytes, hframe, hstored⟩ := hstores ha hb
  refine ⟨t, ht, hcomplete, hbytes, hframe, fun hdisjoint X Y bw bh total hX hY hbw hbh htotal => ?_⟩
  obtain ⟨hindex, hcolumn, hrow⟩ := rowMajor_index hX hY
  have hle := down_le s (s.regNat rb) X Y
  rw [hstored ((overlaps_eq_false_iff ..).mpr hdisjoint)]
  refine (congrArg BitVec.toNat (readHalf_stored_samples s _ _ _ hindex)).trans ?_
  rw [hcolumn, hrow, toNat_u16_natCast (by omega), htotal, hbw, hbh, ← blockPixels_length, ← blockPixels_sum,
    State.down]

/-! ## The upsampler (45_plane.md R256 to R258) -/

theorem lowSample_bounds (s : State) (src X Y : Nat) : -32768 ≤ s.lowSample src X Y ∧ s.lowSample src X Y ≤ 32767 :=
  ⟨BitVec.le_toInt _, Int.le_of_lt_add_one BitVec.toInt_lt⟩

/-- A rounded mean with weights that are not negative and sum to n lies between the bounds of its samples. -/
theorem weighted_mean_bounds {lo hi n a b c d p q r t : Int} (hn : 0 < n) (hsum : a + b + c + d = n)
    (ha : 0 ≤ a) (hb : 0 ≤ b) (hc : 0 ≤ c) (hd : 0 ≤ d) (hp : lo ≤ p ∧ p ≤ hi) (hq : lo ≤ q ∧ q ≤ hi)
    (hr : lo ≤ r ∧ r ≤ hi) (ht : lo ≤ t ∧ t ≤ hi) :
    lo ≤ (a * p + b * q + c * r + d * t + n / 2) / n ∧ (a * p + b * q + c * r + d * t + n / 2) / n ≤ hi := by
  obtain ⟨hp, hp'⟩ := hp
  obtain ⟨hq, hq'⟩ := hq
  obtain ⟨hr, hr'⟩ := hr
  obtain ⟨ht, ht'⟩ := ht
  have hlow : lo * n ≤ a * p + b * q + c * r + d * t :=
    calc lo * n = a * lo + b * lo + c * lo + d * lo := by rw [← hsum]; ring
      _ ≤ a * p + b * q + c * r + d * t := by gcongr
  have hhigh : a * p + b * q + c * r + d * t ≤ hi * n :=
    calc a * p + b * q + c * r + d * t ≤ a * hi + b * hi + c * hi + d * hi := by gcongr
      _ = hi * n := by rw [← hsum]; ring
  refine ⟨Int.le_ediv_of_mul_le hn (by omega), Int.le_of_lt_add_one (Int.ediv_lt_of_lt_mul hn ?_)⟩
  rw [add_mul, one_mul]
  omega

/-- A fraction of the bilinear kernel lies in [0, D). -/
theorem fraction_bounds (t : Int) {D : Int} (hD : 0 < D) : 0 ≤ t - t / D * D ∧ t - t / D * D < D := by
  have hfraction : t - t / D * D = t % D := by rw [Int.emod_def, Int.mul_comm]
  rw [hfraction]
  exact ⟨Int.emod_nonneg t (by omega), Int.emod_lt_of_pos t hD⟩

/-- Both kernels give an int16 (45_plane.md R256, R257). -/
theorem up_bounds (s : State) (src x y : Nat) : -32768 ≤ s.up src x y ∧ s.up src x y ≤ 32767 := by
  unfold State.up
  split
  · exact lowSample_bounds s src _ _
  · have hD : (0 : Int) < 2 * s.scale := by have := scale_pos s; omega
    obtain ⟨hfx, hfx'⟩ := fraction_bounds (2 * x + 1 - s.scale) hD
    obtain ⟨hfy, hfy'⟩ := fraction_bounds (2 * y + 1 - s.scale) hD
    refine weighted_mean_bounds (mul_pos hD hD) (by ring) ?_ ?_ ?_ ?_ (lowSample_bounds ..) (lowSample_bounds ..)
      (lowSample_bounds ..) (lowSample_bounds ..) <;> apply mul_nonneg <;> omega

/-- The samples that the bilinear kernel reads are those of the clamped coordinates (45_plane.md R256). -/
theorem clampedSample_eq {s : State} {src : Nat} {P : Int → Int → Int} {cx cy : Int → Int} (hw : 1 ≤ s.planeW)
    (hh : 1 ≤ s.planeH) (hP : ∀ X Y : Nat, P X Y = s.lowSample src X Y)
    (hcx : ∀ i, cx i = max 0 (min i (s.lowW - 1))) (hcy : ∀ j, cy j = max 0 (min j (s.lowH - 1))) (i j : Int) :
    s.clampedSample src i j = P (cx i) (cy j) := by
  have hlw := lowW_pos hw
  have hlh := lowH_pos hh
  rw [State.clampedSample, clampInt_eq_max_min (by omega), clampInt_eq_max_min (by omega), min_comm, ← hcx,
    min_comm, ← hcy, ← hP, Int.toNat_of_nonneg (by rw [hcx]; omega), Int.toNat_of_nonneg (by rw [hcy]; omega)]

/-- Settles O46: the ranges are checked, and each stored sample is that of the kernel PCFG selects. -/
theorem usampInterpolates : Obligations.UsampInterpolates := by
  rintro ra rb s dst src w h S lw lh P cx cy rfl rfl hw hh hw1 hh1 hk1 hS hlw hlh hP hcx hcy
  obtain ⟨rfl, rfl, rfl, rfl, rfl⟩ := plane_geometry hw hh hS hlw hlh
  obtain ⟨hdst, hsrc, hstores⟩ := exec_stores_of_ranges (i := .usamp ra rb)
    (withPlane_eq_body hw1 hh1 hk1 _) (by simp [halvesBytes_length])
  refine ⟨hdst, hsrc, fun ha hb => ?_⟩
  obtain ⟨t, ht, hcomplete, hbytes, hframe, hstored⟩ := hstores ha hb
  refine ⟨t, ht, hcomplete, hbytes, hframe, fun hdisjoint x y hx hy => ?_⟩
  obtain ⟨hindex, hcolumn, hrow⟩ := rowMajor_index hx hy
  obtain ⟨hlow, hhigh⟩ := up_bounds s (s.regNat rb) x y
  have hsample : (t.readHalf (s.regNat ra + 2 * (y * s.planeW + x))).toInt = s.up (s.regNat rb) x y := by
    rw [hstored ((overlaps_eq_false_iff ..).mpr hdisjoint)]
    refine (congrArg BitVec.toInt (readHalf_stored_samples s _ _ _ hindex)).trans ?_
    rw [hcolumn, hrow, toInt_u16 hlow hhigh]
  rw [hsample]
  refine ⟨fun hnearest => ?_, ?_⟩
  · rw [State.up, State.upNearest, if_pos hnearest, hP]
    rfl
  · rintro hbilinear D X0 Y0 fx fy hD hX0 rfl hY0 rfl
    have hD0 : 0 ≤ D := by omega
    rw [Int.fdiv_eq_ediv_of_nonneg _ hD0] at hX0 hY0
    rw [Int.fdiv_eq_ediv_of_nonneg _ (mul_nonneg hD0 hD0), Int.fdiv_eq_ediv_of_nonneg _ (by decide)]
    subst hX0 hY0 hD
    simp only [← clampedSample_eq hw1 hh1 hP hcx hcy]
    rw [State.up, State.upNearest, hbilinear]
    rfl

/-! ## Residual and reconstruction (45_plane.md R259, R260) -/

/-- Ranges are checked one after the other. -/
theorem withRanges_cons (s : State) (a : Word) (n : Nat) (rs : List (Word × Nat)) (body : Result) :
    s.withRanges ((a, n) :: rs) body = s.withRanges [(a, n)] (s.withRanges rs body) := by
  unfold State.withRanges
  by_cases h : s.inRange a.toNat n = true <;> simp [State.badRange, h]

/-- A command that checks its destination and two sources, and then stores as many bytes as the destination has. -/
theorem exec_stores_of_three_ranges {i : Instr} {s : State} {a b c : Word} {la lb lc : Nat} {clash : Bool}
    {bs : List Byte}
    (h : exec i s =
      s.withRanges [(a, la), (b, lb), (c, lc)] (.next (s.storeOrScramble clash a.toNat bs).complete))
    (hlen : bs.length = la) :
    (¬ FitsMemory s a.toNat la → ∃ u, exec i s = .next u ∧ RaisedClean .memRange a s u) ∧
    (FitsMemory s a.toNat la → ¬ FitsMemory s b.toNat lb → ∃ u, exec i s = .next u ∧ RaisedClean .memRange b s u) ∧
    (FitsMemory s a.toNat la → FitsMemory s b.toNat lb → ¬ FitsMemory s c.toNat lc →
      ∃ u, exec i s = .next u ∧ RaisedClean .memRange c s u) ∧
    (FitsMemory s a.toNat la → FitsMemory s b.toNat lb → FitsMemory s c.toNat lc →
      ∃ u, exec i s = .next u ∧ Completed s u ∧ SameBytesOutside a.toNat la s u ∧ SameBut [.memory] s u ∧
        (clash = false → u = (s.storeBytes a.toNat bs).complete)) := by
  rw [withRanges_cons] at h
  obtain ⟨hfirst, hout⟩ := withRanges_one s a la
    (s.withRanges [(b, lb), (c, lc)] (.next (s.storeOrScramble clash a.toNat bs).complete))
  obtain ⟨hsecond, hthird, hbody⟩ :=
    withRanges_two s b lb c lc (.next (s.storeOrScramble clash a.toNat bs).complete)
  exact ⟨fun ha => exec_raises (h.trans (hout ha)),
    fun ha hb => exec_raises (h.trans ((hfirst ha).trans (hsecond hb))),
    fun ha hb hc => exec_raises (h.trans ((hfirst ha).trans (hthird hb hc))),
    fun ha hb hc => hlen ▸ exec_stores (h.trans ((hfirst ha).trans (hbody hb hc)))⟩

theorem residualOf_bounds (pix : Byte) (pred : Int) : -32768 ≤ residualOf pix pred ∧ residualOf pix pred ≤ 32767 := by
  rw [residualOf, clampInt]
  omega

/-- A pixel holds the clamped sum (45_plane.md R260). -/
theorem pixelOf_toNat (pred res : Int) : ((pixelOf pred res).toNat : Int) = max 0 (min 255 (pred + res)) := by
  rw [pixelOf, clampInt_eq_max_min (by decide), BitVec.toNat_ofInt]
  omega

/-- Settles O47: the three ranges are checked in operand order, and each element stored is the clamped difference or
sum. -/
theorem residAndReconClamp : Obligations.ResidAndReconClamp := by
  rintro ra rb rc s a b c n rfl rfl rfl hn hn1 hk1
  rw [← planeW_eq_mod, ← planeH_eq_div] at hn
  obtain rfl : n = s.planeSize := hn
  have hplane := withPlane_eq_body (Nat.pos_of_mul_pos_right hn1) (Nat.pos_of_mul_pos_left hn1) hk1
  obtain ⟨hdst, hpix, hpred, hresid⟩ := exec_stores_of_three_ranges (i := .resid ra rb rc) (hplane _)
    (by simp [halvesBytes_length])
  obtain ⟨hdst', hpred', hres', hrecon⟩ := exec_stores_of_three_ranges (i := .recon ra rb rc) (hplane _) (by simp)
  refine ⟨hdst, hpix, hpred, fun ha hb hc => ?_, hdst', hpred', hres', fun ha hb hc => ?_⟩
  · obtain ⟨t, ht, hcomplete, hbytes, hframe, hstored⟩ := hresid ha hb hc
    refine ⟨t, ht, hcomplete, hbytes, hframe, fun hpixels hprediction i hi => ?_⟩
    obtain ⟨hlow, hhigh⟩ :=
      residualOf_bounds (s.readByte (s.regNat rb + i)) (s.readInt16 (s.regNat rc + 2 * i))
    rw [hstored ?_]
    · refine (congrArg BitVec.toInt (readHalf_stored_samples s _ _ _ hi)).trans ?_
      rw [toInt_u16 hlow hhigh]
      exact clampInt_eq_max_min (by decide)
    · rw [Bool.or_eq_false_iff, Bool.and_eq_false_iff, overlaps_eq_false_iff, overlaps_eq_false_iff]
      exact ⟨hpixels, hprediction.imp_left fun hsame => by simp [hsame]⟩
  · obtain ⟨t, ht, hcomplete, hbytes, hframe, hstored⟩ := hrecon ha hb hc
    refine ⟨t, ht, hcomplete, hbytes, hframe, fun hprediction hresidual i hi => ?_⟩
    rw [hstored ?_, readByte_complete]
    · refine (congrArg (fun v : Byte => (v.toNat : Int))
        (readByte_storeBytes_inside _ _ _ i (by simpa using hi))).trans ?_
      rw [List.getElem_map, List.getElem_range]
      exact pixelOf_toNat _ _
    · rw [Bool.or_eq_false_iff, overlaps_eq_false_iff, overlaps_eq_false_iff]
      exact ⟨hprediction, hresidual⟩

end Sys2Proof.Machine

/-! Control (46_control.md): the fetch and the step, the control and register commands, that every command completes or
faults (R281, 60_exceptions.md R311), and that every run ends (R289). -/

namespace Sys2Proof.Machine

/-- The bits appended below are the low digits. -/
theorem append_toNat {m n : Nat} (x : BitVec m) (y : BitVec n) : (x ++ y).toNat = x.toNat * 2 ^ n + y.toNat := by
  rw [BitVec.toNat_append, ← Nat.shiftLeft_add_eq_or_of_lt y.isLt, Nat.shiftLeft_eq]

/-! ## Fetch (46_control.md R280, R288) -/

/-- Fetch takes the word at CP as MemRead(CP, 4) gives it to the decoder. -/
theorem decodeBytes_at_cp (s : State) :
    decodeBytes (s.readBytes s.cp.toNat 4) = (decodeWord s.fetchWord).map (·, []) := by
  have hbytes : s.readBytes s.cp.toNat 4 = [s.readByte s.cp.toNat, s.readByte (s.cp.toNat + 1),
      s.readByte (s.cp.toNat + 2), s.readByte (s.cp.toNat + 3)] := rfl
  rw [hbytes, decodeBytes, ← State.fetchWord]
  cases decodeWord s.fetchWord <;> rfl

/-- MemRead(CP, 4) is little-endian (20_memory.md R72). -/
theorem fetchWord_toNat (s : State) :
    s.fetchWord.toNat = (s.readByte s.cp.toNat).toNat + 256 * (s.readByte (s.cp.toNat + 1)).toNat
      + 65536 * (s.readByte (s.cp.toNat + 2)).toNat + 16777216 * (s.readByte (s.cp.toNat + 3)).toNat := by
  rw [State.fetchWord, wordOfBytes, append_toNat, append_toNat, append_toNat]
  omega

theorem fetchAndExec_of_command {s : State} {i : Instr} (hm : s.cp.toNat + 4 ≤ s.cfg.memBytes)
    (h : decodeWord s.fetchWord = .ok i) : s.fetchAndExec = exec i s := by
  rw [State.fetchAndExec, State.fetch, if_neg (by omega), h]

theorem fetchAndExec_of_illegal {s : State} {e : DecodeError} (hm : s.cp.toNat + 4 ≤ s.cfg.memBytes)
    (h : decodeWord s.fetchWord = .error e) : s.fetchAndExec = .next (s.raise .illegalCmd s.fetchWord) := by
  rw [State.fetchAndExec, State.fetch, if_neg (by omega), h]

theorem fetchAndExec_of_outOfRange {s : State} (hm : s.cfg.memBytes < s.cp.toNat + 4) :
    s.fetchAndExec = .next (s.raise .memRange s.cp) := by
  rw [State.fetchAndExec, State.fetch, if_pos hm]

/-! ## The BUSY engine's step -/

theorem engineTurn_of_busy {s : State} (hb : s.engine = .busy) : engineTurn s = s.runNext := by
  rw [engineTurn, hb]

theorem step_of_noInputs {s : State} (hi : s.inputs = []) : step s = engineTurn s := by rw [step, hi]

theorem engineTurn_of_nothing_loose {s : State} (hb : s.engine = .busy) (hl : s.loose = []) :
    engineTurn s = s.fetchAndExec := (engineTurn_of_busy hb).trans (runNext_of_nothing s hl)

/-- Settles O5: the fetch reads the bytes at CP in the state the turn leaves, and a turn off the list keeps them. -/
theorem stepRunsTheDecodedCommand : Obligations.StepRunsTheDecodedCommand := by
  intro s i a rest _ hb hm hd
  have hword : decodeWord s.fetchWord = .ok i := by
    rw [decodeBytes_at_cp] at hd
    cases hw : decodeWord s.fetchWord with
    | error e => simp [hw, Except.map] at hd
    | ok j => simpa [hw, Except.map] using hd
  have hexec := fetchAndExec_of_command hm hword
  have hexec_rest : ({ s with inputs := rest } : State).fetchAndExec = exec i { s with inputs := rest } :=
    fetchAndExec_of_command (s := { s with inputs := rest }) hm hword
  refine ⟨hexec, fun hi hl => ?_, fun hi hl => ?_, fun hi => ?_⟩
  · rw [step_of_noInputs hi, engineTurn_of_nothing_loose hb hl, hexec]
  · rw [step, hi]
    exact (engineTurn_of_nothing_loose (s := { s with inputs := rest }) hb hl).trans hexec_rest
  · rw [step, hi]

/-- Settles O6: each fetch fault is `State.raise`, which changes no part. -/
theorem fetchFaultsAreTaken : Obligations.FetchFaultsAreTaken := by
  intro s hi hb
  have hstep : s.loose = [] → step s = s.fetchAndExec := fun hl =>
    (step_of_noInputs hi).trans (engineTurn_of_nothing_loose hb hl)
  refine ⟨fun hm => ?_, fun hm w e hw he => ?_⟩
  · have hfault := fetchAndExec_of_outOfRange hm
    exact ⟨_, hfault, fun hl => (hstep hl).trans hfault, raisedClean_raise s _ _⟩
  · obtain rfl : w = s.fetchWord := BitVec.eq_of_toNat_eq (hw.trans (fetchWord_toNat s).symm)
    have hfault := fetchAndExec_of_illegal hm he
    exact ⟨_, hfault, fun hl => (hstep hl).trans hfault, raisedClean_raise s _ _⟩

/-! ## Control and register commands (46_control.md R282 to R287) -/

/-- Settles O10: neither command changes a part; HALT moves the engine too. -/
theorem haltEndsTheRunAndNopAdvances : Obligations.HaltEndsTheRunAndNopAdvances := fun s =>
  ⟨⟨_, rfl, rfl, rfl, rfl, ⟨rfl, rfl, rfl⟩, ⟨rfl, rfl, rfl, rfl, rfl⟩, sameBut_control s []⟩,
    ⟨_, rfl, completed_complete, sameBut_control s []⟩⟩

theorem zextImm16_toNat (imm : BitVec 16) : (zextImm16 imm).toNat = imm.toNat := by
  rw [zextImm16, BitVec.toNat_setWidth, Nat.mod_eq_of_lt (by omega)]

theorem highHalf_toNat (imm : BitVec 16) (old : Word) :
    (highHalf imm old).toNat = imm.toNat * 65536 + old.toNat % 65536 := by
  rw [highHalf, append_toNat, BitVec.extractLsb'_toNat, Nat.shiftRight_zero]
  rfl

/-- Settles O11: each writes R[rd], and the two immediates read as the rule says. -/
theorem liAndLihLoadHalves : Obligations.LiAndLihLoadHalves := by
  intro rd imm s
  obtain ⟨t, ht, hcompleted, hvalue, hregs, hparts⟩ :=
    exec_writes_reg (i := .li rd imm) (s := s) (rd := rd) (v := zextImm16 imm) rfl
  obtain ⟨u, hu, hcompleted', hvalue', hregs', hparts'⟩ :=
    exec_writes_reg (i := .lih rd imm) (s := s) (rd := rd) (v := highHalf imm (s.reg rd)) rfl
  exact ⟨⟨t, ht, hcompleted, hvalue ▸ zextImm16_toNat imm, hregs, hparts⟩,
    ⟨u, hu, hcompleted', hvalue' ▸ highHalf_toNat imm (s.reg rd), hregs', hparts'⟩⟩

/-- A sum with a sign-extended immediate is the integers' sum modulo 2^32. -/
theorem add_sextImm14_toNat (x : Word) (imm : BitVec 14) :
    ((x + sextImm14 imm).toNat : Int) = ((x.toNat : Int) + imm.toInt) % 2 ^ 32 := by
  rw [BitVec.toNat_add, sextImm14]
  have h : ((imm.signExtend 32).toNat : Int) = imm.toInt % 2 ^ 32 := by
    rw [BitVec.signExtend, BitVec.toNat_ofInt]
    omega
  push_cast
  rw [h]
  omega

/-- Settles O12: the sources are read in the state before the write. -/
theorem addAndAddiWrap : Obligations.AddAndAddiWrap := by
  intro rd ra rb imm s
  obtain ⟨t, ht, hcompleted, hvalue, hregs, hparts⟩ :=
    exec_writes_reg (i := .add rd ra rb) (s := s) (rd := rd) (v := s.reg ra + s.reg rb) rfl
  obtain ⟨u, hu, hcompleted', hvalue', hregs', hparts'⟩ :=
    exec_writes_reg (i := .addi rd ra imm) (s := s) (rd := rd) (v := s.reg ra + sextImm14 imm) rfl
  exact ⟨⟨t, ht, hcompleted, hvalue ▸ BitVec.toNat_add .., hregs, hparts⟩,
    ⟨u, hu, hcompleted', hvalue' ▸ add_sextImm14_toNat .., hregs', hparts'⟩⟩

/-! ## Every command completes or faults (46_control.md R281, 60_exceptions.md R310, R311) -/

/-- A meaning gives a next state, in which it completed with the engine as it was, or exactly one fault was taken. -/
def CompletesOrFaults (s : State) (r : Result) : Prop :=
  ∃ t, r = .next t ∧ (Completed s t ∨ ∃ c info, Raised c info s t)

theorem Completed.completesOrFaults {s t : State} (h : Completed s t) : CompletesOrFaults s (.next t) :=
  ⟨t, rfl, .inl h⟩

theorem Raised.completesOrFaults {c : Cause} {info : Word} {s t : State} (h : Raised c info s t) :
    CompletesOrFaults s (.next t) := ⟨t, rfl, .inr ⟨c, info, h⟩⟩

theorem raise_completesOrFaults (s : State) (c : Cause) (info : Word) : CompletesOrFaults s (.next (s.raise c info)) :=
  (raisedClean_raise s c info).1.completesOrFaults

/-- A fault is taken whatever its command left in the units: CP, CMDCNT, the registers and the host's side stand. -/
theorem raised_raise {s t : State} (c : Cause) (info : Word) (cp : t.cp = s.cp := by simp)
    (cmdcnt : t.cmdcnt = s.cmdcnt := by simp) (regs : t.regs = s.regs := by simp)
    (host : SameHostSide s t := by simp [SameHostSide]) : Raised c info s (t.raise c info) :=
  ⟨rfl, cp, rfl, rfl, cp, cmdcnt, reg_congr regs, host⟩

theorem completed_storeOrScramble (s : State) (clash : Bool) (a : Nat) (bs : List Byte) :
    Completed s (s.storeOrScramble clash a bs).complete := by
  cases clash <;> exact completed_complete

section
variable {s : State} {body : Result}

/-! ### Checks -/

theorem withRanges_completesOrFaults (rs : List (Word × Nat)) (h : CompletesOrFaults s body) :
    CompletesOrFaults s (s.withRanges rs body) := by
  rcases withRanges_cases s rs body with ⟨a, -, e⟩ | ⟨-, e⟩ <;> rw [e]
  · exact raise_completesOrFaults s _ _
  · exact h

theorem withTable_completesOrFaults (t : TableIx) (h : CompletesOrFaults s body) :
    CompletesOrFaults s (s.withTable t body) := by
  unfold State.withTable
  split
  · exact h
  · exact raise_completesOrFaults s _ _

theorem withTreeValid_completesOrFaults (h : CompletesOrFaults s body) :
    CompletesOrFaults s (s.withTreeValid body) := by
  unfold State.withTreeValid
  split
  · exact h
  · exact raise_completesOrFaults s _ _

theorem withPlane_completesOrFaults (h : CompletesOrFaults s body) : CompletesOrFaults s (s.withPlane body) := by
  unfold State.withPlane
  split
  · exact raise_completesOrFaults s _ _
  · exact h

end

section
variable (s : State)

/-! ### One lemma per family of commands -/

theorem readInto_completesOrFaults (rd : RegIx) (r : Except StreamFault (Word × Nat)) :
    CompletesOrFaults s (s.readInto rd r) := by
  cases r with
  | error f => exact (raised_raiseStream s f).completesOrFaults
  | ok r => exact (completed_readInto s rd r.1 r.2).completesOrFaults

theorem rangedStore_completesOrFaults (rs : List (Word × Nat)) (clash : Bool) (a : Nat) (bs : List Byte) :
    CompletesOrFaults s (s.withRanges rs (.next (s.storeOrScramble clash a bs).complete)) :=
  withRanges_completesOrFaults rs (completed_storeOrScramble s clash a bs).completesOrFaults

theorem execBradv_completesOrFaults (ra : RegIx) : CompletesOrFaults s (execBradv ra s) := by
  unfold execBradv
  split
  · exact (raised_raiseStream s _).completesOrFaults
  · exact Completed.completesOrFaults completed_complete

theorem execBwbits_completesOrFaults (ra : RegIx) (n : Nat) : CompletesOrFaults s (execBwbits ra n s) := by
  rcases execBwbits_cases ra n s with ⟨-, e⟩ | ⟨-, e⟩ <;> rw [e]
  · exact (completed_wrAll s _).completesOrFaults
  · exact raise_completesOrFaults s _ _

/-- HENC faults or completes whatever its partial output (60_exceptions.md R310) and an overlap leave. -/
theorem execHenc_completesOrFaults (ra rb : RegIx) : CompletesOrFaults s (execHenc ra rb s) := by
  refine withRanges_completesOrFaults _ ?_
  rw [drewTree_eq s]
  generalize s.drewTree.draws = d
  split
  · exact (raised_raise _ _).completesOrFaults
  · rename_i s' e
    obtain ⟨rfl, -⟩ := wrChunksAt_eq_ok _ _ _ _ e
    generalize (s.hencChunks ra rb).flatten = bits
    split
    · exact Completed.completesOrFaults completed_complete
    · rw [drewTree_eq (s.wrAll bits)]
      refine Completed.completesOrFaults ?_
      exact completed_wrAll s bits

theorem execHdec_completesOrFaults (ra rb : RegIx) (walk : Bool) : CompletesOrFaults s (execHdec ra rb walk s) := by
  refine withRanges_completesOrFaults _ ?_
  split
  · exact (raised_raise _ _).completesOrFaults
  · exact Completed.completesOrFaults
      (completed_complete (by simp) (by simp) (by simp) (by simp [SameErr]) (by simp [SameHostSide]))

theorem execHtree_completesOrFaults : CompletesOrFaults s (execHtree s) := by
  unfold execHtree
  split
  · exact (raised_raise _ _).completesOrFaults
  · exact Completed.completesOrFaults completed_complete

theorem execMload_completesOrFaults (t : TableIx) (ra : RegIx) : CompletesOrFaults s (execMload t ra s) := by
  refine withRanges_completesOrFaults _ ?_
  split
  · exact raise_completesOrFaults s _ _
  · exact Completed.completesOrFaults completed_complete

theorem execSetq_completesOrFaults (q : StepIx) (ra : RegIx) : CompletesOrFaults s (execSetq q ra s) := by
  unfold execSetq
  split
  · exact raise_completesOrFaults s _ _
  · exact Completed.completesOrFaults completed_complete

theorem execSetdim_completesOrFaults (ra rb : RegIx) : CompletesOrFaults s (execSetdim ra rb s) := by
  unfold execSetdim
  dsimp only
  split
  · exact raise_completesOrFaults s _ _
  · exact Completed.completesOrFaults completed_complete

/-- Every command but HALT completes and leaves the engine as it was, or faults. -/
theorem exec_completesOrFaults {i : Instr} (hi : i ≠ .halt) : CompletesOrFaults s (exec i s) := by
  cases i with
  | halt => exact absurd rfl hi
  | nop | li | lih | add | addi | brpeek | brend | brpos | bwsize | msize | mqinit | quant | dequant =>
    exact Completed.completesOrFaults completed_complete
  | hlutrd => exact withTreeValid_completesOrFaults (Completed.completesOrFaults completed_complete)
  | mmap _ _ t | munmap _ _ t => exact withTable_completesOrFaults t (Completed.completesOrFaults completed_complete)
  | brinit | bwinit => exact withRanges_completesOrFaults _ (Completed.completesOrFaults completed_complete)
  | brbit rd | brbits rd => exact readInto_completesOrFaults s rd _
  | hsym rd => exact withTreeValid_completesOrFaults (readInto_completesOrFaults s rd _)
  | bradv ra => exact execBradv_completesOrFaults s ra
  | bwbits ra n => exact execBwbits_completesOrFaults s ra n
  | henc ra rb => exact execHenc_completesOrFaults s ra rb
  | hdec ra rb walk => exact execHdec_completesOrFaults s ra rb walk
  | htree => exact execHtree_completesOrFaults s
  | mload t ra => exact execMload_completesOrFaults s t ra
  | mstore t => exact withTable_completesOrFaults t (rangedStore_completesOrFaults s _ false _ _)
  | mmapv t | munmapv t => exact withTable_completesOrFaults t (rangedStore_completesOrFaults s _ _ _ _)
  | setq q ra => exact execSetq_completesOrFaults s q ra
  | quantv | dequantv => exact rangedStore_completesOrFaults s _ _ _ _
  | setdim ra rb => exact execSetdim_completesOrFaults s ra rb
  | dsamp | usamp | resid | recon => exact withPlane_completesOrFaults (rangedStore_completesOrFaults s _ _ _ _)

end

/-- Settles O8: HALT completes and ends the run; every other command completes or faults. -/
theorem everyCommandCompletesOrFaults : Obligations.EveryCommandCompletesOrFaults := by
  intro i s
  by_cases hi : i = .halt
  · subst hi
    exact ⟨_, rfl, .inl ⟨rfl, rfl, rfl, rfl, ⟨rfl, rfl, rfl⟩, ⟨rfl, rfl, rfl, rfl, rfl⟩⟩⟩
  · obtain ⟨t, ht, hcompleted | hraised⟩ := exec_completesOrFaults s hi
    · exact ⟨t, ht, .inr (.inl ⟨hi, hcompleted⟩)⟩
    · exact ⟨t, ht, .inr (.inr hraised)⟩

/-! ## Every run ends (46_control.md R289, 70_reset_and_hazards.md R355) -/

/-- What a turn of the BUSY engine gives: the engine stopped, or CP moved past a word of local memory. -/
structure StopsOrAdvances (s t : State) : Prop where
  cfg : t.cfg = s.cfg
  inputs : t.inputs = s.inputs
  engine : (t.engine = .done ∨ t.engine = .failed) ∨
    (t.engine = s.engine ∧ s.cp.toNat + 4 ≤ s.cfg.memBytes ∧ t.cp = s.cp + 4#32)

theorem Raised.stopsOrAdvances {c : Cause} {info : Word} {s t : State} (h : Raised c info s t) :
    StopsOrAdvances s t := by
  obtain ⟨-, -, -, hengine, -, -, -, hcfg, -, -, -, hinputs⟩ := h
  exact ⟨hcfg, hinputs, .inl (.inr hengine)⟩

theorem exec_stopsOrAdvances (i : Instr) {s : State} (hm : s.cp.toNat + 4 ≤ s.cfg.memBytes) :
    ∃ t, exec i s = .next t ∧ StopsOrAdvances s t := by
  obtain ⟨t, ht, ⟨-, -, -, hengine, -, hcfg, -, -, -, hinputs⟩ | ⟨-, hcompleted⟩ | ⟨c, info, hraised⟩⟩ :=
    everyCommandCompletesOrFaults i s
  · exact ⟨t, ht, hcfg, hinputs, .inl (.inl hengine)⟩
  · obtain ⟨hcp, -, hengine, -, hcfg, -, -, -, hinputs⟩ := hcompleted
    exact ⟨t, ht, hcfg, hinputs, .inr ⟨hengine, hm, hcp⟩⟩
  · exact ⟨t, ht, hraised.stopsOrAdvances⟩

/-- The engine advances only past a word that was fetched, so one that lies in local memory (46_control.md R280). -/
theorem fetchAndExec_stopsOrAdvances (s : State) : ∃ t, s.fetchAndExec = .next t ∧ StopsOrAdvances s t := by
  have hraise (c : Cause) (info : Word) := (raisedClean_raise s c info).1.stopsOrAdvances
  rcases fetch_cases s with ⟨-, hf⟩ | ⟨hm, ⟨i, -, hf⟩ | ⟨e, -, hf⟩⟩ <;> rw [State.fetchAndExec, hf]
  · exact ⟨_, rfl, hraise _ _⟩
  · exact exec_stopsOrAdvances i hm
  · exact ⟨_, rfl, hraise _ _⟩

/-- The run looks at no field that a draw changes. -/
theorem StopsOrAdvances.congr {s v t u : State} (h : StopsOrAdvances v t) (hv : SameHostSide s v)
    (hengine : v.engine = s.engine) (hcp : v.cp = s.cp) (hu : SameControl t u) : StopsOrAdvances s u := by
  obtain ⟨hcfg, -, -, -, hinputs⟩ := hv
  obtain ⟨ucfg, uengine, -, ucp, -, -, -, -, -, -, -, uinputs⟩ := hu
  refine ⟨by rw [ucfg, h.cfg, hcfg], by rw [uinputs, h.inputs, hinputs], ?_⟩
  rw [uengine, ucp, ← hengine, ← hcp, ← hcfg]
  exact h.engine

/-- Where something is loose, the turn is a variant's, and what is drawn afterwards does not stop or move the engine
(assumption log 12). -/
theorem runNext_stopsOrAdvances (s : State) : ∃ t, s.runNext = .next t ∧ StopsOrAdvances s t := by
  by_cases hl : s.loose = []
  · rw [runNext_of_nothing s hl]
    exact fetchAndExec_stopsOrAdvances s
  · obtain ⟨v, vs, hvs, hrun⟩ := runNext_of_loose s hl
    obtain ⟨hhost, -, hengine, hcp, -⟩ := variant_variesLoose (v := v) hl (by simp [hvs])
    obtain ⟨t, ht, hstops⟩ := fetchAndExec_stopsOrAdvances v
    obtain ⟨hcfg, hinputs, hmoved⟩ := hstops.congr hhost hengine hcp (drawn_control t (t.looseAgainst vs) t.draws)
    exact ⟨_, hrun t ht, hcfg, hinputs, hmoved⟩

theorem step_stopsOrAdvances {s : State} (hi : s.inputs = []) (hb : s.engine = .busy) :
    ∃ t, step s = .next t ∧ StopsOrAdvances s t := by
  rw [step_of_noInputs hi, engineTurn_of_busy hb]
  exact runNext_stopsOrAdvances s

/-- With at most `n` words of local memory from CP on, the engine stops within `n` commands and one fetch. -/
theorem run_ends (n : Nat) : ∀ s : State, s.cfg.Valid → s.inputs = [] → s.engine = .busy →
    s.cfg.memBytes < s.cp.toNat + 4 * (n + 1) →
    ∃ k t, k ≤ n + 1 ∧ Host.Core.run Sys2Proof.core k s = .next t ∧ (t.engine = .done ∨ t.engine = .failed) := by
  induction n with
  | zero =>
    intro s _ hi hb hwords
    obtain ⟨t, ht, -, -, hstopped | ⟨-, hm, -⟩⟩ := step_stopsOrAdvances hi hb
    · exact ⟨1, t, le_rfl, by simp [Host.Core.run, core, ht], hstopped⟩
    · omega
  | succ n ih =>
    intro s hvalid hi hb hwords
    obtain ⟨t, ht, hcfg, hinputs, hstopped | ⟨hengine, hm, hcp⟩⟩ := step_stopsOrAdvances hi hb
    · exact ⟨1, t, by omega, by simp [Host.Core.run, core, ht], hstopped⟩
    · have hcp_toNat : t.cp.toNat = s.cp.toNat + 4 := by
        have := hvalid.2.1
        rw [hcp, BitVec.toNat_add_of_lt (by simp; omega)]
        rfl
      obtain ⟨k, u, hk, hrun, hstopped⟩ := ih t (hcfg ▸ hvalid) (hinputs.trans hi) (hengine.trans hb)
        (by rw [hcfg]; omega)
      exact ⟨k + 1, u, by omega, by simpa [Host.Core.run, core, ht] using hrun, hstopped⟩

/-- Settles O56: each command takes one of the (MEM_BYTES - CP) / 4 words left, and a fetch past them faults. -/
theorem everyRunEnds : Obligations.EveryRunEnds := fun s hvalid hi hb =>
  run_ends ((s.cfg.memBytes - s.cp.toNat) / 4) s hvalid hi hb (by omega)

end Sys2Proof.Machine

/-! Faults (60_exceptions.md): the stopped states (R334), what taking a fault writes (R300), and what a fault of the
Huffman commands may leave changed (R310). -/

namespace Sys2Proof.Machine

/-- Settles O7: with no turn listed the step is the engine's, and a stopped engine's turn keeps the state. -/
theorem stoppedEngineKeepsItsState : Obligations.StoppedEngineKeepsItsState := by
  intro s hi hstopped
  rcases engineTurn_cases s with ⟨-, e⟩ | ⟨hbusy, -⟩
  · rw [step_of_noInputs hi, e]
  · exact absurd hbusy hstopped

/-- Settles O9: each word is evaluated, and taking a fault is `State.raise`. -/
theorem faultEntryAndCodes : Obligations.FaultEntryAndCodes := ⟨by decide, raisedClean_raise⟩

/-! ## Which fault was taken -/

/-- The CODE in ERR numbers the faults from 1 on (60_exceptions.md R300), so ERR tells which fault was taken. -/
theorem Cause.errWord_injective : Function.Injective Cause.errWord :=
  Function.LeftInverse.injective (g := fun w => Cause.ofNat (w.toNat % 256 - 1)) fun c => by cases c <;> rfl

section
variable {c : Cause} {info : Word} {s t u : State}

/-- A command that completed moved CP, which a fault leaves (60_exceptions.md R310). -/
theorem Completed.not_raised (h : Completed s t) : ¬ Raised c info s t := by
  rintro ⟨-, -, -, -, hcp, -⟩
  have hmoved : s.cp + 4#32 = s.cp := h.1.symm.trans hcp
  simp at hmoved

/-- The fault seen in a state is the one that was last taken there. -/
theorem Raised.eq_of_raise {c' : Cause} {info' : Word} (h : Raised c info s (u.raise c' info')) :
    c' = c ∧ info' = info := by
  obtain ⟨herr, -, hinfo, -⟩ := h
  exact ⟨Cause.errWord_injective herr, hinfo⟩

/-- A fault writes no register, so a command's frame holds without them. -/
theorem Raised.sameBut {changed : List Part} (h : Raised c info s t) (hparts : SameBut (.regs :: changed) s t) :
    SameBut changed s t := by
  obtain ⟨-, -, -, -, -, -, hregs, -⟩ := h
  intro p hp
  by_cases hpr : p = .regs
  · subst hpr
    exact hregs
  · exact hparts p (by simp [hpr, hp])

end

theorem SameBytesOutside.mono {a n b m : Nat} {s t : State} (h : SameBytesOutside a n s t) (hlow : b ≤ a)
    (hhigh : a + n ≤ b + m) : SameBytesOutside b m s t := fun x hx => h x (by omega)

/-! ## The data faults of a stream (60_exceptions.md R300, R310) -/

/-- The data faults that a tree or block read can meet, each with its info and the position it is raised at. -/
inductive DataFault (s : State) : StreamFault → Prop
  | truncated (pos : Nat) : DataFault s (truncatedAt pos)
  | corruptTree (pos : Nat) : DataFault s (corruptTreeAt pos)
  | corruptSymbol (info : Word) (pos : Nat) : DataFault s ⟨.corruptSymbol, info, pos⟩
  | corruptRun (info : Word) (pos : Nat) : DataFault s ⟨.corruptRun, info, pos⟩
  /-- The info is the number of bits left over. -/
  | corruptTrailing (pos : Nat) (hp : pos ≤ s.windowBits) :
      DataFault s ⟨.corruptTrailing, BitVec.ofNat 32 (s.windowBits - pos), pos⟩

section
variable {s : State} {f : StreamFault} {pos : Nat}

theorem rdBit_error (h : s.rdBit pos = .error f) : DataFault s f := by
  rcases rdBit_cases s pos with ⟨-, e⟩ | ⟨-, e⟩ <;> rw [e] at h <;> cases h
  exact .truncated pos

theorem rdBits_error {n : Nat} (h : s.rdBits n pos = .error f) : DataFault s f := by
  rcases rdBits_cases s n pos with ⟨-, e⟩ | ⟨-, e⟩ <;> rw [e] at h <;> cases h
  exact .truncated pos

theorem advance_error {n : Nat} (h : s.advance n pos = .error f) : DataFault s f := by
  rcases advance_cases s n pos with ⟨-, e⟩ | ⟨-, e⟩ <;> rw [e] at h <;> cases h
  exact .truncated pos

theorem readExtra_error {sym : Nat} (h : s.readExtra sym pos = .error f) : DataFault s f := by
  unfold State.readExtra at h
  split at h
  · exact rdBits_error h
  · cases h

theorem prependBytes_error {bs : List Byte} {r : Except StreamFault (List Byte × Nat)}
    (h : prependBytes bs r = .error f) : r = .error f := by
  cases r <;> cases h
  rfl

end

theorem readNode_error (s : State) {f : StreamFault} (fuel : Nat) : ∀ (depth code : Nat) (b : TreeBuild),
    s.readNode fuel depth code b = .error f → DataFault s f := by
  induction fuel with
  | zero =>
    intro _ _ b h
    cases h
    exact .corruptTree b.pos
  | succ fuel ih =>
    intro depth code b h
    unfold State.readNode at h
    split at h
    · dsimp only at h
      split at h
      · cases h; exact rdBit_error ‹_›
      · split at h <;> cases h
        exact rdBits_error ‹_›
      · split at h
        · cases h; exact ih _ _ _ ‹_›
        · split at h <;> cases h
          exact ih _ _ _ ‹_›
    · cases h; exact .corruptTree b.pos

theorem readTree_error {s : State} {f : StreamFault} (h : s.readTree = .error f) : DataFault s f := by
  unfold State.readTree at h
  split at h <;> cases h
  exact readNode_error s _ _ _ _ ‹_›

theorem walk_error (s : State) (node : Vector TreeNode 521) {f : StreamFault} (fuel : Nat) : ∀ (n : NodeIx) (pos : Nat),
    s.walk node fuel n pos = .error f → DataFault s f := by
  induction fuel with
  | zero =>
    intro n pos h
    unfold State.walk at h
    split at h <;> cases h
    exact .truncated pos
  | succ fuel ih =>
    intro n pos h
    unfold State.walk at h
    split at h
    · cases h
    · split at h
      · cases h; exact rdBit_error ‹_›
      · exact ih _ _ h

theorem decodeSym_error {s : State} {node : Vector TreeNode 521} {lut : Vector LutEntry 256} {walk : Bool} {pos : Nat}
    {f : StreamFault} (h : s.decodeSym node lut walk pos = .error f) : DataFault s f := by
  unfold State.decodeSym at h
  split at h
  · exact walk_error s node _ _ _ h
  · split at h
    · split at h <;> cases h
      exact advance_error ‹_›
    · split at h
      · cases h; exact advance_error ‹_›
      · exact walk_error s node _ _ _ h

theorem decodeLoop_error (s : State) (node : Vector TreeNode 521) (lut : Vector LutEntry 256) (walk : Bool)
    {f : StreamFault} (fuel : Nat) : ∀ room pos : Nat,
      s.decodeLoop node lut walk fuel room pos = .error f → DataFault s f := by
  induction fuel with
  | zero => intro _ _ h; cases h
  | succ fuel ih =>
    intro room pos h
    unfold State.decodeLoop at h
    split at h
    · cases h
    · split at h
      · cases h; exact decodeSym_error ‹_›
      · split at h
        · exact ih _ _ (prependBytes_error h)
        · split at h
          · split at h
            · cases h; exact readExtra_error ‹_›
            · dsimp only at h
              split at h
              · cases h; exact .corruptRun _ _
              · exact ih _ _ (prependBytes_error h)
          · cases h; exact .corruptSymbol _ _

theorem decodeBlock_error {s : State} {walk : Bool} {m : Nat} {f : StreamFault}
    (h : s.decodeBlock walk m = .error f) : DataFault s f := by
  unfold State.decodeBlock at h
  split at h
  · cases h; exact readTree_error ‹_›
  · split at h
    · cases h; exact decodeLoop_error s _ _ _ _ _ _ ‹_›
    · split at h
      · cases h
      · rename_i hend
        cases h
        refine .corruptTrailing _ ?_
        simp only [State.atEnd, decide_eq_true_eq] at hend
        omega

/-! ## Taking a data fault -/

/-- A data fault was taken, with the window as it was and BC_POS where the fault was raised (60_exceptions.md R310). -/
structure TookDataFault (c : Cause) (info : Word) (s t : State) : Prop where
  fault : ∃ pos, DataFault s ⟨c, info, pos⟩ ∧ t.bcPos = BitVec.ofNat 32 pos
  bcBase : t.bcBase = s.bcBase
  bcLen : t.bcLen = s.bcLen

/-- Where BC_POS stands after a fault, by its info (60_exceptions.md R300). -/
def PositionTold (c : Cause) (info : Word) (s t : State) : Prop :=
  ((c = .truncated ∨ c = .corruptTree) → t.bcPos = info) ∧ (c = .corruptTrailing → t.bcPos = 8#32 * s.bcLen - info)

/-- The window's end less the bits left over. -/
theorem ofNat_eq_windowEnd_sub (s : State) {pos : Nat} (hp : pos ≤ s.windowBits) :
    BitVec.ofNat 32 pos = 8#32 * s.bcLen - BitVec.ofNat 32 (s.windowBits - pos) := by
  have hend : 8#32 * s.bcLen = BitVec.ofNat 32 pos + BitVec.ofNat 32 (s.windowBits - pos) := by
    rw [BitVec.ofNat_add_ofNat, Nat.add_sub_cancel' hp, State.windowBits, BitVec.ofNat_mul, BitVec.ofNat_toNat,
      BitVec.setWidth_eq]
  rw [hend, BitVec.add_sub_cancel]

section
variable {c : Cause} {info : Word} {s t u : State}

theorem TookDataFault.positionTold (h : TookDataFault c info s t) : PositionTold c info s t := by
  obtain ⟨⟨pos, hfault, hpos⟩, -, -⟩ := h
  unfold PositionTold
  rw [hpos]
  cases hfault with
  | truncated | corruptTree => exact ⟨fun _ => rfl, nofun⟩
  | corruptSymbol | corruptRun => exact ⟨nofun, nofun⟩
  | corruptTrailing _ hp => exact ⟨nofun, fun _ => ofNat_eq_windowEnd_sub s hp⟩

theorem TookDataFault.cause_ne_memRange (h : TookDataFault c info s t) : c ≠ .memRange := by
  obtain ⟨⟨pos, hfault, -⟩, -, -⟩ := h
  cases hfault <;> nofun

theorem Raised.tookDataFault {f : StreamFault} (hr : Raised c info s (u.raiseStream f)) (hf : DataFault s f)
    (hbase : u.bcBase = s.bcBase := by simp) (hlen : u.bcLen = s.bcLen := by simp) :
    TookDataFault c info s (u.raiseStream f) := by
  obtain ⟨rfl, rfl⟩ := hr.eq_of_raise
  exact ⟨⟨f.pos, hf, rfl⟩, hbase, hlen⟩

/-! ## The faults of HTREE, HSYM and HDEC (42_huffman.md R175 to R177) -/

theorem readByte_raiseStream (s : State) (f : StreamFault) (x : Nat) :
    (s.raiseStream f).readByte x = s.readByte x := rfl

theorem readByte_scrambleTree (s : State) (x : Nat) : s.scrambleTree.readByte x = s.readByte x :=
  readByte_congr (scrambleTree_mem s) (scrambleTree_memEpoch s) x

theorem htree_fault (hr : Raised c info s t) (h : exec .htree s = .next t) :
    TookDataFault c info s t ∧ t.treeValid = false := by
  change execHtree s = _ at h
  unfold execHtree at h
  split at h <;> cases h
  · exact ⟨hr.tookDataFault (readTree_error ‹_›), scrambleTree_treeValid s⟩
  · exact absurd hr (Completed.not_raised completed_complete)

/-- HSYM without a tree changes nothing; with one, its symbol met a data fault. -/
theorem hsym_fault {rd : RegIx} {walk : Bool} (hr : Raised c info s t) (h : exec (.hsym rd walk) s = .next t) :
    (c = .noTree ∧ t = s.raise .noTree info) ∨ TookDataFault c info s t := by
  change execHsym rd walk s = _ at h
  cases hv : s.treeValid with
  | false =>
    rw [execHsym, withTreeValid_of_absent s _ hv] at h
    cases h
    obtain ⟨rfl, rfl⟩ := hr.eq_of_raise
    exact .inl ⟨rfl, rfl⟩
  | true =>
    cases hsym : s.decodeSym s.node s.lut walk s.bcPos.toNat with
    | error f =>
      rw [execHsym_of_error hv rd walk hsym] at h
      cases h
      exact .inr (hr.tookDataFault (decodeSym_error hsym))
    | ok r =>
      rw [execHsym_of_ok hv rd walk hsym] at h
      cases h
      exact absurd hr (completed_readInto s rd _ _).not_raised

/-- HDEC with its destination out of memory changes nothing; else its block met a data fault. -/
theorem hdec_fault {ra rb : RegIx} {walk : Bool} (hr : Raised c info s t) (h : exec (.hdec ra rb walk) s = .next t) :
    (c = .memRange ∧ SameBut [] s t) ∨
      (TookDataFault c info s t ∧ t.treeValid = false ∧ SameBytesOutside (s.regNat ra) (s.regNat rb) s t) := by
  change execHdec ra rb walk s = _ at h
  unfold execHdec at h
  rcases withRanges_cases s [(s.reg ra, s.regNat rb)] _ with ⟨a, -, e⟩ | ⟨-, e⟩ <;> rw [e] at h
  · cases h
    exact .inl ⟨hr.eq_of_raise.1.symm, sameBut_control s _⟩
  · split at h <;> cases h
    · refine .inr ⟨hr.tookDataFault (decodeBlock_error ‹_›), ?_, fun x hx => ?_⟩
      · exact scrambleTree_treeValid (s.scramble (s.regNat ra) (s.regNat rb))
      · rw [readByte_raiseStream, readByte_scrambleTree, readByte_scramble_outside s _ _ x hx]
    · exact absurd hr (Completed.not_raised
        (completed_complete (by simp) (by simp) (by simp) (by simp [SameErr]) (by simp [SameHostSide])))

end

/-! ## HENC (42_huffman.md R171) -/

/-- The free BW_POS after a fault of HENC is not moved back (60_exceptions.md R310). -/
theorem le_scrambleBwPos_bwPos (s : State) : s.bwPos.toNat ≤ s.scrambleBwPos.bwPos.toNat := by
  have e : s.scrambleBwPos.bwPos.toNat = (s.bwPos.toNat +
      Config.freeCount s.draws % (min s.regionBits 4294967295 - s.bwPos.toNat + 1)) % 2 ^ 32 := BitVec.toNat_ofNat ..
  have hlt := Nat.mod_lt (Config.freeCount s.draws) (show 0 < min s.regionBits 4294967295 - s.bwPos.toNat + 1 by omega)
  rw [e, Nat.mod_eq_of_lt (by omega)]
  exact Nat.le_add_right ..

/-- What HENC leaves of the writer and of memory when its output does not fit (60_exceptions.md R310). -/
structure LeftPartialOutput (ra rb : RegIx) (s t : State) : Prop where
  bwBase : t.bwBase = s.bwBase
  bwCap : t.bwCap = s.bwCap
  bwPos : s.bwPos.toNat ≤ s.regionBits → s.bwPos.toNat ≤ t.bwPos.toNat ∧ t.bwPos.toNat ≤ s.regionBits
  bytes : SameBytesOutside (s.hencRange (s.hencClash ra rb)).1 (s.hencRange (s.hencClash ra rb)).2 s t

/-- HENC with its source out of memory changes nothing; else it is its output that does not fit. -/
theorem henc_fault {ra rb : RegIx} {c : Cause} {info : Word} {s t : State} (hr : Raised c info s t)
    (h : exec (.henc ra rb) s = .next t) :
    (c = .memRange ∧ SameBut [] s t) ∨ (c = .writeOverflow ∧ LeftPartialOutput ra rb s t) := by
  change execHenc ra rb s = _ at h
  unfold execHenc at h
  rcases withRanges_cases s [(s.reg ra, s.regNat rb)] _ with ⟨a, -, e⟩ | ⟨-, e⟩ <;> rw [e] at h
  · cases h
    exact .inl ⟨hr.eq_of_raise.1.symm, sameBut_control s _⟩
  · rw [drewTree_eq s] at h
    generalize s.drewTree.draws = d at h
    split at h
    · cases h
      refine .inr ⟨hr.eq_of_raise.1.symm, rfl, rfl, fun hp => ⟨?_, ?_⟩, fun x hx => ?_⟩
      · exact le_scrambleBwPos_bwPos ({ s with draws := d }.scramble _ _)
      · exact scrambleBwPos_bwPos_le (s := { s with draws := d }.scramble _ _) hp
      · exact readByte_scramble_outside { s with draws := d } _ _ x hx
    · rename_i s' e
      obtain ⟨rfl, -⟩ := wrChunksAt_eq_ok _ _ _ _ e
      generalize (s.hencChunks ra rb).flatten = bits at h
      refine absurd hr (Completed.not_raised ?_)
      split at h <;> cases h
      · exact completed_complete
      · rw [drewTree_eq (s.wrAll bits)]
        exact completed_wrAll s bits

/-- The bytes HENC may leave with any value lie in its region (60_exceptions.md R310). -/
theorem LeftPartialOutput.region {ra rb : RegIx} {s t : State} (h : LeftPartialOutput ra rb s t)
    (hp : s.bwPos.toNat ≤ s.regionBits) : SameBytesOutside s.bwBase.toNat s.bwCap.toNat s t := by
  have hbytes := h.bytes
  unfold State.regionBits at hp
  cases hclash : s.hencClash ra rb <;> rw [hclash] at hbytes
  · exact hbytes.mono (by simp [State.hencRange]) (by simp [State.hencRange]; omega)
  · exact hbytes

/-- Clear of the source, they lie from the byte BW_POS stood in on (60_exceptions.md R310). -/
theorem LeftPartialOutput.tail {ra rb : RegIx} {s t : State} (h : LeftPartialOutput ra rb s t)
    (hd : DisjointRanges (s.regNat ra) (s.regNat rb) s.bwBase.toNat s.bwCap.toNat) :
    SameBytesOutside (s.bwBase.toNat + s.bwPos.toNat / 8) (s.bwCap.toNat - s.bwPos.toNat / 8) s t := by
  have hclear : s.hencClash ra rb = false := (overlaps_eq_false_iff ..).mpr hd
  have hbytes := h.bytes
  rw [hclear] at hbytes
  exact hbytes

/-- Settles O30: the fault of each command, and the command's frame, in which a fault leaves out the registers. -/
theorem dataFaultsStayInBounds : Obligations.DataFaultsStayInBounds := by
  intro ra rb rd walk s t c info hr
  have hframe (i : Instr) (h : exec i s = .next t) := (exec_framed s i t h).parts
  refine ⟨?_, fun h => ?_, fun h => ?_, fun h hc => ?_, fun h hc => ?_, fun h hc => ?_, fun h hc hp => ?_⟩
  · rintro (h | h | h)
    · exact (htree_fault hr h).1.positionTold
    · rcases hsym_fault hr h with ⟨rfl, -⟩ | hdata
      · exact ⟨nofun, nofun⟩
      · exact hdata.positionTold
    · rcases hdec_fault hr h with ⟨rfl, -⟩ | ⟨hdata, -⟩
      · exact ⟨nofun, nofun⟩
      · exact hdata.positionTold
  · obtain ⟨hdata, hvalid⟩ := htree_fault hr h
    exact ⟨hvalid, hdata.bcBase, hdata.bcLen, (hframe _ h).mono (by simp [changedParts])⟩
  · have hparts := hr.sameBut (hframe _ h)
    rcases hsym_fault hr h with ⟨-, rfl⟩ | hdata
    · exact ⟨rfl, rfl, hparts⟩
    · exact ⟨hdata.bcBase, hdata.bcLen, hparts⟩
  · rcases hdec_fault hr h with ⟨-, hclean⟩ | ⟨hdata, -⟩
    · exact hclean
    · exact absurd hc hdata.cause_ne_memRange
  · rcases hdec_fault hr h with ⟨hrange, -⟩ | ⟨hdata, hvalid, hbytes⟩
    · exact absurd hrange hc
    · exact ⟨hvalid, hdata.bcBase, hdata.bcLen, hbytes, (hframe _ h).mono (by simp [changedParts])⟩
  · rcases henc_fault hr h with ⟨-, hclean⟩ | ⟨rfl, -⟩
    · exact hclean
    · cases hc
  · rcases henc_fault hr h with ⟨hrange, -⟩ | ⟨-, hout⟩
    · exact absurd hrange hc
    · obtain ⟨hlow, hhigh⟩ := hout.bwPos hp
      exact ⟨hout.bwBase, hout.bwCap, hlow, hhigh, hout.region hp, hout.tail, hframe _ h⟩

end Sys2Proof.Machine

/-! The two resets: what each gives every element (70_reset_and_hazards.md R340, R341), and the invariants right after
reset. -/

namespace Sys2Proof.Machine

/-! ## Right after reset (70_reset_and_hazards.md R340) -/

/-- No table is valid. -/
theorem tvalid_none (k : TableIx) : (Vector.replicate 2 false)[k] = false := Vector.getElem_replicate k.isLt

/-- Every step is the identity. -/
theorem qstep_one (q : StepIx) : (Vector.replicate 4 1#16)[q] = 1#16 := Vector.getElem_replicate q.isLt

section
variable (cfg : Params) (regs : Vector Word 8) (mt : Vector (Vector Half 128) 2) (node : Vector TreeNode 521)
  (lut : Vector LutEntry 256) (memEpoch draws : Nat) (hostData : Word) (inputs : List Turn)

/-- Both windows are empty and no byte is written, whatever the elements without a stated value hold. -/
theorem memoryAndWindowsInv_afterReset :
    MemoryAndWindowsInv cfg (State.afterReset cfg regs mt node lut memEpoch draws hostData inputs) :=
  ⟨rfl, rfl, ⟨Nat.zero_le _, nofun⟩, ⟨Nat.zero_le _, nofun⟩, List.Pairwise.nil, nofun⟩

/-- No error is recorded, no table is present and no plane is set, whatever the elements without a stated value hold. -/
theorem tablesStepsPlaneInv_afterReset :
    TablesStepsPlaneInv (State.afterReset cfg regs mt node lut memEpoch draws hostData inputs) :=
  ⟨errInv_of_clear nofun ⟨rfl, rfl, rfl⟩, tablesInv_of_none rfl, stepsInv_of_reset rfl, .inl ⟨rfl, rfl⟩⟩

/-- There is no tree, whatever the elements without a stated value hold. -/
theorem treeInv_afterReset : TreeInv (State.afterReset cfg regs mt node lut memEpoch draws hostData inputs) :=
  treeInv_of_invalid rfl (Nat.zero_le _)

end

/-- Settles O57: the state after reset is one of those after any reset, with the default parameters. -/
theorem resetMeetsTheInvariants : Obligations.ResetMeetsTheInvariants := by
  have hvalid : Params.default.Valid := by decide
  obtain ⟨-, hcp, hreader, hwriter, hmemory⟩ : MemoryAndWindowsInv Params.default State.reset :=
    memoryAndWindowsInv_afterReset ..
  obtain ⟨herr, htables, hsteps, hplane⟩ : TablesStepsPlaneInv State.reset := tablesStepsPlaneInv_afterReset ..
  exact ⟨hvalid, hcp, herr, hreader, hwriter, hmemory, htables, hsteps, hplane, treeInv_afterReset ..⟩

/-! ## The reset input (70_reset_and_hazards.md R340) -/

theorem step_of_resetInput {s : State} {rest : List Turn} (h : s.inputs = .host .resetInput :: rest) :
    step s = .next { s with inputs := rest }.hardReset := by
  simp only [step, h, hostTurn]

/-- Settles O50: the reset input builds its state anew, so each element is read off that state. -/
theorem resetInputSetsEveryStatedValue : Obligations.ResetInputSetsEveryStatedValue := by
  intro s rest hin
  exact ⟨_, step_of_resetInput hin, rfl, rfl, rfl, rfl, rfl, rfl, rfl, rfl, rfl, rfl, rfl, rfl, rfl, rfl, tvalid_none,
    qstep_one, rfl, rfl, rfl, rfl, rfl, rfl, rfl, rfl, rfl⟩

/-! ## The command that a soft reset abandons (assumption log 11) -/

/-- Where nothing is loose, the state itself is the only one a command is run from. -/
theorem variants_of_nothing {s : State} (h : s.loose = []) : s.variants = [s] := by
  rw [State.variants, h]

theorem variant_engine {s v : State} (hv : v ∈ s.variants) : v.engine = s.engine := by
  by_cases hl : s.loose = []
  · rw [variants_of_nothing hl] at hv
    rw [List.mem_singleton.mp hv]
  · obtain ⟨-, -, heng, -⟩ := variant_variesLoose hl hv
    exact heng

theorem destAtCp_of_not_busy {s : State} (h : s.engine ≠ .busy) : s.destAtCp = (0, 0) := by
  unfold State.destAtCp
  split
  · exact absurd ‹_› h
  all_goals rfl

theorem destAtCp_of_no_command {s : State} (h : ∀ i, s.fetch ≠ .command i) : s.destAtCp = (0, 0) := by
  unfold State.destAtCp
  split
  · split
    · exact absurd ‹_› (h _)
    all_goals rfl
  all_goals rfl

/-- A destination that leaves memory is not written at all (20_memory.md R75). -/
theorem destAtCp_of_command {s : State} {i : Instr} (hb : s.engine = .busy) (hf : s.fetch = .command i) :
    s.destAtCp = s.destRange i ∨ s.destAtCp = (0, 0) := by
  simp only [State.destAtCp, hb, hf]
  exact ite_eq_or_eq ..

/-- A BWBITS that does not fit its region stores nothing (41_bitstream.md R136). -/
theorem destRange_bwbits_of_overflow {s : State} {ra : RegIx} {n : Nat} (h : 8 * s.bwCap.toNat < s.bwPos.toNat + n) :
    s.destRange (.bwbits ra n) = (0, 0) := if_pos h

/-- Destinations left with any bytes change the memory and the count of draws alone. -/
theorem scrambles_eq (vs : List State) : ∀ s : State, ∃ (mem : Memory) (draws : Nat),
    vs.foldl (fun t v => t.scramble v.destAtCp.1 v.destAtCp.2) s = { s with mem := mem, draws := draws } := by
  induction vs with
  | nil => exact fun s => ⟨s.mem, s.draws, rfl⟩
  | cons v vs ih =>
    intro s
    obtain ⟨mem, draws, e⟩ := ih (s.scramble v.destAtCp.1 v.destAtCp.2)
    exact ⟨mem, draws, e⟩

/-- A byte in none of the destinations keeps its value. -/
theorem readByte_scrambles_outside (vs : List State) (x : Nat) : ∀ s : State,
    (∀ v ∈ vs, x < v.destAtCp.1 ∨ v.destAtCp.1 + v.destAtCp.2 ≤ x) →
    (vs.foldl (fun t v => t.scramble v.destAtCp.1 v.destAtCp.2) s).readByte x = s.readByte x := by
  induction vs with
  | nil => exact fun _ _ => rfl
  | cons v vs ih =>
    intro s h
    calc _ = (s.scramble v.destAtCp.1 v.destAtCp.2).readByte x := ih _ fun w hw => h w (List.mem_cons_of_mem v hw)
      _ = s.readByte x := readByte_scramble_outside s _ _ x (h v List.mem_cons_self)

theorem abandonCommand_eq (s : State) : ∃ (mem : Memory) (draws : Nat),
    s.abandonCommand = { s with mem := mem, draws := draws } := scrambles_eq s.variants s

/-- Where no command is in progress, no byte changes. -/
theorem readByte_abandonCommand_of_not_busy {s : State} (h : s.engine ≠ .busy) (x : Nat) :
    s.abandonCommand.readByte x = s.readByte x := by
  refine readByte_scrambles_outside s.variants x s fun v hv => .inr ?_
  rw [destAtCp_of_not_busy (variant_engine hv ▸ h)]
  exact Nat.zero_le x

/-- Where nothing is loose, the bytes that change lie in the destination of the command at CP. -/
theorem abandonCommand_sameBytesOutside {s : State} (h : s.loose = []) :
    SameBytesOutside s.destAtCp.1 s.destAtCp.2 s s.abandonCommand := by
  intro x hx
  refine readByte_scrambles_outside s.variants x s fun v hv => ?_
  rw [variants_of_nothing h] at hv
  rwa [List.mem_singleton.mp hv]

theorem sameBytesOutside_empty {s t : State} (h : SameBytesOutside 0 0 s t) (x : Nat) : t.readByte x = s.readByte x :=
  h x (.inr (Nat.zero_le x))

/-! ## The soft reset (70_reset_and_hazards.md R341) -/

/-- What a soft reset keeps that is not in memory: the elements without a stated value and the host's side. -/
theorem softReset_keeps (s : State) :
    s.softReset.cfg = s.cfg ∧ s.softReset.inputs = s.inputs ∧ s.softReset.regs = s.regs ∧ s.softReset.mt = s.mt ∧
      s.softReset.node = s.node ∧ s.softReset.lut = s.lut := by
  obtain ⟨mem, draws, e⟩ := abandonCommand_eq s
  rw [State.softReset, e]
  exact ⟨rfl, rfl, rfl, rfl, rfl, rfl⟩

/-- In memory a soft reset does what abandoning the command does. -/
theorem readByte_softReset (s : State) (x : Nat) : s.softReset.readByte x = s.abandonCommand.readByte x := rfl

/-- Where the engine is in no command, a soft reset keeps every byte. -/
theorem readByte_softReset_of_no_command {s : State}
    (h : s.engine ≠ .busy ∨ (s.loose = [] ∧ ∀ i, s.fetch ≠ .command i)) (x : Nat) :
    s.softReset.readByte x = s.readByte x := by
  rw [readByte_softReset]
  rcases h with hb | ⟨hl, hf⟩
  · exact readByte_abandonCommand_of_not_busy hb x
  · have hbytes := abandonCommand_sameBytesOutside hl
    rw [destAtCp_of_no_command hf] at hbytes
    exact sameBytesOutside_empty hbytes x

/-- Of a command in progress, a soft reset changes bytes of its destination range alone. -/
theorem softReset_sameBytesOutside {s : State} {i : Instr} (hb : s.engine = .busy) (hl : s.loose = [])
    (hf : s.fetch = .command i) : SameBytesOutside (s.destRange i).1 (s.destRange i).2 s s.softReset := by
  have hbytes := abandonCommand_sameBytesOutside hl
  intro x hx
  rw [readByte_softReset]
  rcases destAtCp_of_command hb hf with e | e <;> rw [e] at hbytes
  · exact hbytes x hx
  · exact sameBytesOutside_empty hbytes x

theorem readByte_softReset_of_bwbits_overflow {s : State} {ra : RegIx} {n : Nat} (hb : s.engine = .busy)
    (hl : s.loose = []) (hf : s.fetch = .command (.bwbits ra n)) (h : 8 * s.bwCap.toNat < s.bwPos.toNat + n) (x : Nat) :
    s.softReset.readByte x = s.readByte x := by
  have hbytes := softReset_sameBytesOutside hb hl hf
  rw [destRange_bwbits_of_overflow h] at hbytes
  exact sameBytesOutside_empty hbytes x

/-- A CTRL write with SRST is the soft reset, whatever its other bits (10_state.md R34). -/
theorem step_of_srst {s : State} {v : Word} {rest : List Turn} (h : s.inputs = .host (.regWrite 1 v) :: rest)
    (hv : v.getLsbD 2 = true) : step s = .next { s with inputs := rest }.softReset :=
  (step_of_regWrite h).trans (congrArg _ (if_pos hv))

/-- Settles O49: the stated values by the definition of the soft reset, what it keeps by `softReset_keeps`, and the
bytes by the destination of the command it abandons. -/
theorem softResetKeepsRegistersAndMemory : Obligations.SoftResetKeepsRegistersAndMemory := by
  intro s v rest hin hv
  obtain ⟨hcfg, hinputs, hregs, hmt, hnode, hlut⟩ := softReset_keeps { s with inputs := rest }
  refine ⟨_, step_of_srst hin hv, rfl, rfl, rfl, rfl, rfl, rfl, rfl, rfl, rfl, rfl, rfl, rfl, rfl, tvalid_none, qstep_one,
    rfl, rfl, rfl, rfl, hcfg, hinputs, reg_congr hregs, hmt, hnode, hlut, rfl, ?_, fun hb hl i hf => ⟨?_, ?_⟩⟩
  · exact readByte_softReset_of_no_command (s := { s with inputs := rest })
  · exact softReset_sameBytesOutside (s := { s with inputs := rest }) hb hl hf
  · rintro ra n rfl hover
    exact readByte_softReset_of_bwbits_overflow (s := { s with inputs := rest }) hb hl hf hover

end Sys2Proof.Machine
